-- ==== Sys2Proof/Word.lean ====
section
/-! DEFINITION. The word types of the WJ3620 (00_scope.md 3.6): bytes of the message link and 16-bit
words of the flash bus.  Everything the manual counts, compares or adds in ordinary arithmetic
(coordinates, counts, temperatures, balances) is a `Nat`, an `Int` or a `Fin`, not a bit vector. -/

namespace Sys2Proof

/-- A byte of a link frame (R163: bits travel most significant first, a byte is eight of them). -/
abbrev Byte := BitVec 8

/-- A flash word (R148: the bus reads one 16-bit word per access). -/
abbrev Word := BitVec 16

/-- A grey level, 0 (black) to 15 (white) (R2, R6). -/
abbrev Level := Fin 16

/-- The number of an update lane, 0 to 15 (R67). -/
abbrev LaneId := Fin 16

/-- A temperature band, 0 to 7 (R19, R114). -/
abbrev Band := Fin 8

end Sys2Proof
end

