-- ==== Sys2Proof/Config.lean ====
section
/-! DEFINITION. The fixed quantities of the WJ3620 that the rules name, and the free values of the
model: two orders of work inside one event, and one clock of a flash access, that the manual leaves open. -/

namespace Sys2Proof
namespace Config

/-- Entries the write buffer holds at most (R7). -/
def writeEntries : Nat := 4
/-- Entries the urgent FIFO holds at most (R50). -/
def urgentDepth : Nat := 8
/-- Entries the normal FIFO holds at most (R50). -/
def normalDepth : Nat := 24
/-- Passes that arm at one frame boundary at most (R56). -/
def armsPerBoundary : Nat := 4
/-- Passes an update runs at most (R82). -/
def passes : Nat := 4
/-- UPDATE_END notices the queue holds at most (R174, R175). -/
def updateEndRoom : Nat := 31
/-- The ceiling of a folded count (R177). -/
def foldedMax : Nat := 255
/-- Pixels of a full segment (R1). -/
def segment : Nat := 256
/-- Columns of the widest panel (R1): the stride of the model's pixel numbers. -/
def stride : Nat := 2048
/-- Words of the flash image header (R153). -/
def headerWords : Nat := 256
/-- The last word address of the flash (R148). -/
def lastFlashWord : Nat := 8388607
/-- Words of the longest sequence table, 240 steps of 32 words (R19): the stride of a slot's tables. -/
def tableStride : Nat := 7680
/-- Samples the thermal history keeps (R120). -/
def sampleDepth : Nat := 8
/-- Measurements a stage's rise-time history keeps (R136). -/
def riseDepth : Nat := 8
/-- Reference clocks in one 10 µs unit of the stage timer (R134). -/
def clocksPerUnit : Nat := 240
/-- Payload bytes of the longest frame (R164). -/
def payloadMax : Nat := 272
/-- The start byte of every frame (R164). -/
def startByte : Byte := 0xC3

/-- FREE VALUE (log entry 1).  R33 and R124: in one event the cache may take its reload's target choice
before the admission unit's grants or after them; the manual gives the outcome of either order and
fixes none.  `cacheActsFirst n` says which order the `n`-th such meeting takes. -/
opaque cacheActsFirst : Nat → Bool

/-- FREE VALUE (log entry 2).  R13 and R15: a requester asks for its next access when the previous one
has completed, and the memory becomes free at that same completion; whether the new request is already
waiting when the arbiter grants is open (R15, R111 and section 10.7.2 show both).
`nextAskInTime n` says whether it is, at the `n`-th such meeting. -/
opaque nextAskInTime : Nat → Bool

/-- FREE VALUE (log entry 11).  R150: an access whose FWAIT is at its inactive level for the first time at
extension clock (n + 1) × 16 itself captures its word by the rule's sentences on sampling, but is longer
than the longest access that completes with data.  `capturesAtLimit` says whether it captures. -/
opaque capturesAtLimit : Bool

end Config
end Sys2Proof
end

