-- ==== Sys2Proof/Syntax.lean ====
section
/-! DEFINITION. The commands of the WJ3620: one constructor of `Instr` for each row of
spec/opcode_table.json, in the table's order, with the operands through which the outside world enters
the part (a request's bytes, a pin's level, a captured flash word). -/

namespace Sys2Proof

/-- One step of the part: a request completed on the link, or an event at a pin, a timer or a memory
or flash access.  A request row carries the tag, the payload bytes and the check bytes of its frame
(R164), so that the link's own tests (R166) are part of the command; the frame's length field is the
length of the payload. -/
inductive Instr where
  /-- RESET (R152): RESET_N is asserted, or power comes on. -/
  | reset
  /-- RESET_RELEASE (R153, R162, R129): RESET_N is released with SS_N low or not, and with the raw
  levels of RAIL_GOOD[3:0] (bit i: line i high). -/
  | resetRelease (ssLow : Bool) (railGood : BitVec 4)
  /-- SELECT (R162): SS_N goes low. -/
  | select
  /-- DESELECT (R171, R172): SS_N goes high. -/
  | deselect
  /-- MALFORMED_REQUEST (R164, R166): the bytes of a transaction whose request completes at a missing
  start byte, at a length above 272, with a check mismatch or with an undefined kind. -/
  | malformedRequest (frame : List Byte)
  /-- DRAW (R8). -/
  | draw (tag : Byte) (payload : List Byte) (check : Word)
  /-- FILL (R9). -/
  | fill (tag : Byte) (payload : List Byte) (check : Word)
  /-- UPDATE (R51). -/
  | update (tag : Byte) (payload : List Byte) (check : Word)
  /-- CANCEL (R60, R84). -/
  | cancel (tag : Byte) (payload : List Byte) (check : Word)
  /-- PROBE (R16). -/
  | probe (tag : Byte) (payload : List Byte) (check : Word)
  /-- TEMP (R125). -/
  | temp (tag : Byte) (payload : List Byte) (check : Word)
  /-- SET-LIMITS (R37). -/
  | setLimits (tag : Byte) (payload : List Byte) (check : Word)
  /-- SET-THERMAL (R126). -/
  | setThermal (tag : Byte) (payload : List Byte) (check : Word)
  /-- SET-POWER (R146). -/
  | setPower (tag : Byte) (payload : List Byte) (check : Word)
  /-- SHUTDOWN (R62). -/
  | shutdown (tag : Byte) (payload : List Byte) (check : Word)
  /-- HALT (R143). -/
  | halt (tag : Byte) (payload : List Byte) (check : Word)
  /-- CLEAR-FAULT (R145). -/
  | clearFault (tag : Byte) (payload : List Byte) (check : Word)
  /-- FETCH (R178). -/
  | fetch (tag : Byte) (payload : List Byte) (check : Word)
  /-- STATUS (R180). -/
  | status (tag : Byte) (payload : List Byte) (check : Word)
  /-- DRAIN_ACCESS_COMPLETE (R10): the write-buffer drain's access completes. -/
  | drainAccessComplete
  /-- PROBE_ACCESS_COMPLETE (R16): the PROBE access completes. -/
  | probeAccessComplete
  /-- INIT_WRITE_COMPLETE (R5): a start-up initialisation write completes. -/
  | initWriteComplete
  /-- FLASH_WAIT_TIMEOUT (R150): FWAIT is still active at extension clock (n + 1) × 16. -/
  | flashWaitTimeout
  /-- FLASH_ACCESS_COMPLETE (R149): the HOLD phase ends. -/
  | flashAccessComplete
  /-- LINE_PERIOD_EXPIRY (R100): the line period runs out. -/
  | linePeriodExpiry
  /-- SCAN_READ_COMPLETE (R101): a line's cell or draft read completes. -/
  | scanReadComplete
  /-- OUTPUT_WINDOW_END (R96): the output window's W reference clocks are over. -/
  | outputWindowEnd
  /-- COMMIT_WRITE_COMPLETE (R104): a commit write-back completes. -/
  | commitWriteComplete
  /-- FRAME_BOUNDARY (R107): the last blank line ends. -/
  | frameBoundary
  /-- SWEEP_ACCESS_COMPLETE (R111): a read or write of the sweep completes. -/
  | sweepAccessComplete
  /-- SAMPLE_TIMER_EXPIRY (R115). -/
  | sampleTimerExpiry
  /-- CONVERSION_COMPLETE (R116, R117): the conversion's six comparisons are made; `thm` holds, for
  each comparison in turn, the voltage on THM at its moment as floor(64 × THM / THREF). -/
  | conversionComplete (thm : Vector Nat 6)
  /-- RAIL_GOOD_CHANGE (R132): the raw level of a good line becomes `high`; `elapsed` is the stage
  timer's count then, in reference clocks (used only while a stage is running). -/
  | railGoodChange (line : Fin 4) (high : Bool) (elapsed : Nat)
  /-- GLITCH_FILTER_EXPIRY (R132): the filter time of a good line's change is over; `elapsed` as in
  RAIL_GOOD_CHANGE. -/
  | glitchFilterExpiry (line : Fin 4) (elapsed : Nat)
  /-- BLANK_INTERVAL_END (R136). -/
  | blankIntervalEnd
  /-- STAGE_DELAY_EXPIRY (R134). -/
  | stageDelayExpiry
  /-- STAGE_TIMEOUT (R137). -/
  | stageTimeout
  /-- FALL_DELAY_EXPIRY (R142). -/
  | fallDelayExpiry
  /-- IDLE_HOLD_EXPIRY (R140). -/
  | idleHoldExpiry
  /-- BYTE_BOUNDARY (R163, R168): the eighth rising SCK edge of a byte; `sdi` is the byte sampled on
  SDI, which the part reads while it receives a request and ignores afterwards. -/
  | byteBoundary (sdi : Byte)
  /-- FLASH_SETUP_END (R149): the setup count has run out. -/
  | flashSetupEnd
  /-- FLASH_STROBE_END (R149): the last flash clock of the strobe, with the level of FWAIT (high or
  not) and the word on FD[15:0]. -/
  | flashStrobeEnd (fwait : Bool) (fd : Word)
  /-- FWAIT_INACTIVE (R150): the first extension clock (counted from 1) at which FWAIT is inactive,
  with the word on FD[15:0]. -/
  | fwaitInactive (clock : Nat) (fd : Word)
  /-- SHIFT_END (R105): the shift of the line's drive values over SD[7:0] is complete. -/
  | shiftEnd
deriving DecidableEq, Repr

end Sys2Proof
end

