-- ==== Sys2Proof/Machine/State.lean ====
section
/-! DEFINITION. The state of the WJ3620 as plain data, block by block as 00_scope.md 1.2 names them, its
value at reset, and the reasons a step can stop.  INVENTORY.md lists every field with its rule. -/

namespace Sys2Proof.Machine

/-! ### Why a step can stop -/

/-- Faults.  The manual describes no event that stops the part: every request has a reply, and every
other event has its effect or, where its timer, access or state is absent, does not occur. -/
inductive Fault where
  /-- Raised by no meaning of this model (log entry 19); kept so that the type has a name for a stop the manual
  might yet be found to give.  Safe: a step that never faults claims nothing from it. -/
  | undefinedByManual
deriving DecidableEq, Repr

/-- Refusals. -/
inductive Refusal where
  /-- Raised only by `exec`'s own arms, for a command whose meaning is not written; no arm does so
  now.  Safe: a refused command has no next state of which anything could be proved. -/
  | notModelled (mnemonic : String)
deriving DecidableEq, Repr

/-! ### Values shared by several blocks -/

/-- A rectangle with both corners included (00_scope.md 3.4). -/
structure Rect where
  x0 : Nat
  y0 : Nat
  x1 : Nat
  y1 : Nat
deriving DecidableEq, Repr

/-- The sequence family an UPDATE asks for (R50). -/
inductive Mode where
  | swift | tone | clean
deriving DecidableEq, Repr

/-- The class of an update (R50). -/
inductive UpdateClass where
  | normal | urgent
deriving DecidableEq, Repr

/-- The four kinds of sequence table, in the order of R26. -/
inductive SeqKind where
  | swift | tone | cleanUp | cleanDown
deriving DecidableEq, Repr

/-- A drive code as a value (R18). -/
inductive Drive where
  | none | positive | negative
deriving DecidableEq, Repr

/-- The two slots of the waveform cache (R22). -/
inductive SlotId where
  | a | b
deriving DecidableEq, Repr

/-! ### Pixel memory (chapter 1) -/

/-- A cell record (R2): its `residue` lies in 0 to 63 and its `balance` in −511 to +511 (R49). -/
structure Cell where
  level : Level
  goal : Level
  owner : Option LaneId
  kind : SeqKind
  residue : Nat
  balance : Int
deriving DecidableEq, Repr

/-- The cell start-up initialisation writes (R5): what an unlisted pixel reads as. -/
def Cell.initial : Cell :=
  { level := 15, goal := 0, owner := none, kind := .swift, residue := 63, balance := 0 }

/-- The pixel memory (R1): the cell plane and the draft plane, each a list of (pixel number, value)
pairs whose pixel numbers strictly rise and whose values differ from the one an unlisted pixel reads
as (`Cell.initial`, level 15).  Pixel (x, y) has number y × 2048 + x. -/
structure PixelMem where
  cells : List (Nat × Cell)
  drafts : List (Nat × Level)
deriving DecidableEq, Repr

/-- A write-buffer entry (R7). -/
inductive WriteEntry where
  | draw (y x : Nat) (levels : List Level)
  | fill (area : Rect) (level : Level)
deriving DecidableEq, Repr

/-- The write buffer (R7): the entries, oldest first, and the number of accesses of the oldest entry
that have completed (R10). -/
structure WriteBuffer where
  entries : List WriteEntry
  done : Nat
deriving DecidableEq, Repr

/-- A memory access that has been asked for or granted (R1, R13, R14). -/
inductive Access where
  /-- a start-up initialisation write (R5) -/
  | init
  /-- a read of the line being prepared (R101); `stale` once a cut has discarded it (R109) -/
  | scanRead (stale : Bool)
  /-- a write-back of the line's commit (R104) -/
  | commit
  /-- a read or write of the sweep (R111) -/
  | sweep
  /-- a write of the drain (R10) -/
  | drain
  /-- the PROBE access to pixel (x, y) (R16); `live` until its transaction ends (R172) -/
  | probe (x y : Nat) (live : Bool)
deriving DecidableEq, Repr

/-- The memory arbiter (R13): the access that has the memory, and the one access each requester may
hold waiting. -/
structure Arbiter where
  running : Option Access
  scan : Option Access
  drain : Bool
  probe : Option (Nat × Nat)
deriving DecidableEq, Repr

/-! ### Waveform cache (chapter 2) -/

/-- The state of a cache slot (R22). -/
inductive SlotState where
  | empty | loading | ready
deriving DecidableEq, Repr

/-- A cache slot (R22).  `words` lists the stored table words that are not 0, by 7680 × kind + word of
the table, in strictly rising order; `frames` holds the four frame counts stored when the slot became
READY (R21, R28), in the order of `SeqKind`. -/
structure Slot where
  state : SlotState
  band : Option Band
  refs : Nat
  words : List (Nat × Word)
  frames : List Nat
deriving DecidableEq, Repr

/-- A slot as reset leaves it (R22). -/
def Slot.empty : Slot := { state := .empty, band := none, refs := 0, words := [], frames := [] }

/-- The reload in progress (R26, R29): its slot, its retry count, and the table and word being read. -/
structure Reload where
  slot : SlotId
  retry : Nat
  kind : SeqKind
  word : Nat
deriving DecidableEq, Repr

/-- The waveform cache (R22): the two slots, the reload in progress if any, and the failed set as a
list of bands in rising order without repeats (R30). -/
structure Cache where
  a : Slot
  b : Slot
  reload : Option Reload
  failed : List Band
deriving DecidableEq, Repr

/-! ### Limits (chapter 3), admission (chapter 4) and lanes (chapter 5) -/

/-- A pair of escalation limits (R36). -/
structure Limits where
  residue : Nat
  balance : Nat
deriving DecidableEq, Repr

/-- The two copies of the escalation limits (R36); reset discards both. -/
structure LimitCopies where
  taken : Option Limits
  inForce : Option Limits
deriving DecidableEq, Repr

/-- The admission mode (R50). -/
inductive AdmissionMode where
  | normal | draining
deriving DecidableEq, Repr

/-- A pending entry (R50). -/
structure Pending where
  id : Nat
  order : BitVec 32
  area : Rect
  mode : Mode
  cls : UpdateClass
  noEscalate : Bool
  fence : Nat
  marked : Bool
deriving DecidableEq, Repr

/-- The admission unit (R50). -/
structure Admission where
  urgent : List Pending
  normal : List Pending
  nextId : Nat
  nextOrder : BitVec 32
  mode : AdmissionMode
deriving DecidableEq, Repr

/-- The state of a lane (R68). -/
inductive LaneState where
  | free | arming | driving | waiting | abandoning | reporting
deriving DecidableEq, Repr

/-- How an update ends (R67). -/
inductive UpdateOutcome where
  | complete | partially | cancelled | abandoned
deriving DecidableEq, Repr

/-- A lane record (R67).  A field the rule calls absent is `none`; `blockers` is in rising order
without repeats. -/
structure Lane where
  state : LaneState
  id : Option Nat
  order : Option (BitVec 32)
  mode : Option Mode
  cls : Option UpdateClass
  noEscalate : Bool
  pass : Option Nat
  region : Option Rect
  slot : Option SlotId
  band : Option Band
  substituted : Bool
  step : Nat
  span : Nat
  live : Nat
  armed : Nat
  escalated : Nat
  leftovers : Nat
  box : Option Rect
  blockers : List LaneId
  cancel : Bool
  outcome : Option UpdateOutcome
deriving DecidableEq, Repr

/-- The lane record after reset (R67), and of a lane that has become FREE (R91). -/
def Lane.free : Lane :=
  { state := .free, id := none, order := none, mode := none, cls := none, noEscalate := false,
    pass := none, region := none, slot := none, band := none, substituted := false, step := 0,
    span := 0, live := 0, armed := 0, escalated := 0, leftovers := 0, box := none, blockers := [],
    cancel := false, outcome := none }

/-! ### Scan engine (chapter 6) -/

/-- The phase of a displayed line's work (R100): its reads, the shift of its drive values, its output
window, its commit, and the wait for its period's end once the commit is complete. -/
inductive LinePhase where
  | reading | shifting | window | commit | committed
deriving DecidableEq, Repr

/-- The state and position of the scan engine (R97): STOPPED; SCANNING at a displayed line or at a
blank line (counted from 0); SWEEPING at a line. -/
inductive ScanPos where
  | stopped
  | line (y : Nat) (phase : LinePhase)
  | blank (k : Nat)
  | sweep (y : Nat)
deriving DecidableEq, Repr

/-- A lane of the frame's lane set in ARMING (R99). -/
structure ArmingView where
  lane : LaneId
  order : BitVec 32
  region : Rect
  mode : Mode
  noEscalate : Bool
  slot : SlotId
deriving DecidableEq, Repr

/-- A lane of the frame's lane set in DRIVING (R99). -/
structure DrivingView where
  lane : LaneId
  step : Nat
  slot : SlotId
deriving DecidableEq, Repr

/-- One access of a line's work (R101, R104, R111), by segment number. -/
inductive LineAccess where
  | readCells (seg : Nat)
  | readDrafts (seg : Nat)
  | write (seg : Nat)
deriving DecidableEq, Repr

/-- A per-cell outcome reported to the lane controller (R104): armed, with the frame count of the kind
and whether the cell escalated; leftover at (x, y) with its owner; completion. -/
inductive Report where
  | armed (lane : LaneId) (frames : Nat) (escalated : Bool)
  | leftover (lane : LaneId) (x y : Nat) (owner : LaneId)
  | completed (lane : LaneId)
deriving DecidableEq, Repr

/-- What the preparation of a line holds for one cell (R102): the computed record, the drive value and
the outcomes to report. -/
structure CellWork where
  cell : Cell
  drive : Drive
  reports : List Report
deriving DecidableEq, Repr

/-- The scan engine (R97, R99, R102): its position; the frame's lane set and limits; the accesses of
the current line still to complete; the cells and draft segments read; the computed cells; the line
period and output window timers with the reference clocks they were started with (R95, R96); and
whether a cut waits for the current line's commit (R109). -/
structure Scan where
  pos : ScanPos
  arming : List ArmingView
  driving : List DrivingView
  limits : Option Limits
  todo : List LineAccess
  cells : List Cell
  drafts : List (Nat × List Level)
  work : List CellWork
  lineTimer : Option Nat
  windowTimer : Option Nat
  cut : Bool
deriving DecidableEq, Repr

/-- The scan engine after reset (R97). -/
def Scan.stopped : Scan :=
  { pos := .stopped, arming := [], driving := [], limits := none, todo := [], cells := [],
    drafts := [], work := [], lineTimer := none, windowTimer := none, cut := false }

/-- Where the gate drivers' selection stands (R106): no line, a displayed line, beyond the last. -/
inductive GateSel where
  | none | line (y : Nat) | beyond
deriving DecidableEq, Repr

/-- The panel outputs (R105, R106): GSTART, SOE and GOE, the gate selection the GCLK pulses have made,
and the drive values the last SLATCH pulse transferred. -/
structure Panel where
  gstart : Bool
  soe : Bool
  goe : Bool
  gate : GateSel
  latched : List Drive
deriving DecidableEq, Repr

/-! ### Thermal unit (chapter 7) -/

/-- The sensor state (R114). -/
inductive SensorState where
  | warming | good | faulty
deriving DecidableEq, Repr

/-- The thermal unit (R114): temperatures are quarter degrees; `depth`, `period` and the timer's period
are `none` where the rule says none or idle; the timer holds the period it was started with, in
units of 100 ms. -/
structure Thermal where
  sensor : SensorState
  history : List Int
  misses : Nat
  depth : Option Nat
  period : Option Nat
  override : Option Int
  band : Band
  converting : Bool
  timer : Option Nat
deriving DecidableEq, Repr

/-! ### Power sequencer (chapter 8) -/

/-- The condition of a stage (R130). -/
inductive StageCondition where
  | delay | good | goodOrTimeout
deriving DecidableEq, Repr

/-- A stage descriptor (R130): `t` and `fall` in units of 0.1 ms. -/
structure Stage where
  enable : Nat
  condition : StageCondition
  goodLine : Nat
  activeHigh : Bool
  t : Nat
  blank : Nat
  fall : Nat
deriving DecidableEq, Repr

/-- The power state, with the stage index where it is present (R129). -/
inductive PowerState where
  | off
  | rising (k : Nat)
  | on
  | falling (k : Nat)
  | fault
deriving DecidableEq, Repr

/-- The cause of a fault (R129). -/
inductive FaultCause where
  | timeout | lost
deriving DecidableEq, Repr

/-- One of RAIL_GOOD[3:0] (R132): its raw and filtered levels (true: high) and, while the filter times
a change, the filter time in µs that the change was started with. -/
structure GoodLine where
  raw : Bool
  filtered : Bool
  timing : Option Nat
deriving DecidableEq, Repr

/-- The power sequencer (R129): `stageTimer` holds the expiry in 10 µs units of the running delay,
timeout or fall delay; `blankTimer` the blank interval still running, in the same units; `history`
the rise times of stages 1 to 5; `monitored` the stage numbers in rising order; `idleHold` and
`idleTimer` are in ms, `filter` in µs. -/
structure Power where
  state : PowerState
  stageTimer : Option Nat
  blankTimer : Option Nat
  history : Vector (List Nat) 5
  monitored : List Nat
  idleHold : Nat
  idleTimer : Option Nat
  filter : Nat
  lines : Vector GoodLine 4
  lastFault : Option (Nat × FaultCause)
deriving DecidableEq, Repr

/-! ### Flash interface and image loader (chapter 9) -/

/-- The access state of the flash interface (R148). -/
inductive FlashState where
  | idle | setup | strobe | extend | hold
deriving DecidableEq, Repr

/-- A flash timing set (R148), in flash clocks. -/
structure FlashTiming where
  setup : Nat
  strobe : Nat
  hold : Nat
  waitLimit : Nat
  waitActiveHigh : Bool
deriving DecidableEq, Repr

/-- The start-up timing set (R151). -/
def FlashTiming.startUp : FlashTiming :=
  { setup := 16, strobe := 64, hold := 16, waitLimit := 255, waitActiveHigh := true }

/-- What an access will deliver (R149, R150). -/
inductive FlashResult where
  | word (w : Word)
  | timeout
deriving DecidableEq, Repr

/-- The flash interface (R148): `clocks` is the length in flash clocks of the phase that runs (0 in
IDLE and EXTEND), `ext` the extension count, `result` what HOLD holds for delivery. -/
structure Flash where
  state : FlashState
  addr : Nat
  timing : FlashTiming
  clocks : Nat
  ext : Nat
  result : Option FlashResult
deriving DecidableEq, Repr

/-- Where a band's table of one kind lies, and its frame count (R19, R187). -/
structure TableLoc where
  offset : Nat
  frames : Nat
deriving DecidableEq, Repr

/-- The header's contents (R154), kept from publication until reset.  `stages` holds the descriptors of
stages 1 to S, and `spareStages` those above S, unchecked and unpublished, as the four words each was read
as; `tables` entry 4 × band + kind; `magic`, `version` and `checksum` are the identity and check words. -/
structure Header where
  magic : Word
  version : Word
  columns : Nat
  lines : Nat
  prescale : Nat
  divider : Nat
  lineCount : Nat
  blankLines : Nat
  window : Nat
  riseDepth : Nat
  stages : List Stage
  spareStages : List (List Word)
  thermistor : List Int
  bounds : List Int
  hysteresis : Int
  fallback : Band
  period : Nat
  depth : Nat
  swiftInc : List Nat
  toneInc : List Nat
  limits : Limits
  timing : FlashTiming
  tables : List TableLoc
  checksum : Word
deriving DecidableEq, Repr

/-- Why an image is INVALID (R152). -/
inductive InvalidReason where
  | timeout | magic | version | checksum | range | placement
deriving DecidableEq, Repr

/-- The image state with its phase or reason (R152). -/
inductive ImageState where
  | header
  | initialising
  | valid
  | invalid (r : InvalidReason)
deriving DecidableEq, Repr

/-- The image loader (R152): the image state, the header words read so far, the published header, and
the number of initialisation writes completed (R5). -/
structure Loader where
  image : ImageState
  words : List Word
  header : Option Header
  initDone : Nat
deriving DecidableEq, Repr

/-! ### Message link (chapter 10) and notices (chapter 11) -/

/-- The fourteen request kinds (R182). -/
inductive RequestKind where
  | draw | fill | update | cancel | probe | temp | setLimits | setThermal | setPower
  | shutdown | halt | clearFault | fetch | status
deriving DecidableEq, Repr

/-- The state of the link interface (R162). -/
inductive LinkState where
  | ignoring | deselected | receiving | answering | replying | finished
deriving DecidableEq, Repr

/-- The link interface (R162): the request bytes received so far; the reply frame once it is ready;
the number of reply bytes sent; and the tag of a PROBE whose access has not completed (R168). -/
structure Link where
  state : LinkState
  received : List Byte
  reply : Option (List Byte)
  sent : Nat
  probeTag : Option Byte
deriving DecidableEq, Repr

/-- A link with no transaction in progress. -/
def Link.atRest : Link :=
  { state := .deselected, received := [], reply := none, sent := 0, probeTag := none }

/-- The basis of a band change (R124). -/
inductive BandBasis where
  | sensor | override | fallback
deriving DecidableEq, Repr

/-- A notice (R174); every kind but UPDATE_END carries its folded count first (R177). -/
inductive Notice where
  | updateEnd (id : Nat) (outcome : UpdateOutcome) (passes armed escalated leftovers : Nat)
      (substituted : Bool)
  | band (folded : Nat) (band : Band) (basis : BandBasis) (temp : Option Int)
  | sensor (folded : Nat) (state : SensorState) (code : Nat)
  | flash (folded : Nat) (failed : List Band)
  | powerFault (folded : Nat) (stage : Nat) (cause : FaultCause)
  | drainDone (folded : Nat)
deriving DecidableEq, Repr

/-- Who waits for room for an UPDATE_END notice (R175). -/
inductive Submitter where
  | lane (i : LaneId)
  | admission
deriving DecidableEq, Repr

/-- The notice unit (R174, R175): the queue and the waiting list, both oldest first. -/
structure Notices where
  queue : List Notice
  waiting : List Submitter
deriving DecidableEq, Repr

/-! ### The whole part -/

/-- The state of the WJ3620: its blocks; `resetHeld`, whether RESET_N is asserted (R152); `choices`, the
model's own counter of the free values it has used (log entries 1 and 2); and the commands that wait. -/
structure State where
  resetHeld : Bool
  loader : Loader
  flash : Flash
  link : Link
  mem : PixelMem
  wb : WriteBuffer
  arb : Arbiter
  scan : Scan
  panel : Panel
  adm : Admission
  lanes : Vector Lane 16
  limits : LimitCopies
  cache : Cache
  thermal : Thermal
  power : Power
  notices : Notices
  choices : Nat
  pending : List Instr
deriving DecidableEq, Repr

/-- Every block at its reset value, with RESET_N still asserted (R7, R22, R36, R50, R67, R97, R114,
R129, R148, R151, R152, R162, R174).  Log entries 3 to 5 name the values the manual does not give. -/
def State.reset : State :=
  { resetHeld := true
    loader := { image := .header, words := [], header := none, initDone := 0 }
    flash := { state := .idle, addr := 0, timing := .startUp, clocks := 0, ext := 0, result := none }
    link := .atRest
    mem := { cells := [], drafts := [] }
    wb := { entries := [], done := 0 }
    arb := { running := none, scan := none, drain := false, probe := none }
    scan := .stopped
    panel := { gstart := false, soe := false, goe := false, gate := .none, latched := [] }
    adm := { urgent := [], normal := [], nextId := 1, nextOrder := 0, mode := .normal }
    lanes := Vector.replicate 16 Lane.free
    limits := { taken := none, inForce := none }
    cache := { a := .empty, b := .empty, reload := none, failed := [] }
    thermal := { sensor := .warming, history := [], misses := 0, depth := none, period := none,
                 override := none, band := 0, converting := false, timer := none }
    power := { state := .off, stageTimer := none, blankTimer := none,
               history := Vector.replicate 5 [], monitored := [], idleHold := 5000,
               idleTimer := none, filter := 40,
               lines := Vector.replicate 4 { raw := false, filtered := false, timing := none },
               lastFault := none }
    notices := { queue := [], waiting := [] }
    choices := 0
    pending := [] }

/-! ### One update per block -/

def State.setLoader (s : State) (v : Loader) : State := { s with loader := v }
def State.setFlash (s : State) (v : Flash) : State := { s with flash := v }
def State.setLink (s : State) (v : Link) : State := { s with link := v }
def State.setMem (s : State) (v : PixelMem) : State := { s with mem := v }
def State.setWb (s : State) (v : WriteBuffer) : State := { s with wb := v }
def State.setArb (s : State) (v : Arbiter) : State := { s with arb := v }
def State.setScan (s : State) (v : Scan) : State := { s with scan := v }
def State.setPanel (s : State) (v : Panel) : State := { s with panel := v }
def State.setAdm (s : State) (v : Admission) : State := { s with adm := v }
def State.setLanes (s : State) (v : Vector Lane 16) : State := { s with lanes := v }
def State.setLimits (s : State) (v : LimitCopies) : State := { s with limits := v }
def State.setCache (s : State) (v : Cache) : State := { s with cache := v }
def State.setThermal (s : State) (v : Thermal) : State := { s with thermal := v }
def State.setPower (s : State) (v : Power) : State := { s with power := v }
def State.setNotices (s : State) (v : Notices) : State := { s with notices := v }
def State.setChoices (s : State) (v : Nat) : State := { s with choices := v }
def State.setPending (s : State) (v : List Instr) : State := { s with pending := v }

/-- What a command answers. -/
abbrev Result := Host.Outcome State Fault Refusal

/-- The record of lane `i`. -/
def State.lane (s : State) (i : LaneId) : Lane := s.lanes.get i

/-- Replace the record of lane `i`. -/
def State.setLane (s : State) (i : LaneId) (l : Lane) : State :=
  s.setLanes (s.lanes.set i.val l i.isLt)

end Sys2Proof.Machine
end

