-- ==== Sys2Proof/Machine/Operands.lean ====
section
/-! DEFINITION. The forms in which values reach and leave the part: bytes and 16-bit fields, the check
of a frame (R165), frames (R164), request payloads (R183) and their tests (R166, R181), reply payloads
(R184), clamps and clips, the thermistor ladder (R116) and stored drive codes (R18, R187). -/

namespace Sys2Proof.Machine

/-! ### Bytes and fields (chapter 12: least significant byte first) -/

/-- Byte `i` of a payload. -/
def byteAt (p : List Byte) (i : Nat) : Nat := (p.getD i 0).toNat

/-- The 2-byte field at byte `i`. -/
def u16At (p : List Byte) (i : Nat) : Nat := byteAt p i + 256 * byteAt p (i + 1)

/-- A 16-bit value read in two's complement. -/
def signed16 (n : Nat) : Int := (BitVec.ofNat 16 n).toInt

/-- A value as one byte. -/
def byte (n : Nat) : Byte := BitVec.ofNat 8 n

/-- A value as a 2-byte field. -/
def le16 (n : Nat) : List Byte := [byte n, byte (n / 256)]

/-- A value as a 4-byte field. -/
def le32 (n : Nat) : List Byte := le16 n ++ le16 (n / 65536)

/-- A signed value as a 2-byte field. -/
def leInt16 (v : Int) : List Byte := le16 (BitVec.ofInt 16 v).toNat

/-! ### Arithmetic of 00_scope.md 3.3 -/

/-- Clamp (00_scope.md 2.1): the nearest value inside `lo` to `hi`. -/
def clampNat (lo hi v : Nat) : Nat := max lo (min hi v)

/-- Clamp, for signed values. -/
def clampInt (lo hi v : Int) : Int := max lo (min hi v)

/-- ceil(a / b) for b above 0. -/
def ceilDiv (a b : Nat) : Nat := (a + b - 1) / b

/-- The magnitude of the difference of two numbers. -/
def distance (a b : Nat) : Nat := (a - b) + (b - a)

/-- A clamped averaging depth (R126): 0 becomes 1, any other the largest of 1, 2, 4, 8 not above it. -/
def clampDepth (n : Nat) : Nat := if n < 2 then 1 else if n < 4 then 2 else if n < 8 then 4 else 8

/-- A clamped glitch filter time (R146): the largest of 0, 20, 40, 80 not above it. -/
def clampFilter (n : Nat) : Nat := if n < 20 then 0 else if n < 40 then 20 else if n < 80 then 40 else 80

/-! ### Geometry (R1, 00_scope.md 3.4) -/

/-- Whether pixel (x, y) lies in the rectangle. -/
def Rect.holds (r : Rect) (x y : Nat) : Bool := r.x0 ≤ x && x ≤ r.x1 && r.y0 ≤ y && y ≤ r.y1

/-- A rectangle clipped to a panel, or `none` when nothing of it lies there (R9, R51). -/
def clipRect (columns lines : Nat) (r : Rect) : Option Rect :=
  let c : Rect := { r with x1 := min r.x1 (columns - 1), y1 := min r.y1 (lines - 1) }
  if c.x0 > c.x1 || c.y0 > c.y1 then none else some c

/-- The box grown to hold (x, y) (R73). -/
def growBox (b : Option Rect) (x y : Nat) : Rect :=
  match b with
  | none => { x0 := x, y0 := y, x1 := x, y1 := y }
  | some r => { x0 := min r.x0 x, y0 := min r.y0 y, x1 := max r.x1 x, y1 := max r.y1 y }

/-- The number of segments of a line (R1). -/
def segments (columns : Nat) : Nat := ceilDiv columns Config.segment

/-- The pixel's number in the two planes (`PixelMem`). -/
def pixel (x y : Nat) : Nat := y * Config.stride + x

/-! ### The check and the frame (R164, R165) -/

/-- One bit of the check (R165 step 2). -/
def crcBit (r : Word) (d : Bool) : Word :=
  if r.msb != d then (r <<< 1) ^^^ 0x1021 else r <<< 1

/-- One byte of the check, most significant bit first. -/
def crcByte (r : Word) (b : Byte) : Word :=
  [7, 6, 5, 4, 3, 2, 1, 0].foldl (fun r i => crcBit r (b.getLsbD i)) r

/-- The check of a run of bytes (R165). -/
def crc16 (bs : List Byte) : Word := bs.foldl crcByte 0xFFFF

/-- The bytes a frame's check covers: kind, tag, length and payload (R165). -/
def coveredBytes (kind tag : Byte) (payload : List Byte) : List Byte :=
  kind :: tag :: (le16 payload.length ++ payload)

/-- The check of a frame as its sender computes it. -/
def frameCheck (kind tag : Byte) (payload : List Byte) : Word := crc16 (coveredBytes kind tag payload)

/-- A frame's bytes in the order sent (R164, R169). -/
def frameBytes (kind tag : Byte) (payload : List Byte) (check : Word) : List Byte :=
  Config.startByte :: (coveredBytes kind tag payload ++ le16 check.toNat)

/-- What the bytes received so far in a transaction amount to (R164). -/
inductive FrameStatus where
  /-- the request is not complete -/
  | incomplete
  /-- complete at a first byte that is not the start byte -/
  | missingStart
  /-- complete at the second length byte, the length being above 272 -/
  | tooLong (kind tag : Byte)
  /-- complete at the second check byte -/
  | whole (kind tag : Byte) (payload : List Byte) (check : Word)
  /-- bytes after the one that completed the request -/
  | beyond
deriving DecidableEq, Repr

/-- R164: at which byte the request is complete, and with what. -/
def frameStatus (bs : List Byte) : FrameStatus :=
  if bs.length = 0 then .incomplete
  else if bs.getD 0 0 ≠ Config.startByte then (if bs.length = 1 then .missingStart else .beyond)
  else if bs.length < 5 then .incomplete
  else if Config.payloadMax < u16At bs 3 then
    (if bs.length = 5 then .tooLong (bs.getD 1 0) (bs.getD 2 0) else .beyond)
  else if bs.length < 7 + u16At bs 3 then .incomplete
  else if bs.length = 7 + u16At bs 3 then
    .whole (bs.getD 1 0) (bs.getD 2 0) ((bs.drop 5).take (u16At bs 3))
      (BitVec.ofNat 16 (u16At bs (5 + u16At bs 3)))
  else .beyond

/-! ### Request kinds (R182) -/

/-- The kind code (R182). -/
def RequestKind.code : RequestKind → Byte
  | .draw => 0x01 | .fill => 0x02 | .update => 0x03 | .cancel => 0x04 | .probe => 0x05
  | .temp => 0x06 | .setLimits => 0x07 | .setThermal => 0x08 | .setPower => 0x09
  | .shutdown => 0x0A | .halt => 0x0B | .clearFault => 0x0C | .fetch => 0x0D | .status => 0x0E

/-- The fourteen kinds. -/
def RequestKind.all : List RequestKind :=
  [.draw, .fill, .update, .cancel, .probe, .temp, .setLimits, .setThermal, .setPower, .shutdown,
   .halt, .clearFault, .fetch, .status]

/-- The kind a code names, if any (R182). -/
def RequestKind.ofCode (c : Byte) : Option RequestKind := RequestKind.all.find? (fun k => k.code == c)

/-- Whether the kind allows a payload of this length (R182; for DRAW, R181). -/
def RequestKind.lengthAllowed : RequestKind → Nat → Bool
  | .draw, n => 6 ≤ n && n ≤ 262
  | .fill, n => n == 9
  | .update, n => n == 10
  | .cancel, n => n == 2
  | .probe, n => n == 4
  | .temp, n => n == 3
  | .setLimits, n => n == 4
  | .setThermal, n => n == 3
  | .setPower, n => n == 4
  | .shutdown, n | .halt, n | .clearFault, n | .fetch, n | .status, n => n == 0

/-! ### Request payloads (R183) -/

/-- The rectangle of a FILL or an UPDATE, bytes 0 to 7. -/
def payloadRect (p : List Byte) : Rect :=
  { x0 := u16At p 0, y0 := u16At p 2, x1 := u16At p 4, y1 := u16At p 6 }

/-- DRAW: the pixel count, bits 9:0 of bytes 4 and 5. -/
def drawCount (p : List Byte) : Nat := u16At p 4 % 1024

/-- The low and the high level of a level byte (R181). -/
def levelPair (b : Byte) : List Level := [Fin.ofNat 16 b.toNat, Fin.ofNat 16 (b.toNat / 16)]

/-- DRAW: its levels (R181): for an odd count the first stands in bits 15:12 of the count word. -/
def drawLevels (p : List Byte) : List Level :=
  let pairs := (p.drop 6).flatMap levelPair
  if drawCount p % 2 = 1 then Fin.ofNat 16 (u16At p 4 / 4096) :: pairs.take (drawCount p - 1)
  else pairs.take (drawCount p)

/-- A run of levels as level bytes, two per byte. -/
def packLevels : List Level → List Byte
  | a :: b :: rest => byte (a.val + 16 * b.val) :: packLevels rest
  | [a] => [byte a.val]
  | [] => []

/-- The payload a host sends for a DRAW (R181, R183); `spare` fills the bits of the count word that the
part ignores: bits 11:10, and for an even count bits 15:12. -/
def drawPayload (spare y x : Nat) (levels : List Level) : List Byte :=
  let odd := levels.length % 2 = 1
  let top := if odd then (levels.headD 0).val else spare / 4 % 16
  le16 y ++ le16 x ++ le16 (levels.length % 1024 + 1024 * (spare % 4) + 4096 * top) ++
    packLevels (if odd then levels.tail else levels)

/-- The payload a host sends for a FILL (R183). -/
def fillPayload (r : Rect) (level : Level) : List Byte :=
  le16 r.x0 ++ le16 r.y0 ++ le16 r.x1 ++ le16 r.y1 ++ [byte level.val]

/-- UPDATE: the mode its code names, if any (R183). -/
def updateMode (p : List Byte) : Option Mode :=
  match byteAt p 8 % 4 with
  | 0 => some .swift
  | 1 => some .tone
  | 2 => some .clean
  | _ => none

/-- UPDATE: its class, bit 4 of byte 8 (R183). -/
def updateClass (p : List Byte) : UpdateClass := if byteAt p 8 / 16 % 2 = 1 then .urgent else .normal

/-- UPDATE: NO_ESCALATE, bit 0 of byte 9 (R183). -/
def updateNoEscalate (p : List Byte) : Bool := byteAt p 9 % 2 = 1

/-- The code of a mode (R183). -/
def Mode.code : Mode → Nat
  | .swift => 0
  | .tone => 1
  | .clean => 2

/-- The payload a host sends for an UPDATE (R183); `spare` fills the bits of byte 8 that the part ignores:
bits 3:2 and 7:5. -/
def updatePayload (spare : Nat) (r : Rect) (m : Mode) (c : UpdateClass) (noEscalate : Bool) : List Byte :=
  le16 r.x0 ++ le16 r.y0 ++ le16 r.x1 ++ le16 r.y1 ++
    [byte (m.code + 4 * (spare % 4) + (if c = .urgent then 16 else 0) + 32 * (spare / 4 % 8)),
     byte (if noEscalate then 1 else 0)]

/-- TEMP: the temperature asked for, or `none` for auto (R183). -/
def tempValue (p : List Byte) : Option Int :=
  if byteAt p 0 = 0 then some (signed16 (u16At p 1)) else none

/-! ### The link's tests of a whole frame (R166) -/

/-- A reply class (R169). -/
inductive ReplyClass where
  | done | deferred | retry | refused
deriving DecidableEq, Repr

/-- A cause of a RETRY or REFUSED reply (R170). -/
inductive Cause where
  | badFrame | badKind | badLength | badField | noImage | region | stopping | unknownId | state
  | starting | writeFull | queueFull
deriving DecidableEq, Repr

/-- Test 4 of R166: every coded field holds a listed code and every zero bit is 0 (R181, R183). -/
def fieldsDefined (k : RequestKind) (p : List Byte) : Bool :=
  match k with
  | .draw => 1 ≤ drawCount p && drawCount p ≤ 512
  | .fill => byteAt p 8 < 16
  | .update => byteAt p 8 % 4 != 3 && byteAt p 9 / 2 == 0
  | .temp => byteAt p 0 < 2
  | _ => true

/-- Test 5 of R166: a DRAW's length is that of a DRAW of its count (R181). -/
def lengthAgrees (k : RequestKind) (p : List Byte) : Bool :=
  match k with
  | .draw => p.length == 6 + drawCount p / 2
  | _ => true

/-- The five tests of R166 in order: the kind of a frame that passes, or the cause of the first that
fails. -/
def linkTests (kind tag : Byte) (payload : List Byte) (check : Word) : Except Cause RequestKind :=
  if check ≠ frameCheck kind tag payload then .error .badFrame
  else
    match RequestKind.ofCode kind with
    | none => .error .badKind
    | some k =>
      if !k.lengthAllowed payload.length then .error .badLength
      else if !fieldsDefined k payload then .error .badField
      else if !lengthAgrees k payload then .error .badLength
      else .ok k

/-! ### Replies (R169, R182, R184) -/

/-- A reply: its class and the bytes after the class. -/
structure Reply where
  cls : ReplyClass
  data : List Byte
deriving DecidableEq, Repr

/-- The code of a reply class (R182). -/
def ReplyClass.code : ReplyClass → Nat
  | .done => 0
  | .deferred => 1
  | .retry => 2
  | .refused => 3

/-- The code of a cause (R182). -/
def Cause.code : Cause → Nat
  | .badFrame => 1 | .badKind => 2 | .badLength => 3 | .badField => 4 | .noImage => 5 | .region => 6
  | .stopping => 7 | .unknownId => 8 | .state => 9 | .starting => 16 | .writeFull => 17
  | .queueFull => 18

/-- The class a cause is carried by (R170). -/
def Cause.cls : Cause → ReplyClass
  | .starting | .writeFull | .queueFull => .retry
  | _ => .refused

/-- A DONE reply with its data. -/
def Reply.done (data : List Byte) : Reply := { cls := .done, data := data }

/-- A RETRY or REFUSED reply (R170, R182). -/
def Reply.of (c : Cause) : Reply := { cls := c.cls, data := [byte c.code] }

/-- The payload of a reply (R184). -/
def Reply.payload (r : Reply) : List Byte := byte r.cls.code :: r.data

/-- The reply frame (R169). -/
def replyFrame (kind tag : Byte) (r : Reply) : List Byte :=
  frameBytes kind tag r.payload (frameCheck kind tag r.payload)

/-- The code of a sequence kind (R184, R187). -/
def SeqKind.code : SeqKind → Nat
  | .swift => 0
  | .tone => 1
  | .cleanUp => 2
  | .cleanDown => 3

/-- The stored form of a cell record, 32 bits (R184). -/
def Cell.stored (c : Cell) : Nat :=
  c.level.val + 16 * c.goal.val + 256 * (match c.owner with | some i => i.val | none => 31)
    + 8192 * c.kind.code + 32768 * (c.residue % 64) + 2097152 * (BitVec.ofInt 10 c.balance).toNat

/-! ### The thermistor ladder (R116) -/

/-- The six comparisons, most significant digit first: each tests the step formed from the digits set
so far with the digit under test at 1 against the voltage at its own moment. -/
def ladderCode (thm : Vector Nat 6) : Nat :=
  (thm.toList.zip [32, 16, 8, 4, 2, 1]).foldl (fun code (v, w) => if code + w ≤ v then code + w else code) 0

/-! ### Stored drive codes (R18, R187) -/

/-- A stored 2-bit pattern as a drive value (R18). -/
def driveOf (bits : Nat) : Drive :=
  match bits % 4 with
  | 1 => .positive
  | 2 => .negative
  | _ => .none

/-- The pattern of entry (f, t) in a step's word: the word of the step, and its bits (R187). -/
def codeWord (f t : Level) : Nat := (16 * f.val + t.val) / 8

/-- The pattern held for entry (f, t) in that word. -/
def codeBits (f t : Level) (w : Word) : Nat := w.toNat / 4 ^ ((16 * f.val + t.val) % 8)

/-- What a drive value adds to the balance (R45). -/
def Drive.value : Drive → Int
  | .none => 0
  | .positive => 1
  | .negative => -1

/-- The pattern by which SD carries a drive value (R187). -/
def Drive.pattern : Drive → Nat
  | .none => 0
  | .positive => 1
  | .negative => 2

/-- The byte on SD[7:0] at each shift clock of a line (R105, R187): pixel 4j + p drives bits 2p + 1
and 2p. -/
def sdBytes : List Drive → List Byte
  | a :: b :: c :: d :: rest =>
    byte (a.pattern + 4 * b.pattern + 16 * c.pattern + 64 * d.pattern) :: sdBytes rest
  | _ => []

/-! ### Admission order (R50) -/

/-- Order `a` is earlier than order `b`: b − a modulo 2^32 lies in 1 to 2,147,483,647. -/
def earlier (a b : BitVec 32) : Bool := 1 ≤ (b - a).toNat && (b - a).toNat ≤ 2147483647

end Sys2Proof.Machine
end

