-- ==== Sys2Proof/Machine/Ops.lean ====
section
/-! DEFINITION. The named operations the blocks share: the canonical lists of pixel memory and slot
storage, reads and writes of the two planes, the memory arbiter, the lane records as a whole, the
published header, and the start of a flash access. -/

namespace Sys2Proof.Machine

/-! ### Lists of (key, value) in canonical form -/

/-- The value at key `i`: `d` where it is not listed. -/
def sparseGet {α : Type} (d : α) : List (Nat × α) → Nat → α
  | [], _ => d
  | (k, v) :: m, i => if k = i then v else sparseGet d m i

/-- Put an entry before a list whose keys are all greater, unless its value is the unlisted one. -/
def sparseCons {α : Type} [DecidableEq α] (d : α) (i : Nat) (v : α) (m : List (Nat × α)) :
    List (Nat × α) :=
  if v = d then m else (i, v) :: m

/-- Write `v` at key `i`: writing the unlisted value removes the entry. -/
def sparseSet {α : Type} [DecidableEq α] (d : α) : List (Nat × α) → Nat → α → List (Nat × α)
  | [], i, v => sparseCons d i v []
  | (k, w) :: m, i, v =>
    if i < k then sparseCons d i v ((k, w) :: m)
    else if i = k then sparseCons d i v m
    else (k, w) :: sparseSet d m i v

/-- The canonical form: keys strictly rising, and no value equal to the unlisted one. -/
def sparseWf {α : Type} [DecidableEq α] (d : α) : List (Nat × α) → Bool
  | [] => true
  | (k, v) :: m => v ≠ d && m.all (fun e => k < e.1) && sparseWf d m

/-! ### The two planes (R1, R2, R6) -/

/-- The level start-up initialisation writes into every draft location (R5). -/
def initialDraft : Level := 15

/-- The cell record of pixel (x, y). -/
def PixelMem.cell (m : PixelMem) (x y : Nat) : Cell := sparseGet Cell.initial m.cells (pixel x y)

/-- The draft level of pixel (x, y). -/
def PixelMem.draft (m : PixelMem) (x y : Nat) : Level := sparseGet initialDraft m.drafts (pixel x y)

/-- Write the cell record of pixel (x, y). -/
def PixelMem.setCell (m : PixelMem) (x y : Nat) (c : Cell) : PixelMem :=
  { m with cells := sparseSet Cell.initial m.cells (pixel x y) c }

/-- Write the draft level of pixel (x, y). -/
def PixelMem.setDraft (m : PixelMem) (x y : Nat) (d : Level) : PixelMem :=
  { m with drafts := sparseSet initialDraft m.drafts (pixel x y) d }

/-- Both planes are in canonical form. -/
def PixelMem.wf (m : PixelMem) : Bool := sparseWf Cell.initial m.cells && sparseWf initialDraft m.drafts

/-- The columns of segment `g` of a line, cut at the panel's last column (R1). -/
def segmentColumns (columns g : Nat) : List Nat :=
  List.range' (g * Config.segment) (min (columns - g * Config.segment) Config.segment)

/-- One write access to the cell plane (R1): column x of the segment becomes `f x`. -/
def PixelMem.writeCells (m : PixelMem) (xs : List Nat) (y : Nat) (f : Nat → Cell) : PixelMem :=
  xs.foldl (fun m x => m.setCell x y (f x)) m

/-- One write access to the draft plane (R1): column x of the segment becomes `f x`. -/
def PixelMem.writeDrafts (m : PixelMem) (xs : List Nat) (y : Nat) (f : Nat → Level) : PixelMem :=
  xs.foldl (fun m x => m.setDraft x y (f x)) m

/-! ### The published header -/

/-- What stands for the header before publication: no panel, no stages, no tables. -/
def Header.unpublished : Header :=
  { magic := 0, version := 0, columns := 0, lines := 0, prescale := 0, divider := 0, lineCount := 0,
    blankLines := 0, window := 0, riseDepth := 0, stages := [], spareStages := [], thermistor := [],
    bounds := [], hysteresis := 0, fallback := 0, period := 0, depth := 0, swiftInc := [], toneInc := [],
    limits := { residue := 0, balance := 0 }, timing := .startUp, tables := [], checksum := 0 }

/-- The header contents in force (R154). -/
def State.hdr (s : State) : Header := s.loader.header.getD Header.unpublished

/-- The panel's columns (R1). -/
def State.columns (s : State) : Nat := s.hdr.columns

/-- The panel's lines (R1). -/
def State.panelLines (s : State) : Nat := s.hdr.lines

/-! ### The lanes as a whole -/

/-- The sixteen lane numbers, in increasing order. -/
def allLanes : List LaneId := [0, 1, 2, 3, 4, 5, 6, 7, 8, 9, 10, 11, 12, 13, 14, 15]

/-- Apply `f` to every lane record. -/
def State.mapLanes (s : State) (f : Lane → Lane) : State :=
  s.setLanes ⟨(s.lanes.toList.map f).toArray, by simp⟩

/-- Change the record of lane `i` by `f`. -/
def State.updateLane (s : State) (i : LaneId) (f : Lane → Lane) : State := s.setLane i (f (s.lane i))

/-- Put a lane into a list of lanes in rising order without repeats (R74). -/
def insertLane (i : LaneId) : List LaneId → List LaneId
  | [] => [i]
  | j :: rest => if i < j then i :: j :: rest else if i = j then j :: rest else j :: insertLane i rest

/-- Choose the element of the earliest admission order (R50); the first of equals. -/
def earliestBy {α : Type} (key : α → BitVec 32) : List α → Option α
  | [] => none
  | a :: rest =>
    match earliestBy key rest with
    | none => some a
    | some b => if earlier (key b) (key a) then some b else some a

/-- Insert an element into a list in increasing admission order. -/
def insertByOrder {α : Type} (key : α → BitVec 32) (a : α) : List α → List α
  | [] => [a]
  | b :: rest => if earlier (key b) (key a) then b :: insertByOrder key a rest else a :: b :: rest

/-- A list in increasing admission order (R56, R103). -/
def sortByOrder {α : Type} (key : α → BitVec 32) : List α → List α
  | [] => []
  | a :: rest => insertByOrder key a (sortByOrder key rest)

/-! ### The memory arbiter (R13, R15) -/

/-- The access the arbiter grants when the memory is free: the first requester in the order of R13 that
has one waiting. -/
def Arbiter.first (a : Arbiter) : Option Access :=
  match a.scan with
  | some x => some x
  | none => if a.drain then some .drain else a.probe.map (fun (x, y) => .probe x y true)

/-- Grant an access: it has the memory and waits no more. -/
def Arbiter.give (a : Arbiter) : Access → Arbiter
  | .drain => { a with running := some .drain, drain := false }
  | .probe x y l => { a with running := some (.probe x y l), probe := none }
  | x => { a with running := some x, scan := none }

/-- Grant the first waiting access if the memory is free (R13). -/
def Arbiter.grant (a : Arbiter) : Arbiter :=
  match a.running, a.first with
  | none, some x => a.give x
  | _, _ => a

/-- The part of the waiting accesses that waited before the event already (`old`). -/
def Arbiter.longWaiting (a old : Arbiter) : Arbiter :=
  { a with
    scan := if old.scan.isSome then a.scan else none
    drain := a.drain && old.drain
    probe := if old.probe.isSome then a.probe else none }

/-- The grant at the end of an event in which no access has completed. -/
def State.arbitrate (s : State) : State := s.setArb s.arb.grant

/-- The grant at the end of an event in which an access has completed, `old` being the arbiter before
it.  Where an access asked for in this very event would go ahead of one that was waiting already, the
manual leaves open whether it is in time (log entry 2). -/
def State.arbitrateAfter (s : State) (old : Arbiter) : State :=
  match s.arb.running, (s.arb.longWaiting old).first with
  | none, some x =>
    if s.arb.first = some x then s.arbitrate
    else if Config.nextAskInTime s.choices then (s.setChoices (s.choices + 1)).arbitrate
    else (s.setChoices (s.choices + 1)).setArb (s.arb.give x)
  | _, _ => s.arbitrate

/-- The scan engine asks for an access (R13). -/
def State.askScan (s : State) (x : Access) : State := s.setArb { s.arb with scan := some x }

/-- The drain asks for an access (R10, R13). -/
def State.askDrain (s : State) : State := s.setArb { s.arb with drain := true }

/-- The access that has the memory completes: the memory is free. -/
def State.freeMemory (s : State) : State := s.setArb { s.arb with running := none }

/-! ### The flash interface (R148, R149) -/

/-- A read request for a word address: SETUP begins (R149 phase 1). -/
def State.flashRead (s : State) (addr : Nat) : State :=
  s.setFlash { s.flash with state := .setup, addr := addr, clocks := s.flash.timing.setup, ext := 0,
                            result := none }

/-- No further word is asked for: FCS_N is deasserted and the interface enters IDLE (R149). -/
def State.flashIdle (s : State) : State :=
  s.setFlash { s.flash with state := .idle, clocks := 0, ext := 0, result := none }

/-! ### Slots of the waveform cache (R22, R23) -/

/-- Slot A or slot B. -/
def Cache.slot (c : Cache) : SlotId → Slot
  | .a => c.a
  | .b => c.b

/-- Replace slot A or slot B. -/
def Cache.setSlot (c : Cache) (i : SlotId) (v : Slot) : Cache :=
  match i with
  | .a => { c with a := v }
  | .b => { c with b := v }

/-- Take a reference on a slot (R23). -/
def State.takeRef (s : State) (i : SlotId) : State :=
  s.setCache (s.cache.setSlot i { s.cache.slot i with refs := (s.cache.slot i).refs + 1 })

/-- Release a reference on a slot (R23). -/
def State.releaseRef (s : State) (i : SlotId) : State :=
  s.setCache (s.cache.setSlot i { s.cache.slot i with refs := (s.cache.slot i).refs - 1 })

/-- Append to a history that keeps the latest `n` values (R120, R136). -/
def pushHistory {α : Type} (n : Nat) (h : List α) (v : α) : List α :=
  (h ++ [v]).drop ((h ++ [v]).length - n)

end Sys2Proof.Machine
end

