-- ==== Sys2Proof/Machine/Notices.lean ====
section
/-! DEFINITION. The notice unit (chapter 11): coalescing, room and the waiting list, the submission of
UPDATE_END notices by lanes and by the admission unit (R61, R91), and the notice record (R185). -/

namespace Sys2Proof.Machine

/-! ### Kinds and coalescing (R174, R177) -/

/-- The code of a notice's kind (R185). -/
def Notice.kind : Notice → Nat
  | .updateEnd .. => 1
  | .band .. => 2
  | .sensor .. => 3
  | .flash .. => 4
  | .powerFault .. => 5
  | .drainDone .. => 6

/-- The folded count; 0 for UPDATE_END (R185). -/
def Notice.folded : Notice → Nat
  | .updateEnd .. => 0
  | .band f .. => f
  | .sensor f .. => f
  | .flash f .. => f
  | .powerFault f .. => f
  | .drainDone f => f

/-- A notice with another folded count. -/
def Notice.setFolded (n : Notice) (f : Nat) : Notice :=
  match n with
  | .updateEnd i o p a e l b => .updateEnd i o p a e l b
  | .band _ b s t => .band f b s t
  | .sensor _ s c => .sensor f s c
  | .flash _ b => .flash f b
  | .powerFault _ k c => .powerFault f k c
  | .drainDone _ => .drainDone f

/-- Replace the first queued notice of the kind of `n` by `n`, its folded count raised by 1 up to 255,
or add `n` at the tail with folded count 1 (R177). -/
def coalesceInto (n : Notice) : List Notice → List Notice
  | [] => [n.setFolded 1]
  | m :: rest =>
    if m.kind = n.kind then n.setFolded (min Config.foldedMax (m.folded + 1)) :: rest
    else m :: coalesceInto n rest

/-- Submit a notice of a kind other than UPDATE_END (R177). -/
def State.coalesce (s : State) (n : Notice) : State :=
  s.setNotices { s.notices with queue := coalesceInto n s.notices.queue }

/-! ### Room (R175) -/

/-- Whether a notice is an UPDATE_END. -/
def Notice.isUpdateEnd (n : Notice) : Bool := n.kind == 1

/-- The UPDATE_END notices in the queue. -/
def Notices.updateEnds (n : Notices) : Nat := n.queue.countP Notice.isUpdateEnd

/-- Room for an UPDATE_END notice (R175). -/
def Notices.room (n : Notices) : Bool := n.updateEnds < Config.updateEndRoom

/-! ### The submitters (R61, R91) -/

/-- The cancel-marked entries of both FIFOs. -/
def Admission.marked (a : Admission) : List Pending := (a.urgent ++ a.normal).filter (·.marked)

/-- The cancel-marked entry of the earliest admission order (R61). -/
def Admission.earliestMarked (a : Admission) : Option Pending := earliestBy (·.order) a.marked

/-- The notice of a cancel-marked entry (R61). -/
def Pending.endNotice (p : Pending) : Notice := .updateEnd p.id .cancelled 0 0 0 0 false

/-- The notice of a lane in REPORTING (R91). -/
def Lane.endNotice (l : Lane) : Notice :=
  .updateEnd (l.id.getD 0) (l.outcome.getD .complete) (l.pass.getD 0) l.armed l.escalated l.leftovers
    l.substituted

/-- Remove an entry from the FIFO that holds it; the entries around it keep their order (R61). -/
def Admission.remove (a : Admission) (p : Pending) : Admission :=
  { a with urgent := a.urgent.erase p, normal := a.normal.erase p }

/-- Queue an UPDATE_END notice at the tail. -/
def State.queueNotice (s : State) (n : Notice) : State :=
  s.setNotices { s.notices with queue := s.notices.queue ++ [n] }

/-- The notice unit takes a submission: the notice joins the tail and the submitter is told in the same
event, so that the lane becomes FREE (R91) or the entry leaves its FIFO (R61). -/
def State.deliver (s : State) : Submitter → State
  | .lane i => (s.queueNotice (s.lane i).endNotice).setLane i Lane.free
  | .admission =>
    match s.adm.earliestMarked with
    | none => s
    | some p => (s.queueNotice p.endNotice).setAdm (s.adm.remove p)

/-- One UPDATE_END submission (R175): taken if there is room and none waits, else it waits. -/
def State.submit (s : State) (who : Submitter) : State :=
  if s.notices.room && s.notices.waiting.isEmpty then s.deliver who
  else s.setNotices { s.notices with waiting := s.notices.waiting ++ [who] }

/-- The submissions due: each lane in REPORTING, and the admission unit while a cancel-marked entry is
present, that does not wait already, with the admission order it is taken by (R176). -/
def State.submissionsDue (s : State) : List (BitVec 32 × Submitter) :=
  (allLanes.filter (fun i => (s.lane i).state = .reporting && !s.notices.waiting.contains (.lane i))).map
      (fun i => ((s.lane i).order.getD 0, .lane i)) ++
    (match s.adm.earliestMarked with
     | some p => if s.notices.waiting.contains .admission then [] else [(p.order, .admission)]
     | none => [])

/-- Make the submissions due, earliest admission order first (R176).  Each round ends the submission of
a lane or of an entry, of which there are at most 48. -/
def State.submitDue : Nat → State → State
  | 0, s => s
  | n + 1, s =>
    match earliestBy (·.1) s.submissionsDue with
    | none => s
    | some (_, who) => submitDue n (s.submit who)

/-- The UPDATE_END submissions of an event (R176, R188). -/
def State.flushEnds (s : State) : State := s.submitDue 64

/-- While there is room, take the submission at the head of the waiting list; when further
cancel-marked entries remain, the admission unit's next submission joins the tail (R175). -/
def State.takeWaiting : Nat → State → State
  | 0, s => s
  | n + 1, s =>
    match s.notices.waiting with
    | [] => s
    | who :: rest =>
      if s.notices.room then
        let s1 := (s.setNotices { s.notices with waiting := rest }).deliver who
        if who = .admission && s1.adm.earliestMarked.isSome then
          takeWaiting n (s1.setNotices { s1.notices with waiting := s1.notices.waiting ++ [.admission] })
        else takeWaiting n s1
      else s

/-! ### The notice record (R185) -/

/-- The code of an outcome. -/
def UpdateOutcome.code : UpdateOutcome → Nat
  | .complete => 0
  | .partially => 1
  | .cancelled => 2
  | .abandoned => 3

/-- The code of a sensor state (R185, R186). -/
def SensorState.code : SensorState → Nat
  | .warming => 0
  | .good => 1
  | .faulty => 2

/-- The code of a fault cause (R185, R186). -/
def FaultCause.code : FaultCause → Nat
  | .timeout => 0
  | .lost => 1

/-- The code of a band change's basis (R185). -/
def BandBasis.code : BandBasis → Nat
  | .sensor => 0
  | .override => 1
  | .fallback => 2

/-- A set of bands as a byte: bit b set when band b is in it (R185). -/
def bandBits (bs : List Band) : Nat := bs.foldl (fun n b => n + 2 ^ b.val) 0

/-- The fields of a notice record, from byte 2. -/
def Notice.fields : Notice → List Byte
  | .updateEnd i o p a e l b =>
    le16 i ++ [byte o.code, byte p] ++ le32 a ++ le32 e ++ le32 l ++ [byte (if b then 1 else 0)]
  | .band _ b s t =>
    [byte b.val, byte s.code, byte (if t.isSome then 1 else 0)] ++ leInt16 (t.getD 0)
  | .sensor _ s c => [byte s.code, byte c]
  | .flash _ bs => [byte (bandBits bs)]
  | .powerFault _ k c => [byte k, byte c.code]
  | .drainDone _ => []

/-- The 20 bytes of a notice record (R185); all 0 when there is no notice. -/
def noticeRecord : Option Notice → List Byte
  | none => List.replicate 20 0
  | some n =>
    let bs := byte n.kind :: byte n.folded :: n.fields
    bs ++ List.replicate (20 - bs.length) 0

end Sys2Proof.Machine
end

