-- ==== Sys2Proof/Machine/Cache.lean ====
section
/-! DEFINITION. The waveform cache (chapter 2): lookups, the reload trigger and its target, the reload of
a slot word by word, the failed set, and the grant of a slot to a pass. -/

namespace Sys2Proof.Machine

/-! ### Tables and lookups (R19, R20, R21) -/

/-- The word of a slot's storage that holds word `w` of a table. -/
def tableWord (k : SeqKind) (w : Nat) : Nat := k.code * Config.tableStride + w

/-- The frame count of a kind in a slot (R21). -/
def Slot.frameCount (sl : Slot) (k : SeqKind) : Nat := sl.frames.getD k.code 0

/-- A lookup (R20): the drive code of entry (f, t) at a step, 0 for a step of F or more. -/
def Slot.lookup (sl : Slot) (k : SeqKind) (f t : Level) (step : Nat) : Drive :=
  if step < sl.frameCount k then
    driveOf (codeBits f t (sparseGet 0 sl.words (tableWord k (32 * step + codeWord f t))))
  else .none

/-- Where the header places a band's table (R154). -/
def Header.table (h : Header) (b : Band) (k : SeqKind) : TableLoc :=
  h.tables.getD (4 * b.val + k.code) { offset := 0, frames := 0 }

/-! ### The grant (R31, R32) -/

/-- A grant: the slot, the band it holds and the substitution mark. -/
structure Grant where
  slot : SlotId
  band : Band
  substituted : Bool
deriving DecidableEq, Repr

/-- Whether a slot is READY with a band. -/
def Slot.readyWith (sl : Slot) (b : Band) : Bool := sl.state = .ready && sl.band = some b

/-- The READY slots, with their bands. -/
def Cache.readyBand (c : Cache) (i : SlotId) : Option Band :=
  if (c.slot i).state = .ready then (c.slot i).band else none

/-- The substitute R32 chooses: the READY slot whose band is nearer the current band, the lower band
when both are equally near. -/
def Cache.substitute (c : Cache) (cur : Band) : Option Grant :=
  match c.readyBand .a, c.readyBand .b with
  | none, none => none
  | some x, none => some ⟨.a, x, true⟩
  | none, some y => some ⟨.b, y, true⟩
  | some x, some y =>
    if distance x.val cur.val < distance y.val cur.val then some ⟨.a, x, true⟩
    else if distance y.val cur.val < distance x.val cur.val then some ⟨.b, y, true⟩
    else if y.val < x.val then some ⟨.b, y, true⟩
    else some ⟨.a, x, true⟩

/-- The cache's answer for a pass of a class, for a current band (R31). -/
def Cache.grant (c : Cache) (cur : Band) (cls : UpdateClass) : Option Grant :=
  if c.a.readyWith cur then some ⟨.a, cur, false⟩
  else if c.b.readyWith cur then some ⟨.b, cur, false⟩
  else if cls = .urgent || c.failed.contains cur then c.substitute cur
  else none

/-- The cache's answer as the part stands. -/
def State.grant (s : State) (cls : UpdateClass) : Option Grant := s.cache.grant s.thermal.band cls

/-! ### The trigger and the target (R24, R25) -/

/-- Whether a slot is LOADING or READY with a band. -/
def Slot.holds (sl : Slot) (b : Band) : Bool := sl.state ≠ .empty && sl.band = some b

/-- The reload trigger (R24). -/
def State.trigger (s : State) : Bool :=
  s.loader.image = .valid && !s.cache.a.holds s.thermal.band && !s.cache.b.holds s.thermal.band &&
    !s.cache.failed.contains s.thermal.band

/-- Whether a slot may be a reload's target (R25). -/
def Slot.free (sl : Slot) : Bool := sl.refs = 0 && sl.state ≠ .loading

/-- The distance of a slot's band from the current band. -/
def Slot.distanceFrom (sl : Slot) (cur : Band) : Nat := distance ((sl.band.getD cur).val) cur.val

/-- The target of a reload (R25). -/
def Cache.target (c : Cache) (cur : Band) : Option SlotId :=
  if c.a.free && c.a.state = .empty then some .a
  else if c.b.free && c.b.state = .empty then some .b
  else if c.a.free && c.b.free then
    (if c.a.distanceFrom cur < c.b.distanceFrom cur then some .b else some .a)
  else if c.a.free then some .a
  else if c.b.free then some .b
  else none

/-- The target the cache would start a reload in now: the trigger holds and no reload is in progress. -/
def State.reloadTarget (s : State) : Option SlotId :=
  if s.trigger && s.cache.reload.isNone then s.cache.target s.thermal.band else none

/-- A reload starts (R26): the slot becomes LOADING with the current band, and the first word of its
SWIFT table is asked for. -/
def State.startReload (s : State) (i : SlotId) : State :=
  let cur := s.thermal.band
  let c := s.cache.setSlot i { s.cache.slot i with state := .loading, band := some cur }
  (s.setCache { c with reload := some { slot := i, retry := 0, kind := .swift, word := 0 } }).flashRead
    (s.hdr.table cur .swift).offset

/-- The cache evaluates its trigger (R24). -/
def State.evalTrigger (s : State) : State :=
  match s.reloadTarget with
  | some i => s.startReload i
  | none => s

/-- The cache evaluates its trigger in an event in which the admission unit also acts (`act`).  Only a
READY target can be reached by both (R33); which acts first is then open (log entry 1). -/
def State.triggerWith (s : State) (act : State → State) : State :=
  match s.reloadTarget with
  | some i =>
    if (s.cache.slot i).state = .ready then
      let s1 := s.setChoices (s.choices + 1)
      if Config.cacheActsFirst s.choices then act s1.evalTrigger else (act s1).evalTrigger
    else act s.evalTrigger
  | none => act s

/-! ### A reload's words (R26 to R29) -/

/-- The table after `k` in the order of R26. -/
def SeqKind.next : SeqKind → Option SeqKind
  | .swift => some .tone
  | .tone => some .cleanUp
  | .cleanUp => some .cleanDown
  | .cleanDown => none

/-- The words of a band's table (R26). -/
def tableWords (h : Header) (b : Band) (k : SeqKind) : Nat := (h.table b k).frames * 32

/-- A slot gives up its band: EMPTY with band absent. -/
def Slot.emptied (sl : Slot) : Slot := { sl with state := .empty, band := none }

/-- The slot of the reload becomes EMPTY and the reload is over (R27, R29). -/
def Cache.endReload (c : Cache) (i : SlotId) : Cache :=
  { c.setSlot i (c.slot i).emptied with reload := none }

/-- The re-check before a table (R27): the table's first word is asked for when the slot's band is
still current, and the reload is abandoned when it is not; the trigger is then evaluated at once. -/
def State.recheck (s : State) (r : Reload) (k : SeqKind) : State :=
  if (s.cache.slot r.slot).band = some s.thermal.band then
    (s.setCache { s.cache with reload := some { r with kind := k, word := 0 } }).flashRead
      (s.hdr.table s.thermal.band k).offset
  else (s.setCache (s.cache.endReload r.slot)).evalTrigger

/-- The slot becomes READY with the frame counts of its band (R28). -/
def State.slotReady (s : State) (r : Reload) (b : Band) : State :=
  let frames := [SeqKind.swift, .tone, .cleanUp, .cleanDown].map (fun k => (s.hdr.table b k).frames)
  let c := s.cache.setSlot r.slot
    { s.cache.slot r.slot with state := .ready, refs := 0, frames := frames }
  s.setCache { c with reload := none }

/-- Put a band into the failed set (R29, R30). -/
def insertBand (b : Band) : List Band → List Band
  | [] => [b]
  | c :: rest => if b < c then b :: c :: rest else if b = c then c :: rest else c :: insertBand b rest

/-- A word of the reload in progress has been read (R26): it is written into the slot. -/
def State.storeWord (s : State) (r : Reload) (w : Word) : State :=
  let sl := s.cache.slot r.slot
  s.setCache (s.cache.setSlot r.slot
    { sl with words := sparseSet 0 sl.words (tableWord r.kind r.word) w })

/-- A reload's access ended as TIMEOUT (R29): the first restarts the attempt, the second fails the
band. -/
def State.reloadTimeout (s : State) (r : Reload) (b : Band) : State :=
  if r.retry = 0 then s.recheck { r with retry := 1 } .swift
  else
    let failed := insertBand b s.cache.failed
    let s1 := s.setCache { s.cache.endReload r.slot with failed := failed }
    (s1.coalesce (.flash 1 failed)).evalTrigger

/-- Empty the failed set and evaluate the trigger (R30, R145). -/
def State.clearFailed (s : State) : State :=
  (s.setCache { s.cache with failed := [] }).evalTrigger

end Sys2Proof.Machine
end

