-- ==== Sys2Proof/Machine/Lanes.lean ====
section
/-! DEFINITION. The lane controller (chapter 5): taking a pass, the reports of the scan engine, the frame
boundary's steps and pass ends, CANCEL and SHUTDOWN of lanes, HALT and rail fault. -/

namespace Sys2Proof.Machine

/-! ### Indications (R87) -/

/-- Lane activity: some lane is in ARMING, DRIVING or WAITING. -/
def State.laneActivity (s : State) : Bool :=
  allLanes.any (fun i => (s.lane i).state = .arming || (s.lane i).state = .driving ||
    (s.lane i).state = .waiting)

/-- Lanes in flight: some lane is in ARMING or DRIVING. -/
def State.lanesInFlight (s : State) : Bool :=
  allLanes.any (fun i => (s.lane i).state = .arming || (s.lane i).state = .driving)

/-- All 16 lanes are FREE. -/
def State.allFree (s : State) : Bool := allLanes.all (fun i => (s.lane i).state = .free)

/-! ### Taking a pass (R70, R71) -/

/-- The record of a lane taken from FREE for a pending entry (R70). -/
def Lane.taken (p : Pending) (g : Grant) : Lane :=
  { Lane.free with
    state := .arming, id := some p.id, order := some p.order, mode := some p.mode,
    cls := some p.cls, noEscalate := p.noEscalate, pass := some 1, region := some p.area,
    slot := some g.slot, band := some g.band, substituted := g.substituted }

/-- The record of a WAITING lane that takes its next pass (R71). -/
def Lane.nextPass (l : Lane) (g : Grant) : Lane :=
  { l with
    state := .arming, pass := l.pass.map (· + 1), slot := some g.slot, band := some g.band,
    substituted := l.substituted || g.substituted, step := 0, span := 0, leftovers := 0,
    box := none, blockers := [] }

/-! ### The reports of a segment's write-back (R4, R72, R73, R74) -/

/-- What one report does to its lane's record. -/
def Lane.report (l : Lane) : Report → Lane
  | .armed _ f esc =>
    { l with armed := l.armed + 1, escalated := l.escalated + (if esc then 1 else 0),
             span := max l.span f, live := l.live + 1 }
  | .leftover _ x y o =>
    { l with leftovers := l.leftovers + 1, box := some (growBox l.box x y),
             blockers := insertLane o l.blockers }
  | .completed _ => { l with live := l.live - 1 }

/-- The lane a report is about. -/
def Report.lane : Report → LaneId
  | .armed i _ _ => i
  | .leftover i _ _ _ => i
  | .completed i => i

/-- The lane controller takes one report (R72). -/
def State.takeReport (s : State) (r : Report) : State :=
  s.updateLane r.lane (fun l => l.report r)

/-- The lane controller takes the reports of a segment, in column order. -/
def State.takeReports (s : State) (rs : List Report) : State := rs.foldl State.takeReport s

/-! ### Blocker sets and references (R23, R74, R78) -/

/-- A lane leaves every blocker set that holds it (R74). -/
def State.unblock (s : State) (i : LaneId) : State :=
  s.mapLanes (fun l => { l with blockers := l.blockers.filter (· ≠ i) })

/-- A lane's pass releases its reference (R23). -/
def State.releaseLane (s : State) (i : LaneId) : State :=
  match (s.lane i).slot with
  | some sl => s.releaseRef sl
  | none => s

/-! ### Pass end (R78, R79, R81) -/

/-- The next state and outcome of a lane at its pass end (R79, R81): the first row that applies. -/
def Lane.afterPass (l : Lane) (m : AdmissionMode) : Lane :=
  let l' := { l with slot := none, band := none }
  if l.cancel then { l' with state := .reporting, outcome := some .cancelled }
  else if l.leftovers = 0 then { l' with state := .reporting, outcome := some .complete }
  else if m = .draining || Config.passes ≤ l.pass.getD 0 then
    { l' with state := .reporting, outcome := some .partially }
  else { l' with state := .waiting, region := l.box }

/-- A pass end (R78): the reference released, the lane out of every blocker set, its next state. -/
def State.passEnd (s : State) (i : LaneId) : State :=
  ((s.releaseLane i).unblock i).updateLane i (fun l => l.afterPass s.adm.mode)

/-! ### The frame boundary's steps (R69, R75, R76) -/

/-- Whether a lane reaches its pass end at a boundary: DRIVING at its last step, or ARMING with span 0. -/
def Lane.passDue (l : Lane) : Bool :=
  (l.state = .driving && l.step + 1 = l.span) || (l.state = .arming && l.span = 0)

/-- A lane at a boundary before its pass end, if any (R75, R76): a DRIVING lane's step rises, and an
ARMING lane that armed a cell goes to DRIVING at step 0. -/
def Lane.advance (l : Lane) : Lane :=
  match l.state with
  | .driving => { l with step := l.step + 1 }
  | .arming => if l.span = 0 then l else { l with state := .driving, step := 0 }
  | _ => l

/-- Steps 1 to 3 of R69: lanes advance, and the pass ends that are due are carried out (R80: in any
order) and their notices submitted (R91). -/
def State.advanceLanes (s : State) : State :=
  let due := allLanes.filter (fun i => (s.lane i).passDue)
  (due.foldl State.passEnd (s.mapLanes Lane.advance)).flushEnds

/-! ### CANCEL and SHUTDOWN of lanes (R84, R86) -/

/-- The lane in a state other than FREE that holds an update id. -/
def State.laneWithId (s : State) (id : Nat) : Option LaneId :=
  allLanes.find? (fun i => (s.lane i).state ≠ .free && (s.lane i).id = some id)

/-- A WAITING lane that ends its update (R84, R86, R88). -/
def Lane.endWaiting (l : Lane) (o : UpdateOutcome) : Lane :=
  if l.state = .waiting then { l with state := .reporting, outcome := some o } else l

/-! ### HALT and rail fault (R88, R89) -/

/-- What a HALT or a fault makes of a lane (R88). -/
def Lane.abandon (l : Lane) : Lane :=
  match l.state with
  | .arming | .driving => { l with state := .abandoning }
  | _ => l.endWaiting .abandoned

/-- A lane leaves ABANDONING (R89). -/
def State.leaveAbandoning (s : State) (i : LaneId) : State :=
  ((s.releaseLane i).unblock i).updateLane i
    (fun l => { l with state := .reporting, outcome := some .abandoned, slot := none, band := none })

/-- The ABANDONING lanes whose live count is 0. -/
def State.sweptLanes (s : State) : List LaneId :=
  allLanes.filter (fun i => (s.lane i).state = .abandoning && (s.lane i).live = 0)

/-- The ABANDONING lanes whose live count has reached 0 since `before` (R89, R110). -/
def State.justSwept (s before : State) : List LaneId :=
  s.sweptLanes.filter (fun i => 0 < (before.lane i).live)

end Sys2Proof.Machine
end

