-- ==== Sys2Proof/Machine/Escalation.lean ====
section
/-! DEFINITION. The arithmetic of one cell (chapter 3): the arming tests, the drive, the completion and
the release. -/

namespace Sys2Proof.Machine

/-! ### Arming (R40 to R44) -/

/-- The effective goal of an unowned cell from its draft level (R41). -/
def effectiveGoal (m : Mode) (d : Level) : Level :=
  match m with
  | .swift => if d.val < 8 then 0 else 15
  | .tone | .clean => d

/-- Whether a pass of a mode arms an unowned cell with effective goal `e` (R42). -/
def armsCell (m : Mode) (e : Level) (c : Cell) : Bool := m = .clean || e ≠ c.level

/-- Whether an armed cell escalates (R43). -/
def escalates (m : Mode) (noEscalate : Bool) (lim : Limits) (c : Cell) : Bool :=
  m ≠ .clean && !noEscalate && (lim.residue ≤ c.residue || lim.balance ≤ c.balance.natAbs)

/-- The cleaning kind a balance selects (R44): exactly 0 selects CLEAN_UP. -/
def cleaningKind (b : Int) : SeqKind := if 0 < b then .cleanDown else .cleanUp

/-- The kind an armed cell runs (R44). -/
def armedKind (m : Mode) (esc : Bool) (b : Int) : SeqKind :=
  if esc then cleaningKind b
  else
    match m with
    | .clean => cleaningKind b
    | .swift => .swift
    | .tone => .tone

/-- The arming tests of one lane for a cell at (x, y) with draft level `d` (R39 to R44), `slot` being the
slot of the lane's pass: the cell as the lane leaves it and the outcome reported, if any. -/
def armCell (v : ArmingView) (lim : Limits) (slot : Slot) (x y : Nat) (d : Level) (c : Cell) :
    Cell × Option Report :=
  match c.owner with
  | some o => (c, some (.leftover v.lane x y o))
  | none =>
    let e := effectiveGoal v.mode d
    if armsCell v.mode e c then
      let esc := escalates v.mode v.noEscalate lim c
      let k := armedKind v.mode esc c.balance
      ({ c with goal := e, owner := some v.lane, kind := k },
        some (.armed v.lane (slot.frameCount k) esc))
    else (c, none)

/-! ### Drive and completion (R45, R46) -/

/-- The balance after a drive (R45): clamped frame by frame. -/
def driveBalance (b : Int) (d : Drive) : Int := clampInt (-511) 511 (b + d.value)

/-- An unowned record stores goal 0 and kind SWIFT (R2). -/
def Cell.unowned (c : Cell) : Cell := { c with owner := none, goal := 0, kind := .swift }

/-- The increment table entry for a kind and a level difference (R38). -/
def Header.increment (h : Header) (k : SeqKind) (delta : Nat) : Nat :=
  match k with
  | .swift => h.swiftInc.getD (delta - 1) 0
  | .tone => h.toneInc.getD (delta - 1) 0
  | .cleanUp | .cleanDown => 0

/-- The residue after a completion (R46). -/
def completedResidue (h : Header) (c : Cell) : Nat :=
  match c.kind with
  | .cleanUp | .cleanDown => 0
  | .swift | .tone => min 63 (c.residue + h.increment c.kind (distance c.level.val c.goal.val))

/-- A completion (R46): its balance is the one the frame's drive left. -/
def completeCell (h : Header) (c : Cell) : Cell :=
  { c with level := c.goal, residue := completedResidue h c }.unowned

/-- The drive of a cell by a DRIVING lane and its completion when its step is the last of its kind
(R102 steps 1 and 2): the record, the drive value, and whether it completed. -/
def driveCell (h : Header) (slot : Slot) (step : Nat) (c : Cell) : Cell × Drive × Bool :=
  let d := slot.lookup c.kind c.level c.goal step
  let c1 := { c with balance := driveBalance c.balance d }
  if step + 1 = slot.frameCount c.kind then (completeCell h c1, d, true) else (c1, d, false)

/-! ### Release (R48) -/

/-- The release of a cell by the sweep (R48). -/
def releaseCell (c : Cell) : Cell := { c with level := c.goal, residue := 63 }.unowned

end Sys2Proof.Machine
end

