-- ==== Sys2Proof/Machine/Scan.lean ====
section
/-! DEFINITION. The scan engine (chapter 6): the timebase, the start of a frame and of a line, the
computation of a line's cells, its shift, window and commit, the blank lines, the cut and the sweep. -/

namespace Sys2Proof.Machine

/-! ### Timebase (R95, R96) -/

/-- One line period in reference clocks (R95). -/
def linePeriod (h : Header) : Nat := h.prescale * (h.divider + 1) * h.lineCount

/-- The nominal frame period in reference clocks (R95). -/
def framePeriod (h : Header) : Nat := linePeriod h * (h.lines + h.blankLines)

/-- The output window in reference clocks (R96): 1 when the formula gives 0. -/
def outputWindow (h : Header) : Nat := max 1 (h.window * linePeriod h / 128)

/-! ### States (R97) -/

/-- A frame is running: the scan engine is SCANNING. -/
def Scan.scanning (c : Scan) : Bool :=
  match c.pos with
  | .line _ _ | .blank _ => true
  | .stopped | .sweep _ => false

/-- The outputs idle (R97, R107, R109): SOE, GOE and GSTART deasserted. -/
def Panel.idle (p : Panel) : Panel := { p with gstart := false, soe := false, goe := false }

/-! ### The reads of a line (R101) -/

/-- Whether some ARMING lane's pass region holds a pixel of segment `g` of line `y`. -/
def regionCovers (columns y g : Nat) (vs : List ArmingView) : Bool :=
  vs.any (fun v => v.region.y0 ≤ y && y ≤ v.region.y1 && v.region.x0 < min columns ((g + 1) * Config.segment)
    && g * Config.segment ≤ v.region.x1)

/-- The reads of line `y`, cell segments and then draft segments, each in increasing column order (log
entry 10). -/
def lineReads (columns y : Nat) (vs : List ArmingView) : List LineAccess :=
  (List.range (segments columns)).map .readCells ++
    ((List.range (segments columns)).filter (fun g => regionCovers columns y g vs)).map .readDrafts

/-- The reads of a line of the sweep (R111), all before the line's writes (log entry 10). -/
def sweepReads (columns : Nat) : List LineAccess := (List.range (segments columns)).map .readCells

/-! ### Lines and frames (R98, R99, R100, R106) -/

/-- The period of line `y` begins (R100, R106): the gate is advanced to it and its first read is asked
for.  GSTART is asserted at the start of line 0's period and deasserted at the start of every later one;
that it stays asserted in between, through the whole of line 0's period, is the model's choice (DESIGN
CHOICE, log entry 22). -/
def State.beginLine (s : State) (y : Nat) : State :=
  let p := { s.panel with gstart := y = 0, gate := .line y }
  let c := { s.scan with
    pos := .line y .reading, todo := lineReads s.columns y s.scan.arming, cells := [], drafts := [],
    work := [], lineTimer := some (linePeriod s.hdr), windowTimer := none }
  ((s.setPanel p).setScan c).askScan (.scanRead false)

/-- The period of blank line `k` begins (R106): the selection moves beyond the panel's last line. -/
def State.beginBlank (s : State) (k : Nat) : State :=
  (s.setPanel { s.panel with gstart := false, gate := .beyond }).setScan
    { s.scan with pos := .blank k, todo := [], cells := [], drafts := [], work := [],
                  lineTimer := some (linePeriod s.hdr), windowTimer := none }

/-- The period after that of line `y` begins: the next displayed line or the first blank line. -/
def State.nextPeriod (s : State) (y : Nat) : State :=
  if y + 1 < s.panelLines then s.beginLine (y + 1) else s.beginBlank 0

/-- A lane of the lane set in ARMING (R99). -/
def Lane.armingView (l : Lane) (i : LaneId) : ArmingView :=
  { lane := i, order := l.order.getD 0, region := l.region.getD ⟨1, 1, 0, 0⟩, mode := l.mode.getD .clean,
    noEscalate := l.noEscalate, slot := l.slot.getD .a }

/-- A lane of the lane set in DRIVING (R99). -/
def Lane.drivingView (l : Lane) (i : LaneId) : DrivingView :=
  { lane := i, step := l.step, slot := l.slot.getD .a }

/-- A frame begins (R98): the lane set and the limits in force are taken (R99), the ARMING lanes in
increasing admission order (R103), and line 0 begins. -/
def State.beginFrame (s : State) : State :=
  let arming := (allLanes.filter (fun i => (s.lane i).state = .arming)).map (fun i => (s.lane i).armingView i)
  let driving := (allLanes.filter (fun i => (s.lane i).state = .driving)).map (fun i => (s.lane i).drivingView i)
  (s.setScan { s.scan with arming := sortByOrder (·.order) arming, driving := driving,
                           limits := s.limits.inForce, cut := false }).beginLine 0

/-! ### The computation of a line (R102, R103) -/

/-- The drive and completion of a cell in a frame (R102 steps 1 and 2). -/
def State.driveStep (s : State) (c : Cell) : CellWork :=
  match c.owner with
  | none => { cell := c, drive := .none, reports := [] }
  | some o =>
    match s.scan.driving.find? (fun v => v.lane = o) with
    | none => { cell := c, drive := .none, reports := [] }
    | some v =>
      let (c1, d, done) := driveCell s.hdr (s.cache.slot v.slot) v.step c
      { cell := c1, drive := d, reports := if done then [.completed o] else [] }

/-- The arming of a cell at (x, y) with draft level `d` for one lane of the lane set, if its pass region
holds the cell (R103). -/
def State.armStep (s : State) (x y : Nat) (d : Level) (w : CellWork) (v : ArmingView) : CellWork :=
  if v.region.holds x y then
    let (c, r) := armCell v (s.scan.limits.getD { residue := 1, balance := 1 }) (s.cache.slot v.slot) x y d w.cell
    { w with cell := c, reports := w.reports ++ r.toList }
  else w

/-- The computation of the cell at (x, y) (R102): drive, completion, then the ARMING lanes in admission
order. -/
def State.computeCell (s : State) (x y : Nat) (d : Level) (c : Cell) : CellWork :=
  s.scan.arming.foldl (s.armStep x y d) (s.driveStep c)

/-- The draft level the line's draft reads returned for column `x` (R39). -/
def draftRead (ds : List (Nat × List Level)) (x : Nat) : Level :=
  (sparseGet [] ds (x / Config.segment)).getD (x % Config.segment) initialDraft

/-- The computation of the cells of line `y` from column `x` on. -/
def State.computeFrom (s : State) (y : Nat) : Nat → List Cell → List CellWork
  | _, [] => []
  | x, c :: cs => s.computeCell x y (draftRead s.scan.drafts x) c :: computeFrom s y (x + 1) cs

/-! ### The commit (R104) -/

/-- Whether segment `g` holds a cell whose record the computation changed. -/
def Scan.changed (c : Scan) (g : Nat) : Bool :=
  ((c.cells.zip c.work).drop (g * Config.segment)).take Config.segment |>.any (fun (o, w) => o ≠ w.cell)

/-- The segments the commit of line `y` writes (R104). -/
def commitWrites (columns y : Nat) (c : Scan) : List LineAccess :=
  ((List.range (segments columns)).filter (fun g => c.changed g || regionCovers columns y g c.arming)).map .write

/-! ### The sweep (R89, R109, R111) -/

/-- Lanes leave ABANDONING (R89), and the cache, whose counts have fallen, evaluates its trigger, once for
them all (log entry 13). -/
def State.leaveAll (s : State) (is : List LaneId) : State :=
  if is.isEmpty then s else (is.foldl State.leaveAbandoning s).evalTrigger

/-- A read of a discarded preparation still has the memory (R109). -/
def Arbiter.discarding (a : Arbiter) : Bool := a.running = some (.scanRead true)

/-- The scan engine enters SWEEPING at line 0 (R109): the lane set is lost, the sweep's first read is
asked for, and each ABANDONING lane with live count 0 leaves (R89).  While a discarded read has the memory
the scan engine asks for nothing: the sweep's first read is asked for when that read has completed (R13,
`State.discardedRead`). -/
def State.enterSweep (s : State) : State :=
  let c := { Scan.stopped with pos := .sweep 0, todo := sweepReads s.columns }
  let s1 := if s.arb.discarding then s.setScan c else (s.setScan c).askScan .sweep
  s1.leaveAll s1.sweptLanes

/-- The commit of line `y` is complete (R104): a cut goes on to the sweep (R109); else the next period
begins if the line's own is over (R100). -/
def State.lineCommitted (s : State) (y : Nat) : State :=
  if s.scan.cut then s.enterSweep
  else if s.scan.lineTimer.isNone then s.nextPeriod y
  else s.setScan { s.scan with pos := .line y .committed, todo := [] }

/-- The commit of line `y` begins (R104): it is complete at once when it has no segment to write. -/
def State.beginCommit (s : State) (y : Nat) : State :=
  let ws := commitWrites s.columns y s.scan
  let s1 := s.setScan { s.scan with pos := .line y .commit, todo := ws, windowTimer := none }
  if ws.isEmpty then s1.lineCommitted y else s1.askScan .commit

/-! ### The cut (R109) -/

/-- A read of the discarded preparation that has the memory runs to its end for nothing; one that only
waited is withdrawn. -/
def Arbiter.discardRead (a : Arbiter) : Arbiter :=
  { a with scan := none
           running := match a.running with
             | some (.scanRead _) => some (.scanRead true)
             | r => r }

/-- A read that a cut has discarded completes (R109): it delivers nothing, and the scan engine, now free to ask
again (R13), asks for the sweep's first read. -/
def State.discardedRead (s : State) : State :=
  match s.scan.pos with
  | .sweep _ => s.freeMemory.askScan .sweep
  | .stopped | .line _ _ | .blank _ => s.freeMemory

/-- The lane set and the limits of the frame are lost (R99). -/
def State.loseLaneSet (s : State) : State :=
  s.setScan { s.scan with arming := [], driving := [], limits := none }

/-- The abandon notification reaches the scan engine (R109): the outputs go idle at once, the gate
selection is disabled (R108; log entry 16) and the lane set is lost (R99); a commit that is still to run
has its records and reports from the computation (R110). -/
def State.cutFrame (s : State) : State :=
  match s.scan.pos with
  | .sweep _ => s
  | .stopped => s.enterSweep
  | .blank _ => (s.setPanel { s.panel.idle with gate := .none }).enterSweep
  | .line y ph =>
    let s1 := s.setPanel { s.panel.idle with gate := .none }
    match ph with
    | .reading | .shifting => (s1.setArb s1.arb.discardRead).enterSweep
    | .window =>
      ((s1.setScan { s1.scan with cut := true, lineTimer := none, windowTimer := none }).beginCommit y).loseLaneSet
    | .commit => (s1.setScan { s1.scan with cut := true, lineTimer := none }).loseLaneSet
    | .committed => s1.enterSweep

/-- HALT, rail fault or rise timeout at the lanes (R88): in the same event the scan engine is told if a
lane went to ABANDONING. -/
def State.abandonLanes (s : State) : State :=
  let s1 := s.mapLanes Lane.abandon
  if s.lanesInFlight then s1.cutFrame else s1

end Sys2Proof.Machine
end

