-- ==== Sys2Proof/Machine/Admission.lean ====
section
/-! DEFINITION. The admission unit (chapter 4): acceptance of an UPDATE, eligibility, arming at a frame
boundary, the start of a frame from rest, cancel marks, the end of draining; and the frame boundary as
a whole (R69, R107). -/

namespace Sys2Proof.Machine

/-! ### Acceptance (R52, R53) -/

/-- Whether an update id is held by a pending entry or by a lane in any state other than FREE (R52). -/
def State.idHeld (s : State) (id : Nat) : Bool :=
  (s.adm.urgent ++ s.adm.normal).any (fun p => p.id = id) || (s.laneWithId id).isSome

/-- The id after an id, wrapping from 65535 to 1 (R52). -/
def nextUpdateId (id : Nat) : Nat := if id < 65535 then id + 1 else 1

/-- The first id from `id` on that is held nowhere (R52): the search ends within 49 ids. -/
def State.freeId (s : State) : Nat → Nat → Nat
  | 0, id => id
  | n + 1, id => if s.idHeld id then freeId s n (nextUpdateId id) else id

/-- The FIFO of a class (R50). -/
def Admission.fifo (a : Admission) : UpdateClass → List Pending
  | .urgent => a.urgent
  | .normal => a.normal

/-- Replace the FIFO of a class. -/
def Admission.setFifo (a : Admission) (c : UpdateClass) (q : List Pending) : Admission :=
  match c with
  | .urgent => { a with urgent := q }
  | .normal => { a with normal := q }

/-- The depth at which a class's FIFO is full (R50). -/
def UpdateClass.depth : UpdateClass → Nat
  | .urgent => Config.urgentDepth
  | .normal => Config.normalDepth

/-- The pending entry an accepted UPDATE becomes (R53). -/
def State.newEntry (s : State) (area : Rect) (m : Mode) (c : UpdateClass) (ne : Bool) : Pending :=
  { id := s.freeId 49 s.adm.nextId, order := s.adm.nextOrder, area := area, mode := m, cls := c,
    noEscalate := ne, fence := s.wb.entries.length, marked := false }

/-- The entry joins the tail of its FIFO and the two counters advance (R52, R53). -/
def State.accept (s : State) (p : Pending) : State :=
  s.setAdm { s.adm.setFifo p.cls (s.adm.fifo p.cls ++ [p]) with
    nextId := nextUpdateId p.id, nextOrder := s.adm.nextOrder + 1 }

/-! ### Fences, marks and the rise request (R11, R55, R60, R62, R64) -/

/-- Apply `f` to every pending entry. -/
def Admission.mapPending (a : Admission) (f : Pending → Pending) : Admission :=
  { a with urgent := a.urgent.map f, normal := a.normal.map f }

/-- A drain completion lowers every nonzero fence count by 1 (R11). -/
def State.lowerFences (s : State) : State :=
  s.setAdm (s.adm.mapPending (fun p => { p with fence := p.fence - 1 }))

/-- Every pending entry is cancel-marked (R62, R64). -/
def State.markAll (s : State) : State :=
  s.setAdm (s.adm.mapPending (fun p => { p with marked := true }))

/-- The rise request (R55). -/
def State.riseRequest (s : State) : Bool := (s.adm.urgent ++ s.adm.normal).any (fun p => !p.marked)

/-! ### Eligibility and lanes (R54, R57, R58) -/

/-- A pending entry is eligible to arm (R54). -/
def State.eligible (s : State) (p : Pending) : Bool :=
  p.fence = 0 && (s.grant p.cls).isSome && s.power.state = .on && !p.marked

/-- The lanes an entry of a class may take, in the order it tries them (R57). -/
def UpdateClass.lanes : UpdateClass → List LaneId
  | .urgent => [12, 13, 14, 15, 0, 1, 2, 3, 4, 5, 6, 7, 8, 9, 10, 11]
  | .normal => [0, 1, 2, 3, 4, 5, 6, 7, 8, 9, 10, 11]

/-- The FREE lane an entry of a class takes (R57). -/
def State.freeLane (s : State) (c : UpdateClass) : Option LaneId :=
  c.lanes.find? (fun i => (s.lane i).state = .free)

/-- The head of a FIFO (R58): its oldest entry whose cancel mark is clear. -/
def State.head (s : State) (c : UpdateClass) : Option Pending := (s.adm.fifo c).find? (fun p => !p.marked)

/-! ### Arming (R56, R70, R71) -/

/-- A WAITING lane takes its next pass with a grant and its reference (R71). -/
def State.armWaiting (s : State) (i : LaneId) (g : Grant) : State :=
  (s.takeRef g.slot).updateLane i (fun l => l.nextPass g)

/-- An entry leaves its FIFO and fills a FREE lane, with a grant and its reference (R70). -/
def State.armPending (s : State) (p : Pending) (i : LaneId) (g : Grant) : State :=
  ((s.takeRef g.slot).setAdm (s.adm.remove p)).setLane i (Lane.taken p g)

/-- The WAITING lanes whose blocker set is empty, in increasing admission order (R56 step 1). -/
def State.waitingReady (s : State) : List LaneId :=
  sortByOrder (fun i => (s.lane i).order.getD 0)
    (allLanes.filter (fun i => (s.lane i).state = .waiting && (s.lane i).blockers.isEmpty))

/-- Step 1 of R56 over the candidates, with `n` places left: the places left after it, and the state. -/
def State.armLanes : List LaneId → Nat → State → Nat × State
  | [], n, s => (n, s)
  | _, 0, s => (0, s)
  | i :: is, n + 1, s =>
    match s.grant ((s.lane i).cls.getD .normal) with
    | some g => armLanes is n (s.armWaiting i g)
    | none => armLanes is (n + 1) s

/-- The head of a class's FIFO arms if it is eligible and a lane of its range is FREE (R56, R58). -/
def State.armHead (s : State) (c : UpdateClass) : Option State :=
  match s.head c with
  | none => none
  | some p =>
    if s.eligible p then
      match s.grant p.cls, s.freeLane c with
      | some g, some i => some (s.armPending p i g)
      | _, _ => none
    else none

/-- Steps 2 and 3 of R56 for one FIFO, with `n` places left. -/
def State.armFifo (c : UpdateClass) : Nat → State → Nat × State
  | 0, s => (0, s)
  | n + 1, s =>
    match s.armHead c with
    | some s' => armFifo c n s'
    | none => (n + 1, s)

/-- The arming of a frame boundary (R56): at most four passes. -/
def State.armBoundary (s : State) : State :=
  let (n1, s1) := State.armLanes s.waitingReady Config.armsPerBoundary s
  let (n2, s2) := State.armFifo .urgent n1 s1
  (State.armFifo .normal n2 s2).2

/-- The taken limits come into force (R36). -/
def State.limitsInForce (s : State) : State := s.setLimits { s.limits with inForce := s.limits.taken }

/-! ### Ready work (R59) -/

/-- Ready work exists (R59). -/
def State.readyWork (s : State) : Bool :=
  s.waitingReady.any (fun i => (s.grant ((s.lane i).cls.getD .normal)).isSome) ||
    (s.armHead .urgent).isSome || (s.armHead .normal).isSome

/-- A frame starts from rest: the limits come into force, at most four passes arm, and the frame begins
(R59, R98). -/
def State.startFrame (s : State) : State := s.limitsInForce.armBoundary.beginFrame

/-- The admission unit's test for ready work, made only with the rails ON and the scan engine STOPPED
(R59, R97). -/
def State.testReady (s : State) : State :=
  if s.power.state = .on && s.scan.pos = .stopped && s.readyWork then s.startFrame else s

/-- A lane became FREE since `before`. -/
def State.laneFreed (s before : State) : Bool :=
  allLanes.any (fun i => (s.lane i).state = .free && (before.lane i).state ≠ .free)

/-- The test of R59 at the event of a lane becoming FREE. -/
def State.testReadyIfFreed (s before : State) : State :=
  if s.laneFreed before then s.testReady else s

/-! ### The end of draining (R63) -/

/-- The test for the end of draining (R63): a DRAIN_DONE notice, and the mode returns to NORMAL. -/
def State.testDrained (s : State) : State :=
  if s.adm.mode = .draining && s.power.state = .off && s.allFree && s.adm.urgent.isEmpty &&
      s.adm.normal.isEmpty then
    (s.coalesce (.drainDone 1)).setAdm { s.adm with mode := .normal }
  else s

/-! ### The frame boundary (R69, R107) -/

/-- Step 2 and 3 of R107: the next frame begins, or the scan engine enters STOPPED (log entry 16). -/
def State.continueFrames (s : State) : State :=
  if s.power.state = .on && s.lanesInFlight then s.beginFrame
  else (s.setScan .stopped).setPanel s.panel.idle

/-- The work of a frame boundary at the lanes, the limits, the cache and the arming (R69, R36, R56).  The
counts that pass ends bring to 0 make the cache evaluate its trigger (R24, R78), before or after the
arming (R33; log entries 1 and 13). -/
def State.boundaryWork (s : State) : State :=
  let released := allLanes.any (fun i => (s.lane i).passDue)
  let s1 := s.advanceLanes.limitsInForce
  if released then s1.triggerWith State.armBoundary else s1.armBoundary

end Sys2Proof.Machine
end

