-- ==== Sys2Proof/Machine/Power.lean ====
section
/-! DEFINITION. The power sequencer (chapter 8): rising through the stages, monitoring, the idle hold and
the drain fall, falling, FAULT, and the glitch filter's filtered changes. -/

namespace Sys2Proof.Machine

/-! ### Stages (R130, R131, R135) -/

/-- The stage count S (R129). -/
def State.stageCount (s : State) : Nat := s.hdr.stages.length

/-- A stage of no length, for numbers outside 1 to S. -/
def Stage.absent : Stage :=
  { enable := 6, condition := .delay, goodLine := 0, activeHigh := true, t := 0, blank := 0, fall := 0 }

/-- The descriptor of stage `k`, 1 to S (R130). -/
def State.stage (s : State) (k : Nat) : Stage := s.hdr.stages.getD (k - 1) .absent

/-- The rise-time history of stage `k` (R129). -/
def Power.riseHistory (p : Power) (k : Nat) : List Nat := p.history.toList.getD (k - 1) []

/-- Replace the rise-time history of stage `k`. -/
def Power.setRiseHistory (p : Power) (k : Nat) (h : List Nat) : Power :=
  { p with history := p.history.setIfInBounds (k - 1) h }

/-- The base of a blank interval, in 10 µs units (R135). -/
def blankBase (depth timeout : Nat) (h : List Nat) : Nat :=
  if h.isEmpty then timeout
  else
    let m := min depth h.length
    (h.drop (h.length - m)).sum / m

/-- The blank interval of a stage that begins now, in 10 µs units (R135). -/
def State.blankInterval (s : State) (k : Nat) : Nat :=
  let g := s.stage k
  g.blank * blankBase s.hdr.riseDepth (g.t * 10) (s.power.riseHistory k) / 128

/-! ### Falling (R142) -/

/-- FALLING is entered, or goes on, at stage `k` (R142): the stage's fall delay starts. -/
def State.enterFalling (s : State) (k : Nat) : State :=
  s.setPower { s.power with
    state := .falling k, stageTimer := some ((s.stage k).fall * 10), blankTimer := none,
    monitored := [], idleTimer := none }

/-! ### Idleness and the drain fall (R140, R141) -/

/-- The sequencer is idle (R140). -/
def State.idle (s : State) : Bool := !s.laneActivity && !s.riseRequest

/-- At the end of each event in ON: in NORMAL the idle hold timer starts when idleness begins and stops
when it ends (R140); in DRAINING the fall starts when no lane is in flight (R141). -/
def State.settlePower (s : State) : State :=
  match s.power.state with
  | .on =>
    match s.adm.mode with
    | .draining =>
      if s.lanesInFlight then s.setPower { s.power with idleTimer := none }
      else s.enterFalling s.stageCount
    | .normal =>
      if s.idle then
        if s.power.idleTimer.isSome then s
        else if s.power.idleHold = 0 then s.enterFalling s.stageCount
        else s.setPower { s.power with idleTimer := some s.power.idleHold }
      else s.setPower { s.power with idleTimer := none }
  | _ => s

/-- The end of an event: the UPDATE_END submissions it made (R176), the idle hold or drain fall (R140,
R141), and the test for the end of draining (R63), whose DRAIN_DONE comes last (R188; log entry 15). -/
def State.settle (s : State) : State := s.flushEnds.settlePower.testDrained

/-! ### Rising (R133, R134, R138) -/

/-- Stage `k` begins (R134): its enable line is asserted by the state itself (R131), and its delay, or
its timeout and blank interval, start. -/
def State.beginStage (s : State) (k : Nat) : State :=
  let g := s.stage k
  s.setPower { s.power with
    state := .rising k, stageTimer := some (g.t * 10),
    blankTimer := if g.condition = .delay then none else some (s.blankInterval k) }

/-- The sequencer enters ON (R138): the stage timer stops and the admission unit makes its test for ready
work; the tests of R140, R141 and R63 follow at the end of the event. -/
def State.enterOn (s : State) : State :=
  (s.setPower { s.power with state := .on, stageTimer := none, blankTimer := none }).testReady

/-- Stage `k` ends (R134): the next stage begins, or the state becomes ON. -/
def State.endStage (s : State) (k : Nat) : State :=
  if k < s.stageCount then s.beginStage (k + 1) else s.enterOn

/-- In OFF with a rise request present, a rise starts at stage 1 (R133). -/
def State.testRise (s : State) : State :=
  if s.power.state = .off && s.riseRequest then s.beginStage 1 else s

/-- OFF is entered (R142, R145): no timer runs and no stage is monitored. -/
def State.enterOff (s : State) : State :=
  s.setPower { s.power with state := .off, stageTimer := none, blankTimer := none, monitored := [],
                            idleTimer := none }

/-- Put a stage into the monitored set (R139). -/
def insertStage (k : Nat) : List Nat → List Nat
  | [] => [k]
  | j :: rest => if k < j then k :: j :: rest else if k = j then j :: rest else j :: insertStage k rest

/-- The measurement of a stage timer's count of reference clocks: rounded up to a whole unit, at least 1,
and not above the stage's timeout (R136). -/
def measurement (clocks timeout : Nat) : Nat := min timeout (max 1 (ceilDiv clocks Config.clocksPerUnit))

/-- The condition of stage `k` is met with a measurement (R136). -/
def State.conditionMet (s : State) (k m : Nat) : State :=
  let p := s.power.setRiseHistory k (pushHistory Config.riseDepth (s.power.riseHistory k) m)
  (s.setPower { p with monitored := insertStage k p.monitored }).endStage k

/-! ### Fault (R139, R144) -/

/-- FAULT is entered (R144): every enable line is deasserted by the state itself, the timers stop, the
POWER_FAULT notice is submitted first (R188), and the lanes are abandoned (R88). -/
def State.enterFault (s : State) (k : Nat) (cause : FaultCause) : State :=
  let s1 := s.setPower { s.power with
    state := .fault, stageTimer := none, blankTimer := none, monitored := [], idleTimer := none,
    lastFault := some (k, cause) }
  (s1.coalesce (.powerFault 1 k cause)).abandonLanes

/-- Whether stage `k` watches a good line (R130). -/
def State.stageOnLine (s : State) (k : Nat) (line : Fin 4) : Bool :=
  (s.stage k).condition ≠ .delay && (s.stage k).goodLine = line.val

/-- The monitored stage that a change of a line to `high` is a loss for, the lowest-numbered (R139). -/
def State.lossStage (s : State) (line : Fin 4) (high : Bool) : Option Nat :=
  s.power.monitored.find? (fun k => s.stageOnLine k line && (s.stage k).activeHigh ≠ high)

/-- The power sequencer acts on a filtered change of a line (R132, R136, R139): in RISING and ON a loss
comes first; in RISING, after the blank interval, a change to active meets the stage's condition. -/
def State.filteredChange (s : State) (line : Fin 4) (high : Bool) (clocks : Nat) : State :=
  match s.power.state with
  | .on =>
    match s.lossStage line high with
    | some k => s.enterFault k .lost
    | none => s
  | .rising k =>
    match s.lossStage line high with
    | some j => s.enterFault j .lost
    | none =>
      if s.stageOnLine k line && s.power.blankTimer.isNone && (s.stage k).activeHigh = high then
        s.conditionMet k (measurement clocks ((s.stage k).t * 10))
      else s
  | _ => s

/-- Replace the record of a good line. -/
def State.setLine (s : State) (line : Fin 4) (g : GoodLine) : State :=
  s.setPower { s.power with lines := s.power.lines.set line.val g line.isLt }

/-- The record of a good line. -/
def State.goodLine (s : State) (line : Fin 4) : GoodLine := s.power.lines.get line

/-- A line's filtered level takes the raw level, and the sequencer acts on the filtered change (R132). -/
def State.lineFiltered (s : State) (line : Fin 4) (clocks : Nat) : State :=
  let g := s.goodLine line
  (s.setLine line { g with filtered := g.raw, timing := none }).filteredChange line g.raw clocks

end Sys2Proof.Machine
end

