-- ==== Sys2Proof/Machine/Thermal.lean ====
section
/-! DEFINITION. The thermal unit (chapter 7): the average, the evaluation of the band, misses and valid
samples, and the hand-on of a band change. -/

namespace Sys2Proof.Machine

/-- The average of the latest samples for a depth (R121): floor of the sum over their number. -/
def average (depth : Nat) (h : List Int) : Int :=
  let m := min depth h.length
  (h.drop (h.length - m)).sum / (m : Int)

/-- The history average as the part stands; `none` with an empty history (R128). -/
def Thermal.average (t : Thermal) : Option Int :=
  if t.history.isEmpty then none else some (Machine.average (t.depth.getD 1) t.history)

/-- The number of boundaries at or below a temperature moved by the hysteresis (R122). -/
def boundsPassed (bounds : List Int) (a h : Int) : Nat := bounds.countP (fun b => b + h ≤ a)

/-- The band after an evaluation with temperature `a` from band `c` (R122). -/
def evalBand (bounds : List Int) (h a : Int) (c : Band) : Band :=
  let up := boundsPassed bounds a h
  let down := boundsPassed bounds a (-h)
  if c.val < up then Fin.ofNat 8 up
  else if down < c.val then Fin.ofNat 8 down
  else c

/-- The current band becomes `b` (R124): a BAND notice is submitted when that changes it. -/
def State.setBand (s : State) (b : Band) (basis : BandBasis) (temp : Option Int) : State :=
  if b = s.thermal.band then s
  else (s.setThermal { s.thermal with band := b }).coalesce (.band 1 b basis temp)

/-- An evaluation of the band with temperature `a` (R122, R123). -/
def State.evaluateBand (s : State) (a : Int) (basis : BandBasis) : State :=
  s.setBand (evalBand s.hdr.bounds s.hdr.hysteresis a s.thermal.band) basis (some a)

/-- The band becomes the fallback band, without evaluation (R119, R123). -/
def State.fallBack (s : State) : State := s.setBand s.hdr.fallback .fallback none

/-- The hand-on of a change of the current band since `before`: the cache evaluates its trigger and the
admission unit makes its test for ready work, in either order (R124, R33). -/
def State.handBand (s before : State) : State :=
  if s.thermal.band = before.thermal.band then s else s.triggerWith State.testReady

/-- A miss with its code (R118, R119). -/
def State.thermalMiss (s : State) (code : Nat) : State :=
  let t := s.thermal
  if t.sensor = .faulty then s.setThermal { t with misses := min 4 (t.misses + 1) }
  else if t.misses < 3 then s.setThermal { t with misses := t.misses + 1 }
  else
    let s1 := s.setThermal { t with misses := 4, sensor := .faulty, history := [] }
    let s2 := s1.coalesce (.sensor 1 .faulty code)
    if t.override.isNone then s2.fallBack else s2

/-- A valid sample with its code (R120). -/
def State.thermalSample (s : State) (code : Nat) : State :=
  let t := s.thermal
  let h := pushHistory Config.sampleDepth t.history (s.hdr.thermistor.getD code 0)
  let s1 := s.setThermal { t with history := h, misses := 0, sensor := .good }
  let s2 := if t.sensor = .faulty then s1.coalesce (.sensor 1 .good code) else s1
  if t.override.isNone then s2.evaluateBand (Machine.average (t.depth.getD 1) h) .sensor else s2

/-- A conversion's code is classified (R117): 0 and 63 are misses. -/
def State.thermalCode (s : State) (code : Nat) : State :=
  if code = 0 || code = 63 then s.thermalMiss code else s.thermalSample code

/-- TEMP with a temperature (R125): the override is set, clamped, and the band evaluated from it. -/
def State.setOverride (s : State) (v : Int) : State :=
  let o := clampInt (-160) 340 v
  (s.setThermal { s.thermal with override := some o }).evaluateBand o .override

/-- TEMP auto (R125, R123; log entry 18). -/
def State.clearOverride (s : State) : State :=
  if s.thermal.override.isNone then s
  else
    let s1 := s.setThermal { s.thermal with override := none }
    match s.thermal.average with
    | some a => s1.evaluateBand a .sensor
    | none => s1.fallBack

end Sys2Proof.Machine
end

