-- ==== Sys2Proof/Machine/Image.lean ====
section
/-! DEFINITION. The waveform image and the flash interface (chapter 9): the header's layout (R187), its
five checks (R155 to R157), publication (R158), the initialisation of pixel memory (R5, R159), and the
delivery of a flash access to the image loader or to the waveform cache. -/

namespace Sys2Proof.Machine

/-! ### The header's layout (R187) -/

/-- Header word `i`. -/
def wordAt (ws : List Word) (i : Nat) : Nat := (ws.getD i 0).toNat

/-- Header word `i` in two's complement. -/
def signedAt (ws : List Word) (i : Nat) : Int := (ws.getD i 0).toInt

/-- The condition a stage descriptor's code names, if any. -/
def conditionOf (n : Nat) : Option StageCondition :=
  match n with
  | 0 => some .delay
  | 1 => some .good
  | 2 => some .goodOrTimeout
  | _ => none

/-- The condition code of stage `k`'s descriptor. -/
def conditionCode (ws : List Word) (k : Nat) : Nat := wordAt ws (7 + 4 * k) / 16 % 4

/-- The descriptor of stage `k`, 1 to 5. -/
def parseStage (ws : List Word) (k : Nat) : Stage :=
  let w0 := wordAt ws (7 + 4 * k)
  let w1 := wordAt ws (8 + 4 * k)
  { enable := w0 % 8, condition := (conditionOf (conditionCode ws k)).getD .delay,
    goodLine := w0 / 256 % 4, activeHigh := w0 / 4096 % 2 = 1, t := w1 % 256,
    blank := wordAt ws (9 + 4 * k) % 128, fall := w1 / 256 }

/-- Where table `i` lies (i = 4 × band + kind), and its frame count. -/
def parseTable (ws : List Word) (i : Nat) : TableLoc :=
  { offset := wordAt ws (144 + 3 * i) + 65536 * wordAt ws (145 + 3 * i),
    frames := wordAt ws (146 + 3 * i) }

/-- The four words of stage `k`'s descriptor, as read. -/
def stageWords (ws : List Word) (k : Nat) : List Word := (List.range' (7 + 4 * k) 4).map (ws.getD · 0)

/-- The header's contents (R154) as its 256 words hold them. -/
def parseHeader (ws : List Word) : Header :=
  { magic := ws.getD 0 0, version := ws.getD 1 0, columns := wordAt ws 2, lines := wordAt ws 3, prescale := wordAt ws 4, divider := wordAt ws 5,
    lineCount := wordAt ws 6, blankLines := wordAt ws 7, window := wordAt ws 8,
    riseDepth := wordAt ws 10,
    stages := (List.range' 1 (min 5 (wordAt ws 9))).map (parseStage ws),
    spareStages := (List.range' (wordAt ws 9 + 1) (5 - wordAt ws 9)).map (stageWords ws),
    thermistor := (List.range' 32 64).map (signedAt ws),
    bounds := (List.range' 96 7).map (signedAt ws),
    hysteresis := signedAt ws 103, fallback := Fin.ofNat 8 (wordAt ws 104),
    period := wordAt ws 105, depth := wordAt ws 106,
    swiftInc := (List.range' 107 15).map (wordAt ws),
    toneInc := (List.range' 122 15).map (wordAt ws),
    limits := { residue := wordAt ws 137, balance := wordAt ws 138 },
    timing := { setup := wordAt ws 139, strobe := wordAt ws 140, hold := wordAt ws 141,
                waitLimit := wordAt ws 142, waitActiveHigh := wordAt ws 143 % 2 = 1 },
    tables := (List.range 32).map (parseTable ws), checksum := ws.getD 255 0 }

/-! ### The five checks (R155, R156, R157) -/

/-- Whether a value lies in a range. -/
def inRange (lo hi v : Nat) : Bool := lo ≤ v && v ≤ hi

/-- Whether a temperature lies in −160 to +340. -/
def inTemps (v : Int) : Bool := -160 ≤ v && v ≤ 340

/-- Whether a depth is exactly 1, 2, 4 or 8. -/
def isDepth (v : Nat) : Bool := v == 1 || v == 2 || v == 4 || v == 8

/-- Whether a list of temperatures strictly ascends. -/
def ascending : List Int → Bool
  | a :: b :: rest => a < b && ascending (b :: rest)
  | _ => true

/-- The RANGE test of a stage descriptor (R130, R156): the good line and blank fraction hold any value
their bits can. -/
def stageInRange (g : Stage) : Bool := inRange 0 5 g.enable && inRange 1 255 g.t && inRange 1 255 g.fall

/-- CHECKSUM (R155): the sum of all 256 words, carries out of bit 15 discarded. -/
def headerSum (ws : List Word) : Word := ws.foldl (· + ·) 0

/-- RANGE (R156). -/
def headerInRange (ws : List Word) : Bool :=
  let h := parseHeader ws
  inRange 64 2048 h.columns && h.columns % 8 == 0 && inRange 64 1600 h.lines &&
  (h.prescale == 1 || h.prescale == 4 || h.prescale == 16 || h.prescale == 64) &&
  inRange 0 31 h.divider && inRange 16 4095 h.lineCount && inRange 1 255 h.blankLines &&
  inRange 1 127 h.window && inRange 1 5 (wordAt ws 9) && isDepth h.riseDepth &&
  h.stages.all stageInRange && (List.range' 1 h.stages.length).all (fun k => conditionCode ws k < 3) &&
  decide ((h.stages.map (·.enable)).Nodup) &&
  ((h.thermistor.drop 1).take 62).all inTemps && h.bounds.all inTemps && ascending h.bounds &&
  decide (0 ≤ h.hysteresis ∧ h.hysteresis ≤ 40) && inRange 0 7 (wordAt ws 104) && inRange 1 600 h.period &&
  isDepth h.depth && (h.swiftInc ++ h.toneInc).all (fun v => v ≤ 63) &&
  inRange 1 63 h.limits.residue && inRange 1 511 h.limits.balance &&
  inRange 1 16 h.timing.setup && inRange 1 64 h.timing.strobe && inRange 1 16 h.timing.hold &&
  inRange 0 255 h.timing.waitLimit && h.tables.all (fun t => inRange 1 240 t.frames) &&
  h.tables.all (fun t => t.offset ≤ Config.lastFlashWord)

/-- PLACEMENT (R157): every table's last word lies in the flash address space. -/
def headerPlaced (h : Header) : Bool :=
  h.tables.all (fun t => t.offset + t.frames * 32 - 1 ≤ Config.lastFlashWord)

/-- The first check that fails, if any (R155). -/
def headerFault (ws : List Word) : Option InvalidReason :=
  if wordAt ws 0 ≠ 0xE1C5 then some .magic
  else if wordAt ws 1 ≠ 1 then some .version
  else if headerSum ws ≠ 0 then some .checksum
  else if !headerInRange ws then some .range
  else if !headerPlaced (parseHeader ws) then some .placement
  else none

/-! ### Publication, INVALID and initialisation (R158, R159, R160) -/

/-- The image becomes INVALID (R153, R155, R160). -/
def State.imageInvalid (s : State) (r : InvalidReason) : State :=
  s.setLoader { s.loader with image := .invalid r, words := [] }

/-- Publication (R158): every block takes its values in one event, and the initialisation asks for its
first access. -/
def State.publish (s : State) (h : Header) : State :=
  let s1 := s.setLoader { image := .initialising, words := [], header := some h, initDone := 0 }
  let s2 := s1.setLimits { taken := some h.limits, inForce := some h.limits }
  let s3 := s2.setThermal { s2.thermal with band := h.fallback, depth := some h.depth, period := some h.period }
  let s4 := s3.setFlash { s3.flash with timing := h.timing }
  s4.setArb { s4.arb with running := some .init }

/-- The accesses of the initialisation (R5). -/
def State.initAccesses (s : State) : Nat := s.panelLines * segments s.columns * 2

/-- The `i`-th initialisation write (R5): cell segment and draft segment by turns, segment by segment,
line by line (log entry 9: no request can see the order). -/
def State.initWrite (s : State) (i : Nat) : State :=
  let n := segments s.columns
  let xs := segmentColumns s.columns (i / 2 % n)
  let y := i / 2 / n
  if i % 2 = 0 then s.setMem (s.mem.writeCells xs y (fun _ => Cell.initial))
  else s.setMem (s.mem.writeDrafts xs y (fun _ => initialDraft))

/-- Sampling starts (R115): a conversion, and the sample timer with the sample period. -/
def State.startSampling (s : State) : State :=
  s.setThermal { s.thermal with converting := true, timer := s.thermal.period }

/-- The image becomes VALID (R159): sampling starts and the cache evaluates its trigger. -/
def State.imageValid (s : State) : State :=
  (s.setLoader { s.loader with image := .valid }).startSampling.evalTrigger

/-! ### Phases of a flash access (R149, R150) -/

/-- The extension clock at which an access ends as TIMEOUT (R150). -/
def FlashTiming.extensionLimit (t : FlashTiming) : Nat := (t.waitLimit + 1) * 16

/-- The access enters HOLD with what it will deliver. -/
def State.flashHold (s : State) (r : FlashResult) : State :=
  s.setFlash { s.flash with state := .hold, clocks := s.flash.timing.hold, result := some r }

/-! ### Delivery (R153, R155, R26 to R29) -/

/-- The checks after the last header word (R155), and publication or INVALID in the same event. -/
def State.checkHeader (s : State) (ws : List Word) : State :=
  match headerFault ws with
  | some r => s.imageInvalid r
  | none => s.publish (parseHeader ws)

/-- A header access has completed (R153). -/
def State.headerDelivery (s : State) (r : FlashResult) : State :=
  match r with
  | .timeout => s.imageInvalid .timeout
  | .word w =>
    let ws := s.loader.words ++ [w]
    if ws.length < Config.headerWords then
      (s.setLoader { s.loader with words := ws }).flashRead (s.flash.addr + 1)
    else s.checkHeader ws

/-- A reload's word has been stored: the next word of the table, the re-check before the next table
(R27), or the slot READY after the last (R28). -/
def State.reloadNext (s : State) (r : Reload) (b : Band) : State :=
  if r.word + 1 < tableWords s.hdr b r.kind then
    (s.setCache { s.cache with reload := some { r with word := r.word + 1 } }).flashRead
      ((s.hdr.table b r.kind).offset + (r.word + 1))
  else
    match r.kind.next with
    | some k => s.recheck r k
    | none => (s.slotReady r b).triggerWith State.testReady

/-- A reload's access has completed (R26, R29).  The failed set's change is an event of R59. -/
def State.reloadDelivery (s : State) (r : Reload) (res : FlashResult) : State :=
  let b := ((s.cache.slot r.slot).band).getD 0
  match res with
  | .word w => (s.storeWord r w).reloadNext r b
  | .timeout =>
    let s1 := s.reloadTimeout r b
    if s1.cache.failed = s.cache.failed then s1 else s1.testReady

/-- A flash access completes (R149): it is delivered to the image loader in LOADING, HEADER, and to the
reload in progress otherwise; the interface enters IDLE unless the next word is asked for. -/
def State.flashDelivery (s : State) (r : FlashResult) : State :=
  let s1 := s.flashIdle
  if s.loader.image = .header then s1.headerDelivery r
  else
    match s.cache.reload with
    | some q => s1.reloadDelivery q r
    | none => s1

end Sys2Proof.Machine
end

