-- ==== Sys2Proof/Machine/Flags.lean ====
section
/-! DEFINITION. What the part shows outside: its output pins as the state decides them (ATTN, RAIL_EN,
the flash and panel pins, SDO), and the STATUS reply (R180, R186). -/

namespace Sys2Proof.Machine

/-! ### Pins -/

/-- ATTN (R179): asserted while the queue holds a notice. -/
def State.attn (s : State) : Bool := !s.notices.queue.isEmpty

/-- The stages whose enable lines are asserted (R131): 1 up to this number. -/
def State.stagesUp (s : State) : Nat :=
  match s.power.state with
  | .off | .fault => 0
  | .rising k => k
  | .on => s.stageCount
  | .falling k => k - 1

/-- RAIL_EN[line] (R131): an enable line that no stage names stays deasserted. -/
def State.railEnable (s : State) (line : Nat) : Bool :=
  (s.hdr.stages.take s.stagesUp).any (fun g => g.enable = line)

/-- FCS_N is asserted (R148). -/
def State.flashSelected (s : State) : Bool := s.flash.state ≠ .idle

/-- FRD_N is asserted (R148). -/
def State.flashStrobed (s : State) : Bool := s.flash.state = .strobe || s.flash.state = .extend

/-- The byte on SDO while SS_N is low; `none` at high impedance (R162, R163).  `State` holds no level of SS_N, and
reset puts the link into DESELECTED: that SDO is at high impedance while RESET_N is asserted, with SS_N low as
with SS_N high, is the model's choice (DESIGN CHOICE, log entry 3). -/
def State.sdo (s : State) : Option Byte :=
  match s.link.state with
  | .deselected => none
  | .replying => some ((s.link.reply.getD []).getD s.link.sent 0)
  | .ignoring | .receiving | .answering | .finished => some 0

/-- What source output `x` presents (R105): its pixel's drive value while SOE is asserted, else no
drive. -/
def State.sourceOutput (s : State) (x : Nat) : Drive :=
  if s.panel.soe then s.panel.latched.getD x .none else .none

/-- The bytes shifted over SD[7:0] for the line whose shift is running (R105, R187). -/
def State.shiftBytes (s : State) : List Byte :=
  match s.scan.pos with
  | .line _ .shifting => sdBytes (s.scan.work.map (·.drive))
  | _ => []

/-! ### The STATUS reply (R180, R186) -/

/-- Bytes 1 and 2: the image state and the reason. -/
def ImageState.statusBytes : ImageState → List Byte
  | .header | .initialising => [0, 0]
  | .valid => [1, 0]
  | .invalid r =>
    [2, match r with
      | .timeout => 1 | .magic => 2 | .version => 3 | .checksum => 4 | .range => 5 | .placement => 6]

/-- Bytes 3 and 4: the power state and the stage index. -/
def PowerState.statusBytes : PowerState → List Byte
  | .off => [0, 0]
  | .rising k => [1, byte k]
  | .on => [2, 0]
  | .falling k => [3, byte k]
  | .fault => [4, 0]

/-- Bytes 5 and 6: the last fault. -/
def lastFaultBytes : Option (Nat × FaultCause) → List Byte
  | none => [0, 0]
  | some (k, c) => [byte k, byte c.code]

/-- Bytes 7 to 13: the thermal unit. -/
def Thermal.statusBytes (t : Thermal) : List Byte :=
  [byte t.sensor.code,
   byte ((if t.average.isSome then 1 else 0) + (if t.override.isSome then 2 else 0))] ++
  leInt16 (t.average.getD 0) ++ leInt16 (t.override.getD 0) ++ [byte t.band.val]

/-- The code of a slot's state. -/
def SlotState.code : SlotState → Nat
  | .empty => 0
  | .loading => 1
  | .ready => 2

/-- Three bytes for a slot: state, band (0 when absent), reference count. -/
def Slot.statusBytes (sl : Slot) : List Byte :=
  [byte sl.state.code, byte (match sl.band with | some b => b.val | none => 0), byte sl.refs]

/-- The code of the admission mode. -/
def AdmissionMode.code : AdmissionMode → Nat
  | .normal => 0
  | .draining => 1

/-- The code of a lane's state. -/
def LaneState.code : LaneState → Nat
  | .free => 0
  | .arming => 1
  | .driving => 2
  | .waiting => 3
  | .abandoning => 4
  | .reporting => 5

/-- Two lane states per byte, the lower lane in bits 3:0. -/
def packNibbles : List Nat → List Byte
  | a :: b :: rest => byte (a + 16 * b) :: packNibbles rest
  | [a] => [byte a]
  | [] => []

/-- The values of R180 as bytes 1 to 34 of the reply payload (R186). -/
def State.statusBytes (s : State) : List Byte :=
  s.loader.image.statusBytes ++ s.power.state.statusBytes ++ lastFaultBytes s.power.lastFault ++
  s.thermal.statusBytes ++ s.cache.a.statusBytes ++ s.cache.b.statusBytes ++
  [byte (bandBits s.cache.failed), byte s.adm.urgent.length, byte s.adm.normal.length,
   byte s.adm.mode.code] ++
  packNibbles (allLanes.map (fun i => (s.lane i).state.code)) ++
  [byte s.notices.queue.length, byte s.notices.updateEnds, byte s.notices.waiting.length]

end Sys2Proof.Machine
end

