-- ==== Sys2Proof/Machine/Requests.lean ====
section
/-! DEFINITION. The owners' handling of the fourteen request kinds (section 10.6): each takes the payload
of a request that has passed the link's tests and the gate, and gives the state after the request's
event and the reply, which only PROBE leaves for later (R168).  The arbiter grants at the end of the
command that carried the request. -/

namespace Sys2Proof.Machine

/-- What an owner answers: the state after the event, and the reply if it is ready in it (R168). -/
abbrev Answer := State × Option Reply

/-- An owner's RETRY or REFUSED: the request changes no state of the part (R170). -/
def State.turnAway (s : State) (c : Cause) : Answer := (s, some (.of c))

/-- An owner's DONE. -/
def State.doneWith (s : State) (data : List Byte) : Answer := (s, some (.done data))

/-! ### Write buffer (R8, R9) -/

/-- An entry joins the list at its tail (R7); the drain of the first entry asks for its access (R10). -/
def State.joinWrites (s : State) (e : WriteEntry) : State :=
  let s1 := s.setWb { s.wb with entries := s.wb.entries ++ [e] }
  if s.wb.entries.isEmpty then s1.askDrain else s1

/-- The room test of R8 and R9. -/
def State.acceptWrite (s : State) (e : WriteEntry) : Answer :=
  if Config.writeEntries ≤ s.wb.entries.length then s.turnAway .writeFull
  else (s.joinWrites e).doneWith []

/-- DRAW (R8). -/
def handleDraw (p : List Byte) (s : State) : Answer :=
  let y := u16At p 0
  let x := u16At p 2
  if s.panelLines ≤ y || s.columns ≤ x then s.turnAway .region
  else s.acceptWrite (.draw y x ((drawLevels p).take (s.columns - x)))

/-- FILL (R9). -/
def handleFill (p : List Byte) (s : State) : Answer :=
  match clipRect s.columns s.panelLines (payloadRect p) with
  | none => s.turnAway .region
  | some r => s.acceptWrite (.fill r (Fin.ofNat 16 (byteAt p 8)))

/-! ### Admission unit (R51, R60, R62) -/

/-- UPDATE (R51 to R53): tests 3 to 5 of R51, tests 1 and 2 being the gate's; an accepted request raises
the rise request (R133) and is an event of R59. -/
def handleUpdate (p : List Byte) (s : State) : Answer :=
  match clipRect s.columns s.panelLines (payloadRect p) with
  | none => s.turnAway .region
  | some r =>
    let c := updateClass p
    if s.adm.mode = .draining then s.turnAway .stopping
    else if c.depth ≤ (s.adm.fifo c).length then s.turnAway .queueFull
    else
      let e := s.newEntry r ((updateMode p).getD .clean) c (updateNoEscalate p)
      ((s.accept e).testRise.testReady.settle, some { cls := .deferred, data := le16 e.id })

/-- CANCEL of a lane's update (R84). -/
def cancelLane (s : State) (i : LaneId) : Answer :=
  match (s.lane i).state with
  | .arming | .driving => (s.updateLane i (fun l => { l with cancel := true })).doneWith []
  | .waiting =>
    ((s.updateLane i (fun l => l.endWaiting .cancelled)).flushEnds.testReadyIfFreed s).settle.doneWith []
  | .free | .abandoning | .reporting => s.turnAway .unknownId

/-- CANCEL (R60, R61, R84). -/
def handleCancel (p : List Byte) (s : State) : Answer :=
  let id := u16At p 0
  if (s.adm.urgent ++ s.adm.normal).any (fun e => e.id = id) then
    (s.setAdm (s.adm.mapPending (fun e => if e.id = id then { e with marked := true } else e))).settle.doneWith []
  else
    match s.laneWithId id with
    | some i => cancelLane s i
    | none => s.turnAway .unknownId

/-- SHUTDOWN (R62, R86, R141). -/
def handleShutdown (s : State) : Answer :=
  if s.adm.mode = .draining then s.turnAway .state
  else
    let s1 := (s.setAdm { s.adm with mode := .draining }).markAll
    ((s1.mapLanes (fun l => l.endWaiting .partially)).settle, some { cls := .deferred, data := [] })

/-! ### Memory arbiter (R16) -/

/-- PROBE (R16): a pixel on the panel asks for one access, and the reply waits for it. -/
def handleProbe (p : List Byte) (s : State) : Answer :=
  let x := u16At p 0
  let y := u16At p 2
  if s.columns ≤ x || s.panelLines ≤ y then s.turnAway .region
  else (s.setArb { s.arb with probe := some (x, y) }, none)

/-- The reply to a PROBE of (x, y) as the pixel memory stands (R16, R184). -/
def probeReply (m : PixelMem) (x y : Nat) : Reply :=
  .done (le16 x ++ le16 y ++ [byte (m.draft x y).val] ++ le32 (m.cell x y).stored)

/-! ### Thermal unit (R125, R126) -/

/-- TEMP (R125, R124). -/
def handleTemp (p : List Byte) (s : State) : Answer :=
  let s1 := match tempValue p with
    | some v => s.setOverride v
    | none => s.clearOverride
  let s2 := (s1.handBand s).settle
  s2.doneWith ([byte (if s2.thermal.override.isSome then 1 else 0)] ++
    leInt16 (s2.thermal.override.getD 0) ++ [byte s2.thermal.band.val])

/-- SET-THERMAL (R126): the sample timer restarts with the new period. -/
def handleSetThermal (p : List Byte) (s : State) : Answer :=
  let period := clampNat 1 600 (u16At p 0)
  let depth := clampDepth (byteAt p 2)
  (s.setThermal { s.thermal with period := some period, depth := some depth, timer := some period }).doneWith
    (le16 period ++ [byte depth])

/-! ### Lane controller (R37) -/

/-- SET-LIMITS (R37): the clamped pair becomes the taken copy. -/
def handleSetLimits (p : List Byte) (s : State) : Answer :=
  let l : Limits := { residue := clampNat 1 63 (u16At p 0), balance := clampNat 1 511 (u16At p 2) }
  (s.setLimits { s.limits with taken := some l }).doneWith (le16 l.residue ++ le16 l.balance)

/-! ### Power sequencer (R143, R145, R146) -/

/-- SET-POWER (R146). -/
def handleSetPower (p : List Byte) (s : State) : Answer :=
  let hold := min 60000 (u16At p 0)
  let filter := clampFilter (u16At p 2)
  (s.setPower { s.power with idleHold := hold, filter := filter }).doneWith (le16 hold ++ le16 filter)

/-- The power action of a HALT (R143). -/
def State.haltPower (s : State) : State :=
  match s.power.state with
  | .rising k => s.enterFalling k
  | .on => s.enterFalling s.stageCount
  | .off | .falling _ | .fault => s

/-- HALT (R143, R64, R88). -/
def handleHalt (s : State) : Answer := (s.haltPower.markAll.abandonLanes.settle).doneWith []

/-- CLEAR-FAULT (R145, R30, R133). -/
def handleClearFault (s : State) : Answer :=
  if s.power.state = .fault then (s.enterOff.clearFailed.testRise.settle).doneWith []
  else s.turnAway .state

/-! ### Notice unit (R178, R180) -/

/-- FETCH (R178): the notice at the head, and the number left after its removal; the room it frees is
used in the same event (R175). -/
def handleFetch (s : State) : Answer :=
  match s.notices.queue with
  | [] => s.doneWith (byte 0 :: noticeRecord none)
  | n :: rest =>
    let s1 := (s.setNotices { s.notices with queue := rest }).takeWaiting 64
    ((s1.testReadyIfFreed s).settle).doneWith (byte rest.length :: noticeRecord (some n))

/-- STATUS (R180): changes no state of the part. -/
def handleStatus (s : State) : Answer := s.doneWith s.statusBytes

/-- The owner of each kind (section 10.6). -/
def ownerAnswer (k : RequestKind) (p : List Byte) (s : State) : Answer :=
  match k with
  | .draw => handleDraw p s
  | .fill => handleFill p s
  | .update => handleUpdate p s
  | .cancel => handleCancel p s
  | .probe => handleProbe p s
  | .temp => handleTemp p s
  | .setLimits => handleSetLimits p s
  | .setThermal => handleSetThermal p s
  | .setPower => handleSetPower p s
  | .shutdown => handleShutdown s
  | .halt => handleHalt s
  | .clearFault => handleClearFault s
  | .fetch => handleFetch s
  | .status => handleStatus s

end Sys2Proof.Machine
end

