-- ==== Sys2Proof/Machine/Link.lean ====
section
/-! DEFINITION. The message link (chapter 10): the answer to a request, the image-state gate, a request
that completes, the bytes of a transaction, its selection and its end. -/

namespace Sys2Proof.Machine

/-- The request is complete (R164, R168): the link enters ANSWERING with the reply frame if the reply is
ready in this event, and else with the tag the reply will carry. -/
def State.answer (s : State) (kind tag : Byte) (r : Option Reply) : State :=
  s.setLink { state := .answering, received := [], reply := r.map (replyFrame kind tag), sent := 0,
              probeTag := if r.isNone then some tag else none }

/-- The link's own reply, or an owner's, of a cause (R170). -/
def State.answerCause (s : State) (kind tag : Byte) (c : Cause) : State :=
  s.answer kind tag (some (.of c))

/-- The image-state gate (R167): the cause it answers, or `none` when it lets the kind pass. -/
def ImageState.gate (i : ImageState) (k : RequestKind) : Option Cause :=
  match k with
  | .status | .fetch => none
  | _ =>
    match i with
    | .header | .initialising => some .starting
    | .invalid _ => some .noImage
    | .valid => none

/-- A request of kind `k` that has passed R166 meets the gate and, past it, its owner (R167, R168). -/
def State.dispatch (s : State) (k : RequestKind) (tag : Byte) (payload : List Byte) : State :=
  match s.loader.image.gate k with
  | some c => s.answerCause k.code tag c
  | none => (ownerAnswer k payload s).1.answer k.code tag (ownerAnswer k payload s).2

/-- A request complete at its second check byte (R164 case 3, R166, R167, R168). -/
def State.takeWhole (s : State) (kind tag : Byte) (payload : List Byte) (check : Word) : State :=
  match linkTests kind tag payload check with
  | .error c => s.answerCause kind tag c
  | .ok k => s.dispatch k tag payload

/-- The bytes of a transaction up to the one at which a request of these fields is complete (R164). -/
def requestBytes (kind tag : Byte) (payload : List Byte) (check : Word) : List Byte :=
  if Config.payloadMax < payload.length then (frameBytes kind tag payload check).take 5
  else frameBytes kind tag payload check

/-- Whether the link is receiving and the bytes received so far are the first of `bs`. -/
def State.awaits (s : State) (bs : List Byte) : Bool :=
  s.link.state = .receiving && s.link.received.isPrefixOf bs

/-- A request row of the table: the rest of the request's bytes is received, its last byte completing it
(R164).  In any other state of the link, and after bytes of another request, no such request
completes, and nothing changes (log entries 6 and 14). -/
def State.takeRequest (s : State) (k : RequestKind) (tag : Byte) (payload : List Byte) (check : Word) :
    State :=
  if s.awaits (requestBytes k.code tag payload check) then
    (if Config.payloadMax < payload.length then s.answerCause k.code tag .badLength
     else s.takeWhole k.code tag payload check).arbitrate
  else s

/-- The answer to a request that is malformed (R164 cases 1 and 2; R166 tests 1 and 2), or `none` for bytes
that no such request ends with. -/
def State.malformedAnswer (s : State) (frame : List Byte) : Option State :=
  match frameStatus frame with
  | .missingStart => some (s.answerCause 0 0 .badFrame)
  | .tooLong k t => some (s.answerCause k t .badLength)
  | .whole k t p c =>
    match linkTests k t p c with
    | .error .badFrame => some (s.answerCause k t .badFrame)
    | .error .badKind => some (s.answerCause k t .badKind)
    | _ => none
  | .incomplete | .beyond => none

/-- One byte taken in RECEIVING (R163, R164). -/
def State.receiveByte (s : State) (b : Byte) : State :=
  let bs := s.link.received ++ [b]
  match frameStatus bs with
  | .missingStart => (s.answerCause 0 0 .badFrame).arbitrate
  | .tooLong k t => (s.answerCause k t .badLength).arbitrate
  | .whole k t p c => (s.takeWhole k t p c).arbitrate
  | .incomplete | .beyond => s.setLink { s.link with received := bs }

/-- A byte of the reply has been sent: the next one, or FINISHED after the last (R162). -/
def Link.sentByte (l : Link) : Link :=
  if l.sent + 1 < (l.reply.getD []).length then { l with sent := l.sent + 1 }
  else { l with state := .finished, reply := none, sent := 0 }

/-- A byte boundary (R163, R168, R173). -/
def State.takeByte (s : State) (b : Byte) : State :=
  match s.link.state with
  | .receiving => s.receiveByte b
  | .answering => if s.link.reply.isSome then s.setLink { s.link with state := .replying, sent := 0 } else s
  | .replying => s.setLink s.link.sentByte
  | .ignoring | .deselected | .finished => s

/-- SS_N goes low (R162). -/
def State.select (s : State) : State :=
  if s.link.state = .deselected && !s.resetHeld then s.setLink { Link.atRest with state := .receiving } else s

/-- The transaction's PROBE, if its access has not completed: withdrawn while it waits, its result
discarded while it runs (R172). -/
def Arbiter.withdrawProbe (a : Arbiter) : Arbiter :=
  { a with probe := none
           running := match a.running with
             | some (.probe x y _) => some (.probe x y false)
             | r => r }

/-- SS_N goes high (R162, R171, R172). -/
def State.deselect (s : State) : State :=
  if s.link.state = .deselected then s
  else (s.setArb s.arb.withdrawProbe).setLink .atRest

/-- The PROBE access to (x, y) has completed for a transaction still open: the reply is ready (R16,
R168). -/
def State.probeReady (s : State) (x y : Nat) : State :=
  match s.link.probeTag with
  | some tag =>
    s.setLink { s.link with
      reply := some (replyFrame RequestKind.probe.code tag (probeReply s.mem x y)), probeTag := none }
  | none => s

end Sys2Proof.Machine
end

