-- ==== Sys2Proof/Machine/FlashPhases.lean ====
section
/-! DEFINITION. The flash interface's commands: the phases of a read access and its completion
(R149, R150). -/

namespace Sys2Proof.Machine

/-- FLASH_SETUP_END (R149): the setup count has run out, and FRD_N is asserted. -/
def execFlashSetupEnd (s : State) : Result :=
  .next (if s.flash.state = .setup then
      s.setFlash { s.flash with state := .strobe, clocks := s.flash.timing.strobe }
    else s)

/-- EXTEND begins: extension clocks are counted from 1 (R150). -/
def State.flashExtend (s : State) : State :=
  s.setFlash { s.flash with state := .extend, clocks := 0, ext := 0 }

/-- FLASH_STROBE_END (R149): the last strobe clock samples FWAIT. -/
def execFlashStrobeEnd (fwait : Bool) (fd : Word) (s : State) : Result :=
  .next (if s.flash.state = .strobe then
      (if fwait = s.flash.timing.waitActiveHigh then s.flashExtend else s.flashHold (.word fd))
    else s)

/-- An extension ends at a clock, with what the access will deliver (R150). -/
def State.extensionEnd (s : State) (clock : Nat) (r : FlashResult) : State :=
  (s.setFlash { s.flash with ext := clock }).flashHold r

/-- What an access delivers whose FWAIT is inactive for the first time at an extension clock (R150): the
word captured there; at the extension limit itself this is open (log entry 11). -/
def extensionResult (t : FlashTiming) (clock : Nat) (fd : Word) : FlashResult :=
  if clock < t.extensionLimit || Config.capturesAtLimit then .word fd else .timeout

/-- FWAIT_INACTIVE (R150): the first extension clock at which FWAIT is inactive, which lies in 1 to the
extension limit. -/
def execFwaitInactive (clock : Nat) (fd : Word) (s : State) : Result :=
  .next (if s.flash.state = .extend && 1 ≤ clock && clock ≤ s.flash.timing.extensionLimit then
      s.extensionEnd clock (extensionResult s.flash.timing clock fd)
    else s)

/-- FLASH_WAIT_TIMEOUT (R150). -/
def execFlashWaitTimeout (s : State) : Result :=
  .next (if s.flash.state = .extend then s.extensionEnd s.flash.timing.extensionLimit .timeout else s)

/-- FLASH_ACCESS_COMPLETE (R149): the end of HOLD delivers the captured word, or TIMEOUT. -/
def execFlashAccessComplete (s : State) : Result :=
  .next (match s.flash.state, s.flash.result with
    | .hold, some r => (s.flashDelivery r).settle.arbitrate
    | _, _ => s)

end Sys2Proof.Machine
end

