-- ==== Sys2Proof/Machine/Frames.lean ====
section
/-! DEFINITION. The scan engine's commands: the line period, a line's reads, shift, window and commit, the
frame boundary, and the sweep (chapter 6). -/

namespace Sys2Proof.Machine

/-! ### LINE_PERIOD_EXPIRY (R100, R106) -/

/-- The line period runs out: a line whose commit is complete gives way to the next, a line still at work
begins the next period when its commit completes, and a blank line gives way to the next blank line. -/
def State.periodOver (s : State) : State :=
  match s.scan.pos with
  | .line y .committed => s.nextPeriod y
  | .line _ _ => s.setScan { s.scan with lineTimer := none }
  | .blank k => if k + 1 < s.hdr.blankLines then s.beginBlank (k + 1) else s
  | .stopped | .sweep _ => s

/-- LINE_PERIOD_EXPIRY (R100). -/
def execLinePeriodExpiry (s : State) : Result :=
  .next (if s.scan.lineTimer.isSome then s.periodOver.arbitrate else s)

/-! ### SCAN_READ_COMPLETE (R101, R102) -/

/-- What a read of line `y` adds to what the scan engine holds of the line. -/
def State.capture (s : State) (y : Nat) (a : LineAccess) : Scan :=
  match a with
  | .readCells g =>
    { s.scan with cells := s.scan.cells ++ (segmentColumns s.columns g).map (fun x => s.mem.cell x y) }
  | .readDrafts g =>
    { s.scan with
      drafts := s.scan.drafts ++ [(g, (segmentColumns s.columns g).map (fun x => s.mem.draft x y))] }
  | .write _ => s.scan

/-- The last read of line `y` has completed (R102): every cell is computed and the shift begins (R105). -/
def State.prepareLine (s : State) (y : Nat) : State :=
  s.setScan { s.scan with pos := .line y .shifting, todo := [], work := s.computeFrom y 0 s.scan.cells }

/-- A read of line `y` has completed, `rest` being the reads left (R101). -/
def State.lineRead (s : State) (y : Nat) (a : LineAccess) (rest : List LineAccess) : State :=
  let s1 := s.freeMemory.setScan { s.capture y a with todo := rest }
  if rest.isEmpty then s1.prepareLine y else s1.askScan (.scanRead false)

/-- SCAN_READ_COMPLETE (R101). -/
def execScanReadComplete (s : State) : Result :=
  .next (match s.arb.running with
    | some (.scanRead true) => s.discardedRead.arbitrateAfter s.arb
    | some (.scanRead false) =>
      match s.scan.pos, s.scan.todo with
      | .line y .reading, a :: rest => (s.lineRead y a rest).arbitrateAfter s.arb
      | _, _ => s
    | _ => s)

/-! ### SHIFT_END (R105) and OUTPUT_WINDOW_END (R96) -/

/-- SLATCH transfers the shifted values and the output window of line `y` begins (R105, R106). -/
def State.openWindow (s : State) (y : Nat) : State :=
  (s.setPanel { s.panel with soe := true, goe := true, latched := s.scan.work.map (·.drive) }).setScan
    { s.scan with pos := .line y .window, windowTimer := some (outputWindow s.hdr) }

/-- SHIFT_END (R105). -/
def execShiftEnd (s : State) : Result :=
  .next (match s.scan.pos with
    | .line y .shifting => s.openWindow y
    | _ => s)

/-- OUTPUT_WINDOW_END (R96): the outputs are disabled and the commit begins (R104). -/
def execOutputWindowEnd (s : State) : Result :=
  .next (match s.scan.pos with
    | .line y .window => ((s.setPanel { s.panel with soe := false, goe := false }).beginCommit y).arbitrate
    | _ => s)

/-! ### COMMIT_WRITE_COMPLETE (R104) -/

/-- What the line's computation holds for column `x`. -/
def Scan.workAt (c : Scan) (x : Nat) : CellWork :=
  c.work.getD x { cell := Cell.initial, drive := .none, reports := [] }

/-- The write-back of segment `g` of line `y` has completed: its cells are in memory as computed and its
outcomes are reported to the lane controller, in the same event. -/
def State.writeBack (s : State) (y g : Nat) : State :=
  let xs := segmentColumns s.columns g
  (s.freeMemory.setMem (s.mem.writeCells xs y (fun x => (s.scan.workAt x).cell))).takeReports
    (xs.flatMap (fun x => (s.scan.workAt x).reports))

/-- The commit of line `y` goes on with `rest`, or is complete; a lane whose live count a completion has
brought to 0 leaves ABANDONING (R110). -/
def State.commitWrite (s : State) (y g : Nat) (rest : List LineAccess) : State :=
  let s1 := (s.writeBack y g).setScan { s.scan with todo := rest }
  if rest.isEmpty then s1.lineCommitted y
  else (s1.leaveAll (s1.justSwept s)).askScan .commit

/-- COMMIT_WRITE_COMPLETE (R104). -/
def execCommitWriteComplete (s : State) : Result :=
  .next (match s.arb.running, s.scan.pos, s.scan.todo with
    | some .commit, .line y .commit, .write g :: rest =>
      (s.commitWrite y g rest).settle.arbitrateAfter s.arb
    | _, _, _ => s)

/-! ### FRAME_BOUNDARY (R107) -/

/-- The last blank line is the one the scan engine is at. -/
def State.atLastBlank (s : State) : Bool :=
  match s.scan.pos with
  | .blank k => s.scan.lineTimer.isSome && k + 1 = s.hdr.blankLines
  | _ => false

/-- FRAME_BOUNDARY (R107, R69). -/
def execFrameBoundary (s : State) : Result :=
  .next (if s.atLastBlank then s.boundaryWork.continueFrames.settle.arbitrate else s)

/-! ### SWEEP_ACCESS_COMPLETE (R111) -/

/-- Whether the sweep releases a cell: its owner is a lane in ABANDONING. -/
def State.releases (s : State) (c : Cell) : Bool :=
  match c.owner with
  | some o => (s.lane o).state = .abandoning
  | none => false

/-- The segments of line `y` that hold a cell to release. -/
def State.releaseWrites (s : State) (y : Nat) : List LineAccess :=
  ((List.range (segments s.columns)).filter (fun g =>
    (segmentColumns s.columns g).any (fun x => s.releases (s.mem.cell x y)))).map .write

/-- The sweep's write of segment `g` of line `y` (R48, R4): its cells of ABANDONING lanes are released and
each is reported as an ownership change. -/
def State.sweepWrite (s : State) (y g : Nat) : State :=
  let xs := segmentColumns s.columns g
  let out := xs.filter (fun x => s.releases (s.mem.cell x y))
  (s.setMem (s.mem.writeCells out y (fun x => releaseCell (s.mem.cell x y)))).takeReports
    (out.filterMap (fun x => (s.mem.cell x y).owner.map Report.completed))

/-- The sweep ends (R111): the lanes `left` leave ABANDONING, the scan engine is STOPPED, and the
admission unit makes its test for ready work. -/
def State.endSweep (s : State) (left : List LaneId) : State :=
  let s1 := ((left.foldl State.leaveAbandoning s).setScan .stopped).flushEnds
  if left.isEmpty then s1.testReady else s1.triggerWith State.testReady

/-- The sweep of line `y` goes on with the accesses `rest`, or with the next line, or ends. -/
def State.sweepOn (s : State) (left : List LaneId) (y : Nat) (rest : List LineAccess) : State :=
  if !rest.isEmpty then ((s.leaveAll left).setScan { s.scan with todo := rest }).askScan .sweep
  else if y + 1 < s.panelLines then
    ((s.leaveAll left).setScan
      { Scan.stopped with pos := .sweep (y + 1), todo := sweepReads s.columns }).askScan .sweep
  else s.endSweep left

/-- An access of the sweep of line `y` has completed (R111). -/
def State.sweepAccess (s : State) (y : Nat) (a : LineAccess) (rest : List LineAccess) : State :=
  match a with
  | .write g =>
    let s1 := s.freeMemory.sweepWrite y g
    s1.sweepOn (s1.justSwept s) y rest
  | .readCells _ | .readDrafts _ =>
    s.freeMemory.sweepOn [] y (if rest.isEmpty then s.releaseWrites y else rest)

/-- SWEEP_ACCESS_COMPLETE (R111). -/
def execSweepAccessComplete (s : State) : Result :=
  .next (match s.arb.running, s.scan.pos, s.scan.todo with
    | some .sweep, .sweep y, a :: rest => (s.sweepAccess y a rest).settle.arbitrateAfter s.arb
    | _, _, _ => s)

end Sys2Proof.Machine
end

