-- ==== Sys2Proof/Machine/Memory.lean ====
section
/-! DEFINITION. The completions of the drain's accesses (R10), of a PROBE access (R16) and of the
start-up initialisation's writes (R5). -/

namespace Sys2Proof.Machine

/-! ### A write-buffer entry's accesses (R10) -/

/-- The pixels an entry holds, as a rectangle. -/
def WriteEntry.area : WriteEntry → Rect
  | .draw y x levels => { x0 := x, y0 := y, x1 := x + levels.length - 1, y1 := y }
  | .fill r _ => r

/-- The segments an entry touches on each of its lines. -/
def WriteEntry.segmentsPerLine (e : WriteEntry) : Nat :=
  e.area.x1 / Config.segment - e.area.x0 / Config.segment + 1

/-- The drain cost (R10). -/
def WriteEntry.cost (e : WriteEntry) : Nat := e.segmentsPerLine * (e.area.y1 - e.area.y0 + 1)

/-- The line of an entry's `i`-th access. -/
def WriteEntry.lineOf (e : WriteEntry) (i : Nat) : Nat := e.area.y0 + i / e.segmentsPerLine

/-- The segment of an entry's `i`-th access. -/
def WriteEntry.segmentOf (e : WriteEntry) (i : Nat) : Nat :=
  e.area.x0 / Config.segment + i % e.segmentsPerLine

/-- The entry's columns in segment `g`. -/
def WriteEntry.columnsIn (e : WriteEntry) (g : Nat) : List Nat :=
  let lo := max e.area.x0 (g * Config.segment)
  let hi := min (e.area.x1 + 1) ((g + 1) * Config.segment)
  List.range' lo (hi - lo)

/-- The level an entry holds for column `x`. -/
def WriteEntry.levelAt (e : WriteEntry) (x : Nat) : Level :=
  match e with
  | .draw _ x0 levels => levels.getD (x - x0) initialDraft
  | .fill _ level => level

/-- The `i`-th access of an entry writes its levels into exactly its pixels of one segment (R10). -/
def PixelMem.drainWrite (m : PixelMem) (e : WriteEntry) (i : Nat) : PixelMem :=
  m.writeDrafts (e.columnsIn (e.segmentOf i)) (e.lineOf i) e.levelAt

/-! ### DRAIN_ACCESS_COMPLETE -/

/-- The next access of the oldest entry is asked for, if there is an entry (R10). -/
def State.nextDrain (s : State) : State := if s.wb.entries.isEmpty then s else s.askDrain

/-- The oldest entry has drained (R10, R11): it leaves the list, the fences fall, and the admission unit
makes its test for ready work (R59). -/
def State.entryDrained (s : State) : State :=
  (s.setWb { entries := s.wb.entries.tail, done := 0 }).nextDrain.lowerFences.testReady.settle

/-- A drain access of the oldest entry has completed (R10). -/
def State.drainAccess (s : State) (e : WriteEntry) : State :=
  let s1 := s.freeMemory.setMem (s.mem.drainWrite e s.wb.done)
  if s.wb.done + 1 < e.cost then (s1.setWb { s.wb with done := s.wb.done + 1 }).askDrain
  else s1.entryDrained

/-- DRAIN_ACCESS_COMPLETE (R10). -/
def execDrainAccessComplete (s : State) : Result :=
  .next (match s.arb.running, s.wb.entries with
    | some .drain, e :: _ => (s.drainAccess e).arbitrateAfter s.arb
    | _, _ => s)

/-! ### PROBE_ACCESS_COMPLETE -/

/-- PROBE_ACCESS_COMPLETE (R16): an access whose transaction has ended delivers nothing (R172). -/
def execProbeAccessComplete (s : State) : Result :=
  .next (match s.arb.running with
    | some (.probe x y live) =>
      ((if live then s.probeReady x y else s).freeMemory).arbitrateAfter s.arb
    | _ => s)

/-! ### INIT_WRITE_COMPLETE -/

/-- An initialisation write has completed (R5, R159): the next is made at once, or the image state
becomes VALID and the arbiter serves its requesters (R14). -/
def State.initAccess (s : State) : State :=
  let s1 := s.initWrite s.loader.initDone
  let s2 := s1.setLoader { s.loader with initDone := s.loader.initDone + 1 }
  if s.loader.initDone + 1 < s.initAccesses then s2 else s2.freeMemory.imageValid.arbitrate

/-- INIT_WRITE_COMPLETE (R5). -/
def execInitWriteComplete (s : State) : Result :=
  .next (match s.arb.running with
    | some .init => s.initAccess
    | _ => s)

end Sys2Proof.Machine
end

