-- ==== Sys2Proof/Machine/Owners.lean ====
section
/-! DEFINITION. The fourteen request commands: each is the last byte of its request, taken by the link's
tests, the image-state gate and the owner of its kind (`handleDraw` and the like in Requests.lean). -/

namespace Sys2Proof.Machine

/-- DRAW (R8). -/
def execDraw (tag : Byte) (payload : List Byte) (check : Word) (s : State) : Result :=
  .next (s.takeRequest .draw tag payload check)

/-- FILL (R9). -/
def execFill (tag : Byte) (payload : List Byte) (check : Word) (s : State) : Result :=
  .next (s.takeRequest .fill tag payload check)

/-- UPDATE (R51 to R53). -/
def execUpdate (tag : Byte) (payload : List Byte) (check : Word) (s : State) : Result :=
  .next (s.takeRequest .update tag payload check)

/-- CANCEL (R60, R84). -/
def execCancel (tag : Byte) (payload : List Byte) (check : Word) (s : State) : Result :=
  .next (s.takeRequest .cancel tag payload check)

/-- PROBE (R16). -/
def execProbe (tag : Byte) (payload : List Byte) (check : Word) (s : State) : Result :=
  .next (s.takeRequest .probe tag payload check)

/-- TEMP (R125). -/
def execTemp (tag : Byte) (payload : List Byte) (check : Word) (s : State) : Result :=
  .next (s.takeRequest .temp tag payload check)

/-- SET-LIMITS (R37). -/
def execSetLimits (tag : Byte) (payload : List Byte) (check : Word) (s : State) : Result :=
  .next (s.takeRequest .setLimits tag payload check)

/-- SET-THERMAL (R126). -/
def execSetThermal (tag : Byte) (payload : List Byte) (check : Word) (s : State) : Result :=
  .next (s.takeRequest .setThermal tag payload check)

/-- SET-POWER (R146). -/
def execSetPower (tag : Byte) (payload : List Byte) (check : Word) (s : State) : Result :=
  .next (s.takeRequest .setPower tag payload check)

/-- SHUTDOWN (R62). -/
def execShutdown (tag : Byte) (payload : List Byte) (check : Word) (s : State) : Result :=
  .next (s.takeRequest .shutdown tag payload check)

/-- HALT (R143). -/
def execHalt (tag : Byte) (payload : List Byte) (check : Word) (s : State) : Result :=
  .next (s.takeRequest .halt tag payload check)

/-- CLEAR-FAULT (R145). -/
def execClearFault (tag : Byte) (payload : List Byte) (check : Word) (s : State) : Result :=
  .next (s.takeRequest .clearFault tag payload check)

/-- FETCH (R178). -/
def execFetch (tag : Byte) (payload : List Byte) (check : Word) (s : State) : Result :=
  .next (s.takeRequest .fetch tag payload check)

/-- STATUS (R180). -/
def execStatus (tag : Byte) (payload : List Byte) (check : Word) (s : State) : Result :=
  .next (s.takeRequest .status tag payload check)

end Sys2Proof.Machine
end

