-- ==== Sys2Proof/Machine/Rails.lean ====
section
/-! DEFINITION. The power sequencer's commands: the good lines, the stage timer, the blank interval, the
fall delay and the idle hold (chapter 8). -/

namespace Sys2Proof.Machine

/-- The raw level of a good line becomes `high` (R132). -/
def State.railChange (s : State) (line : Fin 4) (high : Bool) (elapsed : Nat) : State :=
  let g := { s.goodLine line with raw := high }
  if high = g.filtered then s.setLine line { g with timing := none }
  else if s.power.filter = 0 then ((s.setLine line g).lineFiltered line elapsed).settle.arbitrate
  else s.setLine line { g with timing := some s.power.filter }

/-- RAIL_GOOD_CHANGE (R132). -/
def execRailGoodChange (line : Fin 4) (high : Bool) (elapsed : Nat) (s : State) : Result :=
  .next (if s.resetHeld || (s.goodLine line).raw = high then s else s.railChange line high elapsed)

/-- GLITCH_FILTER_EXPIRY (R132). -/
def execGlitchFilterExpiry (line : Fin 4) (elapsed : Nat) (s : State) : Result :=
  .next (if (s.goodLine line).timing.isSome then (s.lineFiltered line elapsed).settle.arbitrate else s)

/-- Stage `k`'s line is active (R132). -/
def State.stageActive (s : State) (k : Nat) : Bool :=
  (s.goodLine (Fin.ofNat 4 (s.stage k).goodLine)).filtered = (s.stage k).activeHigh

/-- The blank interval of stage `k`, `b` units long, ends (R136): an active line meets the condition, the
measurement being the blank interval, or 1 for a blank interval of 0 (log entry 12). -/
def State.blankEnd (s : State) (k b : Nat) : State :=
  let s1 := s.setPower { s.power with blankTimer := none }
  if s1.stageActive k then
    (s1.conditionMet k (measurement (b * Config.clocksPerUnit) ((s1.stage k).t * 10))).settle.arbitrate
  else s1

/-- BLANK_INTERVAL_END (R136). -/
def execBlankIntervalEnd (s : State) : Result :=
  .next (match s.power.state, s.power.blankTimer with
    | .rising k, some b => s.blankEnd k b
    | _, _ => s)

/-- STAGE_DELAY_EXPIRY (R134). -/
def execStageDelayExpiry (s : State) : Result :=
  .next (match s.power.state with
    | .rising k => if (s.stage k).condition = .delay then (s.endStage k).settle.arbitrate else s
    | _ => s)

/-- The timeout of stage `k` is reached without its condition (R137). -/
def State.stageTimedOut (s : State) (k : Nat) : State :=
  match (s.stage k).condition with
  | .delay => s
  | .good => (s.enterFault k .timeout).settle.arbitrate
  | .goodOrTimeout => (s.endStage k).settle.arbitrate

/-- STAGE_TIMEOUT (R137); the blank interval is over by then (R135; log entry 12). -/
def execStageTimeout (s : State) : Result :=
  .next (match s.power.state, s.power.blankTimer with
    | .rising k, none => s.stageTimedOut k
    | _, _ => s)

/-- The fall delay of stage `k` expires (R142). -/
def State.fallDelayOver (s : State) (k : Nat) : State :=
  if 1 < k then s.enterFalling (k - 1) else s.enterOff.testRise.settle.arbitrate

/-- FALL_DELAY_EXPIRY (R142). -/
def execFallDelayExpiry (s : State) : Result :=
  .next (match s.power.state with
    | .falling k => s.fallDelayOver k
    | _ => s)

/-- IDLE_HOLD_EXPIRY (R140). -/
def execIdleHoldExpiry (s : State) : Result :=
  .next (if s.power.state = .on && s.power.idleTimer.isSome then s.enterFalling s.stageCount else s)

end Sys2Proof.Machine
end

