-- ==== Sys2Proof/Machine/Sampling.lean ====
section
/-! DEFINITION. The thermal unit's commands: the sample timer and a conversion's end (chapter 7). -/

namespace Sys2Proof.Machine

/-- SAMPLE_TIMER_EXPIRY (R115): a conversion starts and the timer restarts with the sample period. -/
def execSampleTimerExpiry (s : State) : Result :=
  .next (if s.thermal.timer.isSome then s.startSampling else s)

/-- A conversion has ended with a code (R117 to R124). -/
def State.conversion (s : State) (code : Nat) : State :=
  (((s.setThermal { s.thermal with converting := false }).thermalCode code).handBand s).settle.arbitrate

/-- CONVERSION_COMPLETE (R116, R117). -/
def execConversionComplete (thm : Vector Nat 6) (s : State) : Result :=
  .next (if s.thermal.converting then s.conversion (ladderCode thm) else s)

end Sys2Proof.Machine
end

