-- ==== Sys2Proof/Machine/Session.lean ====
section
/-! DEFINITION. RESET and RESET_RELEASE, and the commands of the link's own: SELECT, DESELECT,
MALFORMED_REQUEST and BYTE_BOUNDARY. -/

namespace Sys2Proof.Machine

/-- A slot at reset (R22): EMPTY with no reference; its storage keeps what it holds (log entry 8). -/
def Slot.atReset (sl : Slot) : Slot := { sl with state := .empty, band := none, refs := 0 }

/-- What a reset leaves of the waveform cache (R22, R30). -/
def Cache.atReset (c : Cache) : Cache :=
  { a := c.a.atReset, b := c.b.atReset, reload := none, failed := [] }

/-- RESET_N is asserted (R152, and the reset of every block): the pixel memory and the slots' storage
keep what they hold, unread until they are written again (R1, R5, R112); the model's own queue and
counter stand. -/
def State.assertReset (s : State) : State :=
  ((((State.reset).setMem s.mem).setCache s.cache.atReset).setChoices s.choices).setPending s.pending

/-- RESET (R152). -/
def execReset (s : State) : Result := .next s.assertReset

/-- A good line at reset release: both levels are the raw level then (R129, R132). -/
def releasedLine (high : Bool) : GoodLine := { raw := high, filtered := high, timing := none }

/-- The four good lines at reset release. -/
def releasedLines (raw : BitVec 4) : Vector GoodLine 4 :=
  ⟨#[releasedLine (raw.getLsbD 0), releasedLine (raw.getLsbD 1), releasedLine (raw.getLsbD 2),
     releasedLine (raw.getLsbD 3)], rfl⟩

/-- RESET_N is released (R153, R162): the good lines take their raw levels, the link waits for SS_N or
for a transaction, and the header read begins at word 0. -/
def State.releaseReset (s : State) (ssLow : Bool) (railGood : BitVec 4) : State :=
  let s1 := { s with resetHeld := false }
  let s2 := s1.setPower { s1.power with lines := releasedLines railGood }
  (s2.setLink { Link.atRest with state := if ssLow then .ignoring else .deselected }).flashRead 0

/-- RESET_RELEASE (R153, R162). -/
def execResetRelease (ssLow : Bool) (railGood : BitVec 4) (s : State) : Result :=
  .next (if s.resetHeld then s.releaseReset ssLow railGood else s)

/-- SELECT (R162). -/
def execSelect (s : State) : Result := .next s.select

/-- DESELECT (R171, R172). -/
def execDeselect (s : State) : Result := .next s.deselect

/-- MALFORMED_REQUEST (R164, R166): bytes that do not end a malformed request complete none. -/
def execMalformedRequest (frame : List Byte) (s : State) : Result :=
  .next (if s.awaits frame then ((s.malformedAnswer frame).map State.arbitrate).getD s else s)

/-- BYTE_BOUNDARY (R163, R168, R173). -/
def execByteBoundary (sdi : Byte) (s : State) : Result := .next (s.takeByte sdi)

end Sys2Proof.Machine
end

