-- ==== Sys2Proof/Machine/Dispatch.lean ====
section
/-! DEFINITION. The meaning of each command: one arm for each row of spec/opcode_table.json. -/

namespace Sys2Proof.Machine

/-- A command's effect on everything but the queue. -/
def exec (i : Instr) (s : State) : Host.Outcome State Fault Refusal :=
  match i with
  | .reset => Sys2Proof.Machine.execReset s
  | .resetRelease ssLow railGood => Sys2Proof.Machine.execResetRelease ssLow railGood s
  | .select => Sys2Proof.Machine.execSelect s
  | .deselect => Sys2Proof.Machine.execDeselect s
  | .malformedRequest frame => Sys2Proof.Machine.execMalformedRequest frame s
  | .draw tag payload check => Sys2Proof.Machine.execDraw tag payload check s
  | .fill tag payload check => Sys2Proof.Machine.execFill tag payload check s
  | .update tag payload check => Sys2Proof.Machine.execUpdate tag payload check s
  | .cancel tag payload check => Sys2Proof.Machine.execCancel tag payload check s
  | .probe tag payload check => Sys2Proof.Machine.execProbe tag payload check s
  | .temp tag payload check => Sys2Proof.Machine.execTemp tag payload check s
  | .setLimits tag payload check => Sys2Proof.Machine.execSetLimits tag payload check s
  | .setThermal tag payload check => Sys2Proof.Machine.execSetThermal tag payload check s
  | .setPower tag payload check => Sys2Proof.Machine.execSetPower tag payload check s
  | .shutdown tag payload check => Sys2Proof.Machine.execShutdown tag payload check s
  | .halt tag payload check => Sys2Proof.Machine.execHalt tag payload check s
  | .clearFault tag payload check => Sys2Proof.Machine.execClearFault tag payload check s
  | .fetch tag payload check => Sys2Proof.Machine.execFetch tag payload check s
  | .status tag payload check => Sys2Proof.Machine.execStatus tag payload check s
  | .drainAccessComplete => Sys2Proof.Machine.execDrainAccessComplete s
  | .probeAccessComplete => Sys2Proof.Machine.execProbeAccessComplete s
  | .initWriteComplete => Sys2Proof.Machine.execInitWriteComplete s
  | .flashWaitTimeout => Sys2Proof.Machine.execFlashWaitTimeout s
  | .flashAccessComplete => Sys2Proof.Machine.execFlashAccessComplete s
  | .linePeriodExpiry => Sys2Proof.Machine.execLinePeriodExpiry s
  | .scanReadComplete => Sys2Proof.Machine.execScanReadComplete s
  | .outputWindowEnd => Sys2Proof.Machine.execOutputWindowEnd s
  | .commitWriteComplete => Sys2Proof.Machine.execCommitWriteComplete s
  | .frameBoundary => Sys2Proof.Machine.execFrameBoundary s
  | .sweepAccessComplete => Sys2Proof.Machine.execSweepAccessComplete s
  | .sampleTimerExpiry => Sys2Proof.Machine.execSampleTimerExpiry s
  | .conversionComplete thm => Sys2Proof.Machine.execConversionComplete thm s
  | .railGoodChange line high elapsed => Sys2Proof.Machine.execRailGoodChange line high elapsed s
  | .glitchFilterExpiry line elapsed => Sys2Proof.Machine.execGlitchFilterExpiry line elapsed s
  | .blankIntervalEnd => Sys2Proof.Machine.execBlankIntervalEnd s
  | .stageDelayExpiry => Sys2Proof.Machine.execStageDelayExpiry s
  | .stageTimeout => Sys2Proof.Machine.execStageTimeout s
  | .fallDelayExpiry => Sys2Proof.Machine.execFallDelayExpiry s
  | .idleHoldExpiry => Sys2Proof.Machine.execIdleHoldExpiry s
  | .byteBoundary sdi => Sys2Proof.Machine.execByteBoundary sdi s
  | .flashSetupEnd => Sys2Proof.Machine.execFlashSetupEnd s
  | .flashStrobeEnd fwait fd => Sys2Proof.Machine.execFlashStrobeEnd fwait fd s
  | .fwaitInactive clock fd => Sys2Proof.Machine.execFwaitInactive clock fd s
  | .shiftEnd => Sys2Proof.Machine.execShiftEnd s

end Sys2Proof.Machine
end

