-- ==== Sys2Proof/Safety.lean ====
section
/-! DEFINITION. What the statements speak of beside the machine itself: the laws the manual gives for every
moment (cells in range, queues within their capacities, distinct update ids, no drive without the rails,
an arbiter that keeps no access waiting beside a free memory, settings in range), the events that several
commands share (the start of a frame, the test for ready work, the hand-on of a band change, the notices of
one event, a HALT or fault at the lanes and at the scan engine), the words in which requests and replies are
stated, and runs of byte boundaries. -/

namespace Sys2Proof.Machine

/-! ### Laws of state -/

/-- R2, R49: residue and balance in range, and an unowned record with goal 0 and kind SWIFT. -/
def Cell.legal (c : Cell) : Bool :=
  c.residue ≤ 63 && -511 ≤ c.balance && c.balance ≤ 511 && (c.owner.isSome || (c.goal = 0 && c.kind = .swift))

/-- R2, R49 for every cell of the cell plane and of the line in hand, with both planes in canonical
form. -/
def State.cellsLegal (s : State) : Bool :=
  s.mem.wf && s.mem.cells.all (fun e => e.2.legal) && s.scan.cells.all Cell.legal &&
    s.scan.work.all (fun w => w.cell.legal)

/-- R174, R175, R177: at most 31 UPDATE_END notices and at most one of each other kind. -/
def Notices.fits (n : Notices) : Bool :=
  n.updateEnds ≤ Config.updateEndRoom && [2, 3, 4, 5, 6].all (fun k => n.queue.countP (fun m => m.kind = k) ≤ 1)

/-- R50, R52, R11: the depths of the FIFOs, each with entries of its own class, and no fence longer than the
write buffer's list. -/
def Admission.fits (a : Admission) (writes : Nat) : Bool :=
  a.urgent.length ≤ Config.urgentDepth && a.normal.length ≤ Config.normalDepth &&
    a.urgent.all (fun p => p.cls = .urgent) && a.normal.all (fun p => p.cls = .normal) &&
    (a.urgent ++ a.normal).all (fun p => p.fence ≤ writes)

/-- R7, R50, R52, R11, R174: every queue is within its capacity, and holds what belongs into it. -/
def State.queuesFit (s : State) : Bool :=
  s.wb.entries.length ≤ Config.writeEntries && s.adm.fits s.wb.entries.length && s.notices.fits

/-- The update ids held by pending entries and by lanes that are not FREE (R52). -/
def State.heldIds (s : State) : List Nat :=
  (s.adm.urgent ++ s.adm.normal).map (fun p => p.id) ++
    (allLanes.filter (fun i => (s.lane i).state ≠ .free)).filterMap (fun i => (s.lane i).id)

/-- R52: an update id is present in at most one place among the FIFOs and the lanes, and ids lie in 1 to
65535. -/
def State.idsDistinct (s : State) : Bool :=
  decide s.heldIds.Nodup && 1 ≤ s.adm.nextId && s.adm.nextId ≤ 65535

/-- The scan engine is in the output window of a line. -/
def Scan.inWindow (c : Scan) : Bool :=
  match c.pos with
  | .line _ .window => true
  | _ => false

/-- The scan engine is in the commit of a line. -/
def Scan.inCommit (c : Scan) : Bool :=
  match c.pos with
  | .line _ .commit => true
  | _ => false

/-- R175: the lanes on the waiting list are in REPORTING, and nobody waits twice. -/
def State.waitersReport (s : State) : Bool :=
  decide s.notices.waiting.Nodup && s.notices.waiting.all (fun w =>
    match w with
    | .lane i => (s.lane i).state = .reporting
    | .admission => true)

/-- R94: a lane in WAITING is found only with the rails ON, and (R86) with the admission mode NORMAL. -/
def State.waitersPowered (s : State) : Bool :=
  allLanes.all (fun i => (s.lane i).state ≠ .waiting) || (s.power.state = .on && s.adm.mode = .normal)

/-- R108 in the form every step keeps: the outputs are enabled in an output window alone; a frame that is
not cut runs with the rails ON and a lane in flight; only a commit outlasts a cut; the idle hold runs only
while no lane is active (R140); a lane waits only with the rails ON and the mode NORMAL (R94, R86); and a
FETCH frees none but lanes in REPORTING (R175). -/
def State.railsGuarded (s : State) : Bool :=
  s.waitersReport && s.waitersPowered &&
    (!s.panel.soe || (s.scan.inWindow && !s.scan.cut)) &&
    (!(s.scan.scanning && !s.scan.cut) || (s.power.state = .on && s.lanesInFlight)) &&
    (!s.scan.cut || s.scan.inCommit) && (s.power.idleTimer.isNone || !s.laneActivity)

/-- R13: no access waits while the memory is free. -/
def Arbiter.settled (a : Arbiter) : Bool := a.running.isSome || a.first.isNone

/-- A pair of escalation limits is in range (R36). -/
def Limits.legal (l : Limits) : Bool :=
  1 ≤ l.residue && l.residue ≤ 63 && 1 ≤ l.balance && l.balance ≤ 511

/-- R36, R114, R118, R120, R129, R136, R139, R146: settings, counters and histories in their ranges; stages
are monitored in RISING and ON alone, each once and in increasing order. -/
def State.settingsLegal (s : State) : Bool :=
  s.limits.taken.all Limits.legal && s.limits.inForce.all Limits.legal &&
    s.thermal.history.length ≤ Config.sampleDepth && s.thermal.misses ≤ 4 &&
    s.thermal.override.all (fun v => -160 ≤ v && v ≤ 340) &&
    s.power.idleHold ≤ 60000 && [0, 20, 40, 80].contains s.power.filter &&
    s.power.history.toList.all (fun h => h.length ≤ Config.riseDepth) &&
    decide (s.power.monitored.Pairwise (· < ·)) &&
    (s.power.monitored.isEmpty || (match s.power.state with
      | .rising _ | .on => true
      | .off | .falling _ | .fault => false))

/-- The power sequencer has acted on idleness and on draining (R140, R141). -/
def State.powerQuiet (s : State) : Bool :=
  match s.power.state with
  | .on =>
    (match s.adm.mode with
     | .draining => s.lanesInFlight && s.power.idleTimer.isNone
     | .normal => s.idle == s.power.idleTimer.isSome)
  | _ => true

/-- Nothing is left over from earlier events: no UPDATE_END submission is due (R175), the power sequencer
has acted on idleness and draining (R140, R141), and draining that is over has ended (R63). -/
def State.quiet (s : State) : Bool :=
  s.submissionsDue.isEmpty && s.powerQuiet &&
    !(s.adm.mode = .draining && s.power.state = .off && s.allFree && s.adm.urgent.isEmpty && s.adm.normal.isEmpty)

/-! ### The start of a frame -/

/-- R99, R103: the scan engine holds the frame's lane set: exactly the ARMING lanes, each once, with order, region,
mode, NO_ESCALATE and slot, in increasing admission order (orders as near to one another as R50 says they are);
and exactly the DRIVING lanes, each once, with step and slot. -/
def State.holdsLaneSet (t : State) : Prop :=
  (t.scan.arming.map (fun v => v.lane)).Perm (allLanes.filter (fun i => (t.lane i).state = .arming)) ∧
  (∀ v ∈ t.scan.arming, ∀ l, l = t.lane v.lane →
    (∀ o, l.order = some o → v.order = o) ∧ (∀ r, l.region = some r → v.region = r) ∧
    (∀ m, l.mode = some m → v.mode = m) ∧ v.noEscalate = l.noEscalate ∧
    (∀ sl, l.slot = some sl → v.slot = sl)) ∧
  (∀ base : BitVec 32, (∀ v ∈ t.scan.arming, (v.order - base).toNat < 2147483648) →
    t.scan.arming.Pairwise (fun v w => earlier w.order v.order = false)) ∧
  (t.scan.driving.map (fun v => v.lane)).Perm (allLanes.filter (fun i => (t.lane i).state = .driving)) ∧
  (∀ v ∈ t.scan.driving, v.step = (t.lane v.lane).step ∧ ∀ sl, (t.lane v.lane).slot = some sl → v.slot = sl)

/-- R59, R98, R36, R56, R99, R106: `t` is what the start of a frame from rest has made of `u`: the taken limits are
in force and the frame's own, the boundary's arming is done, the lane set is held, and line 0's period has begun
with its first read asked for. -/
def State.frameBegun (u t : State) : Prop :=
  t.limits = { u.limits with inForce := u.limits.taken } ∧ t.scan.limits = u.limits.taken ∧
  t.lanes = u.limitsInForce.armBoundary.lanes ∧ t.adm = u.limitsInForce.armBoundary.adm ∧
  t.lanesInFlight = true ∧ t.holdsLaneSet ∧ t.scan.pos = .line 0 .reading ∧
  t.panel.gstart = true ∧ t.panel.gate = .line 0 ∧
  (t.arb.running = some (.scanRead false) ∨ t.arb.scan = some (.scanRead false)) ∧ t.mem = u.mem

/-! ### The test for ready work and the hand-on of a band change -/

/-- R59, R97, R98, R140: `t` is what an event has made of `u` by the admission unit's test for ready work: in ON,
with the scan engine STOPPED and work ready, a frame begins and the idle hold timer stops; otherwise nothing
changes.  Either way the arbiter then grants (and counts its open choices, log entry 2). -/
def State.readyTested (u t : State) : Prop :=
  (u.power.state = .on ∧ u.scan.pos = .stopped ∧ u.readyWork = true →
    u.frameBegun t ∧ t.cache = u.limitsInForce.armBoundary.cache ∧ t.power = { u.power with idleTimer := none } ∧
    { t with limits := u.limits, lanes := u.lanes, adm := u.adm, cache := u.cache, scan := u.scan
             panel := u.panel, power := u.power, arb := u.arb, choices := u.choices } = u) ∧
  (¬ (u.power.state = .on ∧ u.scan.pos = .stopped ∧ u.readyWork = true) →
    { t with arb := u.arb, choices := u.choices } = u)

/-- R24, R124, R33: `t` is what an event has made of `u` by the cache's evaluation of its trigger and the admission
unit's test for ready work, in either order (log entry 1). -/
def State.handedOn (u t : State) : Prop :=
  u.evalTrigger.readyTested t ∨ ∃ w, u.readyTested w ∧ t = w.evalTrigger

/-! ### The UPDATE_END notices of one event -/

/-- R176, R175, R61, R91: `es` are the UPDATE_END notices of an event that leads from `s` to `t`.  Each is a lane's or a
pending entry's; they join in increasing admission order, and behind them, in that order too, those submitters wait
that found no room (orders as near to one another as R50 says they are; the admission unit by its earliest
cancel-marked entry).  None joins where others wait or beyond 31, none waits anew with nobody waiting and room left,
and as many join as lanes become FREE and entries leave. -/
def State.endsInOrder (s t : State) (es : List Notice) : Prop :=
  ∃ (ps : List (BitVec 32 × Notice)) (ws : List (BitVec 32 × Submitter)),
    es = ps.map (fun x => x.2) ∧ t.notices.waiting = s.notices.waiting ++ ws.map (fun x => x.2) ∧
    (∀ base : BitVec 32,
      (∀ p ∈ s.adm.urgent ++ s.adm.normal, (p.order - base).toNat < 2147483648) →
      (∀ i, (s.lane i).state ≠ .free → ((s.lane i).order.getD 0 - base).toNat < 2147483648) →
      (ps.map (fun x => x.1) ++ ws.map (fun x => x.1)).Pairwise (fun a b => earlier b a = false)) ∧
    (∀ x ∈ ps,
      (∃ i l o, l = s.lane i ∧ x = (l.order.getD 0, Notice.updateEnd (l.id.getD 0) o (l.pass.getD 0) l.armed
        l.escalated l.leftovers l.substituted)) ∨
      ∃ p ∈ s.adm.urgent ++ s.adm.normal, x = (p.order, Notice.updateEnd p.id .cancelled 0 0 0 0 false)) ∧
    (∀ x ∈ ws, (∃ i, x = ((s.lane i).order.getD 0, Submitter.lane i)) ∨
      ∃ p, t.adm.earliestMarked = some p ∧ x = (p.order, Submitter.admission)) ∧
    (ps ≠ [] → s.notices.waiting = [] ∧ s.notices.updateEnds + ps.length ≤ 31) ∧
    (ws ≠ [] → s.notices.waiting ≠ [] ∨ 31 ≤ s.notices.updateEnds + ps.length) ∧
    es.length + (t.adm.urgent ++ t.adm.normal).length =
      allLanes.countP (fun i => (s.lane i).state ≠ .free && (t.lane i).state = .free) +
        (s.adm.urgent ++ s.adm.normal).length

/-! ### HALT, rail fault and rise timeout at the lanes and at the scan engine -/

/-- R109, R104: an abandon notification leads to the sweep in its own event: lanes are in flight, and no commit is in
hand, nor a sweep already, nor a window whose commit has a segment to write. -/
def State.sweepsAtOnce (s : State) : Bool :=
  s.lanesInFlight && (match s.scan.pos with
    | .sweep _ | .line _ .commit => false
    | .line y .window => (commitWrites s.columns y s.scan).isEmpty
    | .stopped | .blank _ | .line _ .reading | .line _ .shifting | .line _ .committed => true)

/-- R88, R89, R23, R91: what an event that abandons makes of the lanes of `s` in `t`.  ARMING and DRIVING lanes go to
ABANDONING with their records kept; those in it whose live count is 0 when the event enters the sweep leave at once:
the reference is released, the lane leaves every blocker set, and the outcome is ABANDONED.  WAITING lanes end
ABANDONED.  The notice of a lane that ends is queued with the lane FREE, or waits with the lane in REPORTING.  The
others stay as they are.  Where references were released the cache evaluates its trigger, once, after them all (the
model's choice, log entry 13). -/
def State.lanesAbandoned (s t : State) : Prop :=
  ∀ left : LaneId → Bool,
    (∀ i, left i = true ↔ s.sweepsAtOnce = true ∧ (s.lane i).live = 0 ∧
      ((s.lane i).state = .arming ∨ (s.lane i).state = .driving ∨ (s.lane i).state = .abandoning)) →
    (∀ i (l m : Lane), l = s.lane i → m = { l with blockers := l.blockers.filter (fun j => !left j) } →
      (left i = true ∨ l.state = .waiting →
        (t.lane i = Lane.free ∧ Notice.updateEnd (l.id.getD 0) .abandoned (l.pass.getD 0) l.armed l.escalated
            l.leftovers l.substituted ∈ t.notices.queue) ∨
          (t.lane i = { m with
              state := .reporting, outcome := some .abandoned
              slot := if left i = true then none else l.slot, band := if left i = true then none else l.band } ∧
            Submitter.lane i ∈ t.notices.waiting)) ∧
      (left i = false → l.state = .arming ∨ l.state = .driving → t.lane i = { m with state := .abandoning }) ∧
      (left i = false → l.state = .free ∨ l.state = .abandoning ∨ l.state = .reporting → t.lane i = m)) ∧
    (∀ u : State, u = { s with cache := { s.cache with
        a := { s.cache.a with
          refs := s.cache.a.refs - allLanes.countP (fun i => left i && (s.lane i).slot = some .a) }
        b := { s.cache.b with
          refs := s.cache.b.refs - allLanes.countP (fun i => left i && (s.lane i).slot = some .b) } } } →
      (allLanes.any left = true → t.cache = u.evalTrigger.cache ∧ t.flash = u.evalTrigger.flash) ∧
      (allLanes.any left = false → t.cache = s.cache ∧ t.flash = s.flash))

/-- R109, R110, R99, R104, R13: what an event that abandons makes of the scan engine, the panel and the arbiter of `s` in
`t`.  With no lane in flight, or in a sweep, nothing.  Otherwise the frame is cut: the outputs go idle (that the gate
is disabled with them is the model's choice, log entry 16) and the lane set is lost.  A window ends and its line's
commit is asked for, a commit goes on; with no commit to run, the sweep begins at line 0 and asks for its first read,
but a read of the line in preparation that has the memory runs to its end first. -/
def State.frameCut (s t : State) : Prop :=
  (s.lanesInFlight = false ∨ (∃ y, s.scan.pos = .sweep y) →
    t.scan = s.scan ∧ t.panel = s.panel ∧ t.arb = s.arb.grant) ∧
  (s.lanesInFlight = true → s.scan.pos ≠ .stopped → (∀ y, s.scan.pos ≠ .sweep y) →
    t.panel = { s.panel with gstart := false, soe := false, goe := false, gate := .none }) ∧
  (s.sweepsAtOnce = true →
    t.scan = { Scan.stopped with
      pos := .sweep 0, todo := (List.range ((s.columns + 255) / 256)).map .readCells } ∧
    ((∀ d, s.arb.running ≠ some (.scanRead d)) → t.arb.running = some .sweep ∨ t.arb.scan = some .sweep) ∧
    (∀ y, s.scan.pos = .line y .reading → s.arb.running = some (.scanRead false) →
      t.arb = { s.arb with running := some (.scanRead true), scan := none })) ∧
  (∀ y, s.lanesInFlight = true → s.scan.pos = .line y .window → commitWrites s.columns y s.scan ≠ [] →
    t.scan = { s.scan with
      pos := .line y .commit, todo := commitWrites s.columns y s.scan, cut := true, lineTimer := none
      windowTimer := none, arming := [], driving := [], limits := none } ∧
    (t.arb.running = some .commit ∨ t.arb.scan = some .commit)) ∧
  (∀ y, s.lanesInFlight = true → s.scan.pos = .line y .commit →
    t.scan = { s.scan with cut := true, lineTimer := none, arming := [], driving := [], limits := none } ∧
    t.arb = s.arb.grant)

/-! ### Words for requests and replies -/

/-- The command of a request kind. -/
def RequestKind.command (k : RequestKind) (tag : Byte) (payload : List Byte) (check : Word) : Instr :=
  match k with
  | .draw => .draw tag payload check
  | .fill => .fill tag payload check
  | .update => .update tag payload check
  | .cancel => .cancel tag payload check
  | .probe => .probe tag payload check
  | .temp => .temp tag payload check
  | .setLimits => .setLimits tag payload check
  | .setThermal => .setThermal tag payload check
  | .setPower => .setPower tag payload check
  | .shutdown => .shutdown tag payload check
  | .halt => .halt tag payload check
  | .clearFault => .clearFault tag payload check
  | .fetch => .fetch tag payload check
  | .status => .status tag payload check

/-- The command of a kind with the check a correct sender puts into the frame (R165). -/
def RequestKind.sent (k : RequestKind) (tag : Byte) (payload : List Byte) : Instr :=
  k.command tag payload (frameCheck k.code tag payload)

/-- The link is receiving, and what it has received is the beginning of this correct frame. -/
abbrev State.receives (s : State) (k : RequestKind) (tag : Byte) (payload : List Byte) : Prop :=
  s.link.state = .receiving ∧ s.link.received <+: frameBytes k.code tag payload (frameCheck k.code tag payload)

/-- The link in ANSWERING with a reply ready (R168). -/
def Link.answered (kind tag : Byte) (r : Reply) : Link :=
  { state := .answering, received := [], reply := some (replyFrame kind tag r), sent := 0, probeTag := none }

/-- A field of two bytes carries the value. -/
abbrev fits16 (n : Nat) : Prop := n < 65536

/-! ### Runs -/

/-- Byte boundaries one after another, with the bytes on SDI. -/
def clockBytes : List Byte → State → Result
  | [], s => .next s
  | b :: bs, s =>
    match exec (.byteBoundary b) s with
    | .next t => clockBytes bs t
    | .fault r => .fault r
    | .refused r => .refused r

end Sys2Proof.Machine
end

