-- ==== Sys2Proof/Certificates/Slice0/Obligations.lean ====
section
/-! DEFINITION. The statements about the model.  A result is written as an equation `exec c s = .next t`
whose `t` names every block that changes, so that it is the command's frame too; where a block's new value
is described field by field, `t` with those blocks put back equals `s`.  In request statements `arb` is
the arbiter after the grant at the command's end, which is `s.arb` itself whenever no access waits beside
a free memory (`Obligations.ArbiterAndSettings`). -/

open Sys2Proof Sys2Proof.Machine

/-! ### The machine as a whole -/

/-- The step of a state whose queue begins with a command is that command's effect with the queue's rest;
with no command waiting nothing happens (log entry 7: the model's own queue). -/
def Obligations.StepRunsFrontCommand : Prop :=
  (∀ (s : State) (c : Instr) (rest : List Instr),
    s.pending = c :: rest → step s = exec c { s with pending := rest }) ∧
  (∀ s : State, s.pending = [] → step s = .next s)

/-- Every command completes in every state, and leaves the queue as it was.  Both are the model's choices: no
event stops the part (log entry 19, DEDUCED), a command whose event cannot occur leaves the state as it
is (log entry 6, DEDUCED), and the queue is the model's own, which no command touches (log entry 7). -/
def Obligations.EveryCommandCompletes : Prop :=
  ∀ (c : Instr) (s : State), ∃ t, exec c s = .next t ∧ t.pending = s.pending

/-! ### Reset and selection -/

/-- R152 and each block's reset: after RESET every block but the pixel memory (R112: its records remain,
unread) and the slots' storage is as `State.reset` has it, and `State.reset` holds the values the manual
gives for reset (what it holds beside those is named in log entries 3 to 5 and 8).  R153, R162, R132: at
reset release the link waits in IGNORING if SS_N is low and in DESELECTED otherwise, both levels of each
good line are its raw level, and the read of header word 0 begins; nothing else changes. -/
def Obligations.ResetAndRelease : Prop :=
  ((∀ s : State, ∃ t, exec .reset s = .next t ∧ t.mem = s.mem ∧
    t.cache.a.state = .empty ∧ t.cache.a.band = none ∧ t.cache.a.refs = 0 ∧
    t.cache.b.state = .empty ∧ t.cache.b.band = none ∧ t.cache.b.refs = 0 ∧
    t.cache.reload = none ∧ t.cache.failed = [] ∧
    { t with mem := State.reset.mem, cache := State.reset.cache, choices := 0, pending := [] } = State.reset) ∧
  State.reset.loader.image = .header ∧ State.reset.flash.addr = 0 ∧ State.reset.flash.state = .idle ∧
  State.reset.flash.timing = { setup := 16, strobe := 64, hold := 16, waitLimit := 255, waitActiveHigh := true } ∧
  State.reset.wb.entries = [] ∧ State.reset.scan.pos = .stopped ∧ State.reset.panel.soe = false ∧
  State.reset.panel.goe = false ∧ State.reset.panel.gstart = false ∧
  State.reset.adm = { urgent := [], normal := [], nextId := 1, nextOrder := 0, mode := .normal } ∧
  (∀ i, State.reset.lane i = Lane.free) ∧ State.reset.limits = { taken := none, inForce := none } ∧
  State.reset.thermal.sensor = .warming ∧ State.reset.thermal.history = [] ∧
  State.reset.thermal.timer = none ∧ State.reset.thermal.override = none ∧
  State.reset.power.state = .off ∧ State.reset.power.idleHold = 5000 ∧ State.reset.power.filter = 40 ∧
  State.reset.power.lastFault = none ∧ State.reset.notices = { queue := [], waiting := [] }) ∧
  ∀ (s : State) (ssLow : Bool) (raw : BitVec 4), s.resetHeld = true →
    ∃ t, exec (.resetRelease ssLow raw) s = .next t ∧
      (∀ i : Fin 4, t.goodLine i = { raw := raw.getLsbD i.val, filtered := raw.getLsbD i.val, timing := none }) ∧
      t = { s with
        resetHeld := false
        power := { s.power with lines := t.power.lines }
        link := { Link.atRest with state := if ssLow then .ignoring else .deselected }
        flash := { s.flash with state := .setup, addr := 0, clocks := s.flash.timing.setup, ext := 0,
                                result := none } }

/-! ### Bytes on the link -/

/-- R162, R171, R172: SS_N going low in DESELECTED starts a transaction with no byte received; SS_N going
high ends any transaction, with nothing kept of it but its effect, a PROBE that waits is withdrawn and the
result of one that runs is discarded.  R163, R164, R168, R173: a byte that does not complete a request is
kept; before the reply is ready, and in FINISHED, IGNORING and DESELECTED, a byte boundary changes
nothing. -/
def Obligations.TransactionsOpenAndClose : Prop :=
  (∀ s : State, s.link.state = .deselected → s.resetHeld = false →
    exec .select s = .next { s with
      link := { state := .receiving, received := [], reply := none, sent := 0, probeTag := none } }) ∧
  (∀ s : State, s.link.state ≠ .deselected → ∃ t, exec .deselect s = .next t ∧
    t.link = { state := .deselected, received := [], reply := none, sent := 0, probeTag := none } ∧
    t.arb.probe = none ∧ t.arb.scan = s.arb.scan ∧ t.arb.drain = s.arb.drain ∧
    ((∃ x y l, s.arb.running = some (.probe x y l) ∧ t.arb.running = some (.probe x y false)) ∨
      ((∀ x y l, s.arb.running ≠ some (.probe x y l)) ∧ t.arb.running = s.arb.running)) ∧
    { t with link := s.link, arb := s.arb } = s) ∧
  (∀ (s : State) (b : Byte), s.link.state = .receiving →
    frameStatus (s.link.received ++ [b]) = .incomplete →
    exec (.byteBoundary b) s = .next { s with link := { s.link with received := s.link.received ++ [b] } }) ∧
  (∀ (s : State) (b : Byte), s.link.state = .answering → s.link.reply = none →
    exec (.byteBoundary b) s = .next s) ∧
  (∀ (s : State) (b : Byte),
    s.link.state = .finished ∨ s.link.state = .ignoring ∨ s.link.state = .deselected →
    exec (.byteBoundary b) s = .next s)

/-- R162, R168: once the reply is ready, the next byte boundary enters REPLYING, the host then reads the
reply's bytes in order, and the boundary after the last byte enters FINISHED; whatever is on SDI, nothing
but the link changes. -/
def Obligations.ReplyIsReadOut : Prop :=
  ∀ (s : State) (f sdi : List Byte), s.link.state = .answering → s.link.reply = some f → f ≠ [] →
    sdi.length = 1 + f.length →
    (∃ t, clockBytes sdi s = .next t ∧ t.link.state = .finished ∧ { t with link := s.link } = s) ∧
    (∀ k, k < f.length → ∃ u, clockBytes (sdi.take (1 + k)) s = .next u ∧
      u.link.state = .replying ∧ u.sdo = some (f.getD k 0) ∧ { u with link := s.link } = s)

/-- A request clocked in byte by byte comes to the same state as the command of its kind: for every kind,
tag, payload that a frame can carry and check, right or wrong (R164, R166, R168; that both ways of taking a
request exist is the model's choice, log entry 14). -/
def Obligations.RequestByteByByte : Prop :=
  ∀ (s : State) (k : RequestKind) (tag : Byte) (payload : List Byte) (check : Word),
    s.link.state = .receiving → s.link.received = [] → payload.length ≤ 272 →
    clockBytes (frameBytes k.code tag payload check) s = exec (k.command tag payload check) s

/-- R164, R166, R169: a missing start byte is answered BAD_FRAME with kind and tag 0; a length above 272
BAD_LENGTH, a check mismatch BAD_FRAME and an undefined kind BAD_KIND, each with kind and tag echoed; and
nothing else changes. -/
def Obligations.MalformedIsRefused : Prop :=
  (∀ (s : State) (b : Byte), s.link.state = .receiving → s.link.received = [] → b ≠ 0xC3 →
    exec (.malformedRequest [b]) s = .next { s with
      link := Link.answered 0 0 (.of .badFrame), arb := s.arb.grant }) ∧
  (∀ (s : State) (kind tag lo hi : Byte), s.link.state = .receiving →
    s.link.received <+: [0xC3, kind, tag, lo, hi] → 272 < lo.toNat + 256 * hi.toNat →
    exec (.malformedRequest [0xC3, kind, tag, lo, hi]) s = .next { s with
      link := Link.answered kind tag (.of .badLength), arb := s.arb.grant }) ∧
  (∀ (s : State) (kind tag : Byte) (p : List Byte) (check : Word), s.link.state = .receiving →
    p.length ≤ 272 → s.link.received <+: frameBytes kind tag p check → check ≠ frameCheck kind tag p →
    exec (.malformedRequest (frameBytes kind tag p check)) s = .next { s with
      link := Link.answered kind tag (.of .badFrame), arb := s.arb.grant }) ∧
  (∀ (s : State) (kind tag : Byte) (p : List Byte), s.link.state = .receiving →
    p.length ≤ 272 → s.link.received <+: frameBytes kind tag p (frameCheck kind tag p) →
    kind.toNat = 0 ∨ 14 < kind.toNat →
    exec (.malformedRequest (frameBytes kind tag p (frameCheck kind tag p))) s = .next { s with
      link := Link.answered kind tag (.of .badKind), arb := s.arb.grant })

/-- R166, R181, R182, R183: the link's five tests: which correct frames of each kind pass them; and the cause
of the first that fails, in their order: a wrong check BAD_FRAME, an undefined kind BAD_KIND, a length the
kind does not allow BAD_LENGTH, a coded field without a listed code BAD_FIELD, and a DRAW whose length is
not that of its count BAD_LENGTH. -/
def Obligations.PassingTheLinkTests : Prop :=
  (∀ (kind tag : Byte) (p : List Byte) (check : Word),
    (check ≠ frameCheck kind tag p → linkTests kind tag p check = .error .badFrame) ∧
    (check = frameCheck kind tag p → kind.toNat = 0 ∨ 14 < kind.toNat →
      linkTests kind tag p check = .error .badKind)) ∧
  (∀ (k : RequestKind) (tag : Byte) (p : List Byte) (length field agrees : Prop),
    (length ↔ match k with
      | .draw => 6 ≤ p.length ∧ p.length ≤ 262
      | .fill => p.length = 9
      | .update => p.length = 10
      | .cancel => p.length = 2
      | .probe | .setLimits | .setPower => p.length = 4
      | .temp | .setThermal => p.length = 3
      | .shutdown | .halt | .clearFault | .fetch | .status => p.length = 0) →
    (field ↔ match k with
      | .draw => 1 ≤ u16At p 4 % 1024 ∧ u16At p 4 % 1024 ≤ 512
      | .fill => byteAt p 8 ≤ 15
      | .update => byteAt p 8 % 4 ≤ 2 ∧ byteAt p 9 ≤ 1
      | .temp => byteAt p 0 ≤ 1
      | _ => True) →
    (agrees ↔ (k = .draw → p.length = 6 + u16At p 4 % 1024 / 2)) →
    (¬ length → linkTests k.code tag p (frameCheck k.code tag p) = .error .badLength) ∧
    (length → ¬ field → linkTests k.code tag p (frameCheck k.code tag p) = .error .badField) ∧
    (length → field → ¬ agrees → linkTests k.code tag p (frameCheck k.code tag p) = .error .badLength)) ∧
  (∀ (k : RequestKind) (tag : Byte) (p : List Byte),
    linkTests k.code tag p (frameCheck k.code tag p) = .ok k ↔
      match k with
      | .draw => 1 ≤ u16At p 4 % 1024 ∧ u16At p 4 % 1024 ≤ 512 ∧ p.length = 6 + u16At p 4 % 1024 / 2
      | .fill => p.length = 9 ∧ byteAt p 8 ≤ 15
      | .update => p.length = 10 ∧ byteAt p 8 % 4 ≤ 2 ∧ byteAt p 9 ≤ 1
      | .cancel => p.length = 2
      | .probe | .setLimits | .setPower => p.length = 4
      | .temp => p.length = 3 ∧ byteAt p 0 ≤ 1
      | .setThermal => p.length = 3
      | .shutdown | .halt | .clearFault | .fetch | .status => p = [])

/-- R166, R167, R170: a request that fails a link test is answered that test's cause, and one that passes
them but is not STATUS or FETCH is answered STARTING in LOADING and NO_IMAGE in INVALID; the request
changes nothing else. -/
def Obligations.LinkAnswersChangeNothing : Prop :=
  (∀ (s : State) (k : RequestKind) (tag : Byte) (p : List Byte) (check : Word) (c : Cause),
    s.link.state = .receiving → p.length ≤ 272 → s.link.received <+: frameBytes k.code tag p check →
    linkTests k.code tag p check = .error c →
    exec (k.command tag p check) s = .next { s with
      link := Link.answered k.code tag (.of c), arb := s.arb.grant }) ∧
  (∀ (s : State) (k : RequestKind) (tag : Byte) (p : List Byte),
    s.receives k tag p → p.length ≤ 272 →
    linkTests k.code tag p (frameCheck k.code tag p) = .ok k → k ≠ .status → k ≠ .fetch →
    ((s.loader.image = .header ∨ s.loader.image = .initialising) →
      exec (k.sent tag p) s = .next { s with
        link := Link.answered k.code tag (.of .starting), arb := s.arb.grant }) ∧
    ((∃ r, s.loader.image = .invalid r) →
      exec (k.sent tag p) s = .next { s with
        link := Link.answered k.code tag (.of .noImage), arb := s.arb.grant }))

/-- R165: a change confined to one byte of the bytes a check covers changes the check, so that a frame
corrupted in one byte fails test 1 of R166. -/
def Obligations.ByteErrorIsDetected : Prop :=
  ∀ (before after : List Byte) (a b : Byte), a ≠ b →
    crc16 (before ++ a :: after) ≠ crc16 (before ++ b :: after)

/-! ### DRAW and FILL -/

/-- R8, R9, R181, R183: a DRAW of 1 to 512 levels that begins on the panel joins the write buffer clipped at
the last column, and a FILL whose rectangle meets the panel joins it clipped to the panel; each is answered
DONE, and asks for the drain's access if the buffer was empty. -/
def Obligations.WritesJoinBuffer : Prop :=
  (∀ (s : State) (tag : Byte) (spare y x : Nat) (levels : List Level),
    s.loader.image = .valid → s.receives .draw tag (drawPayload spare y x levels) → fits16 y → fits16 x →
    1 ≤ levels.length → levels.length ≤ 512 → y < s.panelLines → x < s.columns → s.wb.entries.length < 4 →
    exec (RequestKind.draw.sent tag (drawPayload spare y x levels)) s = .next { s with
      wb := { s.wb with entries := s.wb.entries ++ [.draw y x (levels.take (s.columns - x))] }
      arb := { s.arb with drain := s.arb.drain || s.wb.entries.isEmpty }.grant
      link := Link.answered 0x01 tag (.done []) }) ∧
  (∀ (s : State) (tag : Byte) (r : Rect) (level : Level),
    s.loader.image = .valid → s.receives .fill tag (fillPayload r level) →
    fits16 r.x0 → fits16 r.y0 → fits16 r.x1 → fits16 r.y1 →
    r.x0 ≤ min r.x1 (s.columns - 1) → r.y0 ≤ min r.y1 (s.panelLines - 1) → s.wb.entries.length < 4 →
    exec (RequestKind.fill.sent tag (fillPayload r level)) s = .next { s with
      wb := { s.wb with entries := s.wb.entries ++
        [.fill { r with x1 := min r.x1 (s.columns - 1), y1 := min r.y1 (s.panelLines - 1) } level] }
      arb := { s.arb with drain := s.arb.drain || s.wb.entries.isEmpty }.grant
      link := Link.answered 0x02 tag (.done []) })

/-- R8, R9: a DRAW or FILL with no pixel on the panel is REFUSED with REGION, the buffer full or not, and
one with pixels on it is answered RETRY with WRITE_FULL while the buffer holds four entries; nothing else
changes. -/
def Obligations.WritesTurnedAway : Prop :=
  (∀ (s : State) (tag : Byte) (spare y x : Nat) (levels : List Level),
    s.loader.image = .valid → s.receives .draw tag (drawPayload spare y x levels) → fits16 y → fits16 x →
    1 ≤ levels.length → levels.length ≤ 512 →
    ((s.panelLines ≤ y ∨ s.columns ≤ x) →
      exec (RequestKind.draw.sent tag (drawPayload spare y x levels)) s = .next { s with
        link := Link.answered 0x01 tag (.of .region), arb := s.arb.grant }) ∧
    (y < s.panelLines → x < s.columns → 4 ≤ s.wb.entries.length →
      exec (RequestKind.draw.sent tag (drawPayload spare y x levels)) s = .next { s with
        link := Link.answered 0x01 tag (.of .writeFull), arb := s.arb.grant })) ∧
  (∀ (s : State) (tag : Byte) (r : Rect) (level : Level),
    s.loader.image = .valid → s.receives .fill tag (fillPayload r level) →
    fits16 r.x0 → fits16 r.y0 → fits16 r.x1 → fits16 r.y1 →
    ((min r.x1 (s.columns - 1) < r.x0 ∨ min r.y1 (s.panelLines - 1) < r.y0) →
      exec (RequestKind.fill.sent tag (fillPayload r level)) s = .next { s with
        link := Link.answered 0x02 tag (.of .region), arb := s.arb.grant }) ∧
    (r.x0 ≤ min r.x1 (s.columns - 1) → r.y0 ≤ min r.y1 (s.panelLines - 1) → 4 ≤ s.wb.entries.length →
      exec (RequestKind.fill.sent tag (fillPayload r level)) s = .next { s with
        link := Link.answered 0x02 tag (.of .writeFull), arb := s.arb.grant }))

/-! ### UPDATE -/

/-- R51, R52, R53, R59, R133, R140: an accepted UPDATE becomes the last entry of its FIFO with its id, order,
clipped rectangle and fence, both counters advance, and it is answered DEFERRED with the id. In OFF the rise
starts. In ON the idle hold timer stops; with the scan engine STOPPED and work now ready, a frame begins in the
same event (`State.readyTested`); with a frame or a sweep running, or no work ready (its fence is not empty,
say), the entry stays pending and nothing else changes. In the other power states nothing else changes. -/
def Obligations.UpdateBecomesPending : Prop :=
  ∀ (s : State) (tag : Byte) (spare : Nat) (r : Rect) (m : Mode) (c : UpdateClass) (ne : Bool)
    (e : Pending) (a : Admission) (l : Link),
    s.loader.image = .valid → s.receives .update tag (updatePayload spare r m c ne) →
    fits16 r.x0 → fits16 r.y0 → fits16 r.x1 → fits16 r.y1 →
    r.x0 ≤ min r.x1 (s.columns - 1) → r.y0 ≤ min r.y1 (s.panelLines - 1) →
    s.adm.mode = .normal → (s.adm.fifo c).length < c.depth → s.quiet = true →
    e = { id := s.freeId 49 s.adm.nextId, order := s.adm.nextOrder
          area := { r with x1 := min r.x1 (s.columns - 1), y1 := min r.y1 (s.panelLines - 1) }
          mode := m, cls := c, noEscalate := ne, fence := s.wb.entries.length, marked := false } →
    a = { s.adm.setFifo c (s.adm.fifo c ++ [e]) with
          nextId := nextUpdateId e.id, nextOrder := s.adm.nextOrder + 1 } →
    l = Link.answered 0x03 tag { cls := .deferred, data := le16 e.id } →
    match s.power.state with
    | .off => exec (RequestKind.update.sent tag (updatePayload spare r m c ne)) s = .next { s with
        adm := a, link := l, arb := s.arb.grant
        power := { s.power with
          state := .rising 1, stageTimer := some ((s.stage 1).t * 10)
          blankTimer := if (s.stage 1).condition = .delay then none else some (s.blankInterval 1) } }
    | .on => ∀ u : State, u = { s with adm := a, link := l, power := { s.power with idleTimer := none } } →
        (s.scan.pos = .stopped ∧ u.readyWork = true →
          ∃ t, exec (RequestKind.update.sent tag (updatePayload spare r m c ne)) s = .next t ∧ u.readyTested t) ∧
        (¬ (s.scan.pos = .stopped ∧ u.readyWork = true) →
          exec (RequestKind.update.sent tag (updatePayload spare r m c ne)) s = .next { u with arb := s.arb.grant })
    | .rising _ | .falling _ | .fault =>
        exec (RequestKind.update.sent tag (updatePayload spare r m c ne)) s = .next { s with
          adm := a, link := l, arb := s.arb.grant }

/-- R51: the tests of an UPDATE in their order: an empty rectangle is REFUSED with REGION, then DRAINING
with STOPPING, then a full FIFO is answered RETRY with QUEUE_FULL; nothing else changes. -/
def Obligations.UpdateTurnedAway : Prop :=
  ∀ (s : State) (tag : Byte) (spare : Nat) (r : Rect) (m : Mode) (c : UpdateClass) (ne : Bool),
    s.loader.image = .valid → s.receives .update tag (updatePayload spare r m c ne) →
    fits16 r.x0 → fits16 r.y0 → fits16 r.x1 → fits16 r.y1 →
    ((min r.x1 (s.columns - 1) < r.x0 ∨ min r.y1 (s.panelLines - 1) < r.y0) →
      exec (RequestKind.update.sent tag (updatePayload spare r m c ne)) s = .next { s with
        link := Link.answered 0x03 tag (.of .region), arb := s.arb.grant }) ∧
    (r.x0 ≤ min r.x1 (s.columns - 1) → r.y0 ≤ min r.y1 (s.panelLines - 1) → s.adm.mode = .draining →
      exec (RequestKind.update.sent tag (updatePayload spare r m c ne)) s = .next { s with
        link := Link.answered 0x03 tag (.of .stopping), arb := s.arb.grant }) ∧
    (r.x0 ≤ min r.x1 (s.columns - 1) → r.y0 ≤ min r.y1 (s.panelLines - 1) → s.adm.mode = .normal →
      c.depth ≤ (s.adm.fifo c).length →
      exec (RequestKind.update.sent tag (updatePayload spare r m c ne)) s = .next { s with
        link := Link.answered 0x03 tag (.of .queueFull), arb := s.arb.grant })

/-- R59, R56, R57, R70, R98, R99, R23: with the rails ON, no frame running, nothing pending, every lane FREE,
the write buffer empty and slot A READY with the current band, an accepted UPDATE arms in its own event, in
lane 12 for URGENT and lane 0 for NORMAL, and the frame that arms it begins at line 0, its lane set being that
lane in ARMING and no other, its reference taken on slot A. -/
def Obligations.UpdateStartsFrame : Prop :=
  ∀ (s : State) (tag : Byte) (spare : Nat) (r : Rect) (m : Mode) (c : UpdateClass) (ne : Bool),
    s.loader.image = .valid → s.receives .update tag (updatePayload spare r m c ne) →
    fits16 r.x0 → fits16 r.y0 → fits16 r.x1 → fits16 r.y1 →
    r.x0 ≤ min r.x1 (s.columns - 1) → r.y0 ≤ min r.y1 (s.panelLines - 1) →
    s.adm.mode = .normal → s.adm.urgent = [] → s.adm.normal = [] → s.wb.entries = [] →
    s.power.state = .on → s.scan.pos = .stopped → (∀ i, s.lane i = Lane.free) →
    s.cache.a.state = .ready → s.cache.a.band = some s.thermal.band →
    ∃ t lane, exec (RequestKind.update.sent tag (updatePayload spare r m c ne)) s = .next t ∧
      lane = (if c = .urgent then (12 : LaneId) else 0) ∧
      t.lane lane = { Lane.free with
        state := .arming, id := some (s.freeId 49 s.adm.nextId), order := some s.adm.nextOrder
        mode := some m, cls := some c, noEscalate := ne, pass := some 1
        region := some { r with x1 := min r.x1 (s.columns - 1), y1 := min r.y1 (s.panelLines - 1) }
        slot := some .a, band := some s.thermal.band } ∧
      (∀ j, j ≠ lane → t.lane j = Lane.free) ∧ t.adm.urgent = [] ∧ t.adm.normal = [] ∧
      t.limits.inForce = s.limits.taken ∧ t.cache = { s.cache with a := { s.cache.a with refs := s.cache.a.refs + 1 } } ∧
      t.scan.arming = [{ lane := lane, order := s.adm.nextOrder, mode := m, noEscalate := ne, slot := .a
                         region := { r with x1 := min r.x1 (s.columns - 1), y1 := min r.y1 (s.panelLines - 1) } }] ∧
      t.scan.driving = [] ∧
      t.scan.pos = .line 0 .reading ∧ t.scan.limits = s.limits.taken ∧ t.panel.gstart = true ∧
      t.panel.gate = .line 0 ∧ t.power.idleTimer = none ∧ t.mem = s.mem ∧ t.notices = s.notices

/-- R52: with every queue within its capacity, the id an accepted UPDATE is given lies in 1 to 65535 and is
held by no pending entry and by no lane that is not FREE. -/
def Obligations.UpdateIdIsFresh : Prop :=
  ∀ s : State, s.queuesFit = true → 1 ≤ s.adm.nextId → s.adm.nextId ≤ 65535 →
    1 ≤ s.freeId 49 s.adm.nextId ∧ s.freeId 49 s.adm.nextId ≤ 65535 ∧ s.freeId 49 s.adm.nextId ∉ s.heldIds

/-! ### CANCEL -/

/-- R60, R61, R175, R55, R140, R63: the CANCEL of a pending entry, in every power state and either mode. An
entry already marked stays as it is, and nothing changes but the reply. An unmarked one is marked: with notice
room and no submission waiting, its UPDATE_END notice, CANCELLED with passes 0, is queued and the entry leaves
its FIFO from where it stands, in one event; otherwise it stays, marked, and the admission unit waits, once, at
the tail of the waiting list. Where idleness begins in ON with it, the idle hold starts or, with an idle hold of
0, the fall; where it was the last thing a draining waited for, DRAIN_DONE follows and the mode is NORMAL. -/
def Obligations.CancelRemovesPending : Prop :=
  ∀ (s u : State) (tag : Byte) (p : Pending) (power : Power) (drained : Prop),
    s.loader.image = .valid → s.receives .cancel tag (le16 p.id) → fits16 p.id →
    p ∈ s.adm.urgent ++ s.adm.normal → ((s.adm.urgent ++ s.adm.normal).map (fun q => q.id)).Nodup →
    s.quiet = true →
    u = (if s.notices.updateEnds < 31 ∧ s.notices.waiting = [] then
        { s with
          adm := { s.adm with
            urgent := s.adm.urgent.filter (fun q => q.id ≠ p.id)
            normal := s.adm.normal.filter (fun q => q.id ≠ p.id) }
          notices := { s.notices with queue := s.notices.queue ++ [.updateEnd p.id .cancelled 0 0 0 0 false] } }
      else
        { s with
          adm := { s.adm with
            urgent := s.adm.urgent.map (fun q => if q.id = p.id then { q with marked := true } else q)
            normal := s.adm.normal.map (fun q => if q.id = p.id then { q with marked := true } else q) }
          notices := { s.notices with
            waiting := if Submitter.admission ∈ s.notices.waiting then s.notices.waiting
              else s.notices.waiting ++ [.admission] } }) →
    power = (if s.power.state = .on ∧ s.adm.mode = .normal ∧ u.idle = true then
        (if s.power.idleHold = 0 then
          { s.power with
            state := .falling s.stageCount, stageTimer := some ((s.stage s.stageCount).fall * 10)
            blankTimer := none, monitored := [], idleTimer := none }
        else { s.power with idleTimer := some s.power.idleHold })
      else s.power) →
    (drained ↔ s.adm.mode = .draining ∧ s.power.state = .off ∧ (∀ i, (s.lane i).state = .free) ∧
      u.adm.urgent = [] ∧ u.adm.normal = []) →
    (p.marked = true →
      exec (RequestKind.cancel.sent tag (le16 p.id)) s = .next { s with
        link := Link.answered 0x04 tag (.done []), arb := s.arb.grant }) ∧
    (p.marked = false → ¬ drained →
      exec (RequestKind.cancel.sent tag (le16 p.id)) s = .next { u with
        power := power, link := Link.answered 0x04 tag (.done []), arb := s.arb.grant }) ∧
    (p.marked = false → drained →
      exec (RequestKind.cancel.sent tag (le16 p.id)) s = .next { u with
        adm := { u.adm with mode := .normal }
        notices := { u.notices with queue := coalesceInto (.drainDone 1) u.notices.queue }
        link := Link.answered 0x04 tag (.done []), arb := s.arb.grant })

/-- R84, R91: the CANCEL of an id that no pending entry holds: in ARMING or DRIVING it sets the lane's cancel
flag and nothing else; in WAITING, where the rails are ON (R94), the update ends CANCELLED: with notice room
its notice is queued and the lane is FREE, without it the lane waits in REPORTING; then a lane that became
FREE lets ready work start a frame (R59), and idleness that begins starts the idle hold or, with an idle
hold of 0, the fall (R140); where no lane but one in ABANDONING or REPORTING holds the id the request is
REFUSED with UNKNOWN_ID. -/
def Obligations.CancelReachesLane : Prop :=
  ∀ (s : State) (tag : Byte) (id : Nat),
    s.loader.image = .valid → s.receives .cancel tag (le16 id) → fits16 id →
    (∀ q ∈ s.adm.urgent ++ s.adm.normal, q.id ≠ id) →
    (∀ i, ((s.lane i).state = .arming ∨ (s.lane i).state = .driving) → (s.lane i).id = some id →
      (∀ j, (s.lane j).state ≠ .free → (s.lane j).id = some id → j = i) →
      exec (RequestKind.cancel.sent tag (le16 id)) s = .next { s.setLane i { s.lane i with cancel := true } with
        link := Link.answered 0x04 tag (.done []), arb := s.arb.grant }) ∧
    (∀ i (u : State), (s.lane i).state = .waiting → (s.lane i).id = some id →
      (∀ j, (s.lane j).state ≠ .free → (s.lane j).id = some id → j = i) →
      s.railsGuarded = true → s.quiet = true →
      u = (if s.notices.updateEnds < 31 ∧ s.notices.waiting = [] then
          { s.setLane i Lane.free with
            notices := { s.notices with
              queue := s.notices.queue ++ [.updateEnd id .cancelled ((s.lane i).pass.getD 0) (s.lane i).armed
                (s.lane i).escalated (s.lane i).leftovers (s.lane i).substituted] } }
        else
          { s.setLane i { s.lane i with state := .reporting, outcome := some .cancelled } with
            notices := { s.notices with waiting := s.notices.waiting ++ [.lane i] } }) →
      s.power.state = .on ∧
      ((u.lane i).state = .free ∧ s.scan.pos = .stopped ∧ u.readyWork = true →
        ∃ t, exec (RequestKind.cancel.sent tag (le16 id)) s = .next t ∧
          ({ u with link := Link.answered 0x04 tag (.done []) }).readyTested t) ∧
      (¬ ((u.lane i).state = .free ∧ s.scan.pos = .stopped ∧ u.readyWork = true) →
        exec (RequestKind.cancel.sent tag (le16 id)) s = .next { u with
          link := Link.answered 0x04 tag (.done []), arb := s.arb.grant
          power := if u.idle = true then
              (if s.power.idleHold = 0 then
                { s.power with
                  state := .falling s.stageCount, stageTimer := some ((s.stage s.stageCount).fall * 10)
                  blankTimer := none, monitored := [], idleTimer := none }
              else { s.power with idleTimer := some s.power.idleHold })
            else s.power })) ∧
    ((∀ j, (s.lane j).id = some id →
        (s.lane j).state = .free ∨ (s.lane j).state = .abandoning ∨ (s.lane j).state = .reporting) →
      exec (RequestKind.cancel.sent tag (le16 id)) s = .next { s with
        link := Link.answered 0x04 tag (.of .unknownId), arb := s.arb.grant })

/-! ### PROBE -/

/-- R16, R168: a PROBE of a pixel on the panel asks for one access and leaves the transaction in ANSWERING
without a reply; one off the panel is REFUSED with REGION. -/
def Obligations.ProbeAsksOneAccess : Prop :=
  ∀ (s : State) (tag : Byte) (x y : Nat),
    s.loader.image = .valid → s.receives .probe tag (le16 x ++ le16 y) → fits16 x → fits16 y →
    (x < s.columns → y < s.panelLines →
      exec (RequestKind.probe.sent tag (le16 x ++ le16 y)) s = .next { s with
        arb := { s.arb with probe := some (x, y) }.grant
        link := { state := .answering, received := [], reply := none, sent := 0, probeTag := some tag } }) ∧
    ((s.columns ≤ x ∨ s.panelLines ≤ y) →
      exec (RequestKind.probe.sent tag (le16 x ++ le16 y)) s = .next { s with
        link := Link.answered 0x05 tag (.of .region), arb := s.arb.grant })

/-- R16, R168, R172: when the PROBE access completes, the reply with the pixel's draft level and cell record
is ready, unless its transaction has ended; nothing else changes but the arbiter, which grants the next
waiting access (and the count of its open choices, log entry 2).  The reply takes the values at the
completion, where R16 and R12 give those at the grant: that they are the same is the model's inference
(log entry 10, DEDUCED). -/
def Obligations.ProbeReplyReady : Prop :=
  ∀ (s : State) (x y : Nat) (live : Bool), s.arb.running = some (.probe x y live) →
    ∃ t, exec .probeAccessComplete s = .next t ∧
      { t with link := s.link, arb := s.arb, choices := s.choices } = s ∧ t.arb.settled = true ∧
      (s.arb.scan = none → s.arb.drain = false → s.arb.probe = none →
        t.arb = { s.arb with running := none } ∧ t.choices = s.choices) ∧
      (live = false → t.link = s.link) ∧
      (∀ tag, live = true → s.link.probeTag = some tag →
        t.link = { s.link with
          reply := some (replyFrame 0x05 tag (.done (le16 x ++ le16 y ++ [byte (s.mem.draft x y).val] ++
            le32 (s.mem.cell x y).stored)))
          probeTag := none })

/-! ### Settings -/

/-- R37: SET-LIMITS clamps the pair, stores it as the taken copy and answers DONE with it, in every power
state, mode and lane state; in LOADING it is answered STARTING and with the image INVALID NO_IMAGE, with
nothing stored.  Every value of the two fields passes the link's tests; a frame boundary brings the pair
taken last into force and nothing else of the limits; and a STATUS reply does not show them. -/
def Obligations.SetLimitsStored : Prop :=
  (∀ (tag : Byte) (p : List Byte), p.length = 4 →
    linkTests 0x07 tag p (frameCheck 0x07 tag p) = .ok .setLimits) ∧
  (∀ (s : State) (k : Nat), s.scan.pos = .blank k → s.scan.lineTimer ≠ none → k + 1 = s.hdr.blankLines →
    s.power.state = .on →
    ∃ t, exec .frameBoundary s = .next t ∧ t.limits = { taken := s.limits.taken, inForce := s.limits.taken }) ∧
  (∀ (s : State) (l : LimitCopies), { s with limits := l }.statusBytes = s.statusBytes) ∧
  ∀ (s : State) (tag : Byte) (residue balance : Nat),
    s.receives .setLimits tag (le16 residue ++ le16 balance) → fits16 residue → fits16 balance →
    (s.loader.image = .valid →
      exec (RequestKind.setLimits.sent tag (le16 residue ++ le16 balance)) s = .next { s with
        limits := { s.limits with
          taken := some { residue := max 1 (min 63 residue), balance := max 1 (min 511 balance) } }
        link := Link.answered 0x07 tag
          (.done (le16 (max 1 (min 63 residue)) ++ le16 (max 1 (min 511 balance))))
        arb := s.arb.grant }) ∧
    ((s.loader.image = .header ∨ s.loader.image = .initialising) →
      exec (RequestKind.setLimits.sent tag (le16 residue ++ le16 balance)) s = .next { s with
        link := Link.answered 0x07 tag (.of .starting), arb := s.arb.grant }) ∧
    ((∃ r, s.loader.image = .invalid r) →
      exec (RequestKind.setLimits.sent tag (le16 residue ++ le16 balance)) s = .next { s with
        link := Link.answered 0x07 tag (.of .noImage), arb := s.arb.grant })

/-- R126: SET-THERMAL clamps and stores the period and the depth, restarts the sample timer with the new
period and answers DONE with both; the history, the band and a conversion in progress are not changed. -/
def Obligations.SetThermalStored : Prop :=
  ∀ (s : State) (tag : Byte) (period : Nat) (depth : Byte) (d : Nat),
    s.loader.image = .valid → s.receives .setThermal tag (le16 period ++ [depth]) → fits16 period →
    d = (if depth.toNat ≤ 1 then 1 else if depth.toNat ≤ 3 then 2 else if depth.toNat ≤ 7 then 4 else 8) →
    exec (RequestKind.setThermal.sent tag (le16 period ++ [depth])) s = .next { s with
      thermal := { s.thermal with
        period := some (max 1 (min 600 period)), depth := some d, timer := some (max 1 (min 600 period)) }
      link := Link.answered 0x08 tag (.done (le16 (max 1 (min 600 period)) ++ [byte d]))
      arb := s.arb.grant }

/-- R146: SET-POWER clamps the idle hold to 60,000 ms and the filter to the largest of 0, 20, 40 and 80 µs
not above it, stores both and answers DONE with both, in every power state and mode; a timer that runs and
a change that is being timed keep what they were started with; in LOADING and INVALID nothing is stored;
every value of the two fields passes the link's tests; the idle hold timer starts with the idle hold held,
and a raw change is timed with the filter time held; and reset returns 5,000 ms and 40 µs. -/
def Obligations.SetPowerStored : Prop :=
  (∀ (tag : Byte) (p : List Byte), p.length = 4 →
    linkTests 0x09 tag p (frameCheck 0x09 tag p) = .ok .setPower) ∧
  (∀ s : State, s.power.state = .on → s.adm.mode = .normal → s.idle = true →
    (∀ v, s.power.idleTimer = some v → s.settlePower = s) ∧
    (s.power.idleTimer = none → s.power.idleHold ≠ 0 →
      s.settlePower = { s with power := { s.power with idleTimer := some s.power.idleHold } })) ∧
  (∀ (s : State) (line : Fin 4) (high : Bool) (elapsed : Nat), s.resetHeld = false →
    (s.goodLine line).raw ≠ high → (s.goodLine line).filtered ≠ high → s.power.filter ≠ 0 →
    exec (.railGoodChange line high elapsed) s = .next
      (s.setLine line { raw := high, filtered := (s.goodLine line).filtered, timing := some s.power.filter })) ∧
  (∀ (s : State) (tag : Byte) (hold filter f : Nat),
    s.receives .setPower tag (le16 hold ++ le16 filter) → fits16 hold → fits16 filter →
    f = (if filter ≤ 19 then 0 else if filter ≤ 39 then 20 else if filter ≤ 79 then 40 else 80) →
    (s.loader.image = .valid →
      exec (RequestKind.setPower.sent tag (le16 hold ++ le16 filter)) s = .next { s with
        power := { s.power with idleHold := min 60000 hold, filter := f }
        link := Link.answered 0x09 tag (.done (le16 (min 60000 hold) ++ le16 f))
        arb := s.arb.grant }) ∧
    ((s.loader.image = .header ∨ s.loader.image = .initialising) →
      exec (RequestKind.setPower.sent tag (le16 hold ++ le16 filter)) s = .next { s with
        link := Link.answered 0x09 tag (.of .starting), arb := s.arb.grant }) ∧
    ((∃ r, s.loader.image = .invalid r) →
      exec (RequestKind.setPower.sent tag (le16 hold ++ le16 filter)) s = .next { s with
        link := Link.answered 0x09 tag (.of .noImage), arb := s.arb.grant })) ∧
  (∀ s t, exec .reset s = .next t → t.power.idleHold = 5000 ∧ t.power.filter = 40)

/-- R125, R123, R122, R124, R24, R59: TEMP with a temperature sets the clamped override and evaluates the band
from it; TEMP auto clears a set override, and the band becomes the fallback band when no sample is held and is
evaluated from the average of the latest samples (R121) when one is (the model decides by the history, log entry
18); auto with no override changes nothing. The reply carries the override and the band as they then stand. A
change of the band submits a BAND notice and is handed on in the same event: the cache evaluates its trigger and
the admission unit tests for ready work, in either order (`State.handedOn`; log entry 1). -/
def Obligations.TempMovesOverride : Prop :=
  (∀ (s : State) (tag : Byte) (v o : Int) (b : Band),
    s.loader.image = .valid → s.receives .temp tag (0 :: leInt16 v) → -32768 ≤ v → v ≤ 32767 →
    s.quiet = true → o = max (-160) (min 340 v) → b = evalBand s.hdr.bounds s.hdr.hysteresis o s.thermal.band →
    ∃ t, exec (RequestKind.temp.sent tag (0 :: leInt16 v)) s = .next t ∧
      t.thermal = { s.thermal with override := some o, band := b } ∧
      t.link = Link.answered 0x06 tag (.done ([1] ++ leInt16 o ++ [byte b.val])) ∧
      (b = s.thermal.band →
        t = { s with thermal := t.thermal, link := t.link, arb := s.arb.grant }) ∧
      (b ≠ s.thermal.band →
        t.notices = { s.notices with
          queue := coalesceInto (.band 1 b .override (some o)) s.notices.queue } ∧
        ({ s with thermal := t.thermal, notices := t.notices, link := t.link }).handedOn t ∧
        (t.scan = s.scan → t.arb = s.arb.grant))) ∧
  (∀ (s : State) (tag lo hi : Byte),
    s.loader.image = .valid → s.receives .temp tag [1, lo, hi] → s.quiet = true →
    (s.thermal.override = none →
      exec (RequestKind.temp.sent tag [1, lo, hi]) s = .next { s with
        link := Link.answered 0x06 tag (.done ([0] ++ leInt16 0 ++ [byte s.thermal.band.val]))
        arb := s.arb.grant }) ∧
    (s.thermal.override ≠ none → s.thermal.history = [] →
      ∃ t, exec (RequestKind.temp.sent tag [1, lo, hi]) s = .next t ∧
        t.thermal = { s.thermal with override := none, band := s.hdr.fallback } ∧
        t.link = Link.answered 0x06 tag (.done ([0] ++ leInt16 0 ++ [byte s.hdr.fallback.val])) ∧
        (s.hdr.fallback = s.thermal.band →
          t = { s with thermal := t.thermal, link := t.link, arb := s.arb.grant }) ∧
        (s.hdr.fallback ≠ s.thermal.band →
          t.notices = { s.notices with
            queue := coalesceInto (.band 1 s.hdr.fallback .fallback none) s.notices.queue } ∧
          ({ s with thermal := t.thermal, notices := t.notices, link := t.link }).handedOn t ∧
          (t.scan = s.scan → t.arb = s.arb.grant))) ∧
    (∀ (h : List Int) (a : Int) (b : Band), s.thermal.override ≠ none → h = s.thermal.history → h ≠ [] →
      a = (h.drop (h.length - min (s.thermal.depth.getD 1) h.length)).sum /
        ((min (s.thermal.depth.getD 1) h.length : Nat) : Int) →
      b = evalBand s.hdr.bounds s.hdr.hysteresis a s.thermal.band →
      ∃ t, exec (RequestKind.temp.sent tag [1, lo, hi]) s = .next t ∧
        t.thermal = { s.thermal with override := none, band := b } ∧
        t.link = Link.answered 0x06 tag (.done ([0] ++ leInt16 0 ++ [byte b.val])) ∧
        (b = s.thermal.band → t = { s with thermal := t.thermal, link := t.link, arb := s.arb.grant }) ∧
        (b ≠ s.thermal.band →
          t.notices = { s.notices with
            queue := coalesceInto (.band 1 b .sensor (some a)) s.notices.queue } ∧
          ({ s with thermal := t.thermal, notices := t.notices, link := t.link }).handedOn t ∧
          (t.scan = s.scan → t.arb = s.arb.grant))))

/-! ### SHUTDOWN, HALT, CLEAR-FAULT -/

/-- R62, R63, R86, R141, R61, R175, R176, R188: SHUTDOWN in DRAINING is REFUSED with STATE; accepted when
draining is over at once, it queues DRAIN_DONE and the mode stays NORMAL; accepted in ON with no work in hand,
it starts the fall from stage S in its own event. Whatever work is in hand, an accepted SHUTDOWN ends every
WAITING lane PARTIAL and cancel-marks every pending entry; their UPDATE_END notices are queued while there is
room (the lane is FREE, the entry gone), in increasing admission order (`State.endsInOrder`), and wait
otherwise; every other lane, with it those in ARMING and DRIVING, is left as it is; in ON the fall starts at
once unless a lane is in flight; and a DRAIN_DONE follows the UPDATE_ENDs when draining is over. -/
def Obligations.ShutdownDrains : Prop :=
  ∀ (s : State) (tag : Byte), s.loader.image = .valid → s.receives .shutdown tag [] →
    (s.adm.mode = .draining →
      exec (RequestKind.shutdown.sent tag []) s = .next { s with
        link := Link.answered 0x0A tag (.of .state), arb := s.arb.grant }) ∧
    (s.adm.mode = .normal → s.power.state = .off → (∀ i, (s.lane i).state = .free) →
      s.adm.urgent = [] → s.adm.normal = [] →
      exec (RequestKind.shutdown.sent tag []) s = .next { s with
        notices := { s.notices with queue := coalesceInto (.drainDone 1) s.notices.queue }
        link := Link.answered 0x0A tag { cls := .deferred, data := [] }, arb := s.arb.grant }) ∧
    (s.adm.mode = .normal → s.power.state = .on → s.laneActivity = false → s.quiet = true →
      s.adm.urgent = [] → s.adm.normal = [] →
      exec (RequestKind.shutdown.sent tag []) s = .next { s with
        adm := { s.adm with mode := .draining }
        power := { s.power with
          state := .falling s.stageCount, stageTimer := some ((s.stage s.stageCount).fall * 10)
          blankTimer := none, monitored := [], idleTimer := none }
        link := Link.answered 0x0A tag { cls := .deferred, data := [] }, arb := s.arb.grant }) ∧
    (s.adm.mode = .normal → s.quiet = true → s.railsGuarded = true → s.queuesFit = true →
      ∃ t es, exec (RequestKind.shutdown.sent tag []) s = .next t ∧
        t.link = Link.answered 0x0A tag { cls := .deferred, data := [] } ∧
        (∀ e ∈ es, Notice.isUpdateEnd e = true) ∧ s.endsInOrder t es ∧
        (t.adm.mode = .normal ↔
          t.power.state = .off ∧ t.allFree = true ∧ t.adm.urgent = [] ∧ t.adm.normal = []) ∧
        t.notices.queue = (if t.adm.mode = .normal then coalesceInto (.drainDone 1) (s.notices.queue ++ es)
          else s.notices.queue ++ es) ∧
        (∀ i, (s.lane i).state ≠ .waiting → t.lane i = s.lane i) ∧
        (∀ i, (s.lane i).state = .waiting →
          (t.lane i = Lane.free ∧
            Notice.updateEnd ((s.lane i).id.getD 0) .partially ((s.lane i).pass.getD 0) (s.lane i).armed
              (s.lane i).escalated (s.lane i).leftovers (s.lane i).substituted ∈ es) ∨
          (t.lane i = { s.lane i with state := .reporting, outcome := some .partially } ∧
            Submitter.lane i ∈ t.notices.waiting)) ∧
        (∀ p ∈ s.adm.urgent ++ s.adm.normal,
          { p with marked := true } ∈ t.adm.urgent ++ t.adm.normal ∨
            Notice.updateEnd p.id .cancelled 0 0 0 0 false ∈ es) ∧
        (∀ q ∈ t.adm.urgent ++ t.adm.normal, Submitter.admission ∈ t.notices.waiting ∧
          ∃ p ∈ s.adm.urgent ++ s.adm.normal, q = { p with marked := true }) ∧
        (s.notices.waiting = [] →
          s.notices.updateEnds + allLanes.countP (fun i => (s.lane i).state = .waiting) +
            (s.adm.urgent ++ s.adm.normal).length ≤ 31 → t.notices.waiting = []) ∧
        (31 ≤ s.notices.updateEnds ∨ s.notices.waiting ≠ [] → es = []) ∧
        t.power = (if s.power.state = .on then
            (if s.lanesInFlight = true then { s.power with idleTimer := none }
             else { s.power with
              state := .falling s.stageCount, stageTimer := some ((s.stage s.stageCount).fall * 10)
              blankTimer := none, monitored := [], idleTimer := none })
          else s.power) ∧
        { t.adm with urgent := s.adm.urgent, normal := s.adm.normal, mode := s.adm.mode } = s.adm ∧
        { t with lanes := s.lanes, adm := s.adm, notices := s.notices, power := s.power, link := s.link
                 arb := s.arb } = s)

/-- R143, R64, R88, R89, R109, R99, R13, R142, R176, R61: after a HALT, whatever the state it finds, no lane is
ARMING, DRIVING or WAITING, every pending entry is cancel-marked, the source outputs are disabled, the lane set
of a frame it cuts is lost, a read of the line in preparation that has the memory runs to its end with nothing
asked for beside it, while otherwise the sweep's first read is asked for at once, RISING and ON have become
FALLING from the stage R142 gives, and the write buffer, the pixel memory and the thermal unit are as they were.
What each lane becomes, with the cache: `State.lanesAbandoned` (one evaluation of the trigger there: log entry
13). What the scan engine, the panel and the arbiter become: `State.frameCut` (the disabled gate there is the
model's choice, log entry 16). The UPDATE_END notices of the lanes and entries that end join in increasing
admission order while there is room and wait otherwise (`State.endsInOrder`), entries without room stay, marked,
and a draining that is over ends with DRAIN_DONE. -/
def Obligations.HaltStopsEverything : Prop :=
  ∀ (s : State) (tag : Byte), s.loader.image = .valid → s.receives .halt tag [] → s.railsGuarded = true →
    ∃ t, exec (RequestKind.halt.sent tag []) s = .next t ∧ t.link = Link.answered 0x0B tag (.done []) ∧
      (∀ i, (t.lane i).state = .free ∨ (t.lane i).state = .abandoning ∨ (t.lane i).state = .reporting) ∧
      (∀ p ∈ t.adm.urgent ++ t.adm.normal, p.marked = true) ∧ t.panel.soe = false ∧
      t.power = (match s.power.state with
        | .rising k => { s.power with
            state := .falling k, stageTimer := some ((s.stage k).fall * 10)
            blankTimer := none, monitored := [], idleTimer := none }
        | .on => { s.power with
            state := .falling s.stageCount, stageTimer := some ((s.stage s.stageCount).fall * 10)
            blankTimer := none, monitored := [], idleTimer := none }
        | .off | .falling _ | .fault => s.power) ∧
      (s.lanesInFlight = true → (∀ y, s.scan.pos ≠ .sweep y) →
        t.scan.arming = [] ∧ t.scan.driving = [] ∧ t.scan.limits = none) ∧
      (∀ y, s.scan.pos = .line y .reading → s.lanesInFlight = true →
        (s.arb.running = some (.scanRead false) →
          t.arb = { s.arb with running := some (.scanRead true), scan := none }) ∧
        ((∀ d, s.arb.running ≠ some (.scanRead d)) →
          t.arb.running = some .sweep ∨ t.arb.scan = some .sweep)) ∧
      (s.quiet = true → s.lanesAbandoned t ∧ s.frameCut t) ∧
      (s.quiet = true → s.queuesFit = true → ∃ es : List Notice, s.endsInOrder t es ∧
        t.notices.queue = (if s.adm.mode = .draining ∧ t.adm.mode = .normal then
          coalesceInto (.drainDone 1) (s.notices.queue ++ es) else s.notices.queue ++ es) ∧
        (t.adm.mode = .normal ↔ s.adm.mode = .normal ∨
          (t.power.state = .off ∧ (∀ i, (t.lane i).state = .free) ∧ t.adm.urgent = [] ∧ t.adm.normal = [])) ∧
        t.adm.urgent.Sublist (s.adm.urgent.map (fun p => { p with marked := true })) ∧
        t.adm.normal.Sublist (s.adm.normal.map (fun p => { p with marked := true })) ∧
        (∀ p ∈ s.adm.urgent ++ s.adm.normal,
          { p with marked := true } ∈ t.adm.urgent ++ t.adm.normal ∨
            Notice.updateEnd p.id .cancelled 0 0 0 0 false ∈ es) ∧
        (t.adm.urgent ++ t.adm.normal ≠ [] → Submitter.admission ∈ t.notices.waiting) ∧
        { t.adm with urgent := s.adm.urgent, normal := s.adm.normal, mode := s.adm.mode } = s.adm) ∧
      t.mem = s.mem ∧ t.wb = s.wb ∧ t.thermal = s.thermal ∧ t.limits = s.limits ∧ t.loader = s.loader ∧
      { t with lanes := s.lanes, adm := s.adm, cache := s.cache, flash := s.flash, notices := s.notices
               power := s.power, scan := s.scan, panel := s.panel, link := s.link, arb := s.arb } = s

/-- R145, R30, R133: CLEAR-FAULT outside FAULT is REFUSED with STATE and changes nothing else; in FAULT the
failed set is emptied and the state becomes OFF, or RISING at stage 1 with a rise request, and the last
fault, the lanes, the write buffer, the pixel memory, the scan engine and the thermal unit stay. -/
def Obligations.ClearFaultLeavesFault : Prop :=
  ∀ (s : State) (tag : Byte), s.loader.image = .valid → s.receives .clearFault tag [] →
    (s.power.state ≠ .fault →
      exec (RequestKind.clearFault.sent tag []) s = .next { s with
        link := Link.answered 0x0C tag (.of .state), arb := s.arb.grant }) ∧
    (s.power.state = .fault → s.quiet = true →
      ∃ t, exec (RequestKind.clearFault.sent tag []) s = .next t ∧
        t.link = Link.answered 0x0C tag (.done []) ∧ t.cache.failed = [] ∧
        t.power.state = (if s.riseRequest then .rising 1 else .off) ∧
        t.power.lastFault = s.power.lastFault ∧ t.lanes = s.lanes ∧ t.wb = s.wb ∧ t.mem = s.mem ∧
        t.scan = s.scan ∧ t.thermal = s.thermal ∧ t.limits = s.limits)

/-! ### FETCH and STATUS -/

/-- R178, R175, R179, R185, R59, R63, R61, R91: FETCH is served in every image state. On an empty queue it
returns no notice; else it removes and returns the oldest notice with the number left. Where that frees no room
for an UPDATE_END, or nobody waits, nothing else changes. An UPDATE_END removed from 31 lets the submission at
the head of the waiting list join the tail in the same event: a lane's, and the lane is FREE, with the test for
ready work that follows in ON (`State.readyTested`); or the admission unit's, of its earliest cancel-marked
entry, which leaves its FIFO, while with more such entries its next submission waits at the end of the list. A
draining that is then over ends with DRAIN_DONE. However much room there is and however many wait, in the end
nobody waits or 31 UPDATE_ENDs are queued. ATTN is asserted exactly while the queue holds a notice. -/
def Obligations.FetchTakesOldest : Prop :=
  (∀ (s : State) (tag : Byte), s.receives .fetch tag [] → s.notices.queue = [] →
    exec (RequestKind.fetch.sent tag []) s = .next { s with
      link := Link.answered 0x0D tag (.done (0 :: List.replicate 20 0)), arb := s.arb.grant }) ∧
  (∀ (s : State) (tag : Byte) (n : Notice) (rest : List Notice) (l : Link), s.receives .fetch tag [] →
    s.notices.queue = n :: rest → s.quiet = true →
    l = Link.answered 0x0D tag (.done (byte rest.length :: noticeRecord (some n))) →
    (s.notices.waiting = [] ∨ 31 ≤ rest.countP Notice.isUpdateEnd →
      exec (RequestKind.fetch.sent tag []) s = .next { s with
        notices := { s.notices with queue := rest }, link := l, arb := s.arb.grant }) ∧
    (∀ (i : LaneId) (ws : List Submitter) (u : State) (drained : Prop),
      n.isUpdateEnd = true → s.notices.updateEnds = 31 → s.notices.waiting = .lane i :: ws →
      (s.lane i).state = .reporting →
      u = { s.setLane i Lane.free with
        notices := { queue := rest ++ [(s.lane i).endNotice], waiting := ws }, link := l } →
      (drained ↔ s.adm.mode = .draining ∧ s.power.state = .off ∧ (∀ j, j ≠ i → (s.lane j).state = .free) ∧
        s.adm.urgent = [] ∧ s.adm.normal = []) →
      (drained → exec (RequestKind.fetch.sent tag []) s = .next { u with
        adm := { s.adm with mode := .normal }
        notices := { u.notices with queue := coalesceInto (.drainDone 1) u.notices.queue }, arb := s.arb.grant }) ∧
      (¬ drained → ∃ t, exec (RequestKind.fetch.sent tag []) s = .next t ∧ u.readyTested t ∧
        (t.scan = s.scan → t.arb = s.arb.grant))) ∧
    (∀ (p : Pending) (ws : List Submitter) (a : Admission) (u : State) (drained : Prop),
      n.isUpdateEnd = true → s.notices.updateEnds = 31 → s.notices.waiting = .admission :: ws →
      p ∈ s.adm.urgent ++ s.adm.normal → p.marked = true →
      (∀ q ∈ s.adm.urgent ++ s.adm.normal, q.marked = true → q ≠ p → earlier p.order q.order = true) →
      a = { s.adm with urgent := s.adm.urgent.erase p, normal := s.adm.normal.erase p } →
      u = { s with
        adm := a, link := l
        notices := {
          queue := rest ++ [.updateEnd p.id .cancelled 0 0 0 0 false]
          waiting := if (a.urgent ++ a.normal).any (fun q => q.marked) = true then ws ++ [.admission] else ws } } →
      (drained ↔ s.adm.mode = .draining ∧ s.power.state = .off ∧ (∀ j, (s.lane j).state = .free) ∧
        a.urgent = [] ∧ a.normal = []) →
      (drained → exec (RequestKind.fetch.sent tag []) s = .next { u with
        adm := { a with mode := .normal }
        notices := { u.notices with queue := coalesceInto (.drainDone 1) u.notices.queue }, arb := s.arb.grant }) ∧
      (¬ drained → exec (RequestKind.fetch.sent tag []) s = .next { u with arb := s.arb.grant })) ∧
    (s.railsGuarded = true → s.queuesFit = true →
      ∃ t, exec (RequestKind.fetch.sent tag []) s = .next t ∧ t.link = l ∧
        rest.filter Notice.isUpdateEnd <+: t.notices.queue.filter Notice.isUpdateEnd ∧
        (t.notices.waiting = [] ∨ 31 ≤ t.notices.updateEnds))) ∧
  (∀ s : State, s.attn = true ↔ s.notices.queue ≠ [])

/-- R180, R186: STATUS returns 34 bytes after the class, in every image state, and changes nothing; among
them are the image, power and admission states, the current band, the depths and the queue's length. -/
def Obligations.StatusIsSnapshot : Prop :=
  ∀ (s : State) (tag : Byte), s.receives .status tag [] →
    exec (RequestKind.status.sent tag []) s = .next { s with
      link := Link.answered 0x0E tag (.done s.statusBytes), arb := s.arb.grant } ∧
    s.statusBytes.length = 34 ∧
    s.statusBytes[0]? = some ((match s.loader.image with | .header | .initialising => 0 | .valid => 1 | .invalid _ => 2) : Byte) ∧
    s.statusBytes[2]? = some ((match s.power.state with
      | .off => 0 | .rising _ => 1 | .on => 2 | .falling _ => 3 | .fault => 4) : Byte) ∧
    s.statusBytes[12]? = some (byte s.thermal.band.val) ∧
    s.statusBytes[20]? = some (byte s.adm.urgent.length) ∧ s.statusBytes[21]? = some (byte s.adm.normal.length) ∧
    s.statusBytes[22]? = some ((match s.adm.mode with | .normal => 0 | .draining => 1) : Byte) ∧
    s.statusBytes[31]? = some (byte s.notices.queue.length)

/-! ### Pixel memory -/

/-- R10, R11, R1, R59, R13: a completed drain access writes the oldest entry's levels into exactly its pixels of
one segment, and the next access, of this entry or of the next one, is asked for. Before the entry's last access
nothing else changes but the count of its accesses; the last one takes the entry from the list and lowers every
nonzero fence by 1, and the admission unit makes its test for ready work: in ON, with the scan engine STOPPED
and work now ready, a frame begins and the idle hold timer stops (`State.readyTested`). -/
def Obligations.DrainWritesDraft : Prop :=
  ∀ (s : State) (e : WriteEntry) (rest : List WriteEntry),
    s.arb.running = some .drain → s.wb.entries = e :: rest → s.mem.wf = true → e.area.x1 < 2048 →
    (s.wb.done + 1 < e.cost ∨ s.quiet = true) →
    ∃ t, exec .drainAccessComplete s = .next t ∧ t.mem.cells = s.mem.cells ∧
      (∀ x y, x < 2048 → t.mem.draft x y =
        if y = e.lineOf s.wb.done ∧ x ∈ e.columnsIn (e.segmentOf s.wb.done) then e.levelAt x
        else s.mem.draft x y) ∧
      t.arb.settled = true ∧
      (s.wb.done + 1 < e.cost ∨ rest ≠ [] → t.arb.running = some .drain ∨ t.arb.drain = true) ∧
      (s.wb.done + 1 < e.cost →
        t.wb = { entries := e :: rest, done := s.wb.done + 1 } ∧
        { t with mem := s.mem, wb := s.wb, arb := s.arb, choices := s.choices } = s) ∧
      (e.cost ≤ s.wb.done + 1 → ∀ u : State,
        u = { s with
          mem := t.mem, wb := { entries := rest, done := 0 }
          adm := { s.adm with
            urgent := s.adm.urgent.map (fun p => { p with fence := p.fence - 1 })
            normal := s.adm.normal.map (fun p => { p with fence := p.fence - 1 }) } } →
        u.readyTested t)

/-- R5, R14, R159, R115, R24: each initialisation write sets one segment of one plane to its initial values
and changes no other pixel, the last one too (the order of the segments is the model's choice, log entry 9);
after the last one the image state is VALID, a conversion and the sample timer start, and the current band's
reload into slot A begins. -/
def Obligations.InitialisationRuns : Prop :=
  (∀ (s : State) (y g : Nat), s.arb.running = some .init → s.mem.wf = true → s.columns ≤ 2048 →
    s.loader.initDone + 1 < s.initAccesses → y = s.loader.initDone / 2 / segments s.columns →
    g = s.loader.initDone / 2 % segments s.columns →
    ∃ t, exec .initWriteComplete s = .next t ∧
      t.loader = { s.loader with initDone := s.loader.initDone + 1 } ∧
      (∀ x y', x < 2048 → t.mem.cell x y' =
        if s.loader.initDone % 2 = 0 ∧ y' = y ∧ x ∈ segmentColumns s.columns g then
          { level := 15, goal := 0, owner := none, kind := .swift, residue := 63, balance := 0 }
        else s.mem.cell x y') ∧
      (∀ x y', x < 2048 → t.mem.draft x y' =
        if s.loader.initDone % 2 = 1 ∧ y' = y ∧ x ∈ segmentColumns s.columns g then 15
        else s.mem.draft x y') ∧
      { t with mem := s.mem, loader := s.loader } = s) ∧
  (∀ (s : State) (y g : Nat), s.arb.running = some .init → s.initAccesses ≤ s.loader.initDone + 1 →
    y = s.loader.initDone / 2 / segments s.columns → g = s.loader.initDone / 2 % segments s.columns →
    s.cache.a.state = .empty → s.cache.a.refs = 0 → s.cache.b.state = .empty → s.cache.reload = none →
    s.cache.failed = [] →
    ∃ t, exec .initWriteComplete s = .next t ∧ t.loader.image = .valid ∧
      (s.mem.wf = true → s.columns ≤ 2048 → ∀ x y', x < 2048 →
        t.mem.cell x y' = (if s.loader.initDone % 2 = 0 ∧ y' = y ∧ x ∈ segmentColumns s.columns g then
            { level := 15, goal := 0, owner := none, kind := .swift, residue := 63, balance := 0 }
          else s.mem.cell x y') ∧
        t.mem.draft x y' = (if s.loader.initDone % 2 = 1 ∧ y' = y ∧ x ∈ segmentColumns s.columns g then 15
          else s.mem.draft x y')) ∧
      t.thermal = { s.thermal with converting := true, timer := s.thermal.period } ∧
      t.cache.a.state = .loading ∧ t.cache.a.band = some s.thermal.band ∧
      t.cache.reload = some { slot := .a, retry := 0, kind := .swift, word := 0 } ∧
      t.flash = { s.flash with
        state := .setup, addr := (s.hdr.table s.thermal.band .swift).offset, clocks := s.flash.timing.setup
        ext := 0, result := none } ∧
      t.arb.settled = true)

/-! ### Flash interface, image loader and reload -/

/-- R149, R150: the phases of a read access, one after another: the end of the setup, the end of the strobe
with FWAIT inactive and active, the first inactive extension clock (at the extension limit itself what is
delivered is left open, log entry 11), and the timeout at the extension limit. -/
def Obligations.FlashPhases : Prop :=
  (∀ s : State, s.flash.state = .setup →
    exec .flashSetupEnd s = .next { s with
      flash := { s.flash with state := .strobe, clocks := s.flash.timing.strobe } }) ∧
  (∀ (s : State) (fwait : Bool) (fd : Word), s.flash.state = .strobe →
    (fwait ≠ s.flash.timing.waitActiveHigh →
      exec (.flashStrobeEnd fwait fd) s = .next { s with
        flash := { s.flash with state := .hold, clocks := s.flash.timing.hold, result := some (.word fd) } }) ∧
    (fwait = s.flash.timing.waitActiveHigh →
      exec (.flashStrobeEnd fwait fd) s = .next { s with
        flash := { s.flash with state := .extend, clocks := 0, ext := 0 } })) ∧
  (∀ (s : State) (clock : Nat) (fd : Word), s.flash.state = .extend → 1 ≤ clock →
    (clock < (s.flash.timing.waitLimit + 1) * 16 →
      exec (.fwaitInactive clock fd) s = .next { s with
        flash := { s.flash with
          state := .hold, clocks := s.flash.timing.hold, ext := clock, result := some (.word fd) } }) ∧
    (clock = (s.flash.timing.waitLimit + 1) * 16 →
      ∃ r, (r = .word fd ∨ r = .timeout) ∧ exec (.fwaitInactive clock fd) s = .next { s with
        flash := { s.flash with
          state := .hold, clocks := s.flash.timing.hold, ext := clock, result := some r } })) ∧
  (∀ s : State, s.flash.state = .extend →
    exec .flashWaitTimeout s = .next { s with
      flash := { s.flash with
        state := .hold, clocks := s.flash.timing.hold, ext := (s.flash.timing.waitLimit + 1) * 16
        result := some .timeout } })

/-- R153, R155, R158, R151: a header word is kept and the next asked for; an access that ends as TIMEOUT
makes the image INVALID; the last word's checks make it INVALID with the first failing check's reason, or
publish the header to every block and give the memory to the initialisation. -/
def Obligations.HeaderIsRead : Prop :=
  ∀ s : State, s.loader.image = .header → s.flash.state = .hold → s.quiet = true →
    (∀ w, s.flash.result = some (.word w) → s.loader.words.length + 1 < 256 →
      exec .flashAccessComplete s = .next { s with
        loader := { s.loader with words := s.loader.words ++ [w] }
        flash := { s.flash with
          state := .setup, addr := s.flash.addr + 1, clocks := s.flash.timing.setup, ext := 0, result := none }
        arb := s.arb.grant }) ∧
    (s.flash.result = some .timeout →
      exec .flashAccessComplete s = .next { s with
        loader := { s.loader with image := .invalid .timeout, words := [] }
        flash := { s.flash with state := .idle, clocks := 0, ext := 0, result := none }
        arb := s.arb.grant }) ∧
    (∀ w r, s.flash.result = some (.word w) → s.loader.words.length = 255 →
      headerFault (s.loader.words ++ [w]) = some r →
      exec .flashAccessComplete s = .next { s with
        loader := { s.loader with image := .invalid r, words := [] }
        flash := { s.flash with state := .idle, clocks := 0, ext := 0, result := none }
        arb := s.arb.grant }) ∧
    (∀ w h, s.flash.result = some (.word w) → s.loader.words.length = 255 →
      headerFault (s.loader.words ++ [w]) = none → h = parseHeader (s.loader.words ++ [w]) →
      exec .flashAccessComplete s = .next { s with
        loader := { image := .initialising, words := [], header := some h, initDone := 0 }
        limits := { taken := some h.limits, inForce := some h.limits }
        thermal := { s.thermal with band := h.fallback, depth := some h.depth, period := some h.period }
        flash := { s.flash with state := .idle, clocks := 0, ext := 0, result := none, timing := h.timing }
        arb := { s.arb with running := some .init } })

/-- R155, R156, R157, R130, R187, R154: the five checks of the header's 256 words in their order, each with
what it demands of the words (the fields of a RANGE or PLACEMENT check by their word positions), and the
contents the loader keeps of a header that passes them, each from its word; a stage descriptor by its bits. -/
def Obligations.HeaderIsChecked : Prop :=
  ∀ (ws : List Word) (w : Nat → Nat) (v : Nat → Int) (range placed : Prop), ws.length = 256 →
    w = (fun i => (ws.getD i 0).toNat) → v = (fun i => (ws.getD i 0).toInt) →
    (range ↔
      64 ≤ w 2 ∧ w 2 ≤ 2048 ∧ w 2 % 8 = 0 ∧ 64 ≤ w 3 ∧ w 3 ≤ 1600 ∧
      (w 4 = 1 ∨ w 4 = 4 ∨ w 4 = 16 ∨ w 4 = 64) ∧ w 5 ≤ 31 ∧ 16 ≤ w 6 ∧ w 6 ≤ 4095 ∧ 1 ≤ w 7 ∧ w 7 ≤ 255 ∧
      1 ≤ w 8 ∧ w 8 ≤ 127 ∧ 1 ≤ w 9 ∧ w 9 ≤ 5 ∧ (w 10 = 1 ∨ w 10 = 2 ∨ w 10 = 4 ∨ w 10 = 8) ∧
      (∀ k, 1 ≤ k → k ≤ w 9 →
        w (7 + 4 * k) % 8 ≤ 5 ∧ w (7 + 4 * k) / 16 % 4 ≤ 2 ∧ 1 ≤ w (8 + 4 * k) % 256 ∧
        1 ≤ w (8 + 4 * k) / 256 ∧ ∀ j, 1 ≤ j → j < k → w (7 + 4 * j) % 8 ≠ w (7 + 4 * k) % 8) ∧
      (∀ i, 33 ≤ i ∧ i ≤ 94 ∨ 96 ≤ i ∧ i ≤ 102 → -160 ≤ v i ∧ v i ≤ 340) ∧
      (∀ i, 96 ≤ i → i < 102 → v i < v (i + 1)) ∧ w 103 ≤ 40 ∧ w 104 ≤ 7 ∧ 1 ≤ w 105 ∧ w 105 ≤ 600 ∧
      (w 106 = 1 ∨ w 106 = 2 ∨ w 106 = 4 ∨ w 106 = 8) ∧ (∀ i, 107 ≤ i → i ≤ 136 → w i ≤ 63) ∧
      1 ≤ w 137 ∧ w 137 ≤ 63 ∧ 1 ≤ w 138 ∧ w 138 ≤ 511 ∧ 1 ≤ w 139 ∧ w 139 ≤ 16 ∧ 1 ≤ w 140 ∧ w 140 ≤ 64 ∧
      1 ≤ w 141 ∧ w 141 ≤ 16 ∧ w 142 ≤ 255 ∧
      (∀ m, m < 32 → w (144 + 3 * m) + 65536 * w (145 + 3 * m) ≤ 8388607 ∧
        1 ≤ w (146 + 3 * m) ∧ w (146 + 3 * m) ≤ 240)) →
    (placed ↔ ∀ m, m < 32 →
      w (144 + 3 * m) + 65536 * w (145 + 3 * m) + w (146 + 3 * m) * 32 - 1 ≤ 8388607) →
    (w 0 ≠ 0xE1C5 → headerFault ws = some .magic) ∧
    (w 0 = 0xE1C5 → w 1 ≠ 1 → headerFault ws = some .version) ∧
    (w 0 = 0xE1C5 → w 1 = 1 → (ws.map (fun x => x.toNat)).sum % 65536 ≠ 0 →
      headerFault ws = some .checksum) ∧
    (w 0 = 0xE1C5 → w 1 = 1 → (ws.map (fun x => x.toNat)).sum % 65536 = 0 →
      (¬ range → headerFault ws = some .range) ∧
      (range → ¬ placed → headerFault ws = some .placement) ∧
      (range → placed → headerFault ws = none)) ∧
    (headerFault ws = none → ∀ h, h = parseHeader ws →
      h.magic.toNat = w 0 ∧ h.version.toNat = w 1 ∧ h.columns = w 2 ∧ h.lines = w 3 ∧ h.prescale = w 4 ∧
      h.divider = w 5 ∧ h.lineCount = w 6 ∧ h.blankLines = w 7 ∧ h.window = w 8 ∧ h.stages.length = w 9 ∧
      h.riseDepth = w 10 ∧ h.spareStages.length = 5 - w 9 ∧
      (∀ k, 1 ≤ k → k ≤ w 9 → h.stages[k - 1]? = some {
        enable := w (7 + 4 * k) % 8
        condition := if w (7 + 4 * k) / 16 % 4 = 0 then .delay
          else if w (7 + 4 * k) / 16 % 4 = 1 then .good else .goodOrTimeout
        goodLine := w (7 + 4 * k) / 256 % 4, activeHigh := decide (w (7 + 4 * k) / 4096 % 2 = 1)
        t := w (8 + 4 * k) % 256, blank := w (9 + 4 * k) % 128, fall := w (8 + 4 * k) / 256 }) ∧
      (∀ k, w 9 < k → k ≤ 5 → h.spareStages[k - 1 - w 9]? = some ((ws.drop (7 + 4 * k)).take 4)) ∧
      h.thermistor.length = 64 ∧ (∀ i, i < 64 → h.thermistor[i]? = some (v (32 + i))) ∧
      h.bounds = [v 96, v 97, v 98, v 99, v 100, v 101, v 102] ∧ h.hysteresis = v 103 ∧
      h.fallback.val = w 104 ∧ h.period = w 105 ∧ h.depth = w 106 ∧
      h.swiftInc.length = 15 ∧ h.toneInc.length = 15 ∧
      (∀ i, i < 15 → h.swiftInc[i]? = some (w (107 + i)) ∧ h.toneInc[i]? = some (w (122 + i))) ∧
      h.limits = { residue := w 137, balance := w 138 } ∧
      h.timing = { setup := w 139, strobe := w 140, hold := w 141, waitLimit := w 142
                   waitActiveHigh := decide (w 143 % 2 = 1) } ∧
      (∀ (b : Band) (k : SeqKind), h.table b k =
        { offset := w (144 + 3 * (4 * b.val + k.code)) + 65536 * w (145 + 3 * (4 * b.val + k.code))
          frames := w (146 + 3 * (4 * b.val + k.code)) }) ∧
      h.checksum.toNat = w 255)

/-- R31, R32, R25, R24, R26: what the cache answers when asked for a grant: the slot READY with the current
band; else, for URGENT and for a failed band, the READY slot whose band is nearer the current one (the lower
band when both are equally near), marked as substituted; else nothing.  And the target of a reload: an EMPTY
slot without references, A before B; else the READY slot without references, of two the one whose band is
farther from the current one, A when equally far; never a slot in LOADING or with references.  An
evaluation of the trigger starts a reload of the current band in the target, or changes nothing. -/
def Obligations.CacheChoosesSlots : Prop :=
  (∀ (c : Cache) (cur : Band) (cls : UpdateClass),
    (c.a.state = .ready → c.a.band = some cur → c.grant cur cls = some ⟨.a, cur, false⟩) ∧
    (¬ (c.a.state = .ready ∧ c.a.band = some cur) → c.b.state = .ready → c.b.band = some cur →
      c.grant cur cls = some ⟨.b, cur, false⟩) ∧
    ((∀ i, ¬ ((c.slot i).state = .ready ∧ (c.slot i).band = some cur)) →
      (cls = .normal → cur ∉ c.failed → c.grant cur cls = none) ∧
      (cls = .urgent ∨ cur ∈ c.failed →
        (c.a.state ≠ .ready → c.b.state ≠ .ready → c.grant cur cls = none) ∧
        (∀ x, c.a.state = .ready → c.a.band = some x → c.b.state ≠ .ready →
          c.grant cur cls = some ⟨.a, x, true⟩) ∧
        (∀ y, c.a.state ≠ .ready → c.b.state = .ready → c.b.band = some y →
          c.grant cur cls = some ⟨.b, y, true⟩) ∧
        (∀ (x y : Band) (dx dy : Nat), c.a.state = .ready → c.a.band = some x → c.b.state = .ready →
          c.b.band = some y → x ≠ y → dx = distance x.val cur.val → dy = distance y.val cur.val →
          c.grant cur cls =
            if dx < dy ∨ (dx = dy ∧ x < y) then some ⟨.a, x, true⟩ else some ⟨.b, y, true⟩)))) ∧
  (∀ (c : Cache) (cur : Band),
    (∀ i, c.target cur = some i → (c.slot i).refs = 0 ∧ (c.slot i).state ≠ .loading) ∧
    (c.a.state = .empty → c.a.refs = 0 → c.target cur = some .a) ∧
    (c.a.state ≠ .empty → c.b.state = .empty → c.b.refs = 0 → c.target cur = some .b) ∧
    (c.a.state = .ready → c.a.refs = 0 → c.b.state ≠ .empty → (c.b.refs ≠ 0 ∨ c.b.state = .loading) →
      c.target cur = some .a) ∧
    (c.b.state = .ready → c.b.refs = 0 → c.a.state ≠ .empty → (c.a.refs ≠ 0 ∨ c.a.state = .loading) →
      c.target cur = some .b) ∧
    (∀ x y : Band, c.a.state = .ready → c.a.refs = 0 → c.a.band = some x → c.b.state = .ready →
      c.b.refs = 0 → c.b.band = some y →
      c.target cur = if distance x.val cur.val < distance y.val cur.val then some .b else some .a) ∧
    ((∀ i, (c.slot i).refs ≠ 0 ∨ (c.slot i).state = .loading) → c.target cur = none)) ∧
  (∀ (s : State) (due : Prop),
    (due ↔ s.loader.image = .valid ∧ s.cache.reload = none ∧ s.thermal.band ∉ s.cache.failed ∧
      ∀ i, ¬ ((s.cache.slot i).state ≠ .empty ∧ (s.cache.slot i).band = some s.thermal.band)) →
    (¬ due ∨ s.cache.target s.thermal.band = none → s.evalTrigger = s) ∧
    (∀ i, due → s.cache.target s.thermal.band = some i → s.evalTrigger = { s with
      cache := { s.cache.setSlot i
          { s.cache.slot i with state := .loading, band := some s.thermal.band } with
        reload := some { slot := i, retry := 0, kind := .swift, word := 0 } }
      flash := { s.flash with
        state := .setup, addr := (s.hdr.table s.thermal.band .swift).offset, clocks := s.flash.timing.setup
        ext := 0, result := none } }))

/-- R26, R27, R28, R29, R24, R59: a reload's word goes into its slot, the last one too, and the next word of the
table is asked for; before the next table, and before a retry, the slot's band is held against the current one:
equal, the table's first word is asked for; different, the slot is EMPTY, the reload is over and the trigger is
evaluated; after the last word of CLEAN_DOWN the slot is READY with its band's frame counts; a first TIMEOUT
restarts the attempt from the SWIFT table, and a second puts the band into the failed set, empties the slot and
submits a FLASH notice. At a slot that becomes READY and at a change of the failed set, in every power state,
the admission unit makes its test for ready work (`State.readyTested`: in ON a frame may begin), and where the
reload's band is no longer current the cache evaluates its trigger beside it, in either order (`State.handedOn`;
log entry 1). Nothing else changes; the other slot is left as it was but for a reload the trigger starts in it
(what the trigger does: CacheChoosesSlots) and references a frame's arming takes. -/
def Obligations.ReloadAdvances : Prop :=
  ∀ (s : State) (r : Reload) (b : Band), s.loader.image = .valid → s.flash.state = .hold →
    s.cache.reload = some r → (s.cache.slot r.slot).band = some b → s.quiet = true →
    sparseWf 0 (s.cache.slot r.slot).words = true →
    (∀ w, s.flash.result = some (.word w) → r.word + 1 < (s.hdr.table b r.kind).frames * 32 →
      ∃ t, exec .flashAccessComplete s = .next t ∧
        (∀ i, sparseGet 0 (t.cache.slot r.slot).words i =
          if i = tableWord r.kind r.word then w else sparseGet 0 (s.cache.slot r.slot).words i) ∧
        t.cache.reload = some { r with word := r.word + 1 } ∧
        { t.cache with reload := s.cache.reload }.setSlot r.slot (s.cache.slot r.slot) = s.cache ∧
        { t.cache.slot r.slot with words := [] } = { s.cache.slot r.slot with words := [] } ∧
        t.flash = { s.flash with
          state := .setup, addr := (s.hdr.table b r.kind).offset + (r.word + 1)
          clocks := s.flash.timing.setup, ext := 0, result := none } ∧
        { t with cache := s.cache, flash := s.flash, arb := s.arb } = s) ∧
    (∀ w k, s.flash.result = some (.word w) → r.word + 1 = (s.hdr.table b r.kind).frames * 32 →
      (r.kind = .swift ∧ k = .tone ∨ r.kind = .tone ∧ k = .cleanUp ∨ r.kind = .cleanUp ∧ k = .cleanDown) →
      ∃ t words, exec .flashAccessComplete s = .next t ∧
        (∀ i, sparseGet 0 words i =
          if i = tableWord r.kind r.word then w else sparseGet 0 (s.cache.slot r.slot).words i) ∧
        (b = s.thermal.band →
          t = { s with
            cache := { s.cache.setSlot r.slot { s.cache.slot r.slot with words := words } with
              reload := some { r with kind := k, word := 0 } }
            flash := { s.flash with
              state := .setup, addr := (s.hdr.table b k).offset, clocks := s.flash.timing.setup, ext := 0
              result := none }
            arb := s.arb.grant }) ∧
        (b ≠ s.thermal.band → ∀ v : State,
          v = { s with
            cache := { s.cache.setSlot r.slot
                { s.cache.slot r.slot with state := .empty, band := none, words := words } with
              reload := none }
            flash := { s.flash with state := .idle, clocks := 0, ext := 0, result := none } } →
          t = { v.evalTrigger with arb := s.arb.grant })) ∧
    (s.flash.result = some .timeout → r.retry = 0 → b ≠ s.thermal.band → ∀ v : State,
      v = { s with
        cache := { s.cache.setSlot r.slot { s.cache.slot r.slot with state := .empty, band := none } with
          reload := none }
        flash := { s.flash with state := .idle, clocks := 0, ext := 0, result := none } } →
      exec .flashAccessComplete s = .next { v.evalTrigger with arb := s.arb.grant }) ∧
    (∀ w, s.flash.result = some (.word w) → r.kind = .cleanDown →
      (s.hdr.table b .cleanDown).frames * 32 ≤ r.word + 1 →
      ∃ t v words frames, exec .flashAccessComplete s = .next t ∧
        (∀ i, sparseGet 0 words i =
          if i = tableWord r.kind r.word then w else sparseGet 0 (s.cache.slot r.slot).words i) ∧
        (∀ k : SeqKind, frames.getD k.code 0 = (s.hdr.table b k).frames) ∧
        v = { s with
          cache := { s.cache.setSlot r.slot
              { s.cache.slot r.slot with state := .ready, refs := 0, words := words, frames := frames } with
            reload := none }
          flash := { s.flash with state := .idle, clocks := 0, ext := 0, result := none } } ∧
        (b = s.thermal.band → State.readyTested v t) ∧ (b ≠ s.thermal.band → State.handedOn v t) ∧
        (t.scan = s.scan → t.arb = s.arb.grant)) ∧
    (s.flash.result = some .timeout → r.retry = 0 → b = s.thermal.band →
      exec .flashAccessComplete s = .next { s with
        cache := { s.cache with reload := some { r with retry := 1, kind := .swift, word := 0 } }
        flash := { s.flash with
          state := .setup, addr := (s.hdr.table b .swift).offset, clocks := s.flash.timing.setup, ext := 0
          result := none }
        arb := s.arb.grant }) ∧
    (s.flash.result = some .timeout → r.retry = 1 → b ∉ s.cache.failed →
      ∃ t v failed, exec .flashAccessComplete s = .next t ∧ (∀ c, c ∈ failed ↔ c = b ∨ c ∈ s.cache.failed) ∧
        v = { s with
          cache := { s.cache.setSlot r.slot { s.cache.slot r.slot with state := .empty, band := none } with
            reload := none, failed := failed }
          notices := { s.notices with queue := coalesceInto (.flash 1 failed) s.notices.queue }
          flash := { s.flash with state := .idle, clocks := 0, ext := 0, result := none } } ∧
        (b = s.thermal.band → State.readyTested v t) ∧ (b ≠ s.thermal.band → State.handedOn v t) ∧
        (t.scan = s.scan → t.arb = s.arb.grant))

/-! ### The frame scan -/

/-- R100, R101, R106: at a line period's expiry a committed line gives way to the next line, whose first read
is asked for, or to the first blank line; a line still at work is waited for; and a blank line gives way to
the next blank line. A line's reads are those of every segment's cells and then those of the drafts of exactly
the segments in which an ARMING lane's pass region holds a pixel of the line, each in increasing column order
(that the draft reads come after the cell reads is the model's choice, log entry 10). -/
def Obligations.LinePeriodsFollow : Prop :=
  (∀ (s : State) (y : Nat), s.scan.pos = .line y .committed → s.scan.lineTimer ≠ none →
    (y + 1 < s.panelLines →
      exec .linePeriodExpiry s = .next { s with
        panel := { s.panel with gstart := false, gate := .line (y + 1) }
        scan := { s.scan with
          pos := .line (y + 1) .reading, todo := lineReads s.columns (y + 1) s.scan.arming, cells := []
          drafts := [], work := [], lineTimer := some (linePeriod s.hdr), windowTimer := none }
        arb := { s.arb with scan := some (.scanRead false) }.grant }) ∧
    (y + 1 = s.panelLines →
      exec .linePeriodExpiry s = .next { s with
        panel := { s.panel with gstart := false, gate := .beyond }
        scan := { s.scan with
          pos := .blank 0, todo := [], cells := [], drafts := [], work := []
          lineTimer := some (linePeriod s.hdr), windowTimer := none }
        arb := s.arb.grant })) ∧
  (∀ (s : State) (y : Nat) (ph : LinePhase), s.scan.pos = .line y ph → ph ≠ .committed →
    s.scan.lineTimer ≠ none →
    exec .linePeriodExpiry s = .next { s with
      scan := { s.scan with lineTimer := none }, arb := s.arb.grant }) ∧
  (∀ (s : State) (k : Nat), s.scan.pos = .blank k → s.scan.lineTimer ≠ none → k + 1 < s.hdr.blankLines →
    exec .linePeriodExpiry s = .next { s with
      panel := { s.panel with gstart := false, gate := .beyond }
      scan := { s.scan with
        pos := .blank (k + 1), todo := [], cells := [], drafts := [], work := []
        lineTimer := some (linePeriod s.hdr), windowTimer := none }
      arb := s.arb.grant }) ∧
  (∀ (columns y : Nat) (vs : List ArmingView), (∀ v ∈ vs, v.region.x0 ≤ v.region.x1) →
    ∃ gs : List Nat,
      lineReads columns y vs = (List.range ((columns + 255) / 256)).map .readCells ++ gs.map .readDrafts ∧
      gs.Pairwise (· < ·) ∧
      ∀ g, g ∈ gs ↔ ∃ v ∈ vs, ∃ x, x < columns ∧ x / 256 = g ∧ v.region.holds x y = true)

/-- R101, R102, R20, R45, R46, R103: a completed read of a line is kept and the next is asked for (the order
of the reads is the model's choice, log entry 10); after the last read every cell is computed: first driven
(`State.driveStep`: an unowned cell is left as it is, a cell of a DRIVING lane takes its drive, with the
balance saturating, and completes at the last step of its kind), then tested for the ARMING lanes that cover
it, in the lane set's order, by the arming tests (`armCell`: ArmingFollowsTests): a cell still owned is a
leftover for each of them; of an unowned cell, one completed in this frame included, the first lane that
arms it is the owner and every later lane that covers it reports a leftover with that lane as blocker.  That
GSTART stays as it is in the middle of line 0's period is the model's choice (log entry 22). -/
def Obligations.LineIsPrepared : Prop :=
  (∀ (s : State) (y g : Nat) (a : LineAccess) (rest : List LineAccess),
    s.arb.running = some (.scanRead false) → s.scan.pos = .line y .reading → s.scan.todo = a :: rest →
    rest ≠ [] →
    ∃ t, exec .scanReadComplete s = .next t ∧
      { t with scan := s.scan, arb := s.arb, choices := s.choices } = s ∧
      (t.arb.running = some (.scanRead false) ∨ t.arb.scan = some (.scanRead false)) ∧
      (a = .readCells g → t.scan = { s.scan with
        todo := rest
        cells := s.scan.cells ++ (segmentColumns s.columns g).map (fun x => s.mem.cell x y) }) ∧
      (a = .readDrafts g → t.scan = { s.scan with
        todo := rest
        drafts := s.scan.drafts ++ [(g, (segmentColumns s.columns g).map (fun x => s.mem.draft x y))] })) ∧
  (∀ (s : State) (y : Nat) (a : LineAccess) (h : Header),
    s.arb.running = some (.scanRead false) → s.scan.pos = .line y .reading → s.scan.todo = [a] → h = s.hdr →
    ∃ t, exec .scanReadComplete s = .next t ∧
      { t with scan := s.scan, arb := s.arb, choices := s.choices } = s ∧
      t.scan.pos = .line y .shifting ∧ t.scan.todo = [] ∧ t.scan.work.length = (s.capture y a).cells.length ∧
      (∀ c, c.owner = none → s.driveStep c = { cell := c, drive := .none, reports := [] }) ∧
      (∀ c o v sl d bal, c.owner = some o →
        s.scan.driving.find? (fun v => v.lane = o) = some v → sl = s.cache.slot v.slot →
        d = sl.lookup c.kind c.level c.goal v.step → bal = max (-511) (min 511 (c.balance + d.value)) →
        (v.step + 1 ≠ sl.frameCount c.kind →
          s.driveStep c = { cell := { c with balance := bal }, drive := d, reports := [] }) ∧
        (v.step + 1 = sl.frameCount c.kind →
          s.driveStep c = {
            cell := { level := c.goal, goal := 0, owner := none, kind := .swift, balance := bal
                      residue := match c.kind with
                        | .cleanUp | .cleanDown => 0
                        | .swift => min 63 (c.residue + h.swiftInc.getD (distance c.level.val c.goal.val - 1) 0)
                        | .tone => min 63 (c.residue + h.toneInc.getD (distance c.level.val c.goal.val - 1) 0) }
            drive := d, reports := [.completed o] })) ∧
      (∀ (x : Nat) (c : Cell) (d : Level) (w : CellWork) (covering : List ArmingView),
        (s.capture y a).cells[x]? = some c → d = draftRead (s.capture y a).drafts x → w = s.driveStep c →
        covering = s.scan.arming.filter (fun v => v.region.holds x y) →
        (covering = [] → t.scan.work[x]? = some w) ∧
        (∀ o, w.cell.owner = some o →
          t.scan.work[x]? = some { w with
            reports := w.reports ++ covering.map (fun v => .leftover v.lane x y o) }) ∧
        (∀ lim, w.cell.owner = none → s.scan.limits = some lim →
          ((∀ v ∈ covering, armCell v lim (s.cache.slot v.slot) x y d w.cell = (w.cell, none)) →
            t.scan.work[x]? = some w) ∧
          (∀ before v after cell report, covering = before ++ v :: after →
            (∀ u ∈ before, armCell u lim (s.cache.slot u.slot) x y d w.cell = (w.cell, none)) →
            armCell v lim (s.cache.slot v.slot) x y d w.cell = (cell, some report) →
            t.scan.work[x]? = some {
              cell := cell, drive := w.drive
              reports := w.reports ++ report :: after.map (fun u => .leftover u.lane x y v.lane) }))))

/-- R96, R105, R106, R104: the end of a line's shift latches its drive values, enables the outputs and starts
the window; the window's end disables the outputs and begins the commit, which is complete at once when no
segment is to be written; the segments to be written are exactly those with a changed cell or a pixel inside
an ARMING lane's pass region, in increasing column order; the next period then waits for the line period's
end, or (R100) begins at once when that is over already. That GSTART stays as it is within line 0's period is
the model's choice (log entry 22). -/
def Obligations.WindowOpensAndCloses : Prop :=
  (∀ (s : State) (y : Nat), s.scan.pos = .line y .shifting →
    exec .shiftEnd s = .next { s with
      panel := { s.panel with soe := true, goe := true, latched := s.scan.work.map (fun w => w.drive) }
      scan := { s.scan with
        pos := .line y .window
        windowTimer := some (max 1 (s.hdr.window * linePeriod s.hdr / 128)) } }) ∧
  (∀ (s : State) (y : Nat), s.scan.pos = .line y .window →
    (commitWrites s.columns y s.scan = [] → s.scan.cut = false → s.scan.lineTimer = none →
      (y + 1 < s.panelLines →
        exec .outputWindowEnd s = .next { s with
          panel := { s.panel with soe := false, goe := false, gstart := false, gate := .line (y + 1) }
          scan := { s.scan with
            pos := .line (y + 1) .reading, todo := lineReads s.columns (y + 1) s.scan.arming, cells := []
            drafts := [], work := [], lineTimer := some (linePeriod s.hdr), windowTimer := none }
          arb := { s.arb with scan := some (.scanRead false) }.grant }) ∧
      (y + 1 = s.panelLines →
        exec .outputWindowEnd s = .next { s with
          panel := { s.panel with soe := false, goe := false, gstart := false, gate := .beyond }
          scan := { s.scan with
            pos := .blank 0, todo := [], cells := [], drafts := [], work := []
            lineTimer := some (linePeriod s.hdr), windowTimer := none }
          arb := s.arb.grant })) ∧
    (commitWrites s.columns y s.scan ≠ [] →
      exec .outputWindowEnd s = .next { s with
        panel := { s.panel with soe := false, goe := false }
        scan := { s.scan with
          pos := .line y .commit, todo := commitWrites s.columns y s.scan, windowTimer := none }
        arb := { s.arb with scan := some .commit }.grant }) ∧
    (commitWrites s.columns y s.scan = [] → s.scan.cut = false → s.scan.lineTimer ≠ none →
      exec .outputWindowEnd s = .next { s with
        panel := { s.panel with soe := false, goe := false }
        scan := { s.scan with pos := .line y .committed, todo := [], windowTimer := none }
        arb := s.arb.grant })) ∧
  (∀ (columns y : Nat) (c : Scan), c.cells.length ≤ columns → (∀ v ∈ c.arming, v.region.x0 ≤ v.region.x1) →
    ∃ gs : List Nat, commitWrites columns y c = gs.map .write ∧ gs.Pairwise (· < ·) ∧
      ∀ g, g ∈ gs ↔
        (∃ x o w, x / 256 = g ∧ c.cells[x]? = some o ∧ c.work[x]? = some w ∧ w.cell ≠ o) ∨
        ∃ v ∈ c.arming, ∃ x, x < columns ∧ x / 256 = g ∧ v.region.holds x y = true)

/-- R104, R3, R100: a completed commit write puts the computed records of its segment's cells into the cell
plane and no other, and its reports reach the lane controller in the same event; the commit goes on with the
next segment, whose write is asked for, or is complete and waits for its line period's end, or, when that is
over already, gives way to the next period at once. R110, R109, R89, R111: so it is with the commit a cut has
found; its completion leads to the sweep of line 0, and lanes in ABANDONING whose live count a write brings to
0, or who have none when the sweep begins, end ABANDONED. That GSTART stays as it is within line 0's period is
the model's choice (log entry 22). -/
def Obligations.CommitWritesSegment : Prop :=
  (∀ (s : State) (y g : Nat) (rest : List LineAccess),
    s.arb.running = some .commit → s.scan.pos = .line y .commit → s.scan.todo = .write g :: rest →
    s.mem.wf = true → s.columns ≤ 2048 → s.quiet = true → s.scan.cut = false → s.scan.lineTimer ≠ none →
    (∀ i, (s.lane i).state ≠ .abandoning) →
    ∃ t, exec .commitWriteComplete s = .next t ∧ t.mem.drafts = s.mem.drafts ∧
      (∀ x y', x < 2048 → t.mem.cell x y' =
        if y' = y ∧ x ∈ segmentColumns s.columns g then (s.scan.workAt x).cell else s.mem.cell x y') ∧
      t.lanes = (s.takeReports ((segmentColumns s.columns g).flatMap (fun x => (s.scan.workAt x).reports))).lanes ∧
      (rest ≠ [] → t.scan = { s.scan with todo := rest } ∧
        (t.arb.running = some .commit ∨ t.arb.scan = some .commit)) ∧
      (rest = [] → t.scan = { s.scan with todo := [], pos := .line y .committed }) ∧
      { t with mem := s.mem, lanes := s.lanes, scan := s.scan, arb := s.arb, choices := s.choices } = s) ∧
  (∀ (s : State) (y g : Nat),
    s.arb.running = some .commit → s.scan.pos = .line y .commit → s.scan.todo = [.write g] →
    s.mem.wf = true → s.columns ≤ 2048 → s.quiet = true → s.scan.cut = false → s.scan.lineTimer = none →
    ∃ t, exec .commitWriteComplete s = .next t ∧ t.mem.drafts = s.mem.drafts ∧
      (∀ x y', x < 2048 → t.mem.cell x y' =
        if y' = y ∧ x ∈ segmentColumns s.columns g then (s.scan.workAt x).cell else s.mem.cell x y') ∧
      t.lanes = (s.takeReports ((segmentColumns s.columns g).flatMap (fun x => (s.scan.workAt x).reports))).lanes ∧
      (y + 1 < s.panelLines →
        t.panel = { s.panel with gstart := false, gate := .line (y + 1) } ∧
        t.scan = { s.scan with
          pos := .line (y + 1) .reading, todo := lineReads s.columns (y + 1) s.scan.arming, cells := []
          drafts := [], work := [], lineTimer := some (linePeriod s.hdr), windowTimer := none } ∧
        (t.arb.running = some (.scanRead false) ∨ t.arb.scan = some (.scanRead false))) ∧
      (y + 1 = s.panelLines →
        t.panel = { s.panel with gstart := false, gate := .beyond } ∧
        t.scan = { s.scan with
          pos := .blank 0, todo := [], cells := [], drafts := [], work := []
          lineTimer := some (linePeriod s.hdr), windowTimer := none }) ∧
      { t with mem := s.mem, lanes := s.lanes, panel := s.panel, scan := s.scan, arb := s.arb
               choices := s.choices } = s) ∧
  (∀ (s : State) (y g : Nat) (rest : List LineAccess) (u : State),
    s.arb.running = some .commit → s.scan.pos = .line y .commit → s.scan.todo = .write g :: rest →
    s.mem.wf = true → s.columns ≤ 2048 → s.quiet = true → s.scan.cut = true →
    u = s.takeReports ((segmentColumns s.columns g).flatMap (fun x => (s.scan.workAt x).reports)) →
    ∃ t, exec .commitWriteComplete s = .next t ∧ t.mem.drafts = s.mem.drafts ∧
      (∀ x y', x < 2048 → t.mem.cell x y' =
        if y' = y ∧ x ∈ segmentColumns s.columns g then (s.scan.workAt x).cell else s.mem.cell x y') ∧
      (∀ i (leaves : Prop), (leaves ↔ (u.lane i).state = .abandoning ∧ (u.lane i).live = 0 ∧
          (rest = [] ∨ 0 < (s.lane i).live)) →
        (leaves → t.lane i = Lane.free ∨
          ((t.lane i).state = .reporting ∧ (t.lane i).outcome = some .abandoned)) ∧
        (¬ leaves → { t.lane i with blockers := [] } = { u.lane i with blockers := [] })) ∧
      (rest ≠ [] → t.scan = { s.scan with todo := rest } ∧
        (t.arb.running = some .commit ∨ t.arb.scan = some .commit)) ∧
      (rest = [] → t.scan = { Scan.stopped with
          pos := .sweep 0, todo := (List.range (segments s.columns)).map .readCells } ∧
        (t.arb.running = some .sweep ∨ t.arb.scan = some .sweep)) ∧
      t.wb = s.wb ∧ t.thermal = s.thermal ∧ t.limits = s.limits)

/-- R72, R73, R74, R4: what the reports of a run of cells make of a lane's record: the totals rise by the
numbers of its reports, the live count rises by the cells armed and falls by the cells completed (where it
counts those at the start), the span becomes the largest frame count, the blockers gain the owners named, and
the leftover box becomes the smallest rectangle that holds the old box and every leftover reported. -/
def Obligations.ReportsAreCounted : Prop :=
  ∀ (s : State) (rs : List Report) (i : LaneId) (l : Lane), l = (s.takeReports rs).lane i →
    l.armed = (s.lane i).armed + rs.countP (fun r => match r with
      | .armed j _ _ => j = i | .leftover _ _ _ _ | .completed _ => false) ∧
    l.escalated = (s.lane i).escalated + rs.countP (fun r => match r with
      | .armed j _ e => j = i && e | .leftover _ _ _ _ | .completed _ => false) ∧
    l.leftovers = (s.lane i).leftovers + rs.countP (fun r => match r with
      | .leftover j _ _ _ => j = i | .armed _ _ _ | .completed _ => false) ∧
    (rs.countP (fun r => match r with
        | .completed j => j = i | .armed _ _ _ | .leftover _ _ _ _ => false) ≤ (s.lane i).live →
      l.live + rs.countP (fun r => match r with
          | .completed j => j = i | .armed _ _ _ | .leftover _ _ _ _ => false) =
        (s.lane i).live + rs.countP (fun r => match r with
          | .armed j _ _ => j = i | .leftover _ _ _ _ | .completed _ => false)) ∧
    (∀ n, l.span ≤ n ↔ (s.lane i).span ≤ n ∧ ∀ f e, Report.armed i f e ∈ rs → f ≤ n) ∧
    (∀ j, j ∈ l.blockers ↔ j ∈ (s.lane i).blockers ∨ ∃ x y, Report.leftover i x y j ∈ rs) ∧
    (∀ b : Rect, (∀ x y o, Report.leftover i x y o ∈ rs → b.x0 ≤ x ∧ x ≤ b.x1 ∧ b.y0 ≤ y ∧ y ≤ b.y1) ∧
        (∀ c, (s.lane i).box = some c → b.x0 ≤ c.x0 ∧ c.x1 ≤ b.x1 ∧ b.y0 ≤ c.y0 ∧ c.y1 ≤ b.y1) ↔
      (∀ c, l.box = some c → b.x0 ≤ c.x0 ∧ c.x1 ≤ b.x1 ∧ b.y0 ≤ c.y0 ∧ c.y1 ≤ b.y1)) ∧
    l.state = (s.lane i).state ∧ l.id = (s.lane i).id ∧ l.order = (s.lane i).order ∧
    l.pass = (s.lane i).pass ∧ l.slot = (s.lane i).slot ∧ l.step = (s.lane i).step ∧
    l.cancel = (s.lane i).cancel ∧ l.outcome = (s.lane i).outcome ∧
    (s.takeReports rs).mem = s.mem ∧ (s.takeReports rs).cache = s.cache

/-- R107, R69, R75, R76, R36, R99, R103: at a frame boundary in ON a DRIVING lane's step rises by 1, an ARMING
lane that armed a cell goes to DRIVING at step 0, a lane whose pass ends leaves DRIVING, the taken limits come
into force, and the next frame begins at line 0, with exactly the lanes then ARMING and DRIVING as its lane
set (`State.holdsLaneSet`), while a lane is in flight; else the scan engine stops. The lanes and FIFOs are
those that the pass ends (`State.advanceLanes`: PassEndsFollowTable), the limits and then the arming
(`State.armBoundary`: ArmingFollowsOrder) leave; and the cache is what the arming's references leave of it,
with the trigger evaluated, where pass ends brought counts down, before the arming or after it (R24, R33; log
entries 1 and 13). -/
def Obligations.BoundaryMovesLanes : Prop :=
  ∀ (s : State) (k : Nat), s.scan.pos = .blank k → s.scan.lineTimer ≠ none → k + 1 = s.hdr.blankLines →
    s.power.state = .on →
    ∃ t, exec .frameBoundary s = .next t ∧
      (∀ i, (s.lane i).state = .driving → (s.lane i).step + 1 ≠ (s.lane i).span →
        (t.lane i).state = .driving ∧ (t.lane i).step = (s.lane i).step + 1 ∧
        (t.lane i).span = (s.lane i).span ∧ (t.lane i).live = (s.lane i).live ∧
        (t.lane i).slot = (s.lane i).slot ∧ (t.lane i).id = (s.lane i).id) ∧
      (∀ i, (s.lane i).state = .arming → (s.lane i).span ≠ 0 →
        (t.lane i).state = .driving ∧ (t.lane i).step = 0 ∧ (t.lane i).span = (s.lane i).span ∧
        (t.lane i).live = (s.lane i).live ∧ (t.lane i).slot = (s.lane i).slot ∧
        (t.lane i).id = (s.lane i).id) ∧
      (∀ i, (s.lane i).state = .driving → (s.lane i).step + 1 = (s.lane i).span →
        (t.lane i).state ≠ .driving) ∧
      (∀ i, (s.lane i).state = .abandoning → (t.lane i).state = .abandoning) ∧
      t.limits = { s.limits with inForce := s.limits.taken } ∧ t.mem = s.mem ∧ t.wb = s.wb ∧
      t.thermal = s.thermal ∧
      (s.quiet = true → ∃ u v, u = s.advanceLanes.limitsInForce ∧
        { v with cache := u.cache, flash := u.flash, choices := u.choices } = u ∧
        t.lanes = v.armBoundary.lanes ∧ t.adm = v.armBoundary.adm ∧
        ((∀ i, (s.lane i).passDue = false) →
          v = u ∧ t.cache = v.armBoundary.cache ∧ t.flash = s.flash) ∧
        ((∃ i, (s.lane i).passDue = true) →
          (v.cache = u.evalTrigger.cache ∧ v.flash = u.evalTrigger.flash ∧
            t.cache = v.armBoundary.cache ∧ t.flash = v.flash) ∨
          (v.cache = u.cache ∧ v.flash = u.flash ∧
            t.cache = v.armBoundary.evalTrigger.cache ∧ t.flash = v.armBoundary.evalTrigger.flash))) ∧
      (t.lanesInFlight = true → t.scan.pos = .line 0 .reading ∧ t.scan.limits = s.limits.taken ∧
        t.holdsLaneSet ∧ t.panel.gstart = true ∧ t.panel.gate = .line 0) ∧
      (t.lanesInFlight = false → t.scan.pos = .stopped ∧ t.panel.soe = false ∧ t.panel.goe = false)

/-- R69, R75, R76, R78, R79, R81, R23, R91, R176: the first three steps of a frame boundary at the lanes. A lane
DRIVING at its last step, or ARMING with span 0, ends its pass: its reference is released, it leaves every
blocker set, and R79's table decides: WAITING with the leftover box as its region, or an end CANCELLED, COMPLETE
or PARTIAL, whose notice is queued with the lane FREE while there is room and waits with the lane in REPORTING
otherwise, the notices of several pass ends in increasing admission order (`State.endsInOrder`). Every other
DRIVING lane is a step on, every other ARMING lane goes to DRIVING at step 0, and the rest are not moved. -/
def Obligations.PassEndsFollowTable : Prop :=
  ∀ (s t : State), s.quiet = true → s.railsGuarded = true → t = s.advanceLanes →
    (∀ l : Lane, l.passDue = true ↔
      (l.state = .driving ∧ l.step + 1 = l.span) ∨ (l.state = .arming ∧ l.span = 0)) ∧
    (∀ i (l m : Lane), l = s.lane i →
      m = { l with
        slot := none, band := none, step := if l.state = .driving then l.step + 1 else l.step
        blockers := l.blockers.filter (fun j => !(s.lane j).passDue) } →
      (l.passDue = true →
        (l.cancel = false → l.leftovers ≠ 0 → s.adm.mode = .normal → l.pass.getD 0 < 4 →
          t.lane i = { m with state := .waiting, region := l.box }) ∧
        (∀ o, o = (if l.cancel = true then .cancelled else if l.leftovers = 0 then .complete
            else UpdateOutcome.partially) →
          ¬ (l.cancel = false ∧ l.leftovers ≠ 0 ∧ s.adm.mode = .normal ∧ l.pass.getD 0 < 4) →
          ((t.lane i = Lane.free ∧ Notice.updateEnd (l.id.getD 0) o (l.pass.getD 0) l.armed l.escalated
              l.leftovers l.substituted ∈ t.notices.queue) ∨
            (t.lane i = { m with state := .reporting, outcome := some o } ∧
              Submitter.lane i ∈ t.notices.waiting)) ∧
          (s.notices.waiting = [] →
            s.notices.updateEnds + allLanes.countP (fun j => (s.lane j).passDue) ≤ 31 →
            t.lane i = Lane.free) ∧
          (31 ≤ s.notices.updateEnds ∨ s.notices.waiting ≠ [] → t.notices.queue = s.notices.queue))) ∧
      (l.passDue = false → t.lane i = { m with
        slot := l.slot, band := l.band
        state := if l.state = .arming then .driving else l.state
        step := if l.state = .driving then l.step + 1 else if l.state = .arming then 0 else l.step })) ∧
    (∀ sl, t.cache.slot sl = { s.cache.slot sl with
      refs := (s.cache.slot sl).refs -
        allLanes.countP (fun i => (s.lane i).passDue && (s.lane i).slot = some sl) }) ∧
    { t.cache with a := s.cache.a, b := s.cache.b } = s.cache ∧
    (∃ es : List Notice, t.notices.queue = s.notices.queue ++ es ∧ s.endsInOrder t es) ∧
    { t with lanes := s.lanes, cache := s.cache, notices := s.notices } = s

/-- R56, R57, R58, R54, R70, R71, R23: the arming of a frame boundary, at which no lane is ARMING any more.  At
most four lanes arm: WAITING lanes with an empty blocker set and a grant take their next pass, the earlier
admission orders first (orders as near to one another as R50 says they are); then unmarked entries with an
empty fence, a grant and ON leave the urgent FIFO and then the normal one from the head on, each into the
lane R57 gives its class; each arming takes a reference.  Fewer than four arm only when no candidate is left;
no entry arms while such a WAITING lane is left over, and no NORMAL entry while the urgent head still could. -/
def Obligations.ArmingFollowsOrder : Prop :=
  ∀ (s t : State), s.queuesFit = true → s.idsDistinct = true → t = s.armBoundary →
    (∀ i, (s.lane i).state ≠ .arming) →
    allLanes.countP (fun i => (t.lane i).state = .arming) ≤ 4 ∧
    (∀ i, (t.lane i).state ≠ .arming → t.lane i = s.lane i) ∧
    (∀ i, (t.lane i).state = .arming →
      (∃ g, (s.lane i).state = .waiting ∧ (s.lane i).blockers = [] ∧
        s.grant ((s.lane i).cls.getD .normal) = some g ∧
        t.lane i = { s.lane i with
          state := .arming, pass := (s.lane i).pass.map (fun n => n + 1), slot := some g.slot
          band := some g.band, substituted := (s.lane i).substituted || g.substituted, step := 0, span := 0
          leftovers := 0, box := none, blockers := [] }) ∨
      (∃ p g, (s.lane i).state = .free ∧ p ∈ s.adm.urgent ++ s.adm.normal ∧
        p ∉ t.adm.urgent ++ t.adm.normal ∧ p.marked = false ∧ p.fence = 0 ∧ s.power.state = .on ∧
        s.grant p.cls = some g ∧
        t.lane i = { Lane.free with
          state := .arming, id := some p.id, order := some p.order, mode := some p.mode, cls := some p.cls
          noEscalate := p.noEscalate, pass := some 1, region := some p.area, slot := some g.slot
          band := some g.band, substituted := g.substituted } ∧
        (p.cls = .normal ∨ i < 12 → i < 12 ∧ ∀ j, j < i → (t.lane j).state ≠ .free) ∧
        (p.cls = .urgent → ∀ j : LaneId, 12 ≤ j → (12 ≤ i → j < i) → (t.lane j).state ≠ .free))) ∧
    allLanes.countP (fun i => (s.lane i).state = .free && (t.lane i).state = .arming) +
        (t.adm.urgent ++ t.adm.normal).length = (s.adm.urgent ++ s.adm.normal).length ∧
    (∀ c : UpdateClass, (t.adm.fifo c).filter (fun p => p.marked) = (s.adm.fifo c).filter (fun p => p.marked) ∧
      ∃ n, (t.adm.fifo c).filter (fun p => !p.marked) = ((s.adm.fifo c).filter (fun p => !p.marked)).drop n) ∧
    (allLanes.countP (fun i => (t.lane i).state = .arming) < 4 → t.readyWork = false) ∧
    (∀ i, (s.lane i).state = .waiting → (s.lane i).blockers = [] →
      (s.grant ((s.lane i).cls.getD .normal)).isSome = true → (t.lane i).state ≠ .arming →
      t.adm = s.adm ∧ ∀ base : BitVec 32,
        (∀ j, (s.lane j).state = .waiting → ((s.lane j).order.getD 0 - base).toNat < 2147483648) →
        ∀ j, (t.lane j).state = .arming →
          earlier ((s.lane i).order.getD 0) ((s.lane j).order.getD 0) = false) ∧
    ((t.armHead .urgent).isSome = true → t.adm.normal = s.adm.normal) ∧
    (∀ sl, t.cache.slot sl = { s.cache.slot sl with
      refs := (s.cache.slot sl).refs +
        allLanes.countP (fun i => (t.lane i).state = .arming && (t.lane i).slot = some sl) }) ∧
    { t.cache with a := s.cache.a, b := s.cache.b } = s.cache ∧
    { t.adm with urgent := s.adm.urgent, normal := s.adm.normal } = s.adm ∧
    { t with lanes := s.lanes, adm := s.adm, cache := s.cache } = s

/-- R111, R48, R4, R89, R23, R109, R13, R59, R63: the sweep. A read that a cut has discarded runs to its end for
nothing, and only then the sweep's first read is asked for. A read before a line's last asks for the next. After
the last come the writes of exactly the segments with a cell of an ABANDONING lane or, with none, the next
line's reads: that all of a line's reads come before its writes, both in increasing column order, is the model's
choice (R111 gives no order; log entry 10, DEDUCED). A write releases exactly the cells of ABANDONING lanes in
its segment, and each lane's live count falls by the number of its cells there. A lane whose last cells they are
leaves ABANDONING: its reference is released, it leaves every blocker set, and its outcome is ABANDONED, its
notice queued with the lane FREE while there is room and waiting with the lane in REPORTING otherwise; the cache
then evaluates its trigger: that it does so once, after all the releases of the event, is the model's choice
(log entry 13, DEDUCED). The last line's last access ends the sweep: the scan engine is STOPPED, or a frame
begins at once when the rails are ON and work is ready (where lanes leave in that event, the trigger and the
test for ready work come in either order, log entry 1); and draining that is over ends with a DRAIN_DONE. -/
def Obligations.SweepReleasesCells : Prop :=
  (∀ (s : State) (y : Nat), s.arb.running = some (.scanRead true) → s.scan.pos = .sweep y →
    ∃ t, exec .scanReadComplete s = .next t ∧ { t with arb := s.arb, choices := s.choices } = s ∧
      (t.arb.running = some .sweep ∨ t.arb.scan = some .sweep)) ∧
  (∀ (s : State) (y g : Nat) (rest : List LineAccess), s.arb.running = some .sweep →
    s.scan.pos = .sweep y → s.scan.todo = .readCells g :: rest → rest ≠ [] → s.quiet = true →
    ∃ t, exec .sweepAccessComplete s = .next t ∧ t.scan = { s.scan with todo := rest } ∧
      { t with scan := s.scan, arb := s.arb, choices := s.choices } = s ∧
      (t.arb.running = some .sweep ∨ t.arb.scan = some .sweep)) ∧
  (∀ (s u : State) (y g : Nat) (released : Nat → Prop), s.arb.running = some .sweep →
    s.scan.pos = .sweep y → s.scan.todo = [.readCells g] → s.quiet = true → u = { s with scan := Scan.stopped } →
    (∀ x, released x ↔
      x < s.columns ∧ ∃ o, (s.mem.cell x y).owner = some o ∧ (s.lane o).state = .abandoning) →
    ∃ t, exec .sweepAccessComplete s = .next t ∧
      ((∃ x, released x) ∨ y + 1 < s.panelLines →
        { t with scan := s.scan, arb := s.arb, choices := s.choices } = s ∧
        (t.arb.running = some .sweep ∨ t.arb.scan = some .sweep)) ∧
      ((∃ x, released x) → ∃ gs : List Nat, t.scan = { s.scan with todo := gs.map .write } ∧
        gs.Pairwise (· < ·) ∧ ∀ j, j ∈ gs ↔ ∃ x, released x ∧ x / 256 = j) ∧
      ((∀ x, ¬ released x) → y + 1 < s.panelLines → t.scan = { Scan.stopped with
        pos := .sweep (y + 1), todo := (List.range ((s.columns + 255) / 256)).map .readCells }) ∧
      ((∀ x, ¬ released x) → s.panelLines ≤ y + 1 →
        (s.power.state = .on ∧ u.readyWork = true →
          u.frameBegun t ∧ t.cache = u.limitsInForce.armBoundary.cache) ∧
        (¬ (s.power.state = .on ∧ u.readyWork = true) →
          { t with arb := s.arb, choices := s.choices } = u))) ∧
  (∀ (s : State) (y g : Nat) (rest : List LineAccess) (n : LaneId → Nat) (left : LaneId → Bool),
    s.arb.running = some .sweep → s.scan.pos = .sweep y → s.scan.todo = .write g :: rest → s.mem.wf = true →
    s.columns ≤ 2048 → s.quiet = true →
    (∀ i, n i = (segmentColumns s.columns g).countP (fun x => (s.mem.cell x y).owner = some i)) →
    (∀ i, left i = true ↔
      (s.lane i).state = .abandoning ∧ 0 < (s.lane i).live ∧ (s.lane i).live ≤ n i) →
    ∃ t u : State, exec .sweepAccessComplete s = .next t ∧
      { u with mem := s.mem, lanes := s.lanes, cache := s.cache, notices := s.notices } = s ∧
      u.mem.drafts = s.mem.drafts ∧
      (∀ x y' c, x < 2048 → c = s.mem.cell x y' →
        ((y' = y ∧ x ∈ segmentColumns s.columns g ∧ ∃ o, c.owner = some o ∧ (s.lane o).state = .abandoning) →
          u.mem.cell x y' = { level := c.goal, goal := 0, owner := none, kind := .swift, residue := 63
                              balance := c.balance }) ∧
        (¬ (y' = y ∧ x ∈ segmentColumns s.columns g ∧ ∃ o, c.owner = some o ∧ (s.lane o).state = .abandoning) →
          u.mem.cell x y' = c)) ∧
      (∀ i (l m : Lane), l = s.lane i →
        m = { l with
          live := if l.state = .abandoning then l.live - n i else l.live
          blockers := l.blockers.filter (fun j => !left j) } →
        (left i = false → u.lane i = m) ∧
        (left i = true →
          ((u.lane i = Lane.free ∧ Notice.updateEnd (l.id.getD 0) .abandoned (l.pass.getD 0) l.armed l.escalated
              l.leftovers l.substituted ∈ u.notices.queue) ∨
            (u.lane i = { m with state := .reporting, outcome := some .abandoned, slot := none, band := none } ∧
              Submitter.lane i ∈ u.notices.waiting)) ∧
          (s.notices.waiting = [] → s.notices.updateEnds + allLanes.countP left ≤ 31 →
            u.lane i = Lane.free))) ∧
      (∀ sl, u.cache.slot sl = { s.cache.slot sl with
        refs := (s.cache.slot sl).refs - allLanes.countP (fun i => left i && (s.lane i).slot = some sl) }) ∧
      { u.cache with a := s.cache.a, b := s.cache.b } = s.cache ∧
      (rest ≠ [] ∨ y + 1 < s.panelLines →
        t.mem = u.mem ∧ t.lanes = u.lanes ∧ t.limits = s.limits ∧
        t.cache = (if allLanes.any left = true then u.evalTrigger.cache else u.cache) ∧
        t.scan = (if rest ≠ [] then { s.scan with todo := rest }
          else { Scan.stopped with
            pos := .sweep (y + 1), todo := (List.range ((s.columns + 255) / 256)).map .readCells }) ∧
        (t.arb.running = some .sweep ∨ t.arb.scan = some .sweep)) ∧
      (rest = [] → s.panelLines ≤ y + 1 → ∃ v : State,
        { v with scan := u.scan, cache := u.cache, flash := u.flash, choices := u.choices } = u ∧
        v.scan = Scan.stopped ∧ (v.cache = u.cache ∨ (allLanes.any left = true ∧ v.cache = u.evalTrigger.cache)) ∧
        (s.power.state = .on ∧ v.readyWork = true → v.frameBegun t) ∧
        (¬ (s.power.state = .on ∧ v.readyWork = true) →
          t.scan = Scan.stopped ∧ t.mem = u.mem ∧ t.lanes = u.lanes ∧ t.limits = s.limits)) ∧
      (∀ drained : Prop, (drained ↔ s.adm.mode = .draining ∧ s.power.state = .off ∧
          (∀ i, (u.lane i).state = .free) ∧ s.adm.urgent = [] ∧ s.adm.normal = []) →
        (drained → t.notices = { u.notices with queue := coalesceInto (.drainDone 1) u.notices.queue } ∧
          t.adm = { s.adm with mode := .normal }) ∧
        (¬ drained → t.notices = u.notices)) ∧
      t.wb = s.wb ∧ t.thermal = s.thermal)

/-! ### Temperature -/

/-- R115, R117, R118, R119, R120, R123, R124, R24, R59: the sample timer's expiry starts a conversion and the
timer again; a code of 0 or 63 is a miss, which counts, and the fourth in a row makes the sensor FAULTY, empties
the history and, without an override, makes the band the fallback band; any other code is a sample, which joins
the history and clears the miss counter, and without an override the band is evaluated from the average, a
change of it submitting a BAND notice; a sample taken while FAULTY makes the sensor GOOD. A change of the sensor
to FAULTY or from it submits a SENSOR notice, which comes before the BAND notice (R188). A change of the band is
handed on in the same event: the cache evaluates its trigger and the admission unit tests for ready work, in
either order (`State.handedOn`; log entry 1). Nothing else changes. -/
def Obligations.SamplingRuns : Prop :=
  (∀ s : State, s.thermal.timer ≠ none →
    exec .sampleTimerExpiry s = .next { s with
      thermal := { s.thermal with converting := true, timer := s.thermal.period } }) ∧
  (∀ (s : State) (thm : Vector Nat 6) (code : Nat), s.thermal.converting = true → s.quiet = true →
    code = ladderCode thm →
    (code = 0 ∨ code = 63 →
      (s.thermal.sensor ≠ .faulty → s.thermal.misses < 3 →
        exec (.conversionComplete thm) s = .next { s with
          thermal := { s.thermal with converting := false, misses := s.thermal.misses + 1 }
          arb := s.arb.grant }) ∧
      (s.thermal.sensor ≠ .faulty → s.thermal.misses = 3 → s.thermal.override ≠ none →
        exec (.conversionComplete thm) s = .next { s with
          thermal := { s.thermal with converting := false, misses := 4, sensor := .faulty, history := [] }
          notices := { s.notices with queue := coalesceInto (.sensor 1 .faulty code) s.notices.queue }
          arb := s.arb.grant }) ∧
      (s.thermal.sensor ≠ .faulty → s.thermal.misses = 3 → s.thermal.override = none →
        ∃ t, exec (.conversionComplete thm) s = .next t ∧
          t.thermal = { s.thermal with
            converting := false, misses := 4, sensor := .faulty, history := [], band := s.hdr.fallback } ∧
          t.notices = { s.notices with
            queue := if s.hdr.fallback = s.thermal.band then
                coalesceInto (.sensor 1 .faulty code) s.notices.queue
              else coalesceInto (.band 1 s.hdr.fallback .fallback none)
                (coalesceInto (.sensor 1 .faulty code) s.notices.queue) } ∧
          (s.hdr.fallback = s.thermal.band →
            t = { s with thermal := t.thermal, notices := t.notices, arb := s.arb.grant }) ∧
          (s.hdr.fallback ≠ s.thermal.band →
            ({ s with thermal := t.thermal, notices := t.notices }).handedOn t ∧
            (t.scan = s.scan → t.arb = s.arb.grant))) ∧
      (s.thermal.sensor = .faulty → s.thermal.misses = 4 →
        exec (.conversionComplete thm) s = .next { s with
          thermal := { s.thermal with converting := false }, arb := s.arb.grant })) ∧
    (1 ≤ code → code ≤ 62 → s.thermal.sensor = .faulty →
      ∃ t h q, exec (.conversionComplete thm) s = .next t ∧
        h = pushHistory 8 s.thermal.history (s.hdr.thermistor.getD code 0) ∧
        t.thermal = { s.thermal with
          converting := false, history := h, misses := 0, sensor := .good
          band := if s.thermal.override = none then
              evalBand s.hdr.bounds s.hdr.hysteresis
                ((h.drop (h.length - min (s.thermal.depth.getD 1) h.length)).sum /
                  ((min (s.thermal.depth.getD 1) h.length : Nat) : Int)) s.thermal.band
            else s.thermal.band } ∧
        q = coalesceInto (.sensor 1 .good code) s.notices.queue ∧
        t.notices = { s.notices with
          queue := if t.thermal.band = s.thermal.band then q
            else coalesceInto (.band 1 t.thermal.band .sensor
              (some ((h.drop (h.length - min (s.thermal.depth.getD 1) h.length)).sum /
                ((min (s.thermal.depth.getD 1) h.length : Nat) : Int)))) q } ∧
        (t.thermal.band = s.thermal.band →
          t = { s with thermal := t.thermal, notices := t.notices, arb := s.arb.grant }) ∧
        (t.thermal.band ≠ s.thermal.band →
          ({ s with thermal := t.thermal, notices := t.notices }).handedOn t ∧
          (t.scan = s.scan → t.arb = s.arb.grant))) ∧
    (1 ≤ code → code ≤ 62 → s.thermal.sensor ≠ .faulty →
      ∃ t h, exec (.conversionComplete thm) s = .next t ∧
        h = pushHistory 8 s.thermal.history (s.hdr.thermistor.getD code 0) ∧
        t.thermal = { s.thermal with
          converting := false, history := h, misses := 0, sensor := .good
          band := if s.thermal.override = none then
              evalBand s.hdr.bounds s.hdr.hysteresis
                ((h.drop (h.length - min (s.thermal.depth.getD 1) h.length)).sum /
                  ((min (s.thermal.depth.getD 1) h.length : Nat) : Int)) s.thermal.band
            else s.thermal.band } ∧
        (t.thermal.band = s.thermal.band → t = { s with thermal := t.thermal, arb := s.arb.grant }) ∧
        (t.thermal.band ≠ s.thermal.band →
          t.notices = { s.notices with
            queue := coalesceInto (.band 1 t.thermal.band .sensor
              (some ((h.drop (h.length - min (s.thermal.depth.getD 1) h.length)).sum /
                ((min (s.thermal.depth.getD 1) h.length : Nat) : Int)))) s.notices.queue } ∧
          ({ s with thermal := t.thermal, notices := t.notices }).handedOn t ∧
          (t.scan = s.scan → t.arb = s.arb.grant))))

/-- R116, R122: of a voltage that stands still, with v = floor(64 × THM / THREF), the six comparisons find the
largest step at or below it, and of any six voltages a code from 0 to 63.  With a hysteresis of at least 0
and at most seven boundaries, an evaluation of the band made twice with the same temperature leaves the
band unchanged the second time, and with hysteresis 0 the band is the number of boundaries at or below the
temperature. -/
def Obligations.LadderAndBandEvaluation : Prop :=
  (∀ v : Nat, ladderCode (Vector.replicate 6 v) = min 63 v) ∧
  (∀ thm : Vector Nat 6, ladderCode thm ≤ 63) ∧
  ∀ (bounds : List Int) (h a : Int) (c : Band), 0 ≤ h → bounds.length ≤ 7 →
    evalBand bounds h a (evalBand bounds h a c) = evalBand bounds h a c ∧
    (h = 0 → (evalBand bounds h a c).val = bounds.countP (fun b => b ≤ a))

/-! ### Panel power -/

/-- R132: a changed raw level starts the filter with its time, a return to the filtered level ends it, and
with the filter at 0 µs the filtered level follows at once, as at the expiry of a filter of that length in
every power state; the filter's expiry makes the raw level the filtered one. In OFF, FALLING and FAULT the
sequencer does nothing with a filtered change. -/
def Obligations.GoodLinesAreFiltered : Prop :=
  ∀ (s : State) (line : Fin 4) (high : Bool) (elapsed : Nat),
    (s.resetHeld = false → (s.goodLine line).raw ≠ high →
      ((s.goodLine line).filtered = high →
        exec (.railGoodChange line high elapsed) s = .next
          (s.setLine line { raw := high, filtered := high, timing := none })) ∧
      ((s.goodLine line).filtered ≠ high → s.power.filter ≠ 0 →
        exec (.railGoodChange line high elapsed) s = .next
          (s.setLine line { raw := high, filtered := (s.goodLine line).filtered
                            timing := some s.power.filter })) ∧
      ((s.goodLine line).filtered ≠ high → s.power.filter = 0 → s.quiet = true →
        (s.power.state = .off ∨ (∃ k, s.power.state = .falling k) ∨ s.power.state = .fault) →
        exec (.railGoodChange line high elapsed) s = .next { s.setLine line
          { raw := high, filtered := high, timing := none } with arb := s.arb.grant }) ∧
      ((s.goodLine line).filtered ≠ high → s.power.filter = 0 →
        exec (.railGoodChange line high elapsed) s = exec (.glitchFilterExpiry line elapsed)
          (s.setLine line { raw := high, filtered := (s.goodLine line).filtered, timing := some 0 }))) ∧
    ((s.goodLine line).timing ≠ none → s.quiet = true →
      (s.power.state = .off ∨ (∃ k, s.power.state = .falling k) ∨ s.power.state = .fault) →
      exec (.glitchFilterExpiry line elapsed) s = .next { s.setLine line
        { raw := (s.goodLine line).raw, filtered := (s.goodLine line).raw, timing := none } with
          arb := s.arb.grant })

/-- R134, R135, R136, R137, R139, R142, R63: below stage S, a stage that ends by its delay, by its condition at
the end of the blank interval or by a filtered change of its line to active after it, or by a forced timeout, gives
way to the next stage, whose timer and blank interval start; a condition met adds the measurement (the time from the
stage's start in whole units of 240 reference clocks, rounded up, held within 1 and the timeout: log entry 12) to the
stage's history and the stage to the monitored set.  At every stage, a line not active at the blank interval's end is
waited for (its end is a command, log entry 12); and in RISING and ON any other filtered change that loses no
monitored stage (FaultStopsTheRails has those that do; the end of stage S: OnAndIdleHold) changes the line alone.  A
fall delay's expiry leads to the next lower stage, from stage 1 to OFF, or with a rise request to RISING; and draining
with nothing left ends at the entry to OFF: a DRAIN_DONE is submitted and the mode is NORMAL again. -/
def Obligations.StagesAdvance : Prop :=
  (∀ (s : State) (k : Nat) (next : Power → Power), s.power.state = .rising k → k < s.stageCount →
    s.quiet = true →
    next = (fun p => { p with
      state := .rising (k + 1), stageTimer := some ((s.stage (k + 1)).t * 10)
      blankTimer := if (s.stage (k + 1)).condition = .delay then none
        else some ((s.stage (k + 1)).blank *
          blankBase s.hdr.riseDepth ((s.stage (k + 1)).t * 10) (s.power.riseHistory (k + 1)) / 128) }) →
    ((s.stage k).condition = .delay →
      exec .stageDelayExpiry s = .next { s with power := next s.power, arb := s.arb.grant }) ∧
    ((s.stage k).condition = .goodOrTimeout → s.power.blankTimer = none →
      exec .stageTimeout s = .next { s with power := next s.power, arb := s.arb.grant }) ∧
    (∀ b, s.power.blankTimer = some b → s.stageActive k = true → 1 ≤ k → k ≤ 5 → b < (s.stage k).t * 10 →
      exec .blankIntervalEnd s = .next { s with
        power := next { s.power.setRiseHistory k
            (pushHistory 8 (s.power.riseHistory k) (max 1 b)) with
          monitored := insertStage k s.power.monitored }
        arb := s.arb.grant }) ∧
    (∀ (line : Fin 4) (elapsed : Nat), (s.goodLine line).timing ≠ none →
      (∀ j ∈ s.power.monitored, s.stageOnLine j line = true → (s.stage j).activeHigh = (s.goodLine line).raw) →
      (s.stage k).condition ≠ .delay → (s.stage k).goodLine = line.val → s.power.blankTimer = none →
      (s.stage k).activeHigh = (s.goodLine line).raw → 1 ≤ k → k ≤ 5 →
      exec (.glitchFilterExpiry line elapsed) s = .next { s with
        power := next { s.power.setRiseHistory k (pushHistory 8 (s.power.riseHistory k)
              (min ((s.stage k).t * 10) (max 1 ((elapsed + 239) / 240)))) with
            lines := s.power.lines.set line.val
              { raw := (s.goodLine line).raw, filtered := (s.goodLine line).raw, timing := none } line.isLt
            monitored := insertStage k s.power.monitored }
        arb := s.arb.grant })) ∧
  (∀ (s : State) (k b : Nat), s.power.state = .rising k → s.power.blankTimer = some b → s.stageActive k = false →
    exec .blankIntervalEnd s = .next { s with power := { s.power with blankTimer := none } }) ∧
  (∀ (s : State) (line : Fin 4) (elapsed : Nat), (s.goodLine line).timing ≠ none → s.quiet = true →
    (∀ j ∈ s.power.monitored, s.stageOnLine j line = true → (s.stage j).activeHigh = (s.goodLine line).raw) →
    (s.power.state = .on ∨ ∃ k, s.power.state = .rising k ∧
      ¬ ((s.stage k).condition ≠ .delay ∧ (s.stage k).goodLine = line.val ∧ s.power.blankTimer = none ∧
        (s.stage k).activeHigh = (s.goodLine line).raw)) →
    exec (.glitchFilterExpiry line elapsed) s = .next { s.setLine line
      { raw := (s.goodLine line).raw, filtered := (s.goodLine line).raw, timing := none } with
        arb := s.arb.grant }) ∧
  (∀ (s : State) (k : Nat) (drained : Prop), s.power.state = .falling k →
    (drained ↔ s.adm.mode = .draining ∧ (∀ i, (s.lane i).state = .free) ∧ s.adm.urgent = [] ∧ s.adm.normal = []) →
    (1 < k →
      exec .fallDelayExpiry s = .next { s with
        power := { s.power with
          state := .falling (k - 1), stageTimer := some ((s.stage (k - 1)).fall * 10), blankTimer := none
          monitored := [], idleTimer := none } }) ∧
    (k ≤ 1 → drained → s.quiet = true →
      exec .fallDelayExpiry s = .next { s with
        power := { s.power with
          state := .off, stageTimer := none, blankTimer := none, monitored := [], idleTimer := none }
        notices := { s.notices with queue := coalesceInto (.drainDone 1) s.notices.queue }
        adm := { s.adm with mode := .normal }
        arb := s.arb.grant }) ∧
    (k ≤ 1 → ¬ drained → s.quiet = true → s.riseRequest = false →
      exec .fallDelayExpiry s = .next { s with
        power := { s.power with
          state := .off, stageTimer := none, blankTimer := none, monitored := [], idleTimer := none }
        arb := s.arb.grant }) ∧
    (k ≤ 1 → s.quiet = true → s.riseRequest = true →
      exec .fallDelayExpiry s = .next { s with
        power := { s.power with
          state := .rising 1, stageTimer := some ((s.stage 1).t * 10)
          blankTimer := if (s.stage 1).condition = .delay then none else some (s.blankInterval 1)
          monitored := [], idleTimer := none }
        arb := s.arb.grant }))

/-- R138, R134, R136, R137, R140, R141, R142, R59: the end of stage S, by its delay, by a forced timeout, at
the end of the blank interval with its line active, or by a filtered change of its line to active after it
(the measurement: log entry 12), enters ON. In NORMAL with no work in hand the idle hold timer starts with the
idle hold, or with an idle hold of 0 the fall starts; with ready work a frame begins in the same event
(`State.frameBegun`; its arming: ArmingFollowsOrder); with other work in hand the state stays ON without the
timer. In DRAINING with no work in hand the fall starts. The timer's expiry enters FALLING at stage S. -/
def Obligations.OnAndIdleHold : Prop :=
  (∀ (s u : State) (k : Nat) (c : Instr) (p : Power), s.power.state = .rising k → k = s.stageCount →
    s.quiet = true → s.power.idleTimer = none →
    ((c = .stageDelayExpiry ∧ (s.stage k).condition = .delay ∧ p = s.power) ∨
      (c = .stageTimeout ∧ (s.stage k).condition = .goodOrTimeout ∧ s.power.blankTimer = none ∧ p = s.power) ∨
      (∃ b, c = .blankIntervalEnd ∧ s.power.blankTimer = some b ∧ s.stageActive k = true ∧
        b < (s.stage k).t * 10 ∧
        p = { s.power.setRiseHistory k (pushHistory 8 (s.power.riseHistory k) (max 1 b)) with
            monitored := insertStage k s.power.monitored }) ∨
      (∃ line elapsed, c = .glitchFilterExpiry line elapsed ∧ (s.goodLine line).timing ≠ none ∧
        (∀ j ∈ s.power.monitored, s.stageOnLine j line = true →
          (s.stage j).activeHigh = (s.goodLine line).raw) ∧
        (s.stage k).condition ≠ .delay ∧ (s.stage k).goodLine = line.val ∧ s.power.blankTimer = none ∧
        (s.stage k).activeHigh = (s.goodLine line).raw ∧
        p = { s.power.setRiseHistory k (pushHistory 8 (s.power.riseHistory k)
              (min ((s.stage k).t * 10) (max 1 ((elapsed + 239) / 240)))) with
            lines := s.power.lines.set line.val
              { raw := (s.goodLine line).raw, filtered := (s.goodLine line).raw, timing := none } line.isLt
            monitored := insertStage k s.power.monitored })) →
    u = { s with power := { p with state := .on, stageTimer := none, blankTimer := none } } →
    (s.laneActivity = false → s.riseRequest = false →
      (s.adm.mode = .normal → s.power.idleHold ≠ 0 →
        exec c s = .next { u with
          power := { u.power with idleTimer := some s.power.idleHold }, arb := s.arb.grant }) ∧
      (s.adm.mode = .draining ∨ s.power.idleHold = 0 →
        exec c s = .next { u with
          power := { u.power with
            state := .falling s.stageCount, stageTimer := some ((s.stage s.stageCount).fall * 10)
            blankTimer := none, monitored := [], idleTimer := none }
          arb := s.arb.grant })) ∧
    (s.adm.mode = .normal →
      (s.scan.pos = .stopped → u.readyWork = true →
        ∃ t, exec c s = .next t ∧ u.frameBegun t ∧ t.power = u.power ∧
          t.cache = u.limitsInForce.armBoundary.cache ∧ t.notices = s.notices ∧ t.wb = s.wb ∧
          t.thermal = s.thermal) ∧
      (s.scan.pos ≠ .stopped ∨ u.readyWork = false → s.laneActivity = true ∨ s.riseRequest = true →
        exec c s = .next { u with arb := s.arb.grant }))) ∧
  (∀ s : State, s.power.state = .on → s.power.idleTimer ≠ none →
    exec .idleHoldExpiry s = .next { s with
      power := { s.power with
        state := .falling s.stageCount, stageTimer := some ((s.stage s.stageCount).fall * 10)
        blankTimer := none, monitored := [], idleTimer := none } })

/-- R137, R139, R144, R88, R89, R109, R176, R188: the timeout of a GOOD stage, and a filtered change to inactive
of a monitored stage's line in RISING or ON, enter FAULT with the cause and the lowest such stage (the monitored
set stands in increasing order, which every step keeps: ArbiterAndSettings): every enable line is deasserted,
the POWER_FAULT notice is submitted ahead of the UPDATE_ENDs of the event, which join in increasing admission
order (`State.endsInOrder`), no lane stays in flight or WAITING, the source outputs are disabled, and the
pending entries, the write buffer and the pixel memory stay. What each lane becomes, with the cache:
`State.lanesAbandoned` (one evaluation of the trigger there: log entry 13); what the scan engine, the panel and
the arbiter become: `State.frameCut` (the disabled gate there is the model's choice, log entry 16). -/
def Obligations.FaultStopsTheRails : Prop :=
  (∀ (s : State) (k : Nat), s.power.state = .rising k → (s.stage k).condition = .good →
    s.power.blankTimer = none → s.railsGuarded = true → s.quiet = true →
    ∃ t, exec .stageTimeout s = .next t ∧ t.power = { s.power with
        state := .fault, stageTimer := none, blankTimer := none, monitored := [], idleTimer := none
        lastFault := some (k, .timeout) } ∧
      (∃ es, t.notices.queue = coalesceInto (.powerFault 1 k .timeout) s.notices.queue ++ es ∧
        (∀ e ∈ es, Notice.isUpdateEnd e = true) ∧ s.endsInOrder t es) ∧
      s.lanesAbandoned t ∧ s.frameCut t ∧
      (∀ line, t.railEnable line = false) ∧ t.panel.soe = false ∧
      (∀ i, (t.lane i).state = .free ∨ (t.lane i).state = .abandoning ∨ (t.lane i).state = .reporting) ∧
      t.adm = s.adm ∧ t.wb = s.wb ∧ t.mem = s.mem ∧ t.thermal = s.thermal ∧
      { t with lanes := s.lanes, cache := s.cache, flash := s.flash, notices := s.notices, power := s.power
               scan := s.scan, panel := s.panel, arb := s.arb } = s) ∧
  (∀ (s : State) (line : Fin 4) (elapsed k : Nat),
    (s.power.state = .on ∨ ∃ j, s.power.state = .rising j) → (s.goodLine line).timing ≠ none →
    s.railsGuarded = true → s.quiet = true →
    s.power.monitored.find? (fun j => s.stageOnLine j line && (s.stage j).activeHigh ≠ (s.goodLine line).raw) =
      some k →
    ∃ t, exec (.glitchFilterExpiry line elapsed) s = .next t ∧ t.power = { s.power with
        state := .fault, stageTimer := none, blankTimer := none, monitored := [], idleTimer := none
        lastFault := some (k, .lost)
        lines := s.power.lines.set line.val
          { raw := (s.goodLine line).raw, filtered := (s.goodLine line).raw, timing := none } line.isLt } ∧
      (s.settingsLegal = true → ∀ j ∈ s.power.monitored, s.stageOnLine j line = true →
        (s.stage j).activeHigh ≠ (s.goodLine line).raw → k ≤ j) ∧
      (∃ es, t.notices.queue = coalesceInto (.powerFault 1 k .lost) s.notices.queue ++ es ∧
        (∀ e ∈ es, Notice.isUpdateEnd e = true) ∧ s.endsInOrder t es) ∧
      s.lanesAbandoned t ∧ s.frameCut t ∧
      (∀ line, t.railEnable line = false) ∧ t.panel.soe = false ∧
      (∀ i, (t.lane i).state = .free ∨ (t.lane i).state = .abandoning ∨ (t.lane i).state = .reporting) ∧
      t.adm = s.adm ∧ t.wb = s.wb ∧ t.mem = s.mem ∧ t.thermal = s.thermal ∧
      { t with lanes := s.lanes, cache := s.cache, flash := s.flash, notices := s.notices, power := s.power
               scan := s.scan, panel := s.panel, arb := s.arb } = s)

/-- R131: an enable line is asserted exactly when it is that of a stage from 1 to S which the state names: in
RISING at stage k the stages 1 to k, in ON 1 to S, in FALLING at stage k 1 to k − 1, in OFF and FAULT
none. -/
def Obligations.EnableLinesFollowState : Prop :=
  ∀ (s : State) (line : Nat), s.railEnable line = true ↔
    ∃ j, 1 ≤ j ∧ j ≤ s.stageCount ∧ (s.stage j).enable = line ∧
      match s.power.state with
      | .off | .fault => False
      | .rising k => j ≤ k
      | .on => True
      | .falling k => j ≤ k - 1

/-! ### Arming -/

/-- R40 to R44: a cell another lane owns is a leftover and is left as it is; an unowned cell of a SWIFT or
TONE pass whose effective goal is its level is left as it is and reported as nothing; and an armed cell
takes its goal, owner and kind, the kind being a cleaning one chosen by the sign of the balance for a CLEAN
pass and for a cell that escalates. -/
def Obligations.ArmingFollowsTests : Prop :=
  ∀ (v : ArmingView) (lim : Limits) (sl : Slot) (x y : Nat) (d e : Level) (c : Cell) (esc : Bool) (k : SeqKind),
    e = (if v.mode = .swift then (if d.val ≤ 7 then 0 else 15) else d) →
    (esc = true ↔ v.mode ≠ .clean ∧ v.noEscalate = false ∧
      (lim.residue ≤ c.residue ∨ (lim.balance : Int) ≤ c.balance ∨ c.balance ≤ -(lim.balance : Int))) →
    k = (if esc = true ∨ v.mode = .clean then (if 0 < c.balance then .cleanDown else .cleanUp)
         else if v.mode = .swift then .swift else .tone) →
    (∀ o, c.owner = some o → armCell v lim sl x y d c = (c, some (.leftover v.lane x y o))) ∧
    (c.owner = none → v.mode ≠ .clean → e = c.level → armCell v lim sl x y d c = (c, none)) ∧
    (c.owner = none → v.mode = .clean ∨ e ≠ c.level →
      armCell v lim sl x y d c =
        ({ c with goal := e, owner := some v.lane, kind := k },
          some (.armed v.lane (sl.frameCount k) esc)))

/-! ### Laws every step keeps -/

/-- The laws below hold of the machine right after reset. -/
def Obligations.LawsHoldAtReset : Prop :=
  State.reset.cellsLegal = true ∧ State.reset.queuesFit = true ∧ State.reset.idsDistinct = true ∧
  State.reset.railsGuarded = true ∧ State.reset.quiet = true ∧ State.reset.arb.settled = true ∧
  State.reset.settingsLegal = true

/-- R49, R2: every step keeps every cell's residue in 0 to 63 and balance in −511 to +511, an unowned record
with goal 0 and kind SWIFT, and the two planes in canonical form. -/
def Obligations.CellsStayLegal : Prop :=
  ∀ s t : State, s.cellsLegal = true → step s = .next t → t.cellsLegal = true

/-- R7, R50, R52, R11, R174, R175, R177: every step keeps the write buffer, the FIFOs (each with entries of its
own class), the fences and the notice queue within their capacities. -/
def Obligations.QueuesStayWithinCapacity : Prop :=
  ∀ s t : State, s.queuesFit = true → step s = .next t → t.queuesFit = true

/-- R52: every step keeps each update id in at most one place among the FIFOs and the lanes. -/
def Obligations.IdsStayDistinct : Prop :=
  ∀ s t : State, s.queuesFit = true → s.idsDistinct = true → step s = .next t → t.idsDistinct = true

/-- R108, R97, R107, R140, R94, R86: every step keeps the law that the outputs are enabled in an output window
of a frame alone, that a frame runs with the rails ON and a lane in flight alone, and that a lane is WAITING
with the rails ON and the mode NORMAL alone; so no source output
presents a drive other than 0 while the power sequencer is in any state other than ON. -/
def Obligations.NoDriveWithoutRails : Prop :=
  (∀ s t : State, s.railsGuarded = true → step s = .next t → t.railsGuarded = true) ∧
  (∀ (s : State) (x : Nat), s.railsGuarded = true → s.sourceOutput x ≠ .none → s.power.state = .on)

/-- R63, R91, R140, R141, R175: every step leaves nothing over: no UPDATE_END submission due, idleness and
draining acted on, and no draining that is over. -/
def Obligations.EventsAreFinished : Prop :=
  ∀ s t : State, s.queuesFit = true → s.railsGuarded = true → s.quiet = true → step s = .next t →
    t.quiet = true

/-- R13, R36, R114, R118, R120, R129, R136, R139, R146: an access that has the memory is not cut short by the
arbiter, and a free memory is granted to the scan engine's waiting access, to the drain's only with none of the scan
engine's waiting, to PROBE's only with neither; in the event of an access's completion the grant may instead fall to
the first access that waited before it (log entry 2).  Every step keeps no access waiting beside a free memory; and
every step keeps limits, override, idle hold and filter in range, the histories and the miss counter within their
bounds, and stages monitored in RISING and ON alone, in increasing order. -/
def Obligations.ArbiterAndSettings : Prop :=
  (∀ a : Arbiter,
    (a.running ≠ none → a.grant = a) ∧
    (∀ x, a.running = none → a.scan = some x → (x = .commit ∨ x = .sweep ∨ ∃ d, x = .scanRead d) →
      a.grant = { a with running := some x, scan := none }) ∧
    (a.running = none → a.scan = none → a.drain = true →
      a.grant = { a with running := some .drain, drain := false }) ∧
    (∀ x y, a.running = none → a.scan = none → a.drain = false → a.probe = some (x, y) →
      a.grant = { a with running := some (.probe x y true), probe := none }) ∧
    (a.scan = none → a.drain = false → a.probe = none → a.grant = a)) ∧
  (∀ (s t : State) (old : Arbiter), t = s.arbitrateAfter old →
    { t with arb := s.arb, choices := s.choices } = s ∧
    (t.arb = s.arb.grant ∨
      (s.arb.running = none ∧ (old.scan = none ∨ s.arb.scan = none) ∧
        ((old.drain = true ∧ s.arb.drain = true ∧
            t.arb = { s.arb with running := some .drain, drain := false }) ∨
          ((old.drain = false ∨ s.arb.drain = false) ∧ old.probe ≠ none ∧
            ∃ x y, s.arb.probe = some (x, y) ∧
              t.arb = { s.arb with running := some (.probe x y true), probe := none }))))) ∧
  (∀ s t : State, s.arb.settled = true → step s = .next t → t.arb.settled = true) ∧
  (∀ s t : State, s.settingsLegal = true → step s = .next t → t.settingsLegal = true)
end

