-- ==== Sys2Proof/Laws/Frames.lean ====
section
/-! SUPPORT. What each shared operation can change: one lemma for each, `f s = { s with … }` with the blocks
it may write, so that a proof about the other blocks cites the lemma and unfolds nothing. -/

namespace Sys2Proof.Machine

/-! ### The arbiter -/

theorem State.arbitrate_frame (s : State) : s.arbitrate = { s with arb := s.arb.grant } := rfl

theorem State.arbitrateAfter_frame (s : State) (old : Arbiter) :
    ∃ a n, s.arbitrateAfter old = { s with arb := a, choices := n } := by
  unfold State.arbitrateAfter
  split
  · split
    · exact ⟨_, _, rfl⟩
    · split <;> exact ⟨_, _, rfl⟩
  · exact ⟨_, _, rfl⟩

/-! ### Notices -/

theorem State.deliver_frame (s : State) (w : Submitter) :
    ∃ n l a, s.deliver w = { s with notices := n, lanes := l, adm := a } := by
  unfold State.deliver
  split
  · exact ⟨_, _, _, rfl⟩
  · split <;> exact ⟨_, _, _, rfl⟩

theorem State.submit_frame (s : State) (w : Submitter) :
    ∃ n l a, s.submit w = { s with notices := n, lanes := l, adm := a } := by
  unfold State.submit
  split
  · exact s.deliver_frame w
  · exact ⟨_, _, _, rfl⟩

theorem State.submitDue_frame (k : Nat) :
    ∀ s : State, ∃ n l a, State.submitDue k s = { s with notices := n, lanes := l, adm := a } := by
  induction k with
  | zero => exact fun s => ⟨_, _, _, rfl⟩
  | succ k ih =>
    intro s
    unfold State.submitDue
    split
    · exact ⟨_, _, _, rfl⟩
    · rename_i who _
      obtain ⟨n, l, a, h⟩ := s.submit_frame who
      obtain ⟨n', l', a', h'⟩ := ih (s.submit who)
      exact ⟨n', l', a', by rw [h', h]⟩

theorem State.flushEnds_frame (s : State) :
    ∃ n l a, s.flushEnds = { s with notices := n, lanes := l, adm := a } := State.submitDue_frame 64 s

theorem State.takeWaiting_frame (k : Nat) :
    ∀ s : State, ∃ n l a, State.takeWaiting k s = { s with notices := n, lanes := l, adm := a } := by
  induction k with
  | zero => exact fun s => ⟨_, _, _, rfl⟩
  | succ k ih =>
    intro s
    unfold State.takeWaiting
    split
    · exact ⟨_, _, _, rfl⟩
    · rename_i who rest _
      split
      · obtain ⟨n, l, a, h⟩ := (s.setNotices { s.notices with waiting := rest }).deliver_frame who
        simp only at h ⊢
        rw [h]
        split
        · exact ih _
        · exact ih _
      · exact ⟨_, _, _, rfl⟩

/-! ### The power sequencer's own steps -/

theorem State.settlePower_frame (s : State) : ∃ p, s.settlePower = { s with power := p } := by
  unfold State.settlePower
  split
  · split
    · split <;> exact ⟨_, rfl⟩
    · split
      · split
        · exact ⟨_, rfl⟩
        · split <;> exact ⟨_, rfl⟩
      · exact ⟨_, rfl⟩
  · exact ⟨_, rfl⟩

theorem State.testDrained_frame (s : State) :
    ∃ n m, s.testDrained = { s with notices := n, adm := { s.adm with mode := m } } := by
  unfold State.testDrained
  split <;> exact ⟨_, _, rfl⟩

theorem State.settle_frame (s : State) :
    ∃ n l a p, s.settle = { s with notices := n, lanes := l, adm := a, power := p } := by
  obtain ⟨n, l, a, h⟩ := s.flushEnds_frame
  obtain ⟨p, hp⟩ := s.flushEnds.settlePower_frame
  obtain ⟨n', m, hd⟩ := s.flushEnds.settlePower.testDrained_frame
  exact ⟨_, _, _, _, by rw [State.settle, hd, hp, h]⟩

theorem State.testRise_frame (s : State) : ∃ p, s.testRise = { s with power := p } := by
  unfold State.testRise
  split <;> exact ⟨_, rfl⟩

/-! ### The waveform cache -/

theorem State.startReload_frame (s : State) (i : SlotId) :
    ∃ c f, s.startReload i = { s with cache := c, flash := f } := ⟨_, _, rfl⟩

theorem State.evalTrigger_frame (s : State) : ∃ c f, s.evalTrigger = { s with cache := c, flash := f } := by
  unfold State.evalTrigger
  split <;> exact ⟨_, _, rfl⟩

theorem State.recheck_frame (s : State) (r : Reload) (k : SeqKind) :
    ∃ c f, s.recheck r k = { s with cache := c, flash := f } := by
  unfold State.recheck
  split
  · exact ⟨_, _, rfl⟩
  · obtain ⟨c, f, h⟩ := (s.setCache (s.cache.endReload r.slot)).evalTrigger_frame
    exact ⟨c, f, by rw [h]; rfl⟩

theorem State.clearFailed_frame (s : State) : ∃ c f, s.clearFailed = { s with cache := c, flash := f } := by
  obtain ⟨c, f, h⟩ := (s.setCache { s.cache with failed := [] }).evalTrigger_frame
  exact ⟨c, f, by rw [State.clearFailed, h]; rfl⟩

theorem State.reloadTimeout_frame (s : State) (r : Reload) (b : Band) :
    ∃ n c f, s.reloadTimeout r b = { s with notices := n, cache := c, flash := f } := by
  unfold State.reloadTimeout
  split
  · obtain ⟨c, f, h⟩ := s.recheck_frame { r with retry := 1 } .swift
    exact ⟨_, c, f, by rw [h]⟩
  · exact ⟨_, State.evalTrigger_frame _⟩

/-! ### The lane controller -/

theorem State.mapLanes_lane (s : State) (f : Lane → Lane) (i : LaneId) :
    (s.mapLanes f).lane i = f (s.lane i) := by
  show (s.lanes.toList.map f).toArray[i.val]'(by simp) = f s.lanes[i.val]
  simp

theorem State.takeReports_frame (rs : List Report) :
    ∀ s : State, ∃ l, s.takeReports rs = { s with lanes := l } := by
  induction rs with
  | nil => exact fun s => ⟨_, rfl⟩
  | cons r rs ih =>
    intro s
    obtain ⟨l, h⟩ := ih (s.takeReport r)
    exact ⟨l, by rw [State.takeReports, List.foldl_cons, ← State.takeReports, h]; rfl⟩

theorem State.releaseLane_frame (s : State) (i : LaneId) : ∃ c, s.releaseLane i = { s with cache := c } := by
  unfold State.releaseLane
  split <;> exact ⟨_, rfl⟩

theorem State.passEnd_frame (s : State) (i : LaneId) :
    ∃ c l, s.passEnd i = { s with cache := c, lanes := l } := by
  obtain ⟨c, h⟩ := s.releaseLane_frame i
  exact ⟨c, _, by rw [State.passEnd, h]; rfl⟩

theorem State.leaveAbandoning_frame (s : State) (i : LaneId) :
    ∃ c l, s.leaveAbandoning i = { s with cache := c, lanes := l } := by
  obtain ⟨c, h⟩ := s.releaseLane_frame i
  exact ⟨c, _, by rw [State.leaveAbandoning, h]; rfl⟩

/-- A run of steps that write the cache and the lanes alone writes the cache and the lanes alone. -/
theorem State.foldl_frame (f : State → LaneId → State)
    (hf : ∀ s i, ∃ c l, f s i = { s with cache := c, lanes := l }) (is : List LaneId) :
    ∀ s : State, ∃ c l, is.foldl f s = { s with cache := c, lanes := l } := by
  induction is with
  | nil => exact fun s => ⟨_, _, rfl⟩
  | cons i is ih =>
    intro s
    obtain ⟨c, l, h⟩ := hf s i
    obtain ⟨c', l', h'⟩ := ih (f s i)
    exact ⟨c', l', by rw [List.foldl_cons, h', h]⟩

theorem State.advanceLanes_frame (s : State) :
    ∃ c n l a, s.advanceLanes = { s with cache := c, notices := n, lanes := l, adm := a } := by
  obtain ⟨c, l, h⟩ := State.foldl_frame State.passEnd State.passEnd_frame
    (allLanes.filter (fun i => (s.lane i).passDue)) (s.mapLanes Lane.advance)
  unfold State.advanceLanes
  simp only
  rw [h]
  exact ⟨_, State.flushEnds_frame _⟩

theorem State.leaveAll_frame (s : State) (is : List LaneId) :
    ∃ c l f, s.leaveAll is = { s with cache := c, lanes := l, flash := f } := by
  unfold State.leaveAll
  split
  · exact ⟨_, _, _, rfl⟩
  · obtain ⟨c, l, h⟩ := State.foldl_frame State.leaveAbandoning State.leaveAbandoning_frame is s
    obtain ⟨c', f, h'⟩ := (is.foldl State.leaveAbandoning s).evalTrigger_frame
    exact ⟨c', l, f, by rw [h', h]⟩

/-! ### The scan engine -/

theorem State.beginLine_frame (s : State) (y : Nat) :
    ∃ p c a, s.beginLine y = { s with panel := p, scan := c, arb := a } := ⟨_, _, _, rfl⟩

theorem State.nextPeriod_frame (s : State) (y : Nat) :
    ∃ p c a, s.nextPeriod y = { s with panel := p, scan := c, arb := a } := by
  unfold State.nextPeriod
  split <;> exact ⟨_, _, _, rfl⟩

theorem State.beginFrame_frame (s : State) :
    ∃ p c a, s.beginFrame = { s with panel := p, scan := c, arb := a } := ⟨_, _, _, rfl⟩

theorem State.enterSweep_frame (s : State) :
    ∃ c a k l f, s.enterSweep = { s with scan := c, arb := a, cache := k, lanes := l, flash := f } := by
  unfold State.enterSweep
  simp only
  split <;> exact ⟨_, _, State.leaveAll_frame _ _⟩

theorem State.discardedRead_frame (s : State) :
    ∃ a, s.discardedRead = { s with arb := a } := by
  unfold State.discardedRead
  split <;> exact ⟨_, rfl⟩

theorem State.lineCommitted_frame (s : State) (y : Nat) :
    ∃ p c a k l f, s.lineCommitted y =
      { s with panel := p, scan := c, arb := a, cache := k, lanes := l, flash := f } := by
  unfold State.lineCommitted
  split
  · exact ⟨_, State.enterSweep_frame _⟩
  · split
    · obtain ⟨p, c, a, h⟩ := s.nextPeriod_frame y
      exact ⟨p, c, a, _, _, _, by rw [h]⟩
    · exact ⟨_, _, _, _, _, _, rfl⟩

theorem State.beginCommit_frame (s : State) (y : Nat) :
    ∃ p c a k l f, s.beginCommit y =
      { s with panel := p, scan := c, arb := a, cache := k, lanes := l, flash := f } := by
  unfold State.beginCommit
  simp only
  split
  · exact State.lineCommitted_frame _ y
  · exact ⟨_, _, _, _, _, _, rfl⟩

@[simp] theorem State.loseLaneSet_frame (s : State) :
    s.loseLaneSet = { s with scan := { s.scan with arming := [], driving := [], limits := none } } := rfl

theorem State.cutFrame_frame (s : State) :
    ∃ p c a k l f, s.cutFrame =
      { s with panel := p, scan := c, arb := a, cache := k, lanes := l, flash := f } := by
  unfold State.cutFrame
  split
  · exact ⟨_, _, _, _, _, _, rfl⟩
  · exact ⟨_, State.enterSweep_frame _⟩
  · exact ⟨_, State.enterSweep_frame _⟩
  · simp only
    split
    · exact ⟨_, State.enterSweep_frame _⟩
    · exact ⟨_, State.enterSweep_frame _⟩
    · rename_i y _ _
      obtain ⟨p, c, a, k, l, f, h⟩ := State.beginCommit_frame
        ((s.setPanel { s.panel.idle with gate := .none }).setScan
          { s.scan with cut := true, lineTimer := none, windowTimer := none }) y
      exact ⟨p, _, a, k, l, f, congrArg State.loseLaneSet h⟩
    · exact ⟨_, _, _, _, _, _, rfl⟩
    · exact ⟨_, State.enterSweep_frame _⟩

theorem State.abandonLanes_frame (s : State) :
    ∃ p c a k l f, s.abandonLanes =
      { s with panel := p, scan := c, arb := a, cache := k, lanes := l, flash := f } := by
  unfold State.abandonLanes
  simp only
  split
  · exact State.cutFrame_frame _
  · exact ⟨_, _, _, _, _, _, rfl⟩

theorem State.enterFault_frame (s : State) (n : Nat) (w : FaultCause) :
    ∃ q m p c a k l f, s.enterFault n w =
      { s with power := q, notices := m, panel := p, scan := c, arb := a, cache := k, lanes := l, flash := f } := by
  unfold State.enterFault
  simp only
  exact ⟨_, _, State.abandonLanes_frame _⟩

/-! ### Arming -/

theorem State.armLanes_frame (is : List LaneId) :
    ∀ (n : Nat) (s : State), ∃ m c l, State.armLanes is n s = (m, { s with cache := c, lanes := l }) := by
  induction is with
  | nil => exact fun n s => ⟨_, _, _, by rw [State.armLanes]⟩
  | cons i is ih =>
    intro n s
    cases n with
    | zero => exact ⟨_, _, _, by rw [State.armLanes]; simp⟩
    | succ n =>
      unfold State.armLanes
      split
      · rename_i g _
        refine (ih n (s.armWaiting i g)).elim fun m => fun ⟨c, l, h⟩ => ⟨m, c, l, ?_⟩
        rw [h]; rfl
      · exact ih (n + 1) s

theorem State.armHead_frame (s s' : State) (c : UpdateClass) (h : s.armHead c = some s') :
    ∃ k l a, s' = { s with cache := k, lanes := l, adm := a } := by
  unfold State.armHead at h
  split at h
  · cases h
  · split at h
    · split at h
      · cases h; exact ⟨_, _, _, rfl⟩
      · cases h
    · cases h

theorem State.armFifo_frame (c : UpdateClass) (n : Nat) :
    ∀ s : State, ∃ m k l a, State.armFifo c n s = (m, { s with cache := k, lanes := l, adm := a }) := by
  induction n with
  | zero => exact fun s => ⟨_, _, _, _, by rw [State.armFifo]⟩
  | succ n ih =>
    intro s
    unfold State.armFifo
    split
    · rename_i s' hs
      obtain ⟨k, l, a, h⟩ := s.armHead_frame s' c hs
      obtain ⟨m, k', l', a', h'⟩ := ih s'
      exact ⟨m, k', l', a', by rw [h', h]⟩
    · exact ⟨_, _, _, _, rfl⟩

theorem State.armBoundary_frame (s : State) :
    ∃ k l a, s.armBoundary = { s with cache := k, lanes := l, adm := a } := by
  unfold State.armBoundary
  obtain ⟨m, c, l, h⟩ := State.armLanes_frame s.waitingReady Config.armsPerBoundary s
  rw [h]
  simp only
  obtain ⟨m', k', l', a', h'⟩ := State.armFifo_frame .urgent m { s with cache := c, lanes := l }
  rw [h']
  simp only
  obtain ⟨m'', k'', l'', a'', h''⟩ :=
    State.armFifo_frame .normal m' { s with cache := k', lanes := l', adm := a' }
  exact ⟨k'', l'', a'', by rw [h'']⟩

theorem State.startFrame_frame (s : State) :
    ∃ k l a p c b, s.startFrame = { s with
      limits := { s.limits with inForce := s.limits.taken }, cache := k, lanes := l, adm := a, panel := p,
      scan := c, arb := b } := by
  obtain ⟨k, l, a, h⟩ := s.limitsInForce.armBoundary_frame
  exact ⟨k, l, a, _, _, _, by rw [State.startFrame, h]; rfl⟩

theorem State.testReady_frame (s : State) :
    ∃ m k l a p c b, s.testReady = { s with
      limits := m, cache := k, lanes := l, adm := a, panel := p, scan := c, arb := b } := by
  unfold State.testReady
  split
  · obtain ⟨k, l, a, p, c, b, h⟩ := s.startFrame_frame
    exact ⟨_, k, l, a, p, c, b, by rw [h]⟩
  · exact ⟨_, _, _, _, _, _, _, rfl⟩

/-- The order of the cache's reload and the admission unit's test is open (log entry 1), but neither order
reaches another block. -/
theorem State.triggerReady_frame (s : State) :
    ∃ m k l a p c b f n, s.triggerWith State.testReady = { s with
      limits := m, cache := k, lanes := l, adm := a, panel := p, scan := c, arb := b, flash := f,
      choices := n } := by
  have h1 : ∀ s : State, ∃ m k l a p c b f n, s.evalTrigger.testReady = { s with
      limits := m, cache := k, lanes := l, adm := a, panel := p, scan := c, arb := b, flash := f,
      choices := n } := by
    intro s
    obtain ⟨k, f, h⟩ := s.evalTrigger_frame
    obtain ⟨m, k', l, a, p, c, b, h'⟩ := s.evalTrigger.testReady_frame
    exact ⟨m, k', l, a, p, c, b, f, _, by rw [h', h]⟩
  have h2 : ∀ s : State, ∃ m k l a p c b f n, s.testReady.evalTrigger = { s with
      limits := m, cache := k, lanes := l, adm := a, panel := p, scan := c, arb := b, flash := f,
      choices := n } := by
    intro s
    obtain ⟨m, k, l, a, p, c, b, h⟩ := s.testReady_frame
    obtain ⟨k', f, h'⟩ := s.testReady.evalTrigger_frame
    exact ⟨m, k', l, a, p, c, b, f, _, by rw [h', h]⟩
  unfold State.triggerWith
  split
  · split
    · simp only
      split
      · exact h1 _
      · exact h2 _
    · exact h1 s
  · obtain ⟨m, k, l, a, p, c, b, h⟩ := s.testReady_frame
    exact ⟨m, k, l, a, p, c, b, _, _, by rw [h]⟩

/-! ### The thermal unit -/

theorem State.setBand_frame (s : State) (b : Band) (w : BandBasis) (v : Option Int) :
    ∃ n, s.setBand b w v = { s with thermal := { s.thermal with band := b }, notices := n } := by
  unfold State.setBand
  split
  · rename_i h; exact ⟨_, by rw [h]⟩
  · exact ⟨_, rfl⟩

theorem State.handBand_frame (s before : State) :
    ∃ m k l a p c b f n, s.handBand before = { s with
      limits := m, cache := k, lanes := l, adm := a, panel := p, scan := c, arb := b, flash := f,
      choices := n } := by
  unfold State.handBand
  split
  · exact ⟨_, _, _, _, _, _, _, _, _, rfl⟩
  · exact s.triggerReady_frame

/-! ### The power sequencer's entry of ON -/

theorem State.endStage_frame (s : State) (n : Nat) :
    ∃ q m k l a p c b, s.endStage n = { s with
      power := q, limits := m, cache := k, lanes := l, adm := a, panel := p, scan := c, arb := b } := by
  unfold State.endStage
  split
  · exact ⟨_, _, _, _, _, _, _, _, rfl⟩
  · unfold State.enterOn
    exact ⟨_, State.testReady_frame _⟩

end Sys2Proof.Machine
end

