-- ==== Sys2Proof/Laws/Memory.lean ====
section
/-! SUPPORT. Pixel memory and slot storage: a read after a write, and that every write keeps the canonical
form. -/

namespace Sys2Proof.Machine

/-- A key below every listed one reads as the unlisted value. -/
theorem sparseGet_below {α : Type} {d : α} {m : List (Nat × α)} {i : Nat} (h : ∀ e ∈ m, i < e.1) : sparseGet d m i = d := by
  induction m with
  | nil => rfl
  | cons e m ih =>
    obtain ⟨k, v⟩ := e
    have hk : i < k := h (k, v) (by simp)
    have : k ≠ i := by omega
    simp only [sparseGet, if_neg this]
    exact ih (fun e he => h e (by simp [he]))

section Sparse

variable {α : Type} [DecidableEq α] {d : α}

/-- The tail of a canonical list is canonical. -/
theorem sparseWf_tail {k : Nat} {v : α} {m : List (Nat × α)} (h : sparseWf d ((k, v) :: m) = true) :
    sparseWf d m = true := by
  simp only [sparseWf, Bool.and_eq_true] at h; exact h.2

/-- The keys after the first of a canonical list are greater. -/
theorem sparseWf_keys {k : Nat} {v : α} {m : List (Nat × α)} (h : sparseWf d ((k, v) :: m) = true) :
    ∀ e ∈ m, k < e.1 := by
  simp only [sparseWf, Bool.and_eq_true, List.all_eq_true, decide_eq_true_eq] at h; exact h.1.2

/-- Reading after putting an entry in front of greater keys. -/
theorem sparseGet_cons {m : List (Nat × α)} {i : Nat} {v : α} (h : ∀ e ∈ m, i < e.1) (j : Nat) :
    sparseGet d (sparseCons d i v m) j = if j = i then v else sparseGet d m j := by
  unfold sparseCons
  by_cases hv : v = d
  · rw [if_pos hv]
    by_cases hj : j = i
    · subst hj; rw [if_pos rfl, sparseGet_below h, hv]
    · rw [if_neg hj]
  · rw [if_neg hv]
    by_cases hj : j = i
    · subst hj; simp [sparseGet]
    · have : i ≠ j := fun e => hj e.symm
      simp [sparseGet, hj, this]

/-- A read after a write: the value written at its key, and every other key as before. -/
theorem sparseGet_set {m : List (Nat × α)} (h : sparseWf d m = true) (i : Nat) (v : α) (j : Nat) :
    sparseGet d (sparseSet d m i v) j = if j = i then v else sparseGet d m j := by
  induction m with
  | nil => exact sparseGet_cons (by simp) j
  | cons e m ih =>
    obtain ⟨k, w⟩ := e
    have hk := sparseWf_keys h
    unfold sparseSet
    by_cases h1 : i < k
    · rw [if_pos h1]
      refine sparseGet_cons (fun e he => ?_) j
      rcases List.mem_cons.1 he with rfl | he
      · exact h1
      · exact Nat.lt_trans h1 (hk e he)
    · rw [if_neg h1]
      by_cases h2 : i = k
      · subst h2
        rw [if_pos rfl, sparseGet_cons hk]
        by_cases hj : j = i
        · simp [hj]
        · have : i ≠ j := fun e => hj e.symm
          simp [hj, sparseGet, this]
      · rw [if_neg h2]
        by_cases hj : k = j
        · have : j ≠ i := by omega
          simp [sparseGet, hj, this]
        · simp only [sparseGet, if_neg hj]
          exact ih (sparseWf_tail h)

/-- The keys of a written list are old ones or the one written. -/
theorem sparseSet_keys {m : List (Nat × α)} {i : Nat} {v : α} :
    ∀ e ∈ sparseSet d m i v, e.1 = i ∨ e ∈ m := by
  induction m with
  | nil => intro e he; unfold sparseSet sparseCons at he; split at he <;> simp_all
  | cons a m ih =>
    obtain ⟨k, w⟩ := a
    intro e he
    unfold sparseSet sparseCons at he
    split at he
    · split at he
      · exact .inr he
      · rcases List.mem_cons.1 he with rfl | he
        · exact .inl rfl
        · exact .inr he
    · split at he
      · split at he
        · exact .inr (List.mem_cons_of_mem _ he)
        · rcases List.mem_cons.1 he with rfl | he
          · exact .inl rfl
          · exact .inr (List.mem_cons_of_mem _ he)
      · rcases List.mem_cons.1 he with rfl | he
        · exact .inr (by simp)
        · rcases ih e he with h | h
          · exact .inl h
          · exact .inr (List.mem_cons_of_mem _ h)

/-- Putting an entry in front of greater keys keeps the canonical form. -/
theorem sparseWf_cons {m : List (Nat × α)} {i : Nat} {v : α} (h : sparseWf d m = true)
    (hk : ∀ e ∈ m, i < e.1) : sparseWf d (sparseCons d i v m) = true := by
  unfold sparseCons
  by_cases hv : v = d
  · rw [if_pos hv]; exact h
  · rw [if_neg hv]
    simp only [sparseWf, Bool.and_eq_true, List.all_eq_true, decide_eq_true_eq]
    exact ⟨⟨by simpa using hv, hk⟩, h⟩

/-- A write keeps the canonical form. -/
theorem sparseWf_set {m : List (Nat × α)} (h : sparseWf d m = true) (i : Nat) (v : α) :
    sparseWf d (sparseSet d m i v) = true := by
  induction m with
  | nil => exact sparseWf_cons rfl (by simp)
  | cons a m ih =>
    obtain ⟨k, w⟩ := a
    have hk := sparseWf_keys h
    unfold sparseSet
    split
    · rename_i h1
      refine sparseWf_cons h (fun e he => ?_)
      rcases List.mem_cons.1 he with rfl | he
      · exact h1
      · exact Nat.lt_trans h1 (hk e he)
    · split
      · rename_i h2
        exact sparseWf_cons (sparseWf_tail h) (by rw [h2]; exact hk)
      · rename_i h1 h2
        have hw : (decide (w ≠ d)) = true := by
          simp only [sparseWf, Bool.and_eq_true] at h; exact h.1.1
        simp only [sparseWf, Bool.and_eq_true, List.all_eq_true, decide_eq_true_eq]
        refine ⟨⟨by simpa using hw, fun e he => ?_⟩, ih (sparseWf_tail h)⟩
        rcases sparseSet_keys e he with h' | h'
        · omega
        · exact hk e h'

end Sparse

/-! ### Pixels -/

/-- Distinct pixels have distinct numbers. -/
theorem pixel_inj {x y x' y' : Nat} (hx : x < 2048) (hx' : x' < 2048) :
    pixel x y = pixel x' y' ↔ x = x' ∧ y = y' := by
  unfold pixel Config.stride; omega

@[simp] theorem PixelMem.setCell_drafts (m : PixelMem) (x y : Nat) (c : Cell) :
    (m.setCell x y c).drafts = m.drafts := rfl

@[simp] theorem PixelMem.setDraft_cells (m : PixelMem) (x y : Nat) (v : Level) :
    (m.setDraft x y v).cells = m.cells := rfl

@[simp] theorem PixelMem.setCell_draft (m : PixelMem) (x y x' y' : Nat) (c : Cell) :
    (m.setCell x y c).draft x' y' = m.draft x' y' := rfl

@[simp] theorem PixelMem.setDraft_cell (m : PixelMem) (x y x' y' : Nat) (v : Level) :
    (m.setDraft x y v).cell x' y' = m.cell x' y' := rfl

theorem PixelMem.wf_cells {m : PixelMem} (h : m.wf = true) : sparseWf Cell.initial m.cells = true := by
  simp only [PixelMem.wf, Bool.and_eq_true] at h; exact h.1

theorem PixelMem.wf_drafts {m : PixelMem} (h : m.wf = true) : sparseWf initialDraft m.drafts = true := by
  simp only [PixelMem.wf, Bool.and_eq_true] at h; exact h.2

/-- Writing a cell record keeps the canonical form. -/
theorem PixelMem.wf_setCell {m : PixelMem} (h : m.wf = true) (x y : Nat) (c : Cell) :
    (m.setCell x y c).wf = true := by
  simp only [PixelMem.wf, Bool.and_eq_true]
  exact ⟨sparseWf_set (PixelMem.wf_cells h) _ _, (PixelMem.wf_drafts h :)⟩

/-- Writing a draft level keeps the canonical form. -/
theorem PixelMem.wf_setDraft {m : PixelMem} (h : m.wf = true) (x y : Nat) (v : Level) :
    (m.setDraft x y v).wf = true := by
  simp only [PixelMem.wf, Bool.and_eq_true]
  exact ⟨(PixelMem.wf_cells h :), sparseWf_set (PixelMem.wf_drafts h) _ _⟩

/-- A cell record read after one is written. -/
theorem PixelMem.cell_setCell {m : PixelMem} (h : m.wf = true) {x x' : Nat} (y y' : Nat) (c : Cell)
    (hx : x < 2048) (hx' : x' < 2048) :
    (m.setCell x y c).cell x' y' = if x' = x ∧ y' = y then c else m.cell x' y' := by
  unfold PixelMem.cell PixelMem.setCell
  rw [sparseGet_set (PixelMem.wf_cells h)]
  simp only [pixel_inj hx' hx]

/-- A draft level read after one is written. -/
theorem PixelMem.draft_setDraft {m : PixelMem} (h : m.wf = true) {x x' : Nat} (y y' : Nat) (v : Level)
    (hx : x < 2048) (hx' : x' < 2048) :
    (m.setDraft x y v).draft x' y' = if x' = x ∧ y' = y then v else m.draft x' y' := by
  unfold PixelMem.draft PixelMem.setDraft
  rw [sparseGet_set (PixelMem.wf_drafts h)]
  simp only [pixel_inj hx' hx]

/-! ### Accesses -/

/-- A write access to the cell plane keeps the canonical form and the draft plane. -/
theorem PixelMem.writeCells_frame (xs : List Nat) (y : Nat) (f : Nat → Cell) :
    ∀ m : PixelMem, (m.writeCells xs y f).drafts = m.drafts ∧
      (m.wf = true → (m.writeCells xs y f).wf = true) := by
  induction xs with
  | nil => intro m; exact ⟨rfl, id⟩
  | cons x xs ih =>
    intro m
    obtain ⟨h1, h2⟩ := ih (m.setCell x y (f x))
    exact ⟨h1, fun h => h2 (PixelMem.wf_setCell h x y (f x))⟩

/-- A write access to the draft plane keeps the canonical form and the cell plane. -/
theorem PixelMem.writeDrafts_frame (xs : List Nat) (y : Nat) (f : Nat → Level) :
    ∀ m : PixelMem, (m.writeDrafts xs y f).cells = m.cells ∧
      (m.wf = true → (m.writeDrafts xs y f).wf = true) := by
  induction xs with
  | nil => intro m; exact ⟨rfl, id⟩
  | cons x xs ih =>
    intro m
    obtain ⟨h1, h2⟩ := ih (m.setDraft x y (f x))
    exact ⟨h1, fun h => h2 (PixelMem.wf_setDraft h x y (f x))⟩

/-- What a write access to the cell plane leaves to be read. -/
theorem PixelMem.cell_writeCells (y : Nat) (f : Nat → Cell) :
    ∀ (xs : List Nat) (m : PixelMem), m.wf = true → (∀ x ∈ xs, x < 2048) → ∀ x' y', x' < 2048 →
      (m.writeCells xs y f).cell x' y' = if y' = y ∧ x' ∈ xs then f x' else m.cell x' y' := by
  intro xs
  induction xs with
  | nil => intro m _ _ x' y' _; simp [PixelMem.writeCells]
  | cons x xs ih =>
    intro m hm hxs x' y' hx'
    have hx : x < 2048 := hxs x (by simp)
    have := ih (m.setCell x y (f x)) (PixelMem.wf_setCell hm _ _ _) (fun z hz => hxs z (by simp [hz]))
      x' y' hx'
    show ((m.setCell x y (f x)).writeCells xs y f).cell x' y' = _
    rw [this, PixelMem.cell_setCell hm y y' (f x) hx hx']
    by_cases h1 : y' = y <;> by_cases h2 : x' ∈ xs <;> by_cases h3 : x' = x <;> simp_all

/-- What a write access to the draft plane leaves to be read. -/
theorem PixelMem.draft_writeDrafts (y : Nat) (f : Nat → Level) :
    ∀ (xs : List Nat) (m : PixelMem), m.wf = true → (∀ x ∈ xs, x < 2048) → ∀ x' y', x' < 2048 →
      (m.writeDrafts xs y f).draft x' y' = if y' = y ∧ x' ∈ xs then f x' else m.draft x' y' := by
  intro xs
  induction xs with
  | nil => intro m _ _ x' y' _; simp [PixelMem.writeDrafts]
  | cons x xs ih =>
    intro m hm hxs x' y' hx'
    have hx : x < 2048 := hxs x (by simp)
    have := ih (m.setDraft x y (f x)) (PixelMem.wf_setDraft hm _ _ _) (fun z hz => hxs z (by simp [hz]))
      x' y' hx'
    show ((m.setDraft x y (f x)).writeDrafts xs y f).draft x' y' = _
    rw [this, PixelMem.draft_setDraft hm y y' (f x) hx hx']
    by_cases h1 : y' = y <;> by_cases h2 : x' ∈ xs <;> by_cases h3 : x' = x <;> simp_all

/-- The columns of a segment lie in the segment and on the panel. -/
theorem mem_segmentColumns {columns g x : Nat} :
    x ∈ segmentColumns columns g ↔ g * 256 ≤ x ∧ x < (g + 1) * 256 ∧ x < columns := by
  unfold segmentColumns Config.segment
  rw [List.mem_range'_1]
  omega

/-- The pixel memory right after reset is in canonical form. -/
theorem reset_mem_wf : State.reset.mem.wf = true := rfl

end Sys2Proof.Machine
end

