-- ==== Sys2Proof/Laws/Shared.lean ====
section
/-! SUPPORT. What the operations shared by many commands do: the arbiter's grant, the end of an event in a
state with nothing left over, and the way of a request from the link to its owner. -/

namespace Sys2Proof.Machine

/-! ### The arbiter (R13) -/

/-- While an access has the memory none is granted. -/
theorem Arbiter.grant_of_running {a : Arbiter} {x : Access} (h : a.running = some x) : a.grant = a := by
  simp [Arbiter.grant, h]

/-- With no access waiting none is granted. -/
theorem Arbiter.grant_of_none {a : Arbiter} (h : a.first = none) : a.grant = a := by
  unfold Arbiter.grant
  rw [h]
  cases a.running <;> rfl

/-- The access granted has the memory. -/
theorem Arbiter.give_running (a : Arbiter) (x : Access) : (a.give x).running = some x := by
  cases x <;> rfl

/-- After the grant no access waits beside a free memory. -/
theorem Arbiter.grant_settled (a : Arbiter) : a.grant.settled = true := by
  unfold Arbiter.grant Arbiter.settled
  split
  · simp [Arbiter.give_running]
  · rename_i h
    cases hr : a.running with
    | some x => simp
    | none =>
      cases hf : a.first with
      | none => simp
      | some x => exact absurd hf (h x hr)

/-- A settled arbiter has nothing to grant. -/
theorem Arbiter.grant_of_settled {a : Arbiter} (h : a.settled = true) : a.grant = a := by
  unfold Arbiter.settled at h
  cases hr : a.running with
  | some x => exact Arbiter.grant_of_running hr
  | none => exact Arbiter.grant_of_none (by simpa [hr] using h)

/-- At the end of an event in which an access has completed, too, no access waits beside a free memory. -/
theorem State.arbitrateAfter_settled (s : State) (old : Arbiter) :
    (s.arbitrateAfter old).arb.settled = true := by
  unfold State.arbitrateAfter
  split
  · split
    · exact Arbiter.grant_settled _
    · split
      · exact Arbiter.grant_settled _
      · simp [State.setArb, State.setChoices, Arbiter.settled, Arbiter.give_running]
  · exact Arbiter.grant_settled _

/-- With no access waiting, the end of such an event changes nothing. -/
theorem State.arbitrateAfter_of_none {s : State} (old : Arbiter) (h : s.arb.first = none) :
    s.arbitrateAfter old = s := by
  have hl : (s.arb.longWaiting old).first = none := by
    unfold Arbiter.first at h ⊢
    unfold Arbiter.longWaiting
    cases hs : s.arb.scan <;> cases hd : s.arb.drain <;> cases hp : s.arb.probe <;> simp_all
  have hg : s.arbitrate = s := by
    show { s with arb := s.arb.grant } = s
    rw [Arbiter.grant_of_none h]
  unfold State.arbitrateAfter
  rw [hl]
  split
  · rename_i heq; cases heq
  · exact hg

/-! ### The end of an event (R63, R91, R140, R141, R176) -/

/-- With no UPDATE_END submission due, none is made. -/
theorem State.flushEnds_of_none {s : State} (h : s.submissionsDue = []) : s.flushEnds = s := by
  simp [State.flushEnds, State.submitDue, h, earliestBy]

/-- Where the power sequencer has acted on idleness and draining, it does nothing more. -/
theorem State.settlePower_of_quiet {s : State} (h : s.powerQuiet = true) : s.settlePower = s := by
  unfold State.powerQuiet at h
  unfold State.settlePower
  have eta : s.power.idleTimer = none → s.setPower { s.power with idleTimer := none } = s := by
    intro e
    show { s with power := { s.power with idleTimer := none } } = s
    rw [← e]
  split
  · rename_i hp
    rw [hp] at h
    simp only at h
    split
    · rename_i hm
      rw [hm] at h
      simp only [Bool.and_eq_true, Option.isNone_iff_eq_none] at h
      rw [if_pos h.1, eta h.2]
    · rename_i hm
      rw [hm] at h
      simp only [beq_iff_eq] at h
      split
      · rename_i hi
        rw [if_pos (by rw [← h]; exact hi)]
      · rename_i hi
        refine eta ?_
        cases ht : s.power.idleTimer with
        | none => rfl
        | some v => rw [ht] at h; exact absurd h hi
  · rfl

/-- The end of an event leaves a state as it is when nothing is left over in it. -/
theorem State.settle_of_quiet {s : State} (h : s.quiet = true) : s.settle = s := by
  unfold State.quiet at h
  rw [Bool.and_eq_true, Bool.and_eq_true] at h
  obtain ⟨⟨h1, h2⟩, h3⟩ := h
  unfold State.settle
  rw [State.flushEnds_of_none (List.isEmpty_iff.1 h1), State.settlePower_of_quiet h2]
  unfold State.testDrained
  rw [if_neg]
  intro h
  rw [h] at h3
  cases h3

/-! ### Requests (R164, R166, R167) -/

/-- The command of a kind is the link's taking of its frame. -/
theorem exec_command (k : RequestKind) (tag : Byte) (p : List Byte) (check : Word) (s : State) :
    exec (k.command tag p check) s = .next (s.takeRequest k tag p check) := by cases k <;> rfl

/-- A frame the length rule allows ends at its second check byte. -/
theorem requestBytes_of_le {p : List Byte} (h : p.length ≤ 272) (kind tag : Byte) (check : Word) :
    requestBytes kind tag p check = frameBytes kind tag p check := by
  unfold requestBytes
  rw [if_neg (by simpa [Config.payloadMax] using h)]

/-- A correct frame whose first bytes have been received goes through the link's tests. -/
theorem State.takeRequest_received {s : State} {k : RequestKind} {tag : Byte} {p : List Byte} {check : Word}
    (hl : p.length ≤ 272) (hs : s.link.state = .receiving)
    (hp : s.link.received <+: frameBytes k.code tag p check) :
    s.takeRequest k tag p check = (s.takeWhole k.code tag p check).arbitrate := by
  unfold State.takeRequest
  have ha : s.awaits (requestBytes k.code tag p check) = true := by
    simp [State.awaits, requestBytes_of_le hl, hs, hp]
  rw [if_pos ha, if_neg (by simpa [Config.payloadMax] using hl)]

/-- A request that passes the link's tests and the gate is handled by its owner. -/
theorem exec_sent {s : State} {k : RequestKind} {tag : Byte} {p : List Byte}
    (hv : s.loader.image.gate k = none) (hr : s.receives k tag p) (hl : p.length ≤ 272)
    (ht : linkTests k.code tag p (frameCheck k.code tag p) = .ok k) :
    exec (k.sent tag p) s =
      .next ((ownerAnswer k p s).1.answer k.code tag (ownerAnswer k p s).2).arbitrate := by
  rw [RequestKind.sent, exec_command, State.takeRequest_received hl hr.1 hr.2]
  simp only [State.takeWhole, ht, State.dispatch, hv]

/-- Every kind's code is found again (R182). -/
theorem RequestKind.ofCode_code (k : RequestKind) : RequestKind.ofCode k.code = some k := by
  cases k <;> rfl

/-- The gate lets every kind pass while the image is VALID. -/
theorem gate_valid (k : RequestKind) : ImageState.valid.gate k = none := by cases k <;> rfl

end Sys2Proof.Machine
end

