-- ==== Sys2Proof/Laws/State.lean ====
section
/-! SUPPORT. One lemma for each field under each update of `State`, all true by `rfl`, so that no proof
unfolds a record update; and the lanes' reads and writes. -/

namespace Sys2Proof.Machine

variable (s : State)

/-! #### setLoader -/

@[simp] theorem State.setLoader_resetHeld (v : Loader) : (s.setLoader v).resetHeld = s.resetHeld := rfl
@[simp] theorem State.setLoader_loader (v : Loader) : (s.setLoader v).loader = v := rfl
@[simp] theorem State.setLoader_flash (v : Loader) : (s.setLoader v).flash = s.flash := rfl
@[simp] theorem State.setLoader_link (v : Loader) : (s.setLoader v).link = s.link := rfl
@[simp] theorem State.setLoader_mem (v : Loader) : (s.setLoader v).mem = s.mem := rfl
@[simp] theorem State.setLoader_wb (v : Loader) : (s.setLoader v).wb = s.wb := rfl
@[simp] theorem State.setLoader_arb (v : Loader) : (s.setLoader v).arb = s.arb := rfl
@[simp] theorem State.setLoader_scan (v : Loader) : (s.setLoader v).scan = s.scan := rfl
@[simp] theorem State.setLoader_panel (v : Loader) : (s.setLoader v).panel = s.panel := rfl
@[simp] theorem State.setLoader_adm (v : Loader) : (s.setLoader v).adm = s.adm := rfl
@[simp] theorem State.setLoader_lanes (v : Loader) : (s.setLoader v).lanes = s.lanes := rfl
@[simp] theorem State.setLoader_limits (v : Loader) : (s.setLoader v).limits = s.limits := rfl
@[simp] theorem State.setLoader_cache (v : Loader) : (s.setLoader v).cache = s.cache := rfl
@[simp] theorem State.setLoader_thermal (v : Loader) : (s.setLoader v).thermal = s.thermal := rfl
@[simp] theorem State.setLoader_power (v : Loader) : (s.setLoader v).power = s.power := rfl
@[simp] theorem State.setLoader_notices (v : Loader) : (s.setLoader v).notices = s.notices := rfl
@[simp] theorem State.setLoader_choices (v : Loader) : (s.setLoader v).choices = s.choices := rfl
@[simp] theorem State.setLoader_pending (v : Loader) : (s.setLoader v).pending = s.pending := rfl

/-! #### setFlash -/

@[simp] theorem State.setFlash_resetHeld (v : Flash) : (s.setFlash v).resetHeld = s.resetHeld := rfl
@[simp] theorem State.setFlash_loader (v : Flash) : (s.setFlash v).loader = s.loader := rfl
@[simp] theorem State.setFlash_flash (v : Flash) : (s.setFlash v).flash = v := rfl
@[simp] theorem State.setFlash_link (v : Flash) : (s.setFlash v).link = s.link := rfl
@[simp] theorem State.setFlash_mem (v : Flash) : (s.setFlash v).mem = s.mem := rfl
@[simp] theorem State.setFlash_wb (v : Flash) : (s.setFlash v).wb = s.wb := rfl
@[simp] theorem State.setFlash_arb (v : Flash) : (s.setFlash v).arb = s.arb := rfl
@[simp] theorem State.setFlash_scan (v : Flash) : (s.setFlash v).scan = s.scan := rfl
@[simp] theorem State.setFlash_panel (v : Flash) : (s.setFlash v).panel = s.panel := rfl
@[simp] theorem State.setFlash_adm (v : Flash) : (s.setFlash v).adm = s.adm := rfl
@[simp] theorem State.setFlash_lanes (v : Flash) : (s.setFlash v).lanes = s.lanes := rfl
@[simp] theorem State.setFlash_limits (v : Flash) : (s.setFlash v).limits = s.limits := rfl
@[simp] theorem State.setFlash_cache (v : Flash) : (s.setFlash v).cache = s.cache := rfl
@[simp] theorem State.setFlash_thermal (v : Flash) : (s.setFlash v).thermal = s.thermal := rfl
@[simp] theorem State.setFlash_power (v : Flash) : (s.setFlash v).power = s.power := rfl
@[simp] theorem State.setFlash_notices (v : Flash) : (s.setFlash v).notices = s.notices := rfl
@[simp] theorem State.setFlash_choices (v : Flash) : (s.setFlash v).choices = s.choices := rfl
@[simp] theorem State.setFlash_pending (v : Flash) : (s.setFlash v).pending = s.pending := rfl

/-! #### setLink -/

@[simp] theorem State.setLink_resetHeld (v : Link) : (s.setLink v).resetHeld = s.resetHeld := rfl
@[simp] theorem State.setLink_loader (v : Link) : (s.setLink v).loader = s.loader := rfl
@[simp] theorem State.setLink_flash (v : Link) : (s.setLink v).flash = s.flash := rfl
@[simp] theorem State.setLink_link (v : Link) : (s.setLink v).link = v := rfl
@[simp] theorem State.setLink_mem (v : Link) : (s.setLink v).mem = s.mem := rfl
@[simp] theorem State.setLink_wb (v : Link) : (s.setLink v).wb = s.wb := rfl
@[simp] theorem State.setLink_arb (v : Link) : (s.setLink v).arb = s.arb := rfl
@[simp] theorem State.setLink_scan (v : Link) : (s.setLink v).scan = s.scan := rfl
@[simp] theorem State.setLink_panel (v : Link) : (s.setLink v).panel = s.panel := rfl
@[simp] theorem State.setLink_adm (v : Link) : (s.setLink v).adm = s.adm := rfl
@[simp] theorem State.setLink_lanes (v : Link) : (s.setLink v).lanes = s.lanes := rfl
@[simp] theorem State.setLink_limits (v : Link) : (s.setLink v).limits = s.limits := rfl
@[simp] theorem State.setLink_cache (v : Link) : (s.setLink v).cache = s.cache := rfl
@[simp] theorem State.setLink_thermal (v : Link) : (s.setLink v).thermal = s.thermal := rfl
@[simp] theorem State.setLink_power (v : Link) : (s.setLink v).power = s.power := rfl
@[simp] theorem State.setLink_notices (v : Link) : (s.setLink v).notices = s.notices := rfl
@[simp] theorem State.setLink_choices (v : Link) : (s.setLink v).choices = s.choices := rfl
@[simp] theorem State.setLink_pending (v : Link) : (s.setLink v).pending = s.pending := rfl

/-! #### setMem -/

@[simp] theorem State.setMem_resetHeld (v : PixelMem) : (s.setMem v).resetHeld = s.resetHeld := rfl
@[simp] theorem State.setMem_loader (v : PixelMem) : (s.setMem v).loader = s.loader := rfl
@[simp] theorem State.setMem_flash (v : PixelMem) : (s.setMem v).flash = s.flash := rfl
@[simp] theorem State.setMem_link (v : PixelMem) : (s.setMem v).link = s.link := rfl
@[simp] theorem State.setMem_mem (v : PixelMem) : (s.setMem v).mem = v := rfl
@[simp] theorem State.setMem_wb (v : PixelMem) : (s.setMem v).wb = s.wb := rfl
@[simp] theorem State.setMem_arb (v : PixelMem) : (s.setMem v).arb = s.arb := rfl
@[simp] theorem State.setMem_scan (v : PixelMem) : (s.setMem v).scan = s.scan := rfl
@[simp] theorem State.setMem_panel (v : PixelMem) : (s.setMem v).panel = s.panel := rfl
@[simp] theorem State.setMem_adm (v : PixelMem) : (s.setMem v).adm = s.adm := rfl
@[simp] theorem State.setMem_lanes (v : PixelMem) : (s.setMem v).lanes = s.lanes := rfl
@[simp] theorem State.setMem_limits (v : PixelMem) : (s.setMem v).limits = s.limits := rfl
@[simp] theorem State.setMem_cache (v : PixelMem) : (s.setMem v).cache = s.cache := rfl
@[simp] theorem State.setMem_thermal (v : PixelMem) : (s.setMem v).thermal = s.thermal := rfl
@[simp] theorem State.setMem_power (v : PixelMem) : (s.setMem v).power = s.power := rfl
@[simp] theorem State.setMem_notices (v : PixelMem) : (s.setMem v).notices = s.notices := rfl
@[simp] theorem State.setMem_choices (v : PixelMem) : (s.setMem v).choices = s.choices := rfl
@[simp] theorem State.setMem_pending (v : PixelMem) : (s.setMem v).pending = s.pending := rfl

/-! #### setWb -/

@[simp] theorem State.setWb_resetHeld (v : WriteBuffer) : (s.setWb v).resetHeld = s.resetHeld := rfl
@[simp] theorem State.setWb_loader (v : WriteBuffer) : (s.setWb v).loader = s.loader := rfl
@[simp] theorem State.setWb_flash (v : WriteBuffer) : (s.setWb v).flash = s.flash := rfl
@[simp] theorem State.setWb_link (v : WriteBuffer) : (s.setWb v).link = s.link := rfl
@[simp] theorem State.setWb_mem (v : WriteBuffer) : (s.setWb v).mem = s.mem := rfl
@[simp] theorem State.setWb_wb (v : WriteBuffer) : (s.setWb v).wb = v := rfl
@[simp] theorem State.setWb_arb (v : WriteBuffer) : (s.setWb v).arb = s.arb := rfl
@[simp] theorem State.setWb_scan (v : WriteBuffer) : (s.setWb v).scan = s.scan := rfl
@[simp] theorem State.setWb_panel (v : WriteBuffer) : (s.setWb v).panel = s.panel := rfl
@[simp] theorem State.setWb_adm (v : WriteBuffer) : (s.setWb v).adm = s.adm := rfl
@[simp] theorem State.setWb_lanes (v : WriteBuffer) : (s.setWb v).lanes = s.lanes := rfl
@[simp] theorem State.setWb_limits (v : WriteBuffer) : (s.setWb v).limits = s.limits := rfl
@[simp] theorem State.setWb_cache (v : WriteBuffer) : (s.setWb v).cache = s.cache := rfl
@[simp] theorem State.setWb_thermal (v : WriteBuffer) : (s.setWb v).thermal = s.thermal := rfl
@[simp] theorem State.setWb_power (v : WriteBuffer) : (s.setWb v).power = s.power := rfl
@[simp] theorem State.setWb_notices (v : WriteBuffer) : (s.setWb v).notices = s.notices := rfl
@[simp] theorem State.setWb_choices (v : WriteBuffer) : (s.setWb v).choices = s.choices := rfl
@[simp] theorem State.setWb_pending (v : WriteBuffer) : (s.setWb v).pending = s.pending := rfl

/-! #### setArb -/

@[simp] theorem State.setArb_resetHeld (v : Arbiter) : (s.setArb v).resetHeld = s.resetHeld := rfl
@[simp] theorem State.setArb_loader (v : Arbiter) : (s.setArb v).loader = s.loader := rfl
@[simp] theorem State.setArb_flash (v : Arbiter) : (s.setArb v).flash = s.flash := rfl
@[simp] theorem State.setArb_link (v : Arbiter) : (s.setArb v).link = s.link := rfl
@[simp] theorem State.setArb_mem (v : Arbiter) : (s.setArb v).mem = s.mem := rfl
@[simp] theorem State.setArb_wb (v : Arbiter) : (s.setArb v).wb = s.wb := rfl
@[simp] theorem State.setArb_arb (v : Arbiter) : (s.setArb v).arb = v := rfl
@[simp] theorem State.setArb_scan (v : Arbiter) : (s.setArb v).scan = s.scan := rfl
@[simp] theorem State.setArb_panel (v : Arbiter) : (s.setArb v).panel = s.panel := rfl
@[simp] theorem State.setArb_adm (v : Arbiter) : (s.setArb v).adm = s.adm := rfl
@[simp] theorem State.setArb_lanes (v : Arbiter) : (s.setArb v).lanes = s.lanes := rfl
@[simp] theorem State.setArb_limits (v : Arbiter) : (s.setArb v).limits = s.limits := rfl
@[simp] theorem State.setArb_cache (v : Arbiter) : (s.setArb v).cache = s.cache := rfl
@[simp] theorem State.setArb_thermal (v : Arbiter) : (s.setArb v).thermal = s.thermal := rfl
@[simp] theorem State.setArb_power (v : Arbiter) : (s.setArb v).power = s.power := rfl
@[simp] theorem State.setArb_notices (v : Arbiter) : (s.setArb v).notices = s.notices := rfl
@[simp] theorem State.setArb_choices (v : Arbiter) : (s.setArb v).choices = s.choices := rfl
@[simp] theorem State.setArb_pending (v : Arbiter) : (s.setArb v).pending = s.pending := rfl

/-! #### setScan -/

@[simp] theorem State.setScan_resetHeld (v : Scan) : (s.setScan v).resetHeld = s.resetHeld := rfl
@[simp] theorem State.setScan_loader (v : Scan) : (s.setScan v).loader = s.loader := rfl
@[simp] theorem State.setScan_flash (v : Scan) : (s.setScan v).flash = s.flash := rfl
@[simp] theorem State.setScan_link (v : Scan) : (s.setScan v).link = s.link := rfl
@[simp] theorem State.setScan_mem (v : Scan) : (s.setScan v).mem = s.mem := rfl
@[simp] theorem State.setScan_wb (v : Scan) : (s.setScan v).wb = s.wb := rfl
@[simp] theorem State.setScan_arb (v : Scan) : (s.setScan v).arb = s.arb := rfl
@[simp] theorem State.setScan_scan (v : Scan) : (s.setScan v).scan = v := rfl
@[simp] theorem State.setScan_panel (v : Scan) : (s.setScan v).panel = s.panel := rfl
@[simp] theorem State.setScan_adm (v : Scan) : (s.setScan v).adm = s.adm := rfl
@[simp] theorem State.setScan_lanes (v : Scan) : (s.setScan v).lanes = s.lanes := rfl
@[simp] theorem State.setScan_limits (v : Scan) : (s.setScan v).limits = s.limits := rfl
@[simp] theorem State.setScan_cache (v : Scan) : (s.setScan v).cache = s.cache := rfl
@[simp] theorem State.setScan_thermal (v : Scan) : (s.setScan v).thermal = s.thermal := rfl
@[simp] theorem State.setScan_power (v : Scan) : (s.setScan v).power = s.power := rfl
@[simp] theorem State.setScan_notices (v : Scan) : (s.setScan v).notices = s.notices := rfl
@[simp] theorem State.setScan_choices (v : Scan) : (s.setScan v).choices = s.choices := rfl
@[simp] theorem State.setScan_pending (v : Scan) : (s.setScan v).pending = s.pending := rfl

/-! #### setPanel -/

@[simp] theorem State.setPanel_resetHeld (v : Panel) : (s.setPanel v).resetHeld = s.resetHeld := rfl
@[simp] theorem State.setPanel_loader (v : Panel) : (s.setPanel v).loader = s.loader := rfl
@[simp] theorem State.setPanel_flash (v : Panel) : (s.setPanel v).flash = s.flash := rfl
@[simp] theorem State.setPanel_link (v : Panel) : (s.setPanel v).link = s.link := rfl
@[simp] theorem State.setPanel_mem (v : Panel) : (s.setPanel v).mem = s.mem := rfl
@[simp] theorem State.setPanel_wb (v : Panel) : (s.setPanel v).wb = s.wb := rfl
@[simp] theorem State.setPanel_arb (v : Panel) : (s.setPanel v).arb = s.arb := rfl
@[simp] theorem State.setPanel_scan (v : Panel) : (s.setPanel v).scan = s.scan := rfl
@[simp] theorem State.setPanel_panel (v : Panel) : (s.setPanel v).panel = v := rfl
@[simp] theorem State.setPanel_adm (v : Panel) : (s.setPanel v).adm = s.adm := rfl
@[simp] theorem State.setPanel_lanes (v : Panel) : (s.setPanel v).lanes = s.lanes := rfl
@[simp] theorem State.setPanel_limits (v : Panel) : (s.setPanel v).limits = s.limits := rfl
@[simp] theorem State.setPanel_cache (v : Panel) : (s.setPanel v).cache = s.cache := rfl
@[simp] theorem State.setPanel_thermal (v : Panel) : (s.setPanel v).thermal = s.thermal := rfl
@[simp] theorem State.setPanel_power (v : Panel) : (s.setPanel v).power = s.power := rfl
@[simp] theorem State.setPanel_notices (v : Panel) : (s.setPanel v).notices = s.notices := rfl
@[simp] theorem State.setPanel_choices (v : Panel) : (s.setPanel v).choices = s.choices := rfl
@[simp] theorem State.setPanel_pending (v : Panel) : (s.setPanel v).pending = s.pending := rfl

/-! #### setAdm -/

@[simp] theorem State.setAdm_resetHeld (v : Admission) : (s.setAdm v).resetHeld = s.resetHeld := rfl
@[simp] theorem State.setAdm_loader (v : Admission) : (s.setAdm v).loader = s.loader := rfl
@[simp] theorem State.setAdm_flash (v : Admission) : (s.setAdm v).flash = s.flash := rfl
@[simp] theorem State.setAdm_link (v : Admission) : (s.setAdm v).link = s.link := rfl
@[simp] theorem State.setAdm_mem (v : Admission) : (s.setAdm v).mem = s.mem := rfl
@[simp] theorem State.setAdm_wb (v : Admission) : (s.setAdm v).wb = s.wb := rfl
@[simp] theorem State.setAdm_arb (v : Admission) : (s.setAdm v).arb = s.arb := rfl
@[simp] theorem State.setAdm_scan (v : Admission) : (s.setAdm v).scan = s.scan := rfl
@[simp] theorem State.setAdm_panel (v : Admission) : (s.setAdm v).panel = s.panel := rfl
@[simp] theorem State.setAdm_adm (v : Admission) : (s.setAdm v).adm = v := rfl
@[simp] theorem State.setAdm_lanes (v : Admission) : (s.setAdm v).lanes = s.lanes := rfl
@[simp] theorem State.setAdm_limits (v : Admission) : (s.setAdm v).limits = s.limits := rfl
@[simp] theorem State.setAdm_cache (v : Admission) : (s.setAdm v).cache = s.cache := rfl
@[simp] theorem State.setAdm_thermal (v : Admission) : (s.setAdm v).thermal = s.thermal := rfl
@[simp] theorem State.setAdm_power (v : Admission) : (s.setAdm v).power = s.power := rfl
@[simp] theorem State.setAdm_notices (v : Admission) : (s.setAdm v).notices = s.notices := rfl
@[simp] theorem State.setAdm_choices (v : Admission) : (s.setAdm v).choices = s.choices := rfl
@[simp] theorem State.setAdm_pending (v : Admission) : (s.setAdm v).pending = s.pending := rfl

/-! #### setLanes -/

@[simp] theorem State.setLanes_resetHeld (v : Vector Lane 16) : (s.setLanes v).resetHeld = s.resetHeld := rfl
@[simp] theorem State.setLanes_loader (v : Vector Lane 16) : (s.setLanes v).loader = s.loader := rfl
@[simp] theorem State.setLanes_flash (v : Vector Lane 16) : (s.setLanes v).flash = s.flash := rfl
@[simp] theorem State.setLanes_link (v : Vector Lane 16) : (s.setLanes v).link = s.link := rfl
@[simp] theorem State.setLanes_mem (v : Vector Lane 16) : (s.setLanes v).mem = s.mem := rfl
@[simp] theorem State.setLanes_wb (v : Vector Lane 16) : (s.setLanes v).wb = s.wb := rfl
@[simp] theorem State.setLanes_arb (v : Vector Lane 16) : (s.setLanes v).arb = s.arb := rfl
@[simp] theorem State.setLanes_scan (v : Vector Lane 16) : (s.setLanes v).scan = s.scan := rfl
@[simp] theorem State.setLanes_panel (v : Vector Lane 16) : (s.setLanes v).panel = s.panel := rfl
@[simp] theorem State.setLanes_adm (v : Vector Lane 16) : (s.setLanes v).adm = s.adm := rfl
@[simp] theorem State.setLanes_lanes (v : Vector Lane 16) : (s.setLanes v).lanes = v := rfl
@[simp] theorem State.setLanes_limits (v : Vector Lane 16) : (s.setLanes v).limits = s.limits := rfl
@[simp] theorem State.setLanes_cache (v : Vector Lane 16) : (s.setLanes v).cache = s.cache := rfl
@[simp] theorem State.setLanes_thermal (v : Vector Lane 16) : (s.setLanes v).thermal = s.thermal := rfl
@[simp] theorem State.setLanes_power (v : Vector Lane 16) : (s.setLanes v).power = s.power := rfl
@[simp] theorem State.setLanes_notices (v : Vector Lane 16) : (s.setLanes v).notices = s.notices := rfl
@[simp] theorem State.setLanes_choices (v : Vector Lane 16) : (s.setLanes v).choices = s.choices := rfl
@[simp] theorem State.setLanes_pending (v : Vector Lane 16) : (s.setLanes v).pending = s.pending := rfl

/-! #### setLimits -/

@[simp] theorem State.setLimits_resetHeld (v : LimitCopies) : (s.setLimits v).resetHeld = s.resetHeld := rfl
@[simp] theorem State.setLimits_loader (v : LimitCopies) : (s.setLimits v).loader = s.loader := rfl
@[simp] theorem State.setLimits_flash (v : LimitCopies) : (s.setLimits v).flash = s.flash := rfl
@[simp] theorem State.setLimits_link (v : LimitCopies) : (s.setLimits v).link = s.link := rfl
@[simp] theorem State.setLimits_mem (v : LimitCopies) : (s.setLimits v).mem = s.mem := rfl
@[simp] theorem State.setLimits_wb (v : LimitCopies) : (s.setLimits v).wb = s.wb := rfl
@[simp] theorem State.setLimits_arb (v : LimitCopies) : (s.setLimits v).arb = s.arb := rfl
@[simp] theorem State.setLimits_scan (v : LimitCopies) : (s.setLimits v).scan = s.scan := rfl
@[simp] theorem State.setLimits_panel (v : LimitCopies) : (s.setLimits v).panel = s.panel := rfl
@[simp] theorem State.setLimits_adm (v : LimitCopies) : (s.setLimits v).adm = s.adm := rfl
@[simp] theorem State.setLimits_lanes (v : LimitCopies) : (s.setLimits v).lanes = s.lanes := rfl
@[simp] theorem State.setLimits_limits (v : LimitCopies) : (s.setLimits v).limits = v := rfl
@[simp] theorem State.setLimits_cache (v : LimitCopies) : (s.setLimits v).cache = s.cache := rfl
@[simp] theorem State.setLimits_thermal (v : LimitCopies) : (s.setLimits v).thermal = s.thermal := rfl
@[simp] theorem State.setLimits_power (v : LimitCopies) : (s.setLimits v).power = s.power := rfl
@[simp] theorem State.setLimits_notices (v : LimitCopies) : (s.setLimits v).notices = s.notices := rfl
@[simp] theorem State.setLimits_choices (v : LimitCopies) : (s.setLimits v).choices = s.choices := rfl
@[simp] theorem State.setLimits_pending (v : LimitCopies) : (s.setLimits v).pending = s.pending := rfl

/-! #### setCache -/

@[simp] theorem State.setCache_resetHeld (v : Cache) : (s.setCache v).resetHeld = s.resetHeld := rfl
@[simp] theorem State.setCache_loader (v : Cache) : (s.setCache v).loader = s.loader := rfl
@[simp] theorem State.setCache_flash (v : Cache) : (s.setCache v).flash = s.flash := rfl
@[simp] theorem State.setCache_link (v : Cache) : (s.setCache v).link = s.link := rfl
@[simp] theorem State.setCache_mem (v : Cache) : (s.setCache v).mem = s.mem := rfl
@[simp] theorem State.setCache_wb (v : Cache) : (s.setCache v).wb = s.wb := rfl
@[simp] theorem State.setCache_arb (v : Cache) : (s.setCache v).arb = s.arb := rfl
@[simp] theorem State.setCache_scan (v : Cache) : (s.setCache v).scan = s.scan := rfl
@[simp] theorem State.setCache_panel (v : Cache) : (s.setCache v).panel = s.panel := rfl
@[simp] theorem State.setCache_adm (v : Cache) : (s.setCache v).adm = s.adm := rfl
@[simp] theorem State.setCache_lanes (v : Cache) : (s.setCache v).lanes = s.lanes := rfl
@[simp] theorem State.setCache_limits (v : Cache) : (s.setCache v).limits = s.limits := rfl
@[simp] theorem State.setCache_cache (v : Cache) : (s.setCache v).cache = v := rfl
@[simp] theorem State.setCache_thermal (v : Cache) : (s.setCache v).thermal = s.thermal := rfl
@[simp] theorem State.setCache_power (v : Cache) : (s.setCache v).power = s.power := rfl
@[simp] theorem State.setCache_notices (v : Cache) : (s.setCache v).notices = s.notices := rfl
@[simp] theorem State.setCache_choices (v : Cache) : (s.setCache v).choices = s.choices := rfl
@[simp] theorem State.setCache_pending (v : Cache) : (s.setCache v).pending = s.pending := rfl

/-! #### setThermal -/

@[simp] theorem State.setThermal_resetHeld (v : Thermal) : (s.setThermal v).resetHeld = s.resetHeld := rfl
@[simp] theorem State.setThermal_loader (v : Thermal) : (s.setThermal v).loader = s.loader := rfl
@[simp] theorem State.setThermal_flash (v : Thermal) : (s.setThermal v).flash = s.flash := rfl
@[simp] theorem State.setThermal_link (v : Thermal) : (s.setThermal v).link = s.link := rfl
@[simp] theorem State.setThermal_mem (v : Thermal) : (s.setThermal v).mem = s.mem := rfl
@[simp] theorem State.setThermal_wb (v : Thermal) : (s.setThermal v).wb = s.wb := rfl
@[simp] theorem State.setThermal_arb (v : Thermal) : (s.setThermal v).arb = s.arb := rfl
@[simp] theorem State.setThermal_scan (v : Thermal) : (s.setThermal v).scan = s.scan := rfl
@[simp] theorem State.setThermal_panel (v : Thermal) : (s.setThermal v).panel = s.panel := rfl
@[simp] theorem State.setThermal_adm (v : Thermal) : (s.setThermal v).adm = s.adm := rfl
@[simp] theorem State.setThermal_lanes (v : Thermal) : (s.setThermal v).lanes = s.lanes := rfl
@[simp] theorem State.setThermal_limits (v : Thermal) : (s.setThermal v).limits = s.limits := rfl
@[simp] theorem State.setThermal_cache (v : Thermal) : (s.setThermal v).cache = s.cache := rfl
@[simp] theorem State.setThermal_thermal (v : Thermal) : (s.setThermal v).thermal = v := rfl
@[simp] theorem State.setThermal_power (v : Thermal) : (s.setThermal v).power = s.power := rfl
@[simp] theorem State.setThermal_notices (v : Thermal) : (s.setThermal v).notices = s.notices := rfl
@[simp] theorem State.setThermal_choices (v : Thermal) : (s.setThermal v).choices = s.choices := rfl
@[simp] theorem State.setThermal_pending (v : Thermal) : (s.setThermal v).pending = s.pending := rfl

/-! #### setPower -/

@[simp] theorem State.setPower_resetHeld (v : Power) : (s.setPower v).resetHeld = s.resetHeld := rfl
@[simp] theorem State.setPower_loader (v : Power) : (s.setPower v).loader = s.loader := rfl
@[simp] theorem State.setPower_flash (v : Power) : (s.setPower v).flash = s.flash := rfl
@[simp] theorem State.setPower_link (v : Power) : (s.setPower v).link = s.link := rfl
@[simp] theorem State.setPower_mem (v : Power) : (s.setPower v).mem = s.mem := rfl
@[simp] theorem State.setPower_wb (v : Power) : (s.setPower v).wb = s.wb := rfl
@[simp] theorem State.setPower_arb (v : Power) : (s.setPower v).arb = s.arb := rfl
@[simp] theorem State.setPower_scan (v : Power) : (s.setPower v).scan = s.scan := rfl
@[simp] theorem State.setPower_panel (v : Power) : (s.setPower v).panel = s.panel := rfl
@[simp] theorem State.setPower_adm (v : Power) : (s.setPower v).adm = s.adm := rfl
@[simp] theorem State.setPower_lanes (v : Power) : (s.setPower v).lanes = s.lanes := rfl
@[simp] theorem State.setPower_limits (v : Power) : (s.setPower v).limits = s.limits := rfl
@[simp] theorem State.setPower_cache (v : Power) : (s.setPower v).cache = s.cache := rfl
@[simp] theorem State.setPower_thermal (v : Power) : (s.setPower v).thermal = s.thermal := rfl
@[simp] theorem State.setPower_power (v : Power) : (s.setPower v).power = v := rfl
@[simp] theorem State.setPower_notices (v : Power) : (s.setPower v).notices = s.notices := rfl
@[simp] theorem State.setPower_choices (v : Power) : (s.setPower v).choices = s.choices := rfl
@[simp] theorem State.setPower_pending (v : Power) : (s.setPower v).pending = s.pending := rfl

/-! #### setNotices -/

@[simp] theorem State.setNotices_resetHeld (v : Notices) : (s.setNotices v).resetHeld = s.resetHeld := rfl
@[simp] theorem State.setNotices_loader (v : Notices) : (s.setNotices v).loader = s.loader := rfl
@[simp] theorem State.setNotices_flash (v : Notices) : (s.setNotices v).flash = s.flash := rfl
@[simp] theorem State.setNotices_link (v : Notices) : (s.setNotices v).link = s.link := rfl
@[simp] theorem State.setNotices_mem (v : Notices) : (s.setNotices v).mem = s.mem := rfl
@[simp] theorem State.setNotices_wb (v : Notices) : (s.setNotices v).wb = s.wb := rfl
@[simp] theorem State.setNotices_arb (v : Notices) : (s.setNotices v).arb = s.arb := rfl
@[simp] theorem State.setNotices_scan (v : Notices) : (s.setNotices v).scan = s.scan := rfl
@[simp] theorem State.setNotices_panel (v : Notices) : (s.setNotices v).panel = s.panel := rfl
@[simp] theorem State.setNotices_adm (v : Notices) : (s.setNotices v).adm = s.adm := rfl
@[simp] theorem State.setNotices_lanes (v : Notices) : (s.setNotices v).lanes = s.lanes := rfl
@[simp] theorem State.setNotices_limits (v : Notices) : (s.setNotices v).limits = s.limits := rfl
@[simp] theorem State.setNotices_cache (v : Notices) : (s.setNotices v).cache = s.cache := rfl
@[simp] theorem State.setNotices_thermal (v : Notices) : (s.setNotices v).thermal = s.thermal := rfl
@[simp] theorem State.setNotices_power (v : Notices) : (s.setNotices v).power = s.power := rfl
@[simp] theorem State.setNotices_notices (v : Notices) : (s.setNotices v).notices = v := rfl
@[simp] theorem State.setNotices_choices (v : Notices) : (s.setNotices v).choices = s.choices := rfl
@[simp] theorem State.setNotices_pending (v : Notices) : (s.setNotices v).pending = s.pending := rfl

/-! #### setChoices -/

@[simp] theorem State.setChoices_resetHeld (v : Nat) : (s.setChoices v).resetHeld = s.resetHeld := rfl
@[simp] theorem State.setChoices_loader (v : Nat) : (s.setChoices v).loader = s.loader := rfl
@[simp] theorem State.setChoices_flash (v : Nat) : (s.setChoices v).flash = s.flash := rfl
@[simp] theorem State.setChoices_link (v : Nat) : (s.setChoices v).link = s.link := rfl
@[simp] theorem State.setChoices_mem (v : Nat) : (s.setChoices v).mem = s.mem := rfl
@[simp] theorem State.setChoices_wb (v : Nat) : (s.setChoices v).wb = s.wb := rfl
@[simp] theorem State.setChoices_arb (v : Nat) : (s.setChoices v).arb = s.arb := rfl
@[simp] theorem State.setChoices_scan (v : Nat) : (s.setChoices v).scan = s.scan := rfl
@[simp] theorem State.setChoices_panel (v : Nat) : (s.setChoices v).panel = s.panel := rfl
@[simp] theorem State.setChoices_adm (v : Nat) : (s.setChoices v).adm = s.adm := rfl
@[simp] theorem State.setChoices_lanes (v : Nat) : (s.setChoices v).lanes = s.lanes := rfl
@[simp] theorem State.setChoices_limits (v : Nat) : (s.setChoices v).limits = s.limits := rfl
@[simp] theorem State.setChoices_cache (v : Nat) : (s.setChoices v).cache = s.cache := rfl
@[simp] theorem State.setChoices_thermal (v : Nat) : (s.setChoices v).thermal = s.thermal := rfl
@[simp] theorem State.setChoices_power (v : Nat) : (s.setChoices v).power = s.power := rfl
@[simp] theorem State.setChoices_notices (v : Nat) : (s.setChoices v).notices = s.notices := rfl
@[simp] theorem State.setChoices_choices (v : Nat) : (s.setChoices v).choices = v := rfl
@[simp] theorem State.setChoices_pending (v : Nat) : (s.setChoices v).pending = s.pending := rfl

/-! #### setPending -/

@[simp] theorem State.setPending_resetHeld (v : List Instr) : (s.setPending v).resetHeld = s.resetHeld := rfl
@[simp] theorem State.setPending_loader (v : List Instr) : (s.setPending v).loader = s.loader := rfl
@[simp] theorem State.setPending_flash (v : List Instr) : (s.setPending v).flash = s.flash := rfl
@[simp] theorem State.setPending_link (v : List Instr) : (s.setPending v).link = s.link := rfl
@[simp] theorem State.setPending_mem (v : List Instr) : (s.setPending v).mem = s.mem := rfl
@[simp] theorem State.setPending_wb (v : List Instr) : (s.setPending v).wb = s.wb := rfl
@[simp] theorem State.setPending_arb (v : List Instr) : (s.setPending v).arb = s.arb := rfl
@[simp] theorem State.setPending_scan (v : List Instr) : (s.setPending v).scan = s.scan := rfl
@[simp] theorem State.setPending_panel (v : List Instr) : (s.setPending v).panel = s.panel := rfl
@[simp] theorem State.setPending_adm (v : List Instr) : (s.setPending v).adm = s.adm := rfl
@[simp] theorem State.setPending_lanes (v : List Instr) : (s.setPending v).lanes = s.lanes := rfl
@[simp] theorem State.setPending_limits (v : List Instr) : (s.setPending v).limits = s.limits := rfl
@[simp] theorem State.setPending_cache (v : List Instr) : (s.setPending v).cache = s.cache := rfl
@[simp] theorem State.setPending_thermal (v : List Instr) : (s.setPending v).thermal = s.thermal := rfl
@[simp] theorem State.setPending_power (v : List Instr) : (s.setPending v).power = s.power := rfl
@[simp] theorem State.setPending_notices (v : List Instr) : (s.setPending v).notices = s.notices := rfl
@[simp] theorem State.setPending_choices (v : List Instr) : (s.setPending v).choices = s.choices := rfl
@[simp] theorem State.setPending_pending (v : List Instr) : (s.setPending v).pending = v := rfl

/-! #### Lanes -/

/-- The record of the lane written is the one written. -/
@[simp] theorem State.setLane_lane_same (i : LaneId) (l : Lane) : (s.setLane i l).lane i = l := by
  show (s.lanes.set i.val l i.isLt)[i.val] = l
  simp

/-- The records of the other lanes stay. -/
@[simp] theorem State.setLane_lane_other {i j : LaneId} (l : Lane) (h : j ≠ i) :
    (s.setLane i l).lane j = s.lane j := by
  have h' : i.val ≠ j.val := fun e => h (Fin.ext e.symm)
  show (s.lanes.set i.val l i.isLt)[j.val] = s.lanes[j.val]
  simp [h']

/-- Reading a lane after writing one. -/
theorem State.setLane_lane (i j : LaneId) (l : Lane) :
    (s.setLane i l).lane j = if j = i then l else s.lane j := by
  by_cases h : j = i
  · subst h; simp
  · simp [h]

@[simp] theorem State.setLane_resetHeld (i : LaneId) (l : Lane) : (s.setLane i l).resetHeld = s.resetHeld := rfl
@[simp] theorem State.setLane_loader (i : LaneId) (l : Lane) : (s.setLane i l).loader = s.loader := rfl
@[simp] theorem State.setLane_flash (i : LaneId) (l : Lane) : (s.setLane i l).flash = s.flash := rfl
@[simp] theorem State.setLane_link (i : LaneId) (l : Lane) : (s.setLane i l).link = s.link := rfl
@[simp] theorem State.setLane_mem (i : LaneId) (l : Lane) : (s.setLane i l).mem = s.mem := rfl
@[simp] theorem State.setLane_wb (i : LaneId) (l : Lane) : (s.setLane i l).wb = s.wb := rfl
@[simp] theorem State.setLane_arb (i : LaneId) (l : Lane) : (s.setLane i l).arb = s.arb := rfl
@[simp] theorem State.setLane_scan (i : LaneId) (l : Lane) : (s.setLane i l).scan = s.scan := rfl
@[simp] theorem State.setLane_panel (i : LaneId) (l : Lane) : (s.setLane i l).panel = s.panel := rfl
@[simp] theorem State.setLane_adm (i : LaneId) (l : Lane) : (s.setLane i l).adm = s.adm := rfl
@[simp] theorem State.setLane_limits (i : LaneId) (l : Lane) : (s.setLane i l).limits = s.limits := rfl
@[simp] theorem State.setLane_cache (i : LaneId) (l : Lane) : (s.setLane i l).cache = s.cache := rfl
@[simp] theorem State.setLane_thermal (i : LaneId) (l : Lane) : (s.setLane i l).thermal = s.thermal := rfl
@[simp] theorem State.setLane_power (i : LaneId) (l : Lane) : (s.setLane i l).power = s.power := rfl
@[simp] theorem State.setLane_notices (i : LaneId) (l : Lane) : (s.setLane i l).notices = s.notices := rfl
@[simp] theorem State.setLane_choices (i : LaneId) (l : Lane) : (s.setLane i l).choices = s.choices := rfl
@[simp] theorem State.setLane_pending (i : LaneId) (l : Lane) : (s.setLane i l).pending = s.pending := rfl

end Sys2Proof.Machine
end

