-- ==== Sys2Proof/WellFormed.lean ====
section
/-! DEFINITION. Which operands a command can have in the world: a request's payload fits a frame, a
malformed request is malformed, an extension clock counts from 1.  `exec` is total all the same: on
other operands the command does not occur and nothing changes. -/

namespace Sys2Proof

open Machine

/-- The payload of a frame holds 0 to 272 bytes (R164). -/
def payloadFits (p : List Byte) : Bool := p.length ≤ Config.payloadMax

/-- The bytes end a request at a missing start byte, at a length above 272, with a check mismatch or with
an undefined kind (R164, R166). -/
def malformedFrame (frame : List Byte) : Bool :=
  match frameStatus frame with
  | .missingStart | .tooLong _ _ => true
  | .whole k t p c =>
    match linkTests k t p c with
    | .error .badFrame | .error .badKind => true
    | _ => false
  | .incomplete | .beyond => false

/-- The operands of a command are ones that can occur. -/
def Instr.wellFormed : Instr → Bool
  | .reset => true
  | .resetRelease _ _ => true
  | .select => true
  | .deselect => true
  | .malformedRequest frame => malformedFrame frame
  | .draw _ p _ => payloadFits p
  | .fill _ p _ => payloadFits p
  | .update _ p _ => payloadFits p
  | .cancel _ p _ => payloadFits p
  | .probe _ p _ => payloadFits p
  | .temp _ p _ => payloadFits p
  | .setLimits _ p _ => payloadFits p
  | .setThermal _ p _ => payloadFits p
  | .setPower _ p _ => payloadFits p
  | .shutdown _ p _ => payloadFits p
  | .halt _ p _ => payloadFits p
  | .clearFault _ p _ => payloadFits p
  | .fetch _ p _ => payloadFits p
  | .status _ p _ => payloadFits p
  | .drainAccessComplete => true
  | .probeAccessComplete => true
  | .initWriteComplete => true
  | .flashWaitTimeout => true
  | .flashAccessComplete => true
  | .linePeriodExpiry => true
  | .scanReadComplete => true
  | .outputWindowEnd => true
  | .commitWriteComplete => true
  | .frameBoundary => true
  | .sweepAccessComplete => true
  | .sampleTimerExpiry => true
  | .conversionComplete _ => true
  | .railGoodChange _ _ _ => true
  | .glitchFilterExpiry _ _ => true
  | .blankIntervalEnd => true
  | .stageDelayExpiry => true
  | .stageTimeout => true
  | .fallDelayExpiry => true
  | .idleHoldExpiry => true
  | .byteBoundary _ => true
  | .flashSetupEnd => true
  | .flashStrobeEnd _ _ => true
  | .fwaitInactive clock _ => 1 ≤ clock
  | .shiftEnd => true

end Sys2Proof
end

