-- ==== Sys2Proof/Tests/Slice0.lean ====
section
/-! SUPPORT. Tests on small states: the manual's worked figures, one or two steps of the commands, the refusals
of WellFormed, and for every obligation with hypotheses the states and operands that meet them
(`witness_<obligation>`, one part for each of its clauses). -/

namespace Sys2Proof.Tests

open Sys2Proof Sys2Proof.Machine

-- One test after another: the package compiled as one text then needs few threads.
set_option Elab.async false

/-! ### Small states -/

/-- A header: 320 × 64 pixels, a DELAY stage and a GOOD stage, the boundaries of section 7.7.1. -/
def tiny : Header :=
  { magic := 0xE1C5, version := 1, columns := 320, lines := 64, prescale := 1, divider := 0, lineCount := 240, blankLines := 2
    window := 96, riseDepth := 4
    stages := [{ enable := 0, condition := .delay, goodLine := 0, activeHigh := true, t := 3, blank := 0, fall := 2 },
      { enable := 1, condition := .good, goodLine := 1, activeHigh := true, t := 50, blank := 32, fall := 1 }]
    spareStages := List.replicate 3 [0, 0, 0, 0]
    thermistor := List.replicate 64 88, bounds := [0, 20, 40, 60, 80, 100, 140], hysteresis := 4
    fallback := 3, period := 10, depth := 4, swiftInc := List.replicate 15 1
    toneInc := List.replicate 15 3, limits := { residue := 48, balance := 320 }
    timing := { setup := 2, strobe := 3, hold := 1, waitLimit := 3, waitActiveHigh := true }
    tables := List.replicate 32 { offset := 256, frames := 2 }, checksum := 0 }

/-- `tiny` with one stage, which ends by its delay. -/
def tinyDelay : Header :=
  { tiny with stages :=
      [{ enable := 0, condition := .delay, goodLine := 0, activeHigh := true, t := 3, blank := 0, fall := 2 }] }

/-- `tiny` with two stages that may end by a forced timeout. -/
def tinyForced : Header :=
  { tiny with stages :=
      [{ enable := 0, condition := .goodOrTimeout, goodLine := 0, activeHigh := true, t := 3, blank := 0, fall := 2 },
       { enable := 1, condition := .good, goodLine := 1, activeHigh := true, t := 50, blank := 32, fall := 1 }] }

/-- The image VALID with a header, the rails OFF, nothing in hand, and a transaction just begun. -/
def withHeader (h : Header) : State :=
  { State.reset with
    resetHeld := false
    loader := { image := .valid, words := [], header := some h, initDone := 256 }
    link := { Link.atRest with state := .receiving }
    limits := { taken := some h.limits, inForce := some h.limits }
    thermal := { State.reset.thermal with
      band := h.fallback, depth := some h.depth, period := some h.period, timer := some h.period }
    flash := { State.reset.flash with timing := h.timing } }

/-- `withHeader tiny`. -/
def ready : State := withHeader tiny

/-- `ready` with the rails ON, the idle hold running and slot A READY with the current band. -/
def readyOn : State :=
  { ready with
    power := { ready.power with state := .on, idleTimer := some 5000 }
    cache := { ready.cache with a := { Slot.empty with state := .ready, band := some 3, frames := [2, 2, 2, 2] } } }

/-- A pending entry. -/
def entry (id : Nat) (marked : Bool) : Pending :=
  { id := id, order := 7, area := { x0 := 0, y0 := 0, x1 := 9, y1 := 9 }, mode := .tone, cls := .normal
    noEscalate := false, fence := 1, marked := marked }

/-- A lane that holds update 5 in some state. -/
def laneIn (st : LaneState) : Lane :=
  { Lane.free with
    state := st, id := some 5, order := some 2, mode := some .tone, cls := some .normal, pass := some 1
    region := some { x0 := 0, y0 := 0, x1 := 9, y1 := 9 }, slot := some .a, band := some 3 }

/-- A state with the image in another state. -/
def imaged (i : ImageState) (s : State) : State := { s with loader := { s.loader with image := i } }

/-- `ready` with the memory given to an access. -/
def granted (a : Access) (s : State) : State := { s with arb := { s.arb with running := some a } }

/-- A scan engine at a position, its line period running. -/
def scanning (p : ScanPos) (s : State) : State :=
  { s with scan := { s.scan with pos := p, lineTimer := some 240 } }

/-- A flash access in a state with something to deliver. -/
def flashing (st : FlashState) (r : Option FlashResult) (s : State) : State :=
  { s with flash := { s.flash with state := st, result := r } }

/-- A power state. -/
def powered (p : PowerState) (s : State) : State := { s with power := { s.power with state := p } }

/-- The next state of a command, or the state itself where there is none. -/
def after (c : Instr) (s : State) : State :=
  match exec c s with
  | .next t => t
  | _ => s

/-! ### WellFormed refuses -/

theorem test_wf_payload_too_long : (Instr.draw 0 (List.replicate 273 0) 0).wellFormed = false := by
  decide +kernel
theorem test_wf_payload_longest : (Instr.status 0 (List.replicate 272 0) 0).wellFormed = true := by
  decide +kernel
theorem test_wf_malformed_incomplete : (Instr.malformedRequest [0xC3, 1, 2]).wellFormed = false := by decide
/-- A correct STATUS frame is no malformed request. -/
theorem test_wf_malformed_correct :
    (Instr.malformedRequest (frameBytes 0x0E 9 [] (frameCheck 0x0E 9 []))).wellFormed = false := by decide +kernel
theorem test_wf_malformed_start : (Instr.malformedRequest [0x55]).wellFormed = true := by decide
theorem test_wf_extension_clock : (Instr.fwaitInactive 0 0).wellFormed = false := by decide

/-! ### Worked figures of the manual -/

/-- R165: the check of the byte 0x00. -/
theorem test_check_zero_byte : crc16 [0] = 0xE1F0 := by decide +kernel
/-- R165: the check of 0x31 to 0x39. -/
theorem test_check_digits : crc16 [0x31, 0x32, 0x33, 0x34, 0x35, 0x36, 0x37, 0x38, 0x39] = 0x29B1 := by
  decide +kernel
/-- R164: a STATUS request is 7 bytes, a DRAW of 512 levels 269, and a length of 288 completes at byte 5. -/
theorem test_frame_lengths :
    (frameBytes 0x0E 1 [] 0).length = 7 ∧
    (frameBytes 0x01 1 (drawPayload 0 0 0 (List.replicate 512 3)) 0).length = 269 ∧
    frameStatus [0xC3, 1, 2, 0x20, 0x01] = .tooLong 1 2 := by decide +kernel
/-- R181: the payloads of 99 and of 100 levels have 55 and 56 bytes, and for an odd count the first level
stands in bits 15:12 of the count word. -/
theorem test_draw_payload :
    (drawPayload 0 0 0 (List.replicate 99 3)).length = 55 ∧
    (drawPayload 0 0 0 (List.replicate 100 3)).length = 56 ∧
    drawPayload 0 500 200 [7, 1, 2] = [0xF4, 0x01, 0xC8, 0x00, 0x03, 0x70, 0x21] ∧
    drawLevels [0xF4, 0x01, 0xC8, 0x00, 0x03, 0x70, 0x21] = [7, 1, 2] := by decide +kernel
/-- R181: a DRAW of count 100 and length 55 fails test 5, and one of count 0 test 4. -/
theorem test_draw_agreement :
    lengthAgrees .draw (drawPayload 0 0 0 (List.replicate 100 3)).dropLast = false ∧
    fieldsDefined .draw [0, 0, 0, 0, 0, 0] = false := by decide +kernel
/-- Section 1.4: the clipping of FILL (1200, 1000, 1600, 1100) and (1500, 0, 1600, 10) on 1448 × 1072. -/
theorem test_fill_clip :
    clipRect 1448 1072 ⟨1200, 1000, 1600, 1100⟩ = some ⟨1200, 1000, 1447, 1071⟩ ∧
    clipRect 1448 1072 ⟨1500, 0, 1600, 10⟩ = none := by decide
/-- R10: the drain costs 1, 3, 300 and 12,800. -/
theorem test_drain_costs :
    (WriteEntry.draw 0 0 (List.replicate 256 0)).cost = 1 ∧
    (WriteEntry.draw 0 100 (List.replicate 512 0)).cost = 3 ∧
    (WriteEntry.fill ⟨300, 100, 899, 199⟩ 0).cost = 300 ∧
    (WriteEntry.fill ⟨0, 0, 2047, 1599⟩ 0).cost = 12800 := by decide +kernel
/-- R32: the substitutes granted with current band 4. -/
theorem test_substitute :
    (let c (i j : Slot) : Cache := { a := i, b := j, reload := none, failed := [] }
     let r (b : Band) : Slot := { Slot.empty with state := .ready, band := some b }
     (c (r 3) { Slot.empty with state := .loading, band := some 4 }).substitute 4 = some ⟨.a, 3, true⟩ ∧
     (c (r 2) (r 7)).substitute 4 = some ⟨.a, 2, true⟩ ∧ (c (r 5) (r 3)).substitute 4 = some ⟨.b, 3, true⟩ ∧
     (c Slot.empty Slot.empty).substitute 4 = none) := by decide
/-- Section 3.7.1: the cell of level 3, residue 44 and balance +330 escalates to CLEAN_DOWN and, completed at
balance +318, is at level 12 with residue 0; then level 5 runs TONE, with residue 3 at the end. -/
theorem test_escalation :
    (let c : Cell := { level := 3, goal := 0, owner := none, kind := .swift, residue := 44, balance := 330 }
     escalates .tone false ⟨48, 320⟩ c = true ∧ armedKind .tone true c.balance = .cleanDown ∧
     (let d : Cell := { c with goal := 12, owner := some 2, kind := .cleanDown, balance := 318 }
      completeCell tiny d = { level := 12, goal := 0, owner := none, kind := .swift, residue := 0, balance := 318 } ∧
      escalates .tone false ⟨48, 320⟩ (completeCell tiny d) = false ∧
      (completeCell tiny { completeCell tiny d with goal := 5, owner := some 4, kind := .tone, balance := 312 }).residue
        = 3)) := by decide
/-- Section 3.7.2: from +505 ten positive frames saturate at +511, and ten negative ones then leave +501. -/
theorem test_saturation :
    ((List.replicate 10 Drive.positive ++ List.replicate 10 Drive.negative).foldl driveBalance 505) = 501 := by
  decide +kernel
/-- R52: with 65535 held, the id after 65534 is 1. -/
theorem test_id_wrap :
    ({ ready with adm := { ready.adm with nextId := 65535 } }.setLane 3 { laneIn .driving with id := some 65535 }).freeId
      49 65535 = 1 := by decide +kernel
/-- R57: with lanes 12 to 15, 0 and 1 taken, an URGENT head takes lane 2, and a NORMAL one lane 3 after it. -/
theorem test_free_lane :
    (let s := [12, 13, 14, 15, 0, 1].foldl (fun s i => s.setLane i (laneIn .driving)) ready
     s.freeLane .urgent = some 2 ∧ (s.setLane 2 (laneIn .arming)).freeLane .normal = some 3) := by decide +kernel
/-- R73: the leftover box of (40, 12), (35, 30) and (52, 18). -/
theorem test_leftover_box :
    growBox (some (growBox (some (growBox none 40 12)) 35 30)) 52 18 = ⟨35, 12, 52, 30⟩ := by decide
/-- R95, R96: line periods of 1,000 and 240 clocks, and windows of 180, 187 and 1 clocks. -/
theorem test_windows :
    linePeriod { tiny with prescale := 1, divider := 3, lineCount := 250 } = 1000 ∧
    outputWindow tiny = 180 ∧ outputWindow { tiny with window := 100 } = 187 ∧
    outputWindow { tiny with lineCount := 64, window := 1 } = 1 := by decide
/-- R116: a voltage of 0.43 of THREF is code 27. -/
theorem test_ladder : ladderCode (Vector.replicate 6 27) = 27 ∧ ladderCode (Vector.replicate 6 70) = 63 := by decide
/-- R121: the averages of the worked table, and below zero. -/
theorem test_averages :
    average 8 [10, 11] = 10 ∧ average 8 [10, 11, 13] = 11 ∧ average 8 [10, 11, 13, 12, 14, 9, 15] = 12 ∧
    average 2 [-3, -2] = -3 ∧ average 2 [-4, -5] = -5 := by decide
/-- Sections 7.7.1 and 7.7.2, and the TEMP example of R125. -/
theorem test_bands :
    evalBand tiny.bounds 4 84 4 = 5 ∧ evalBand tiny.bounds 4 76 5 = 5 ∧ evalBand tiny.bounds 4 75 5 = 4 ∧
    evalBand tiny.bounds 4 (-3) 3 = 1 ∧ evalBand tiny.bounds 4 (-5) 1 = 0 ∧
    evalBand tiny.bounds 4 78 5 = 5 ∧ evalBand tiny.bounds 4 74 5 = 4 := by decide
/-- R135: blank intervals of 102 and 125 units, and a base of 313. -/
theorem test_blank_intervals :
    32 * blankBase 4 500 [412, 398, 405, 420] / 128 = 102 ∧ 32 * blankBase 4 500 [] / 128 = 125 ∧
    blankBase 4 500 [300, 310, 331] = 313 := by decide
/-- R150: with n = 3 the extension limit is 64 clocks. -/
theorem test_extension_limit : tiny.timing.extensionLimit = 64 := by decide
/-- R157: a table of 240 steps fits at offset 8,380,000 and not at 8,381,000. -/
theorem test_placement :
    headerPlaced { tiny with tables := [{ offset := 8380000, frames := 240 }] } = true ∧
    headerPlaced { tiny with tables := [{ offset := 8381000, frames := 240 }] } = false := by decide
/-- R184: the initial cell record is 0x001F9F0F: level 15, owner 31, residue 63. -/
theorem test_stored_cell : Cell.initial.stored = 15 + 256 * 31 + 32768 * 63 := by decide
/-- R185: a BAND notice's record, with a negative temperature in two's complement. -/
theorem test_notice_record :
    noticeRecord (some (.band 2 1 .sensor (some (-3)))) =
      [2, 2, 1, 0, 1, 0xFD, 0xFF] ++ List.replicate 13 0 := by decide
/-- R187: entry (3, 12) of a step lies in word 7 of the step, bits 9:8. -/
theorem test_code_place : codeWord 3 12 = 7 ∧ driveOf (codeBits 3 12 0x0200) = .negative := by decide

/-! ### Steps -/

/-- R153: the release of reset asks for header word 0. -/
theorem test_release : (after (.resetRelease false 5) State.reset).flash.state = .setup ∧
    (after (.resetRelease false 5) State.reset).link.state = .deselected := by decide
/-- R8: a DRAW joins the write buffer and, the memory being free, its drain is granted in the same event. -/
theorem test_draw : (after (RequestKind.draw.sent 9 (drawPayload 0 5 300 (List.replicate 40 3))) ready).wb.entries =
      [.draw 5 300 (List.replicate 20 3)] ∧
    (after (RequestKind.draw.sent 9 (drawPayload 0 5 300 (List.replicate 40 3))) ready).arb.running =
      some .drain := by decide +kernel
/-- R51: an UPDATE off the panel is answered REFUSED with REGION: kind, tag, length 2, class 3, cause 6. -/
theorem test_update_region :
    (((after (RequestKind.update.sent 9 (updatePayload 0 ⟨320, 0, 330, 9⟩ .tone .normal false)) ready).link.reply).getD
      []).take 7 = [0xC3, 0x03, 9, 2, 0, 3, 6] := by decide +kernel
/-- R59, R98: an UPDATE in ON at rest begins a frame. -/
theorem test_update_frame :
    (after (RequestKind.update.sent 9 (updatePayload 0 ⟨0, 0, 9, 9⟩ .tone .urgent false)) readyOn).scan.pos =
      .line 0 .reading := by decide +kernel
/-- R167: before the image is VALID a HALT is answered RETRY with STARTING. -/
theorem test_starting :
    (((after (RequestKind.halt.sent 9 []) (imaged .initialising ready)).link.reply).getD []).take 7 =
      [0xC3, 0x0B, 9, 2, 0, 2, 16] := by decide +kernel
/-- R10: the completed drain of a one-segment entry writes its levels and empties the list. -/
theorem test_drain :
    (let s := { granted .drain ready with wb := { entries := [.draw 5 300 [7, 8]], done := 0 } }
     (after .drainAccessComplete s).mem.draft 301 5 = 8 ∧ (after .drainAccessComplete s).mem.draft 302 5 = 15 ∧
     (after .drainAccessComplete s).wb.entries = []) := by decide +kernel
/-- R150: FWAIT inactive before the limit captures the word; beyond it nothing can be captured. -/
theorem test_fwait :
    (after (.fwaitInactive 63 0x1234) (flashing .extend none ready)).flash.result = some (.word 0x1234) ∧
    (after (.fwaitInactive 65 0x1234) (flashing .extend none ready)).flash.state = .extend := by decide
/-- R119, 7.7.2: the fourth miss makes the sensor FAULTY and queues SENSOR and then BAND. -/
theorem test_fourth_miss :
    (let s := { ready with thermal := { ready.thermal with
        sensor := .good, history := [110], misses := 3, band := 5, converting := true } }
     (after (.conversionComplete (Vector.replicate 6 63)) s).notices.queue =
       [.sensor 1 .faulty 63, .band 1 3 .fallback none]) := by decide +kernel
/-- R133, R134: the delay of stage 1 gives way to stage 2 with its blank interval of 125 units. -/
theorem test_stage :
    (after .stageDelayExpiry (powered (.rising 1) ready)).power.state = .rising 2 ∧
    (after .stageDelayExpiry (powered (.rising 1) ready)).power.blankTimer = some 125 := by decide +kernel
/-- R163: a byte before the request is complete is kept. -/
theorem test_byte : (after (.byteBoundary 0xC3) ready).link.received = [0xC3] := by decide
/-- R164: a byte that is no start byte is answered BAD_FRAME with kind and tag 0. -/
theorem test_bad_start :
    (((after (.byteBoundary 0x55) ready).link.reply).getD []).take 7 = [0xC3, 0, 0, 2, 0, 3, 1] := by
  decide +kernel

/-! ### Witnesses: the hypotheses of the obligations are met -/

theorem witness_StepRunsFrontCommand :
    ({ ready with pending := [.select, .deselect] }).pending = .select :: [.deselect] ∧ ready.pending = [] :=
  ⟨rfl, rfl⟩

theorem witness_ResetAndRelease : State.reset.resetHeld = true := rfl

theorem witness_TransactionsOpenAndClose :
    ((let s := { ready with link := .atRest }
     s.link.state = .deselected ∧ s.resetHeld = false) ∧
    (granted (.probe 3 4 true) ready).link.state ≠ .deselected) ∧
    (ready.link.state = .receiving ∧ frameStatus (ready.link.received ++ [0xC3]) = .incomplete) ∧
    (let s := { ready with link := { ready.link with state := .answering } }
     s.link.state = .answering ∧ s.link.reply = none) ∧
    { ready with link := { ready.link with state := .finished } }.link.state = .finished ∧
    { ready with link := { ready.link with state := .ignoring } }.link.state = .ignoring ∧
    { ready with link := .atRest }.link.state = .deselected := by decide

/-- A reply of two bytes, its first and its last. -/
theorem witness_ReplyIsReadOut :
    (let s := { ready with link := { ready.link with state := .answering, reply := some [0xC3, 7] } }
     s.link.state = .answering ∧ s.link.reply = some [0xC3, 7] ∧ ([0xC3, 7] : List Byte) ≠ [] ∧
     ([1, 2, 3] : List Byte).length = 1 + ([0xC3, 7] : List Byte).length ∧
     0 < ([0xC3, 7] : List Byte).length ∧ 1 < ([0xC3, 7] : List Byte).length) := by decide

/-- An empty payload and the longest. -/
theorem witness_RequestByteByByte :
    ready.link.state = .receiving ∧ ready.link.received = [] ∧ ([] : List Byte).length ≤ 272 ∧
    (List.replicate 272 (0 : Byte)).length ≤ 272 := by decide +kernel

theorem witness_MalformedIsRefused :
    (ready.link.state = .receiving ∧ ready.link.received = [] ∧ (0xC2 : Byte) ≠ 0xC3) ∧
    (ready.link.received <+: [0xC3, 1, 2, 0x11, 1] ∧ 272 < (0x11 : Byte).toNat + 256 * (1 : Byte).toNat) ∧
    (([] : List Byte).length ≤ 272 ∧ ready.link.received <+: frameBytes 0x0E 1 [] 0 ∧
      (0 : Word) ≠ frameCheck 0x0E 1 []) ∧
    (ready.link.received <+: frameBytes 0x0F 1 [] (frameCheck 0x0F 1 []) ∧ (0 : Byte).toNat = 0 ∧
      14 < (0x0F : Byte).toNat) := by decide +kernel

/-- Both sides of the equivalence, and each test's failure: lengths and codes at their ends, and just past
them. -/
theorem witness_PassingTheLinkTests :
    ((0 : Word) ≠ frameCheck 0x0E 1 [] ∧ (0x00 : Byte).toNat = 0 ∧ 14 < (0x0F : Byte).toNat) ∧
    (¬ 6 ≤ (List.replicate 5 (0 : Byte)).length ∧ ¬ (List.replicate 263 (0 : Byte)).length ≤ 262) ∧
    (let p : List Byte := [0, 0, 0, 0, 0, 0]
     6 ≤ p.length ∧ p.length ≤ 262 ∧ ¬ 1 ≤ u16At p 4 % 1024) ∧
    (let p : List Byte := [0, 0, 0, 0, 1, 2]
     u16At p 4 % 1024 = 513 ∧ ¬ u16At p 4 % 1024 ≤ 512) ∧
    (let p : List Byte := [0, 0, 0, 0, 2, 0]
     1 ≤ u16At p 4 % 1024 ∧ u16At p 4 % 1024 ≤ 512 ∧ p.length ≠ 6 + u16At p 4 % 1024 / 2) ∧
    linkTests 0x0D 1 [] (frameCheck 0x0D 1 []) = .ok .fetch ∧
    linkTests 0x06 1 [1, 0, 0] (frameCheck 0x06 1 [1, 0, 0]) = .ok .temp ∧
    linkTests 0x06 1 [2, 0, 0] (frameCheck 0x06 1 [2, 0, 0]) = .error .badField ∧
    linkTests 0x02 1 (fillPayload ⟨0, 0, 1, 1⟩ 15) (frameCheck 0x02 1 (fillPayload ⟨0, 0, 1, 1⟩ 15)) = .ok .fill ∧
    linkTests 0x04 1 [1] (frameCheck 0x04 1 [1]) = .error .badLength := by
  decide +kernel

theorem witness_LinkAnswersChangeNothing :
    (ready.link.state = .receiving ∧ ready.link.received <+: frameBytes 0x04 1 [1] (frameCheck 0x04 1 [1])) ∧
    linkTests RequestKind.cancel.code 1 [1] (frameCheck RequestKind.cancel.code 1 [1]) = .error .badLength ∧
    ready.receives .halt 1 [] ∧
    linkTests RequestKind.halt.code 1 [] (frameCheck RequestKind.halt.code 1 []) = .ok .halt ∧
    RequestKind.halt ≠ .status ∧ RequestKind.halt ≠ .fetch ∧ (imaged .header ready).loader.image = .header ∧
    (imaged .initialising ready).loader.image = .initialising ∧
    (imaged (.invalid .timeout) ready).loader.image = .invalid .timeout := by
  refine ⟨⟨rfl, List.nil_prefix⟩, ?_, ⟨rfl, List.nil_prefix⟩, ?_, ?_, ?_, rfl, rfl, rfl⟩ <;> decide +kernel

theorem witness_ByteErrorIsDetected : (0x00 : Byte) ≠ 0x80 := by decide

/-- One level at the panel's last pixel, and 512 levels from its first; a rectangle of the last pixel. -/
theorem witness_WritesJoinBuffer :
    (ready.loader.image = .valid ∧ ready.receives .draw 1 (drawPayload 0 63 319 [7]) ∧ fits16 63 ∧ fits16 319 ∧
      1 ≤ [(7 : Level)].length ∧ 63 < ready.panelLines ∧ 319 < ready.columns ∧ ready.wb.entries.length < 4) ∧
    (ready.receives .draw 1 (drawPayload 63 0 0 (List.replicate 512 7)) ∧ 0 < ready.panelLines ∧ 0 < ready.columns ∧
      (List.replicate 512 (7 : Level)).length ≤ 512) ∧
    (let r : Rect := ⟨319, 63, 65535, 65535⟩
     ready.loader.image = .valid ∧ ready.receives .fill 1 (fillPayload r 15) ∧ fits16 r.x0 ∧ fits16 r.y0 ∧
     fits16 r.x1 ∧ fits16 r.y1 ∧ r.x0 ≤ min r.x1 (ready.columns - 1) ∧ r.y0 ≤ min r.y1 (ready.panelLines - 1) ∧
     ready.wb.entries.length < 4) := by
  refine ⟨⟨rfl, ⟨rfl, List.nil_prefix⟩, ?_⟩, ⟨⟨rfl, List.nil_prefix⟩, ?_⟩, rfl, ⟨rfl, List.nil_prefix⟩, ?_⟩ <;>
    decide +kernel

/-- Four entries in the buffer. -/
def full : State := { ready with wb := { entries := List.replicate 4 (.fill ⟨0, 0, 9, 9⟩ 3), done := 0 } }

theorem witness_WritesTurnedAway :
    (ready.loader.image = .valid ∧ ready.receives .draw 1 (drawPayload 0 64 0 [7]) ∧ fits16 64 ∧ ready.panelLines ≤ 64) ∧
    (ready.receives .draw 1 (drawPayload 0 0 320 [7]) ∧ fits16 320 ∧ ready.columns ≤ 320) ∧
    (full.loader.image = .valid ∧ full.receives .draw 1 (drawPayload 0 63 319 [7]) ∧ 63 < full.panelLines ∧
      319 < full.columns ∧ 4 ≤ full.wb.entries.length) ∧
    (ready.receives .fill 1 (fillPayload ⟨320, 0, 400, 9⟩ 0) ∧ min 400 (ready.columns - 1) < 320) ∧
    (ready.receives .fill 1 (fillPayload ⟨0, 10, 5, 9⟩ 0) ∧ min 9 (ready.panelLines - 1) < 10) ∧
    (full.receives .fill 1 (fillPayload ⟨319, 63, 400, 90⟩ 0) ∧ 319 ≤ min 400 (full.columns - 1) ∧
      63 ≤ min 90 (full.panelLines - 1)) := by
  refine ⟨⟨rfl, ⟨rfl, List.nil_prefix⟩, ?_⟩, ⟨⟨rfl, List.nil_prefix⟩, ?_⟩, ⟨rfl, ⟨rfl, List.nil_prefix⟩, ?_⟩,
    ⟨⟨rfl, List.nil_prefix⟩, ?_⟩, ⟨⟨rfl, List.nil_prefix⟩, ?_⟩, ⟨rfl, List.nil_prefix⟩, ?_⟩ <;> decide

/-- The hypotheses of an accepted UPDATE of a whole line, in a given state. -/
def updateFits (s : State) : Prop :=
  s.loader.image = .valid ∧ s.receives .update 1 (updatePayload 31 ⟨0, 63, 65535, 63⟩ .clean .urgent true) ∧
  fits16 65535 ∧ 0 ≤ min 65535 (s.columns - 1) ∧ 63 ≤ min 63 (s.panelLines - 1)

/-- In OFF; in ON with a frame running, and with the scan engine STOPPED, with ready work and with a write still to
drain; and in each other power state. -/
theorem witness_UpdateBecomesPending :
    (updateFits ready ∧ ready.adm.mode = .normal ∧ (ready.adm.fifo .urgent).length < UpdateClass.urgent.depth ∧
      ready.quiet = true ∧ ready.power.state = .off) ∧
    (let s := scanning (.blank 0) (readyOn.setLane 0 (laneIn .driving))
     let s := { s with power := { s.power with idleTimer := none } }
     updateFits s ∧ s.adm.mode = .normal ∧ (s.adm.fifo .urgent).length < UpdateClass.urgent.depth ∧
      s.quiet = true ∧ s.power.state = .on ∧ s.scan.pos ≠ .stopped) ∧
    (let entryOf (s : State) : Pending :=
       { id := s.freeId 49 s.adm.nextId, order := s.adm.nextOrder, area := ⟨0, 63, 319, 63⟩, mode := .clean
         cls := .urgent, noEscalate := true, fence := s.wb.entries.length, marked := false }
     let s := { readyOn with wb := { entries := [.draw 5 300 [7, 8]], done := 0 } }
     updateFits s ∧ s.quiet = true ∧ s.power.state = .on ∧ s.scan.pos = .stopped ∧
     ({ s with adm := { s.adm with urgent := [entryOf s] } }).readyWork = false ∧
     ({ readyOn with adm := { readyOn.adm with urgent := [entryOf readyOn] } }).readyWork = true) ∧
    (let s := powered (.rising 1) ready; updateFits s ∧ s.quiet = true) ∧
    (let s := powered (.falling 2) ready; updateFits s ∧ s.quiet = true) ∧
    (let s := powered .fault ready; updateFits s ∧ s.quiet = true) := by
  refine ⟨⟨⟨rfl, ⟨rfl, List.nil_prefix⟩, ?_⟩, ?_⟩, ⟨⟨rfl, ⟨rfl, List.nil_prefix⟩, ?_⟩, ?_⟩,
    ⟨⟨rfl, ⟨rfl, List.nil_prefix⟩, ?_⟩, ?_⟩, ⟨⟨rfl, ⟨rfl, List.nil_prefix⟩, ?_⟩, ?_⟩,
    ⟨⟨rfl, ⟨rfl, List.nil_prefix⟩, ?_⟩, ?_⟩, ⟨rfl, ⟨rfl, List.nil_prefix⟩, ?_⟩, ?_⟩ <;> decide +kernel

/-- DRAINING; and an URGENT FIFO of eight entries. -/
theorem witness_UpdateTurnedAway :
    (ready.loader.image = .valid ∧ ready.receives .update 1 (updatePayload 0 ⟨320, 0, 400, 9⟩ .tone .normal false) ∧
      min 400 (ready.columns - 1) < 320) ∧
    (let s := { ready with adm := { ready.adm with mode := .draining } }
     updateFits s ∧ s.adm.mode = .draining) ∧
    (let s := { ready with adm := { ready.adm with urgent := List.replicate 8 (entry 1 false) } }
     updateFits s ∧ s.adm.mode = .normal ∧ UpdateClass.urgent.depth ≤ (s.adm.fifo .urgent).length) := by
  refine ⟨⟨rfl, ⟨rfl, List.nil_prefix⟩, ?_⟩, ⟨⟨rfl, ⟨rfl, List.nil_prefix⟩, ?_⟩, ?_⟩,
    ⟨rfl, ⟨rfl, List.nil_prefix⟩, ?_⟩, ?_⟩ <;> decide

theorem witness_UpdateStartsFrame :
    updateFits readyOn ∧ readyOn.adm.mode = .normal ∧ readyOn.adm.urgent = [] ∧ readyOn.adm.normal = [] ∧
    readyOn.wb.entries = [] ∧ readyOn.power.state = .on ∧ readyOn.scan.pos = .stopped ∧
    (∀ i, readyOn.lane i = Lane.free) ∧ readyOn.cache.a.state = .ready ∧
    readyOn.cache.a.band = some readyOn.thermal.band := by
  refine ⟨⟨rfl, ⟨rfl, List.nil_prefix⟩, ?_⟩, ?_⟩ <;> decide +kernel

/-- The id counter at both ends, and an id that is held. -/
theorem witness_UpdateIdIsFresh :
    (ready.queuesFit = true ∧ 1 ≤ ready.adm.nextId ∧ ready.adm.nextId ≤ 65535) ∧
    (let s := { ready with adm := { ready.adm with nextId := 65535, normal := [{ entry 65535 false with fence := 0 }] } }
     s.queuesFit = true ∧ 1 ≤ s.adm.nextId ∧ s.adm.nextId ≤ 65535) := by decide +kernel

/-- `s` with 31 UPDATE_END notices. -/
def noRoom (s : State) : State :=
  { s with notices := { s.notices with queue := List.replicate 31 (.updateEnd 9 .complete 1 2 0 0 false) } }

/-- Entries pending in `s`. -/
def holding (ps : List Pending) (s : State) : State := { s with adm := { s.adm with normal := ps } }

/-- An unmarked entry beside another, with room and without; the last rise request in ON; a marked entry whose
submission waits; and the last entry of a draining. -/
theorem witness_CancelRemovesPending :
    (let s := holding [entry 4 false, entry 5 false] ready
     s.loader.image = .valid ∧ s.receives .cancel 1 (le16 (entry 5 false).id) ∧ fits16 (entry 5 false).id ∧
     entry 5 false ∈ s.adm.urgent ++ s.adm.normal ∧
     ((s.adm.urgent ++ s.adm.normal).map (fun q => q.id)).Nodup ∧ s.quiet = true ∧ (entry 5 false).marked = false ∧
     s.notices.updateEnds < 31 ∧ s.notices.waiting = [] ∧ s.adm.mode ≠ .draining ∧
     (noRoom s).quiet = true ∧ ¬ (noRoom s).notices.updateEnds < 31) ∧
    (let s := holding [entry 5 false] { readyOn with power := { readyOn.power with idleTimer := none } }
     s.receives .cancel 1 (le16 5) ∧ s.quiet = true ∧ s.power.state = .on ∧ s.adm.mode = .normal ∧
     (holding [] s).idle = true ∧ (holding [entry 5 true] s).idle = true ∧ s.power.idleHold ≠ 0) ∧
    (let s := { holding [entry 5 true] (noRoom ready) with
        notices := { (noRoom ready).notices with waiting := [.admission] } }
     s.receives .cancel 1 (le16 5) ∧ entry 5 true ∈ s.adm.urgent ++ s.adm.normal ∧ s.quiet = true ∧
     (entry 5 true).marked = true) ∧
    (let s := holding [entry 5 false] { ready with adm := { ready.adm with mode := .draining } }
     s.receives .cancel 1 (le16 5) ∧ s.quiet = true ∧ s.adm.mode = .draining ∧ s.power.state = .off ∧
     (∀ i, (s.lane i).state = .free) ∧ s.adm.urgent = [] ∧
     s.adm.normal.filter (fun q => q.id ≠ (entry 5 false).id) = []) := by
  refine ⟨⟨rfl, ⟨rfl, List.nil_prefix⟩, ?_⟩, ⟨⟨rfl, List.nil_prefix⟩, ?_⟩, ⟨⟨rfl, List.nil_prefix⟩, ?_⟩,
    ⟨rfl, List.nil_prefix⟩, ?_⟩ <;> decide +kernel

/-- `readyOn` with lane 3 WAITING for update 5 and the idle hold timer at rest. -/
def waitingOn : State :=
  let s := readyOn.setLane 3 { laneIn .waiting with blockers := [7] }
  { s with power := { s.power with idleTimer := none } }

/-- Update 5 in a lane in ARMING, in WAITING and in REPORTING: WAITING with room, alone or beside a pending entry
that is ready, with an idle hold of 0, and without room. -/
theorem witness_CancelReachesLane :
    (let s := ready.setLane 3 (laneIn .arming)
     s.loader.image = .valid ∧ s.receives .cancel 1 (le16 5) ∧ fits16 5 ∧
     (∀ q ∈ s.adm.urgent ++ s.adm.normal, q.id ≠ 5) ∧ (s.lane 3).state = .arming ∧ (s.lane 3).id = some 5 ∧
     (∀ j, (s.lane j).state ≠ .free → (s.lane j).id = some 5 → j = 3)) ∧
    (waitingOn.receives .cancel 1 (le16 5) ∧ (waitingOn.lane 3).state = .waiting ∧
     (waitingOn.lane 3).id = some 5 ∧
     (∀ j, (waitingOn.lane j).state ≠ .free → (waitingOn.lane j).id = some 5 → j = 3) ∧
     waitingOn.railsGuarded = true ∧ waitingOn.quiet = true ∧ waitingOn.notices.updateEnds < 31 ∧
     waitingOn.notices.waiting = [] ∧ (waitingOn.setLane 3 Lane.free).readyWork = false ∧
     (waitingOn.setLane 3 Lane.free).idle = true ∧ waitingOn.power.idleHold ≠ 0 ∧
     (let u := { waitingOn with power := { waitingOn.power with idleHold := 0 } }
      u.railsGuarded = true ∧ u.quiet = true) ∧
     (let u := { waitingOn with adm := { waitingOn.adm with urgent := [{ entry 4 false with cls := .urgent, fence := 0 }] } }
      u.railsGuarded = true ∧ u.quiet = true ∧ u.scan.pos = .stopped ∧
      (u.setLane 3 Lane.free).readyWork = true ∧ (u.setLane 3 Lane.free).idle = false) ∧
     (noRoom waitingOn).railsGuarded = true ∧ (noRoom waitingOn).quiet = true ∧
     ¬ (noRoom waitingOn).notices.updateEnds < 31) ∧
    (let s := ready.setLane 3 (laneIn .reporting)
     s.receives .cancel 1 (le16 5) ∧ (∀ j, (s.lane j).id = some 5 →
       (s.lane j).state = .free ∨ (s.lane j).state = .abandoning ∨ (s.lane j).state = .reporting)) := by
  refine ⟨⟨rfl, ⟨rfl, List.nil_prefix⟩, ?_⟩, ⟨⟨rfl, List.nil_prefix⟩, ?_⟩, ⟨rfl, List.nil_prefix⟩, ?_⟩ <;>
    decide +kernel

theorem witness_ProbeAsksOneAccess :
    (ready.loader.image = .valid ∧ ready.receives .probe 1 (le16 319 ++ le16 63) ∧ fits16 319 ∧ fits16 63 ∧
      319 < ready.columns ∧ 63 < ready.panelLines) ∧
    (ready.receives .probe 1 (le16 320 ++ le16 0) ∧ ready.columns ≤ 320) ∧
    (ready.receives .probe 1 (le16 0 ++ le16 64) ∧ ready.panelLines ≤ 64) := by
  refine ⟨⟨rfl, ⟨rfl, List.nil_prefix⟩, ?_⟩, ⟨⟨rfl, List.nil_prefix⟩, ?_⟩, ⟨rfl, List.nil_prefix⟩, ?_⟩ <;> decide

/-- A live access with its transaction open, and one whose transaction has ended. -/
theorem witness_ProbeReplyReady :
    (let s := granted (.probe 3 4 true) { ready with link := { ready.link with state := .answering, probeTag := some 9 } }
     s.arb.running = some (.probe 3 4 true) ∧ s.link.probeTag = some 9 ∧ s.arb.scan = none ∧ s.arb.drain = false ∧
     s.arb.probe = none) ∧
    (granted (.probe 3 4 false) ready).arb.running = some (.probe 3 4 false) := by decide

/-- Limits below, at and above their ranges. -/
theorem witness_SetLimitsStored :
    (ready.receives .setLimits 1 (le16 0 ++ le16 65535) ∧ fits16 0 ∧ fits16 65535 ∧ ready.loader.image = .valid) ∧
    (imaged .header ready).receives .setLimits 1 (le16 63 ++ le16 511) ∧
    (imaged (.invalid .magic) ready).receives .setLimits 1 (le16 64 ++ le16 512) ∧
    (imaged .header ready).loader.image = .header ∧
    (imaged (.invalid .magic) ready).loader.image = .invalid .magic ∧ (le16 0 ++ le16 65535).length = 4 ∧
    (scanning (.blank 1) readyOn).scan.pos = .blank 1 ∧ (scanning (.blank 1) readyOn).scan.lineTimer ≠ none ∧
    1 + 1 = (scanning (.blank 1) readyOn).hdr.blankLines ∧ (scanning (.blank 1) readyOn).power.state = .on := by
  refine ⟨⟨⟨rfl, List.nil_prefix⟩, ?_⟩, ⟨rfl, List.nil_prefix⟩, ⟨rfl, List.nil_prefix⟩, ?_⟩ <;> decide +kernel

/-- A depth on each side of each step. -/
theorem witness_SetThermalStored :
    (ready.loader.image = .valid ∧ ready.receives .setThermal 1 (le16 0 ++ [1]) ∧ fits16 0) ∧
    (ready.receives .setThermal 1 (le16 600 ++ [2]) ∧ fits16 600) ∧
    (ready.receives .setThermal 1 (le16 601 ++ [7]) ∧ fits16 601) ∧
    (ready.receives .setThermal 1 (le16 65535 ++ [255]) ∧ fits16 65535) := by
  refine ⟨⟨rfl, ⟨rfl, List.nil_prefix⟩, ?_⟩, ⟨⟨rfl, List.nil_prefix⟩, ?_⟩, ⟨⟨rfl, List.nil_prefix⟩, ?_⟩,
    ⟨rfl, List.nil_prefix⟩, ?_⟩ <;> decide

/-- A temperature that keeps the band, one that changes it, and auto in each of its cases. -/
theorem witness_TempMovesOverride :
    (ready.loader.image = .valid ∧ ready.receives .temp 1 (0 :: leInt16 50) ∧ ready.quiet = true ∧
      evalBand ready.hdr.bounds ready.hdr.hysteresis 50 ready.thermal.band = ready.thermal.band) ∧
    (ready.receives .temp 1 (0 :: leInt16 (-32768)) ∧
      evalBand ready.hdr.bounds ready.hdr.hysteresis (max (-160) (min 340 (-32768))) ready.thermal.band ≠
        ready.thermal.band) ∧
    (ready.receives .temp 1 [1, 0, 0] ∧ ready.thermal.override = none) ∧
    (let s := { ready with thermal := { ready.thermal with override := some 340 } }
     s.receives .temp 1 [1, 0xFF, 0xFF] ∧ s.quiet = true ∧ s.thermal.override ≠ none ∧ s.thermal.history = [] ∧
     (let u := { s with thermal := { s.thermal with band := 0 } }
      u.quiet = true ∧ u.hdr.fallback ≠ u.thermal.band) ∧
     (let u := { s with thermal := { s.thermal with history := [47, 50] } }
      u.quiet = true ∧ u.thermal.override ≠ none ∧ u.thermal.history ≠ [] ∧
      evalBand u.hdr.bounds u.hdr.hysteresis (([47, 50].drop (2 - min 4 2)).sum / ((min 4 2 : Nat) : Int))
        u.thermal.band = u.thermal.band ∧
      (let v := { u with thermal := { u.thermal with band := 0 } }
       v.quiet = true ∧ evalBand v.hdr.bounds v.hdr.hysteresis (([47, 50].drop (2 - min 4 2)).sum /
        ((min 4 2 : Nat) : Int)) v.thermal.band ≠ v.thermal.band))) := by
  refine ⟨⟨rfl, ⟨rfl, List.nil_prefix⟩, ?_⟩, ⟨⟨rfl, List.nil_prefix⟩, ?_⟩, ⟨⟨rfl, List.nil_prefix⟩, ?_⟩,
    ⟨rfl, List.nil_prefix⟩, ?_⟩ <;> decide +kernel

/-- `waitingOn` with a lane driving and an unmarked entry pending. -/
def busy : State :=
  { waitingOn.setLane 0 { laneIn .driving with id := some 6, span := 2, live := 3 } with
    adm := { waitingOn.adm with normal := [{ entry 4 false with fence := 0 }] } }

/-- DRAINING; nothing left; nothing in hand in ON; and lanes and an entry in hand, with room and without. -/
theorem witness_ShutdownDrains :
    (let s := { ready with adm := { ready.adm with mode := .draining } }
     s.loader.image = .valid ∧ s.receives .shutdown 1 [] ∧ s.adm.mode = .draining) ∧
    (ready.receives .shutdown 1 [] ∧ ready.adm.mode = .normal ∧ ready.power.state = .off ∧
      (∀ i, (ready.lane i).state = .free) ∧ ready.adm.urgent = [] ∧ ready.adm.normal = []) ∧
    (readyOn.receives .shutdown 1 [] ∧ readyOn.adm.mode = .normal ∧ readyOn.power.state = .on ∧
      readyOn.laneActivity = false ∧ readyOn.quiet = true ∧ readyOn.adm.urgent = [] ∧ readyOn.adm.normal = []) ∧
    (busy.receives .shutdown 1 [] ∧ busy.adm.mode = .normal ∧ busy.quiet = true ∧ busy.railsGuarded = true ∧
      busy.queuesFit = true ∧ (busy.lane 3).state = .waiting ∧ (busy.lane 0).state = .driving ∧
      busy.lanesInFlight = true ∧ busy.notices.waiting = [] ∧
      busy.notices.updateEnds + allLanes.countP (fun i => (busy.lane i).state = .waiting) +
        (busy.adm.urgent ++ busy.adm.normal).length ≤ 31 ∧
      (noRoom busy).quiet = true ∧ (noRoom busy).railsGuarded = true ∧ (noRoom busy).queuesFit = true ∧
      31 ≤ (noRoom busy).notices.updateEnds) := by
  refine ⟨⟨rfl, ⟨rfl, List.nil_prefix⟩, ?_⟩, ⟨⟨rfl, List.nil_prefix⟩, ?_⟩, ⟨⟨rfl, List.nil_prefix⟩, ?_⟩,
    ⟨rfl, List.nil_prefix⟩, ?_⟩ <;>
    decide +kernel

/-- A frame with a lane driving, in an output window. -/
def driving : State :=
  let s := scanning (.line 5 .window) (readyOn.setLane 0 { laneIn .driving with span := 2, live := 3 })
  { s with power := { s.power with idleTimer := none, monitored := [2] }, panel := { s.panel with soe := true, goe := true } }


theorem witness_ClearFaultLeavesFault :
    (ready.loader.image = .valid ∧ ready.receives .clearFault 1 [] ∧ ready.power.state ≠ .fault) ∧
    (let s := powered .fault ready; s.receives .clearFault 1 [] ∧ s.power.state = .fault ∧ s.quiet = true) := by
  refine ⟨⟨rfl, ⟨rfl, List.nil_prefix⟩, ?_⟩, ⟨rfl, List.nil_prefix⟩, ?_⟩ <;> decide +kernel

/-- An UPDATE_END notice. -/
def ended : Notice := .updateEnd 9 .complete 1 2 0 0 false

/-- Lane 3 in REPORTING without room, first on the waiting list, and marked entries behind it. -/
def reporting (ws : List Submitter) (ps : List Pending) (s : State) : State :=
  let s := holding ps (s.setLane 3 (laneIn .reporting))
  { s with notices := { queue := List.replicate 31 ended, waiting := ws } }

/-- An empty queue; nobody waiting; another kind removed beside 31 UPDATE_ENDs; a lane that waits, alone in a draining
that its notice ends, before others, and in ON with ready work; and the admission unit, with one marked entry and
with two. -/
theorem witness_FetchTakesOldest :
    (ready.receives .fetch 1 [] ∧ ready.notices.queue = []) ∧
    (let s := { ready with notices := { queue := [.drainDone 3, ended], waiting := [] } }
     s.receives .fetch 1 [] ∧ s.notices.queue = .drainDone 3 :: [ended] ∧ s.quiet = true ∧ s.notices.waiting = []) ∧
    (let s := reporting [.lane 3] [] ready
     let u := { s with notices := { s.notices with queue := .drainDone 3 :: s.notices.queue } }
     u.receives .fetch 1 [] ∧ u.quiet = true ∧ 31 ≤ (List.replicate 31 ended).countP Notice.isUpdateEnd) ∧
    (let s := reporting [.lane 3] [] { ready with adm := { ready.adm with mode := .draining } }
     s.receives .fetch 1 [] ∧ s.notices.queue = ended :: List.replicate 30 ended ∧ s.quiet = true ∧
     ended.isUpdateEnd = true ∧ s.notices.updateEnds = 31 ∧ s.notices.waiting = [.lane 3] ∧
     (s.lane 3).state = .reporting ∧ s.adm.mode = .draining ∧ s.power.state = .off ∧
     (∀ j, j ≠ 3 → (s.lane j).state = .free) ∧ s.adm.urgent = [] ∧ s.adm.normal = [] ∧
     s.railsGuarded = true ∧ s.queuesFit = true) ∧
    (let s := reporting [.lane 3, .admission] [entry 4 true] { readyOn with wb := { entries := [.draw 5 300 [7, 8]], done := 0 } }
     s.receives .fetch 1 [] ∧ s.quiet = true ∧ s.notices.waiting = .lane 3 :: [.admission] ∧ s.railsGuarded = true ∧
     s.queuesFit = true) ∧
    (let s := reporting [.lane 3] [{ entry 4 false with fence := 0 }] readyOn
     let s := { s with power := { s.power with idleTimer := none } }
     s.receives .fetch 1 [] ∧ s.quiet = true ∧ s.power.state = .on ∧ s.scan.pos = .stopped ∧
     (s.setLane 3 Lane.free).readyWork = true) ∧
    (let s := reporting [.admission, .lane 3] [entry 4 true, { entry 5 true with order := 8 }] ready
     s.receives .fetch 1 [] ∧ s.quiet = true ∧ s.notices.waiting = .admission :: [.lane 3] ∧
     entry 4 true ∈ s.adm.urgent ++ s.adm.normal ∧ (entry 4 true).marked = true ∧
     (∀ q ∈ s.adm.urgent ++ s.adm.normal, q.marked = true → q ≠ entry 4 true →
       earlier (entry 4 true).order q.order = true)) := by
  refine ⟨⟨⟨rfl, List.nil_prefix⟩, ?_⟩, ⟨⟨rfl, List.nil_prefix⟩, ?_⟩, ⟨⟨rfl, List.nil_prefix⟩, ?_⟩,
    ⟨⟨rfl, List.nil_prefix⟩, ?_⟩, ⟨⟨rfl, List.nil_prefix⟩, ?_⟩, ⟨⟨rfl, List.nil_prefix⟩, ?_⟩,
    ⟨rfl, List.nil_prefix⟩, ?_⟩ <;> decide +kernel

theorem witness_StatusIsSnapshot : (imaged (.invalid .checksum) ready).receives .status 1 [] :=
  ⟨rfl, List.nil_prefix⟩

/-- The first of two accesses; the last, in OFF and in ON where it makes a pending entry ready, with another entry behind
it. -/
theorem witness_DrainWritesDraft :
    (let s := { granted .drain ready with wb := { entries := [.draw 5 250 (List.replicate 20 3)], done := 0 } }
     s.arb.running = some .drain ∧ s.wb.entries = [.draw 5 250 (List.replicate 20 3)] ∧ s.mem.wf = true ∧
     (WriteEntry.draw 5 250 (List.replicate 20 3)).area.x1 < 2048 ∧
     s.wb.done + 1 < (WriteEntry.draw 5 250 (List.replicate 20 3)).cost) ∧
    (let s := { granted .drain ready with wb := { entries := [.fill ⟨2047, 0, 2047, 0⟩ 3], done := 0 } }
     (WriteEntry.fill ⟨2047, 0, 2047, 0⟩ 3).area.x1 < 2048 ∧ s.quiet = true ∧
     (WriteEntry.fill ⟨2047, 0, 2047, 0⟩ 3).cost ≤ s.wb.done + 1 ∧
     (let u := holding [entry 4 false] { readyOn with
        arb := s.arb, power := { readyOn.power with idleTimer := none }
        wb := { entries := [.fill ⟨2047, 0, 2047, 0⟩ 3, .draw 5 300 [7, 8]], done := 0 } }
      u.quiet = true ∧ u.power.state = .on ∧ u.scan.pos = .stopped ∧ [WriteEntry.draw 5 300 [7, 8]] ≠ [] ∧
      u.readyWork = false ∧ (holding [{ entry 4 false with fence := 0 }] u).readyWork = true)) := by decide +kernel

/-- The first initialisation write, and the last of 64 × 2 × 2. -/
theorem witness_InitialisationRuns :
    (let s := granted .init { imaged .initialising ready with
        loader := { (imaged .initialising ready).loader with initDone := 0 } }
     s.arb.running = some .init ∧ s.mem.wf = true ∧ s.columns ≤ 2048 ∧ s.loader.initDone + 1 < s.initAccesses) ∧
    (let s := granted .init { imaged .initialising ready with
        loader := { (imaged .initialising ready).loader with initDone := 255 } }
     s.arb.running = some .init ∧ s.mem.wf = true ∧ s.columns ≤ 2048 ∧
     s.initAccesses ≤ s.loader.initDone + 1 ∧ s.cache.a.state = .empty ∧
     s.cache.a.refs = 0 ∧ s.cache.b.state = .empty ∧ s.cache.reload = none ∧ s.cache.failed = []) := by decide

/-- Each phase, the first and the last extension clock before the limit, and the limit. -/
theorem witness_FlashPhases :
    (flashing .setup none ready).flash.state = .setup ∧ (flashing .strobe none ready).flash.state = .strobe ∧
    false ≠ (flashing .strobe none ready).flash.timing.waitActiveHigh ∧
    true = (flashing .strobe none ready).flash.timing.waitActiveHigh ∧
    (flashing .extend none ready).flash.state = .extend ∧ 1 ≤ 1 ∧
    63 < ((flashing .extend none ready).flash.timing.waitLimit + 1) * 16 ∧
    64 = ((flashing .extend none ready).flash.timing.waitLimit + 1) * 16 := by decide

/-- A header access in HOLD after `n` words. -/
def headerRead (n : Nat) (r : FlashResult) : State :=
  flashing .hold (some r) { State.reset with
    resetHeld := false, loader := { State.reset.loader with words := List.replicate n 0 } }

/-- The first 255 words of a header that passes every check: `tiny`'s, with every table at word 256. -/
def goodWords : List Word :=
  [0xE1C5, 1, 320, 64, 1, 0, 240, 2, 96, 1, 4, 0x0000, 0x0203, 0, 0] ++ List.replicate 16 0 ++ [0] ++
  List.replicate 64 88 ++ [0, 20, 40, 60, 80, 100, 140, 4, 3, 10, 4] ++ List.replicate 15 1 ++
  List.replicate 15 3 ++ [48, 320, 2, 3, 1, 3, 1] ++
  (List.replicate 32 [256, 0, 2]).flatten ++ List.replicate 15 0

/-- `goodWords` and the word that makes the sum of all 256 words 0. -/
def lastWord : Word := 0 - headerSum goodWords

theorem witness_HeaderIsRead :
    ((headerRead 0 (.word 0xE1C5)).loader.image = .header ∧ (headerRead 0 (.word 0xE1C5)).flash.state = .hold ∧
      (headerRead 0 (.word 0xE1C5)).quiet = true ∧
      (headerRead 0 (.word 0xE1C5)).flash.result = some (.word 0xE1C5) ∧
      (headerRead 254 (.word 7)).loader.words.length + 1 < 256) ∧
    (headerRead 0 .timeout).flash.result = some .timeout ∧
    ((headerRead 255 (.word 0)).loader.words.length = 255 ∧
      headerFault ((headerRead 255 (.word 0)).loader.words ++ [0]) = some .magic) ∧
    (goodWords.length = 255 ∧ headerFault (goodWords ++ [lastWord]) = none) := by decide +kernel

/-- Word `i` of a header, and word `i` in two's complement. -/
def wordOf (ws : List Word) (i : Nat) : Nat := (ws.getD i 0).toNat

def intOf (ws : List Word) (i : Nat) : Int := (ws.getD i 0).toInt

/-- A header that passes every check, its quantified clauses over their ranges; and one that fails each check,
those before it passed: the magic, the version, the sum, a range (63 columns), and a placement. -/
theorem witness_HeaderIsChecked :
    (let ws := goodWords ++ [lastWord]
     let w := wordOf ws
     let v := intOf ws
     ws.length = 256 ∧ w 0 = 0xE1C5 ∧ w 1 = 1 ∧ (ws.map (fun x => x.toNat)).sum % 65536 = 0 ∧
     (64 ≤ w 2 ∧ w 2 ≤ 2048 ∧ w 2 % 8 = 0 ∧ 64 ≤ w 3 ∧ w 3 ≤ 1600 ∧ w 4 = 1 ∧ w 5 ≤ 31 ∧ 16 ≤ w 6 ∧
       w 6 ≤ 4095 ∧ 1 ≤ w 7 ∧ w 7 ≤ 255 ∧ 1 ≤ w 8 ∧ w 8 ≤ 127 ∧ 1 ≤ w 9 ∧ w 9 ≤ 5 ∧ w 10 = 4 ∧ w 103 ≤ 40 ∧
       w 104 ≤ 7 ∧ 1 ≤ w 105 ∧ w 105 ≤ 600 ∧ w 106 = 4 ∧ 1 ≤ w 137 ∧ w 137 ≤ 63 ∧ 1 ≤ w 138 ∧ w 138 ≤ 511 ∧
       1 ≤ w 139 ∧ w 139 ≤ 16 ∧ 1 ≤ w 140 ∧ w 140 ≤ 64 ∧ 1 ≤ w 141 ∧ w 141 ≤ 16 ∧ w 142 ≤ 255) ∧
     (∀ k, k < 6 → 1 ≤ k → k ≤ w 9 →
       w (7 + 4 * k) % 8 ≤ 5 ∧ w (7 + 4 * k) / 16 % 4 ≤ 2 ∧ 1 ≤ w (8 + 4 * k) % 256 ∧ 1 ≤ w (8 + 4 * k) / 256) ∧
     (∀ k, k < 6 → ∀ j, j < k → 1 ≤ j → k ≤ w 9 → w (7 + 4 * j) % 8 ≠ w (7 + 4 * k) % 8) ∧
     (∀ i, i < 103 → 33 ≤ i ∧ i ≤ 94 ∨ 96 ≤ i ∧ i ≤ 102 → -160 ≤ v i ∧ v i ≤ 340) ∧
     (∀ i, i < 102 → 96 ≤ i → v i < v (i + 1)) ∧ (∀ i, i < 137 → 107 ≤ i → w i ≤ 63) ∧
     (∀ m, m < 32 → w (144 + 3 * m) + 65536 * w (145 + 3 * m) ≤ 8388607 ∧
       1 ≤ w (146 + 3 * m) ∧ w (146 + 3 * m) ≤ 240 ∧
       w (144 + 3 * m) + 65536 * w (145 + 3 * m) + w (146 + 3 * m) * 32 - 1 ≤ 8388607)) ∧
    wordOf (List.replicate 256 0) 0 ≠ 0xE1C5 ∧
    (let ws := goodWords.set 1 2 ++ [lastWord]
     ws.length = 256 ∧ wordOf ws 0 = 0xE1C5 ∧ wordOf ws 1 ≠ 1) ∧
    (let ws := goodWords ++ [lastWord + 1]
     wordOf ws 1 = 1 ∧ (ws.map (fun x => x.toNat)).sum % 65536 ≠ 0) ∧
    (let ws := goodWords.set 2 63 ++ [lastWord + 257]
     ws.length = 256 ∧ wordOf ws 0 = 0xE1C5 ∧ wordOf ws 1 = 1 ∧ (ws.map (fun x => x.toNat)).sum % 65536 = 0 ∧
     ¬ 64 ≤ wordOf ws 2) ∧
    (let ws := (goodWords.set 237 65535).set 238 127 ++ [lastWord + 256 - 65535 - 127]
     ws.length = 256 ∧ wordOf ws 0 = 0xE1C5 ∧ wordOf ws 1 = 1 ∧ (ws.map (fun x => x.toNat)).sum % 65536 = 0 ∧
     wordOf ws 237 + 65536 * wordOf ws 238 ≤ 8388607 ∧
     ¬ wordOf ws 237 + 65536 * wordOf ws 238 + wordOf ws 239 * 32 - 1 ≤ 8388607) := by
  refine ⟨⟨?_, ?_, ?_, ?_, ?_, ?_, ?_, ?_, ?_, ?_, ?_⟩, ?_, ?_, ?_, ?_, ?_⟩ <;> decide +kernel

/-- A cache with two slots and no reload. -/
def cached (a b : Slot) (failed : List Band) : Cache := { a := a, b := b, reload := none, failed := failed }

/-- A slot READY with a band and some references. -/
def readySlot (b : Band) (refs : Nat) : Slot := { Slot.empty with state := .ready, band := some b, refs := refs }

/-- The current band in A and in B; neither, with the classes and the failed set, and 0, 1 or 2 slots READY, one
nearer and both equally near; targets EMPTY, READY, farther, equally far, and none; the trigger. -/
theorem witness_CacheChoosesSlots :
    (let c := cached (readySlot 4 0) Slot.empty []
     c.a.state = .ready ∧ c.a.band = some 4 ∧ c.b.state = .empty ∧ c.b.refs = 0) ∧
    (let c := cached Slot.empty (readySlot 4 0) []
     ¬ (c.a.state = .ready ∧ c.a.band = some 4) ∧ c.b.state = .ready ∧ c.b.band = some 4 ∧ c.a.refs = 0) ∧
    (let c := cached Slot.empty Slot.empty [4]
     (∀ i, ¬ ((c.slot i).state = .ready ∧ (c.slot i).band = some 4)) ∧ (4 : Band) ∈ c.failed ∧
     (3 : Band) ∉ c.failed ∧ c.a.state ≠ .ready ∧ c.b.state ≠ .ready) ∧
    (let c := cached (readySlot 3 0) { Slot.empty with state := .loading, band := some 4 } []
     (∀ i, ¬ ((c.slot i).state = .ready ∧ (c.slot i).band = some 4)) ∧ c.a.band = some 3 ∧ c.b.state ≠ .ready ∧
     c.a.refs = 0 ∧ c.b.state ≠ .empty ∧ c.b.state = .loading) ∧
    (let c := cached { Slot.empty with state := .loading, band := some 4 } (readySlot 3 0) []
     (∀ i, ¬ ((c.slot i).state = .ready ∧ (c.slot i).band = some 4)) ∧ c.b.band = some 3 ∧ c.a.state ≠ .ready ∧
     c.b.refs = 0 ∧ c.a.state ≠ .empty ∧ c.a.state = .loading) ∧
    (let c := cached (readySlot 5 0) (readySlot 3 0) []
     (∀ i, ¬ ((c.slot i).state = .ready ∧ (c.slot i).band = some 4)) ∧ c.a.state = .ready ∧ c.b.state = .ready ∧
     (5 : Band) ≠ 3 ∧ distance 5 4 = distance 3 4 ∧ c.a.refs = 0 ∧ c.b.refs = 0) ∧
    (let c := cached (readySlot 5 1) { Slot.empty with state := .loading, band := some 4 } []
     ∀ i, (c.slot i).refs ≠ 0 ∨ (c.slot i).state = .loading) ∧
    (ready.loader.image = .valid ∧ ready.cache.reload = none ∧ ready.thermal.band ∉ ready.cache.failed ∧
      (∀ i, ¬ ((ready.cache.slot i).state ≠ .empty ∧ (ready.cache.slot i).band = some ready.thermal.band)) ∧
      ready.cache.target ready.thermal.band = some .a) := by
  refine ⟨?_, ?_, ⟨fun i => ?_, ?_⟩, ⟨fun i => ?_, ?_⟩, ⟨fun i => ?_, ?_⟩, ⟨fun i => ?_, ?_⟩, fun i => ?_,
    ?_, ?_, ?_, fun i => ?_, ?_⟩ <;> first | (cases i <;> decide) | decide

/-- A reload of band 3 in slot B at a word of a table. -/
def reloading (k : SeqKind) (w retry : Nat) (r : FlashResult) : State :=
  flashing .hold (some r) { ready with cache := { ready.cache with
    b := { Slot.empty with state := .loading, band := some 3 }
    reload := some { slot := .b, retry := retry, kind := k, word := w } } }

/-- A word before the last, the last word of CLEAN_DOWN, a first and a second TIMEOUT; the last word of an earlier
table, and each re-check with the slot's band current and no longer so. -/
theorem witness_ReloadAdvances :
    (let s := reloading .tone 62 0 (.word 5)
     s.loader.image = .valid ∧ s.flash.state = .hold ∧
     s.cache.reload = some { slot := .b, retry := 0, kind := .tone, word := 62 } ∧
     (s.cache.slot .b).band = some 3 ∧ s.quiet = true ∧ sparseWf 0 (s.cache.slot .b).words = true ∧
     s.flash.result = some (.word 5) ∧ 62 + 1 < (s.hdr.table 3 .tone).frames * 32) ∧
    (let s := reloading .cleanDown 63 1 (.word 5)
     s.quiet = true ∧ (3 : Band) = s.thermal.band ∧ (s.hdr.table 3 .cleanDown).frames * 32 ≤ 63 + 1 ∧
     (let u := holding [{ entry 4 false with fence := 0 }] (powered .on s)
      u.quiet = true ∧ u.power.state = .on ∧ u.scan.pos = .stopped ∧
      ({ u with cache := { readyOn.cache with reload := none } }).readyWork = true)) ∧
    (let s := reloading .swift 0 0 .timeout
     s.quiet = true ∧ s.flash.result = some .timeout ∧ (3 : Band) = s.thermal.band) ∧
    (let s := reloading .cleanUp 7 1 .timeout
     s.quiet = true ∧ s.flash.result = some .timeout ∧ (3 : Band) = s.thermal.band ∧ 3 ∉ s.cache.failed ∧
     (let u := powered .on { s with thermal := { s.thermal with band := 2 }, power := readyOn.power }
      u.quiet = true ∧ (3 : Band) ≠ u.thermal.band ∧ u.power.state = .on)) ∧
    (let s := reloading .cleanUp 63 0 (.word 5)
     s.quiet = true ∧ s.flash.result = some (.word 5) ∧ 63 + 1 = (s.hdr.table 3 .cleanUp).frames * 32 ∧
     (let u := { s with thermal := { s.thermal with band := 2 } }
      u.quiet = true ∧ (3 : Band) ≠ u.thermal.band)) ∧
    (let s := reloading .cleanDown 63 0 (.word 5)
     let u := { s with thermal := { s.thermal with band := 2 } }
     u.quiet = true ∧ (3 : Band) ≠ u.thermal.band ∧
     (u.hdr.table 3 .cleanDown).frames * 32 ≤ 63 + 1) ∧
    (let s := reloading .tone 7 0 .timeout
     let u := { s with thermal := { s.thermal with band := 2 } }
     u.quiet = true ∧ u.flash.result = some .timeout ∧ (3 : Band) ≠ u.thermal.band) := by decide +kernel

/-- A lane of the lane set that arms columns `x0` to `x1` of lines 0 to 9. -/
def armer (i : LaneId) (x0 x1 : Nat) : ArmingView :=
  { lane := i, order := 3, region := ⟨x0, 0, x1, 9⟩, mode := .tone, noEscalate := false, slot := .a }

/-- A committed line before the last and the last one, a line at work, and a blank line before the last; and a
region that begins and ends in one column. -/
theorem witness_LinePeriodsFollow :
    (let s := scanning (.line 62 .committed) driving
     s.scan.pos = .line 62 .committed ∧ s.scan.lineTimer ≠ none ∧ 62 + 1 < s.panelLines) ∧
    (let s := scanning (.line 63 .committed) driving
     s.scan.pos = .line 63 .committed ∧ s.scan.lineTimer ≠ none ∧ 63 + 1 = s.panelLines) ∧
    (driving.scan.pos = .line 5 .window ∧ LinePhase.window ≠ .committed ∧ driving.scan.lineTimer ≠ none) ∧
    (let s := scanning (.blank 0) driving
     s.scan.pos = .blank 0 ∧ s.scan.lineTimer ≠ none ∧ 0 + 1 < s.hdr.blankLines) ∧
    (∀ v ∈ [armer 1 255 255], v.region.x0 ≤ v.region.x1) := by decide

/-- A cell of lane 0 at level 3 on its way to 9. -/
def driven : Cell := { level := 3, goal := 9, owner := some 0, kind := .tone, residue := 4, balance := 511 }

/-- A scan engine that reads line 5 with a lane driving and two arming, and a cell of each sort. -/
def reading (todo : List LineAccess) : State :=
  let s := granted (.scanRead false) (scanning (.line 5 .reading) { driving with panel := State.reset.panel })
  { s with
    scan := { s.scan with
      todo := todo, limits := some ⟨48, 320⟩
      driving := [{ lane := 0, step := 1, slot := .a }]
      arming := [armer 1 10 19, armer 2 15 300]
      cells := List.replicate 256 Cell.initial }
    mem := s.mem.setCell 260 5 driven }

/-- A frame in an output window whose commit has nothing to write, and one with a segment to write; in a commit; in
the preparation of a line with its read granted and only waiting, a lane there that leaves at once and one that
does not; and no frame, with a WAITING lane and an entry, with room and without, in RISING and in DRAINING. -/
theorem witness_HaltStopsEverything :
    (driving.loader.image = .valid ∧ driving.receives .halt 1 [] ∧ driving.railsGuarded = true ∧
      driving.quiet = true ∧ driving.queuesFit = true ∧
      driving.lanesInFlight = true ∧ driving.scan.pos = .line 5 .window ∧ driving.sweepsAtOnce = true ∧
      (let s := { driving with scan := { driving.scan with
          cells := [Cell.initial], work := [{ cell := { Cell.initial with residue := 0 }, drive := .none, reports := [] }] } }
       s.railsGuarded = true ∧ s.quiet = true ∧ commitWrites s.columns 5 s.scan ≠ [] ∧ s.sweepsAtOnce = false) ∧
      (let s := scanning (.line 5 .commit) { driving with panel := State.reset.panel }
       s.railsGuarded = true ∧ s.quiet = true ∧ s.lanesInFlight = true ∧ s.scan.pos = .line 5 .commit)) ∧
    (let s := (reading [.readCells 1]).setLane 1 { laneIn .arming with id := some 7 }
     s.receives .halt 1 [] ∧ s.railsGuarded = true ∧ s.lanesInFlight = true ∧ s.scan.pos = .line 5 .reading ∧
     s.quiet = true ∧ s.queuesFit = true ∧ s.sweepsAtOnce = true ∧
     s.arb.running = some (.scanRead false) ∧
     ((s.lane 1).state = .arming ∧ (s.lane 1).live = 0 ∧ (s.lane 0).state = .driving ∧ (s.lane 0).live = 3) ∧
     (let u := { s with arb := { s.arb with running := some .drain, scan := some (.scanRead false) } }
      u.railsGuarded = true ∧ u.quiet = true ∧ ∀ d, u.arb.running ≠ some (.scanRead d))) ∧
    (let s := { holding [entry 4 false] waitingOn with wb := { entries := [.draw 5 300 [7, 8]], done := 0 } }
     s.receives .halt 1 [] ∧ s.railsGuarded = true ∧ s.quiet = true ∧ s.queuesFit = true ∧ s.lanesInFlight = false ∧
     (s.lane 3).state = .waiting ∧ (noRoom s).railsGuarded = true ∧ (noRoom s).quiet = true ∧
     (noRoom s).queuesFit = true ∧
     (let u := powered (.rising 2) { ready with adm := { ready.adm with mode := .draining } }
      u.railsGuarded = true ∧ u.quiet = true ∧ u.queuesFit = true ∧ u.adm.mode = .draining)) := by
  refine ⟨⟨rfl, ⟨rfl, List.nil_prefix⟩, ?_⟩, ⟨⟨rfl, List.nil_prefix⟩, ?_⟩, ⟨rfl, List.nil_prefix⟩, ?_⟩ <;> decide +kernel

/-- R143, R142, R176, R89: a HALT in ON begins the fall at the last stage; with a WAITING lane of order 2 and an entry
of order 7 it queues the lane's notice first; and a lane in ARMING with live count 0 leaves in the event of the
cut. -/
theorem test_halt :
    (after (RequestKind.halt.sent 9 []) readyOn).power.state = .falling 2 ∧
    (after (RequestKind.halt.sent 9 []) (holding [entry 4 false] waitingOn)).notices.queue =
      [.updateEnd 5 .abandoned 1 0 0 0 false, .updateEnd 4 .cancelled 0 0 0 0 false] ∧
    ((after (RequestKind.halt.sent 9 []) ((reading [.readCells 1]).setLane 1
      { laneIn .arming with id := some 7 })).lane 1).state = .free := by decide +kernel

/-- R13: a HALT in a granted read leaves the read running and asks for nothing until it completes. -/
theorem test_halt_in_read :
    (let t := after (RequestKind.halt.sent 9 []) (reading [.readCells 1])
     t.scan.pos = .sweep 0 ∧ t.arb.running = some (.scanRead true) ∧ t.arb.scan = none ∧
     (after .scanReadComplete t).arb.running = some .sweep) := by decide +kernel

/-- A read before the last of each kind; and after the last read: the drive of an unowned cell, and of a cell of
the driving lane at the last step of its kind (which a lane then arms) and before it (which is a leftover);
and cells that no lane, one lane and two lanes cover, the first of the two arming the cell. -/
theorem witness_LineIsPrepared :
    (let s := reading [.readCells 1, .readDrafts 0]
     s.arb.running = some (.scanRead false) ∧ s.scan.pos = .line 5 .reading ∧
     s.scan.todo = .readCells 1 :: [.readDrafts 0] ∧ [LineAccess.readDrafts 0] ≠ []) ∧
    (let s := reading [.readDrafts 0, .readDrafts 1]
     s.scan.todo = .readDrafts 0 :: [.readDrafts 1] ∧ [LineAccess.readDrafts 1] ≠ []) ∧
    (let s := reading [.readCells 1]
     s.arb.running = some (.scanRead false) ∧ s.scan.pos = .line 5 .reading ∧ s.scan.todo = [.readCells 1] ∧
     s.scan.limits = some ⟨48, 320⟩ ∧ Cell.initial.owner = none ∧
     (driven.owner = some 0 ∧
       s.scan.driving.find? (fun v => v.lane = 0) = some { lane := 0, step := 1, slot := .a } ∧
       1 + 1 = (s.cache.slot .a).frameCount .tone ∧ 0 + 1 ≠ (s.cache.slot .a).frameCount .tone) ∧
     ((s.capture 5 (.readCells 1)).cells[9]? = some Cell.initial ∧
       s.scan.arming.filter (fun v => v.region.holds 9 5) = []) ∧
     ((s.capture 5 (.readCells 1)).cells[260]? = some driven ∧ (s.driveStep driven).cell.owner = none ∧
       s.scan.arming.filter (fun v => v.region.holds 260 5) = [] ++ armer 2 15 300 :: [] ∧
       ((armCell (armer 2 15 300) ⟨48, 320⟩ (s.cache.slot .a) 260 5 15 (s.driveStep driven).cell).2).isSome = true) ∧
     ((s.capture 5 (.readCells 1)).cells[15]? = some Cell.initial ∧
       s.scan.arming.filter (fun v => v.region.holds 15 5) = [] ++ armer 1 10 19 :: [armer 2 15 300] ∧
       (∀ v ∈ s.scan.arming, armCell v ⟨48, 320⟩ (s.cache.slot v.slot) 15 5 15 (s.driveStep Cell.initial).cell =
         ((s.driveStep Cell.initial).cell, none)) ∧
       ((armCell (armer 1 10 19) ⟨48, 320⟩ (s.cache.slot .a) 15 5 7 (s.driveStep Cell.initial).cell).2).isSome = true) ∧
     (let u := { s with scan := { s.scan with driving := [{ lane := 0, step := 0, slot := .a }] } }
      (u.driveStep driven).cell.owner = some 0)) := by decide +kernel

/-- A line with a changed cell, and one with none, in its line period and late, at the last line too. -/
theorem witness_WindowOpensAndCloses :
    (scanning (.line 5 .shifting) driving).scan.pos = .line 5 .shifting ∧
    (let s := { driving with scan := { driving.scan with
        cells := [Cell.initial], work := [{ cell := { Cell.initial with residue := 0 }, drive := .none, reports := [] }] } }
     s.scan.pos = .line 5 .window ∧ commitWrites s.columns 5 s.scan ≠ []) ∧
    (driving.scan.pos = .line 5 .window ∧ commitWrites driving.columns 5 driving.scan = [] ∧
      driving.scan.cut = false ∧ driving.scan.lineTimer ≠ none) ∧
    (let s := { driving with scan := { driving.scan with lineTimer := none } }
     s.scan.pos = .line 5 .window ∧ commitWrites s.columns 5 s.scan = [] ∧ s.scan.cut = false ∧
     s.scan.lineTimer = none ∧ 5 + 1 < s.panelLines) ∧
    (let s := { driving with scan := { driving.scan with pos := .line 63 .window, lineTimer := none } }
     commitWrites s.columns 63 s.scan = [] ∧ 63 + 1 = s.panelLines) ∧
    (let s := reading [.readCells 1]
     s.scan.cells.length ≤ s.columns ∧ ∀ v ∈ s.scan.arming, v.region.x0 ≤ v.region.x1) := by decide +kernel

/-- A commit before its last write, and at it; late, at the last line too; and one that a cut has found, with a
lane whose live count is 0, before its last write and at it. -/
theorem witness_CommitWritesSegment :
    (let s := granted .commit (scanning (.line 63 .commit) driving)
     let s := { s with scan := { s.scan with todo := [.write 0, .write 1] } }
     s.arb.running = some .commit ∧ s.scan.pos = .line 63 .commit ∧ s.scan.todo = .write 0 :: [.write 1] ∧
     s.mem.wf = true ∧ s.columns ≤ 2048 ∧ s.quiet = true ∧ s.scan.cut = false ∧ s.scan.lineTimer ≠ none ∧
     (∀ i, (s.lane i).state ≠ .abandoning)) ∧
    (let s := granted .commit (scanning (.line 0 .commit) driving)
     let s := { s with scan := { s.scan with todo := [.write 1] } }
     s.scan.todo = .write 1 :: [] ∧ s.quiet = true) ∧
    (let s := granted .commit { driving with scan := { driving.scan with
        pos := .line 62 .commit, todo := [.write 1], lineTimer := none } }
     s.arb.running = some .commit ∧ s.scan.pos = .line 62 .commit ∧ s.mem.wf = true ∧ s.columns ≤ 2048 ∧
     s.quiet = true ∧ s.scan.cut = false ∧ s.scan.lineTimer = none ∧ 62 + 1 < s.panelLines ∧
     63 + 1 = s.panelLines) ∧
    (let s := powered .fault (granted .commit { driving.setLane 0 (laneIn .abandoning) with scan := { driving.scan with
        pos := .line 5 .commit, todo := [.write 0, .write 1], cut := true } })
     s.arb.running = some .commit ∧ s.scan.pos = .line 5 .commit ∧ s.scan.todo = .write 0 :: [.write 1] ∧
     s.mem.wf = true ∧ s.columns ≤ 2048 ∧ s.quiet = true ∧ s.scan.cut = true ∧
     (s.lane 0).state = .abandoning ∧ (s.lane 0).live = 0 ∧
     (let u := { s with scan := { s.scan with todo := [.write 1] } }
      u.scan.todo = .write 1 :: [] ∧ u.quiet = true)) := by decide +kernel

/-- A live count of 1 with one completion reported beside an arming. -/
theorem witness_ReportsAreCounted :
    [Report.armed 0 2 false, Report.completed 0].countP (fun r => match r with
      | .completed j => j = 0 | .armed _ _ _ | .leftover _ _ _ _ => false) ≤
    ((ready.setLane 0 { laneIn .driving with live := 1 }).lane 0).live := by decide +kernel

/-- At the last blank line: a lane that goes on, one that begins to drive, one whose pass ends, and one in
ABANDONING. -/
theorem witness_BoundaryMovesLanes :
    (let s := scanning (.blank 1) ((((readyOn.setLane 0 { laneIn .driving with step := 0, span := 2 }).setLane 1
        { laneIn .arming with span := 1 }).setLane 2 { laneIn .driving with step := 1, span := 2 }).setLane 3
        (laneIn .abandoning))
     s.scan.pos = .blank 1 ∧ s.scan.lineTimer ≠ none ∧ 1 + 1 = s.hdr.blankLines ∧ s.power.state = .on ∧
     ((s.lane 0).state = .driving ∧ (s.lane 0).step + 1 ≠ (s.lane 0).span) ∧
     ((s.lane 1).state = .arming ∧ (s.lane 1).span ≠ 0) ∧
     ((s.lane 2).state = .driving ∧ (s.lane 2).step + 1 = (s.lane 2).span) ∧
     (s.lane 3).state = .abandoning ∧
     (let u := { s with power := { s.power with idleTimer := none } }
      u.quiet = true ∧ u.scan.pos = .blank 1 ∧ u.scan.lineTimer ≠ none ∧ u.power.state = .on ∧
      (u.lane 2).passDue = true)) ∧
    (let s := scanning (.blank 1) { driving with panel := State.reset.panel }
     s.quiet = true ∧ s.power.state = .on ∧ ∀ i, (s.lane i).passDue = false) := by decide +kernel

/-- A boundary at which a pass ends in each way: COMPLETE, CANCELLED, PARTIAL after the fourth pass, WAITING; from
ARMING too; with lanes that go on, one that waits, and one whose notice waits. -/
def passEnding : State :=
  let l := { laneIn .driving with step := 1, span := 2 }
  let s := (((((waitingOn.setLane 0 { l with id := some 10 }).setLane 1
    { l with id := some 11, cancel := true }).setLane 2 { l with id := some 12, leftovers := 1, pass := some 4 }).setLane 4
    { laneIn .arming with id := some 14, leftovers := 1, blockers := [0, 9] }).setLane 5
    { l with id := some 15, span := 3, live := 4 }).setLane 6 { laneIn .arming with id := some 16, span := 1 }
  { s with scan := { s.scan with pos := .blank 1, lineTimer := some 240 } }

theorem witness_PassEndsFollowTable :
    (let s := passEnding
     s.quiet = true ∧ s.railsGuarded = true ∧ (s.lane 0).passDue = true ∧ (s.lane 0).leftovers = 0 ∧
     (s.lane 1).passDue = true ∧ (s.lane 1).cancel = true ∧ (s.lane 2).passDue = true ∧
     (s.lane 2).pass.getD 0 = 4 ∧ ((s.lane 4).passDue = true ∧ (s.lane 4).cancel = false ∧
       (s.lane 4).leftovers ≠ 0 ∧ s.adm.mode = .normal ∧ (s.lane 4).pass.getD 0 < 4) ∧
     (s.lane 5).passDue = false ∧ (s.lane 6).passDue = false ∧ (s.lane 3).passDue = false ∧
     s.notices.waiting = [] ∧
     s.notices.updateEnds + allLanes.countP (fun j => (s.lane j).passDue) ≤ 31) ∧
    ((noRoom passEnding).quiet = true ∧ (noRoom passEnding).railsGuarded = true ∧
      31 ≤ (noRoom passEnding).notices.updateEnds) := by decide +kernel

/-- An entry of a class that may arm. -/
def armable (id : Nat) (c : UpdateClass) : Pending := { entry id false with cls := c, fence := 0 }

/-- `readyOn` with lanes 0 to `n` − 1 WAITING and ready, and entries in both FIFOs. -/
def boundary (n : Nat) : State :=
  let s := (allLanes.take n).foldl (fun s i => s.setLane i
    { laneIn .waiting with id := some (20 + i.val), order := some (BitVec.ofNat 32 i.val) }) readyOn
  { s with adm := { s.adm with urgent := [{ armable 5 .urgent with marked := true }, armable 6 .urgent]
                               normal := [armable 7 .normal, armable 8 .normal] } }

/-- A WAITING lane and entries of both classes arm; with five WAITING lanes one is left over, as is the urgent
head; and with nothing but a WAITING lane fewer than four arm. -/
theorem witness_ArmingFollowsOrder :
    (let s := boundary 1
     let t := s.armBoundary
     s.queuesFit = true ∧ s.idsDistinct = true ∧ (∀ i, (s.lane i).state ≠ .arming) ∧
     ((t.lane 0).state = .arming ∧ (s.lane 0).state = .waiting) ∧
     ((t.lane 12).state = .arming ∧ (t.lane 1).state = .arming ∧ (t.lane 9).state ≠ .arming)) ∧
    (let s := boundary 5
     let t := s.armBoundary
     s.queuesFit = true ∧ s.idsDistinct = true ∧ (s.lane 4).state = .waiting ∧ (s.lane 4).blockers = [] ∧
     (s.grant ((s.lane 4).cls.getD .normal)).isSome = true ∧ (t.lane 4).state ≠ .arming ∧
     (∀ j, (s.lane j).state = .waiting → ((s.lane j).order.getD 0 - 0).toNat < 2147483648) ∧
     (t.armHead .urgent).isSome = true) ∧
    (let s := { boundary 1 with adm := readyOn.adm }
     s.idsDistinct = true ∧ allLanes.countP (fun i => (s.armBoundary.lane i).state = .arming) < 4) := by
  decide +kernel

/-- A sweep at a line with a cell of lane 4, the last line of the panel, with accesses still to come. -/
def sweeping (todo : List LineAccess) (live : Nat) : State :=
  let c : Cell := { level := 3, goal := 9, owner := some 4, kind := .tone, residue := 4, balance := -511 }
  let s := granted .sweep { ready with scan := { Scan.stopped with pos := .sweep 63, todo := todo } }
  { s.setLane 4 { laneIn .abandoning with live := live } with mem := s.mem.setCell 319 63 c }

/-- A discarded read's completion; a read with accesses left; a line's last read with a cell to release and with
none, before the last line and at it, with ready work and without; and a write of a segment that holds one of a
lane's two cells, or its only one, with accesses left and at the sweep's end, in ON with ready work and in a
draining that it ends. -/
theorem witness_SweepReleasesCells :
    (let s := granted (.scanRead true) { ready with scan := { Scan.stopped with pos := .sweep 0 } }
     s.arb.running = some (.scanRead true) ∧ s.scan.pos = .sweep 0) ∧
    (let s := sweeping [.readCells 0, .readCells 1] 2
     s.arb.running = some .sweep ∧ s.scan.pos = .sweep 63 ∧ s.scan.todo = .readCells 0 :: [.readCells 1] ∧
     [LineAccess.readCells 1] ≠ [] ∧ s.quiet = true) ∧
    (let s := sweeping [.readCells 1] 2
     s.scan.todo = [.readCells 1] ∧ s.quiet = true ∧
     (319 < s.columns ∧ (s.mem.cell 319 63).owner = some 4 ∧ (s.lane 4).state = .abandoning) ∧
     s.panelLines ≤ 63 + 1) ∧
    (let s := granted .sweep { readyOn with scan := { Scan.stopped with pos := .sweep 62, todo := [.readCells 1] } }
     s.quiet = true ∧ s.mem.cells = [] ∧ Cell.initial.owner = none ∧ 62 + 1 < s.panelLines ∧
     s.power.state = .on ∧ ({ s with scan := Scan.stopped }).readyWork = false ∧
     (let u := { boundary 1 with scan := s.scan, arb := s.arb, adm := readyOn.adm
                                 power := { readyOn.power with idleTimer := none } }
      u.quiet = true ∧ ({ u with scan := Scan.stopped }).readyWork = true)) ∧
    (let s := sweeping [.write 1] 2
     let n := (segmentColumns s.columns 1).countP (fun x => (s.mem.cell x 63).owner = some 4)
     s.arb.running = some .sweep ∧ s.scan.pos = .sweep 63 ∧ s.scan.todo = .write 1 :: [] ∧ s.mem.wf = true ∧
     s.columns ≤ 2048 ∧ s.quiet = true ∧ (s.lane 4).state = .abandoning ∧ n < (s.lane 4).live ∧
     (let u := sweeping [.write 1, .write 2] 1
      u.quiet = true ∧ 0 < (u.lane 4).live ∧ (u.lane 4).live ≤ n ∧ u.notices.waiting = [] ∧
      u.notices.updateEnds + 1 ≤ 31)) ∧
    (let s := { sweeping [.write 1] 1 with adm := { ready.adm with mode := .draining } }
     s.quiet = true ∧ s.power.state = .off ∧ s.adm.urgent = [] ∧ s.adm.normal = []) ∧
    (let s := { sweeping [.write 1] 1 with cache := readyOn.cache, power := { readyOn.power with idleTimer := none }
                                           adm := (boundary 0).adm
                                           notices := { ready.notices with waiting := [.admission] } }
     s.quiet = true ∧ s.power.state = .on ∧ ({ s with scan := Scan.stopped }).readyWork = true) := by
  decide +kernel

/-- A conversion ended in a state of the sensor, with a number of misses. -/
def converting (m : Nat) (w : SensorState) (o : Option Int) : State :=
  { ready with thermal := { ready.thermal with converting := true, misses := m, sensor := w, override := o } }

theorem witness_SamplingRuns :
    ready.thermal.timer ≠ none ∧
    ((converting 2 .warming none).thermal.converting = true ∧ (converting 2 .warming none).quiet = true ∧
      0 = ladderCode (Vector.replicate 6 0) ∧ 63 = ladderCode (Vector.replicate 6 63) ∧
      (converting 2 .warming none).thermal.sensor ≠ .faulty ∧ (converting 2 .warming none).thermal.misses < 3) ∧
    ((converting 3 .good (some 20)).quiet = true ∧ (converting 3 .good (some 20)).thermal.sensor ≠ .faulty ∧
      (converting 3 .good (some 20)).thermal.misses = 3 ∧ (converting 3 .good (some 20)).thermal.override ≠ none) ∧
    ((converting 3 .good none).quiet = true ∧ (converting 3 .good none).thermal.sensor ≠ .faulty ∧
      (converting 3 .good none).thermal.misses = 3 ∧ (converting 3 .good none).thermal.override = none) ∧
    ((converting 4 .faulty none).quiet = true ∧ (converting 4 .faulty none).thermal.sensor = .faulty ∧
      (converting 4 .faulty none).thermal.misses = 4) ∧
    ((converting 4 .faulty none).quiet = true ∧ (converting 4 .faulty none).thermal.sensor = .faulty ∧
      (converting 2 .good none).thermal.sensor ≠ .faulty) ∧
    (let s := { converting 3 .good none with thermal := { (converting 3 .good none).thermal with band := 0 } }
     s.quiet = true ∧ s.hdr.fallback ≠ s.thermal.band) ∧
    (1 ≤ ladderCode (Vector.replicate 6 1) ∧ ladderCode (Vector.replicate 6 62) ≤ 62) := by decide +kernel

theorem witness_LadderAndBandEvaluation : (0 : Int) ≤ tiny.hysteresis ∧ tiny.bounds.length ≤ 7 := by decide

/-- Line 1 at a level, with a filter time, and with a change timed. -/
def goodLined (raw filtered : Bool) (timing : Option Nat) (filter : Nat) (s : State) : State :=
  let s := s.setLine 1 { raw := raw, filtered := filtered, timing := timing }
  { s with power := { s.power with filter := filter } }

/-- Idle holds and filter times at the ends of their steps. -/
theorem witness_SetPowerStored :
    (ready.receives .setPower 1 (le16 60001 ++ le16 19) ∧ fits16 60001 ∧ fits16 19 ∧ ready.loader.image = .valid) ∧
    (imaged .initialising ready).receives .setPower 1 (le16 0 ++ le16 20) ∧
    (imaged (.invalid .range) ready).receives .setPower 1 (le16 60000 ++ le16 80) ∧
    (imaged .initialising ready).loader.image = .initialising ∧
    (imaged (.invalid .range) ready).loader.image = .invalid .range ∧ (le16 60001 ++ le16 19).length = 4 ∧
    (readyOn.power.state = .on ∧ readyOn.adm.mode = .normal ∧ readyOn.idle = true ∧
      readyOn.power.idleTimer ≠ none) ∧
    (let s := { readyOn with power := { readyOn.power with idleTimer := none } }
     s.power.state = .on ∧ s.adm.mode = .normal ∧ s.idle = true ∧ s.power.idleTimer = none ∧
     s.power.idleHold ≠ 0) ∧
    (let s := goodLined false false none 20 ready
     s.resetHeld = false ∧ (s.goodLine 1).raw ≠ true ∧ (s.goodLine 1).filtered ≠ true ∧ s.power.filter ≠ 0) := by
  refine ⟨⟨⟨rfl, List.nil_prefix⟩, ?_⟩, ⟨rfl, List.nil_prefix⟩, ⟨rfl, List.nil_prefix⟩, ?_⟩ <;> decide +kernel

theorem witness_GoodLinesAreFiltered :
    (let s := goodLined false true (some 40) 40 ready
     s.resetHeld = false ∧ (s.goodLine 1).raw ≠ true ∧ (s.goodLine 1).filtered = true) ∧
    (let s := goodLined false false none 20 ready
     (s.goodLine 1).raw ≠ true ∧ (s.goodLine 1).filtered ≠ true ∧ s.power.filter ≠ 0) ∧
    (let s := goodLined false false none 0 ready
     (s.goodLine 1).filtered ≠ true ∧ s.power.filter = 0 ∧ s.quiet = true ∧ s.power.state = .off) ∧
    (let s := goodLined true false (some 80) 80 (powered .fault ready)
     (s.goodLine 1).timing ≠ none ∧ s.quiet = true ∧ s.power.state = .fault) ∧
    (let s := goodLined true true none 0 readyOn
     s.resetHeld = false ∧ (s.goodLine 1).raw ≠ false ∧ (s.goodLine 1).filtered ≠ false ∧
     s.power.filter = 0) := by decide +kernel

theorem witness_StagesAdvance :
    (let s := powered (.rising 1) ready
     s.power.state = .rising 1 ∧ 1 < s.stageCount ∧ s.quiet = true ∧ (s.stage 1).condition = .delay) ∧
    (let s := powered (.rising 1) (withHeader tinyForced)
     1 < s.stageCount ∧ s.quiet = true ∧ (s.stage 1).condition = .goodOrTimeout ∧ s.power.blankTimer = none) ∧
    (let s := powered (.rising 1) (withHeader tinyForced)
     let s := { s with power := { s.power with blankTimer := some 29 } }
     s.quiet = true ∧ s.power.blankTimer = some 29 ∧ s.stageActive 1 = false ∧
     (let u := s.setLine 0 { raw := true, filtered := true, timing := none }
      u.stageActive 1 = true ∧ 1 ≤ 1 ∧ 1 ≤ 5 ∧ 29 < (u.stage 1).t * 10)) ∧
    (let s := (powered (.rising 1) (withHeader tinyForced)).setLine 0 { raw := true, filtered := false, timing := some 40 }
     s.power.state = .rising 1 ∧ 1 < s.stageCount ∧ s.quiet = true ∧ (s.goodLine 0).timing ≠ none ∧
     s.power.monitored = [] ∧ (s.stage 1).condition ≠ .delay ∧ (s.stage 1).goodLine = (0 : Fin 4).val ∧
     s.power.blankTimer = none ∧ (s.stage 1).activeHigh = (s.goodLine 0).raw) ∧
    (let s := goodLined true false (some 40) 40 (powered (.rising 1) (withHeader tinyForced))
     s.power.state = .rising 1 ∧ s.quiet = true ∧ (s.goodLine 1).timing ≠ none ∧
     (s.stage 1).goodLine ≠ (1 : Fin 4).val) ∧
    (powered (.falling 2) ready).power.state = .falling 2 ∧
    (let s := powered (.falling 1) ready
     s.power.state = .falling 1 ∧ s.adm.mode = .normal ∧ s.quiet = true ∧ s.riseRequest = false) ∧
    (let s := powered (.falling 1) { ready with adm := { ready.adm with mode := .draining } }
     s.power.state = .falling 1 ∧ s.quiet = true ∧ (∀ i, (s.lane i).state = .free) ∧ s.adm.urgent = [] ∧
     s.adm.normal = [] ∧
     (let u := s.setLane 4 (laneIn .abandoning)
      u.quiet = true ∧ u.riseRequest = false ∧ (u.lane 4).state ≠ .free)) ∧
    (let s := goodLined true false (some 40) 40 readyOn
     s.power.state = .on ∧ s.quiet = true ∧ (s.goodLine 1).timing ≠ none ∧ s.power.monitored = []) ∧
    (let s := goodLined false true (some 40) 40 (powered (.rising 2) ready)
     s.power.state = .rising s.stageCount ∧ s.quiet = true ∧ (s.goodLine 1).timing ≠ none ∧
     s.power.monitored = [] ∧ (s.stage 2).activeHigh ≠ (s.goodLine 1).raw) ∧
    (let s := powered (.falling 1) { ready with adm := { ready.adm with normal := [entry 4 false] } }
     s.power.state = .falling 1 ∧ s.quiet = true ∧ s.riseRequest = true) := by decide +kernel

/-- The last stage ends by its delay, with an idle hold and with none, by a forced timeout, and by its line; and
the idle hold runs out. -/
theorem witness_OnAndIdleHold :
    (let s := powered (.rising 1) (withHeader tinyDelay)
     s.power.state = .rising s.stageCount ∧ (s.stage s.stageCount).condition = .delay ∧ s.quiet = true ∧
     s.adm.mode = .normal ∧ s.laneActivity = false ∧ s.riseRequest = false ∧ s.power.idleHold ≠ 0 ∧
     s.power.idleTimer = none ∧
     (let u := { s with power := { s.power with idleHold := 0 } }
      u.power.state = .rising u.stageCount ∧ u.quiet = true ∧ u.power.idleHold = 0)) ∧
    (let s := powered (.rising 1) (withHeader { tinyForced with stages := tinyForced.stages.take 1 })
     s.power.state = .rising 1 ∧ 1 = s.stageCount ∧ s.quiet = true ∧ s.power.idleTimer = none ∧
     (s.stage 1).condition = .goodOrTimeout ∧ s.power.blankTimer = none) ∧
    (let s := goodLined true false (some 40) 40 (powered (.rising 2) ready)
     s.power.state = .rising 2 ∧ 2 = s.stageCount ∧ s.quiet = true ∧ s.power.idleTimer = none ∧
     (s.goodLine 1).timing ≠ none ∧ s.power.monitored = [] ∧ (s.stage 2).condition ≠ .delay ∧
     (s.stage 2).goodLine = (1 : Fin 4).val ∧ s.power.blankTimer = none ∧
     (s.stage 2).activeHigh = (s.goodLine 1).raw) ∧
    (let s := (powered (.rising 2) ready).setLine 1 { raw := true, filtered := true, timing := none }
     let s := { s with power := { s.power with blankTimer := some 0 } }
     s.power.state = .rising s.stageCount ∧ s.quiet = true ∧ s.power.idleTimer = none ∧
     s.power.blankTimer = some 0 ∧ s.stageActive 2 = true ∧ 0 < (s.stage 2).t * 10) ∧
    (let s := powered (.rising 1) { withHeader tinyDelay with adm := { ready.adm with mode := .draining } }
     s.power.state = .rising s.stageCount ∧ s.quiet = true ∧ s.adm.mode = .draining ∧ s.laneActivity = false ∧
     s.riseRequest = false ∧ s.power.idleTimer = none) ∧
    (let s := powered (.rising 1) { withHeader tinyDelay with
        cache := readyOn.cache, adm := { ready.adm with normal := [armable 7 .normal] } }
     let u := { s with power := { s.power with state := .on, stageTimer := none, blankTimer := none } }
     s.power.state = .rising s.stageCount ∧ s.quiet = true ∧ s.power.idleTimer = none ∧ s.scan.pos = .stopped ∧
     s.adm.mode = .normal ∧ u.readyWork = true ∧
     (let v := { s with cache := ready.cache }
      v.quiet = true ∧ v.riseRequest = true ∧ ({ u with cache := ready.cache }).readyWork = false)) ∧
    (readyOn.power.state = .on ∧ readyOn.power.idleTimer ≠ none) := by decide +kernel

/-- A GOOD stage's timeout; and the loss of a monitored line while a lane drives, and in RISING. -/
theorem witness_FaultStopsTheRails :
    (let s := powered (.rising 2) ready
     s.power.state = .rising 2 ∧ (s.stage 2).condition = .good ∧ s.power.blankTimer = none ∧
     s.railsGuarded = true ∧ s.quiet = true) ∧
    (let s := goodLined false true (some 40) 40 driving
     s.power.state = .on ∧ (s.goodLine 1).timing ≠ none ∧ s.railsGuarded = true ∧ s.quiet = true ∧
     s.power.monitored.find? (fun j => s.stageOnLine j 1 && (s.stage j).activeHigh ≠ (s.goodLine 1).raw) =
       some 2) ∧
    (let s := goodLined false true (some 40) 40 (powered (.rising 2) ready)
     let s := { s with power := { s.power with monitored := [2] } }
     s.power.state = .rising 2 ∧ (s.goodLine 1).timing ≠ none ∧ s.railsGuarded = true ∧ s.quiet = true ∧
     s.power.monitored.find? (fun j => s.stageOnLine j 1 && (s.stage j).activeHigh ≠ (s.goodLine 1).raw) =
       some 2 ∧
     s.settingsLegal = true ∧ 2 ∈ s.power.monitored) := by decide +kernel

/-- R40 to R44: a cell with an owner, an unchanged cell, and an escalating one at each limit. -/
theorem witness_ArmingFollowsTests :
    (let v : ArmingView := { lane := 1, order := 3, region := ⟨0, 0, 9, 9⟩, mode := .tone, noEscalate := false, slot := .a }
     let c : Cell := { level := 3, goal := 0, owner := none, kind := .swift, residue := 47, balance := -320 }
     v.mode ≠ .clean ∧ v.noEscalate = false ∧ c.owner = none ∧ (12 : Level) ≠ c.level ∧
     c.balance ≤ -((320 : Nat) : Int) ∧ ¬ 48 ≤ c.residue ∧ (3 : Level) = c.level ∧
     ({ c with owner := some 2 } : Cell).owner = some 2) := by decide

/-- The premises of the invariants hold in a state with work in hand, and a step is taken from it. -/
theorem witness_Invariants :
    (let s := { reading [.readCells 1] with pending := [.scanReadComplete] }
     s.cellsLegal = true ∧ s.queuesFit = true ∧ s.idsDistinct = true ∧ s.railsGuarded = true ∧ s.quiet = true ∧
     s.arb.settled = true ∧ s.settingsLegal = true ∧ step s = .next (after .scanReadComplete { s with pending := [] })) := by
  refine ⟨?_, ?_, ?_, ?_, ?_, ?_, ?_, rfl⟩ <;> decide +kernel

/-- An access of each requester waits for a free memory, alone and beside the others; and a drain that waited before
an access completed meets a scan engine that asks in that event. -/
theorem witness_ArbiterAndSettings :
    (let a : Arbiter := { running := none, scan := some .sweep, drain := true, probe := some (1, 2) }
     a.running = none ∧ a.scan = some .sweep ∧
     ({ a with running := some .drain }).running ≠ none ∧
     ({ a with scan := none }).drain = true ∧ ({ a with scan := none, drain := false }).probe = some (1, 2)) ∧
    (let s := { ready with arb := { running := none, scan := some .sweep, drain := true, probe := none } }
     let old : Arbiter := { running := some .sweep, scan := none, drain := true, probe := none }
     (s.arbitrateAfter old).arb.running = some .sweep ∨ (s.arbitrateAfter old).arb.running = some .drain) := by
  refine ⟨by decide, ?_⟩
  cases h : Config.nextAskInTime ready.choices <;>
    simp [State.arbitrateAfter, Arbiter.longWaiting, Arbiter.first, Arbiter.grant, Arbiter.give, State.arbitrate,
      State.setArb, State.setChoices, h]

/-- R108: a source output presents a drive. -/
theorem witness_NoDriveWithoutRails :
    (let s := { driving with panel := { driving.panel with latched := [.none, .positive] } }
     s.railsGuarded = true ∧ s.sourceOutput 1 ≠ .none) := by decide +kernel

end Sys2Proof.Tests
end

