-- ==== Sys2Proof/Proofs/Moves.lean ====
section
/-! SUPPORT. What a step can do to the queues and to the settings: every command's effect on the write
buffer, the admission unit, the notice unit, the limits, the thermal unit and the power sequencer is a chain
of the single changes listed in `Move`.  A law about these blocks is then shown for each change alone. -/

namespace Sys2Proof.Machine

/-- The blocks that hold the queues and the settings. -/
def State.books (s : State) : WriteBuffer × Admission × Notices × LimitCopies × Thermal × Power :=
  (s.wb, s.adm, s.notices, s.limits, s.thermal, s.power)

/-- The stages may be monitored (R139): the state is RISING or ON. -/
def PowerState.monitors : PowerState → Bool
  | .rising _ | .on => true
  | .off | .falling _ | .fault => false

/-- One change of the queues or of the settings. -/
inductive Move : State → State → Prop
  /-- The other blocks change. -/
  | aside {s t : State} (h : t.books = s.books) : Move s t
  /-- R7: an entry joins the write buffer. -/
  | joinWrite {s : State} (e : WriteEntry) (h : s.wb.entries.length < Config.writeEntries) :
      Move s (s.setWb { s.wb with entries := s.wb.entries ++ [e] })
  /-- R10: an access of the oldest entry is counted. -/
  | countAccess {s : State} (n : Nat) : Move s (s.setWb { s.wb with done := n })
  /-- R10, R11: the oldest entry leaves and the fences fall. -/
  | drainEntry {s : State} (h : s.wb.entries ≠ []) :
      Move s (s.setWb { entries := s.wb.entries.tail, done := 0 }).lowerFences
  /-- R53: an entry joins its FIFO, fenced by the whole write buffer. -/
  | accept {s : State} {p : Pending} (hf : p.fence = s.wb.entries.length)
      (h : (s.adm.fifo p.cls).length < p.cls.depth) : Move s (s.accept p)
  /-- R61, R70: an entry leaves its FIFO. -/
  | removeEntry {s : State} (p : Pending) : Move s (s.setAdm (s.adm.remove p))
  /-- R60, R62, R64: entries are cancel-marked. -/
  | mark {s : State} (f : Pending → Pending) (h : ∀ p, f p = p ∨ f p = { p with marked := true }) :
      Move s (s.setAdm (s.adm.mapPending f))
  /-- R62, R63: the admission mode changes. -/
  | admissionMode {s : State} (m : AdmissionMode) : Move s (s.setAdm { s.adm with mode := m })
  /-- R177: a notice of a kind that folds is submitted. -/
  | coalesce {s : State} (n : Notice) : Move s (s.coalesce n)
  /-- R175: an UPDATE_END notice joins the queue where there is room. -/
  | queueEnd {s : State} {n : Notice} (h : s.notices.room = true) (hn : n.kind = 1) : Move s (s.queueNotice n)
  /-- R175: the waiting list changes. -/
  | waiters {s : State} (ws : List Submitter) : Move s (s.setNotices { s.notices with waiting := ws })
  /-- R178: the notice at the head leaves. -/
  | fetch {s : State} {n : Notice} {rest : List Notice} (h : s.notices.queue = n :: rest) :
      Move s (s.setNotices { s.notices with queue := rest })
  /-- R36: the taken limits come into force. -/
  | limitsInForce {s : State} : Move s s.limitsInForce
  /-- R37: limits in range are taken. -/
  | takeLimits {s : State} (l : Limits) (h : l.legal = true) :
      Move s (s.setLimits { s.limits with taken := some l })
  /-- R158: the header's limits, in range, are published. -/
  | publishLimits {s : State} (l : Limits) (h : l.legal = true) :
      Move s (s.setLimits { taken := some l, inForce := some l })
  /-- R118 to R126: the thermal unit changes; its history is kept, emptied or takes a sample, its miss count
  is kept or at most 4, and its override is kept, cleared or clamped. -/
  | thermal {s : State} {t : Thermal}
      (hh : t.history = s.thermal.history ∨ t.history = [] ∨
        ∃ v, t.history = pushHistory Config.sampleDepth s.thermal.history v)
      (hm : t.misses = s.thermal.misses ∨ t.misses ≤ 4)
      (ho : t.override = s.thermal.override ∨ t.override = none ∨
        ∃ v, t.override = some (clampInt (-160) 340 v)) : Move s (s.setThermal t)
  /-- R146: SET-POWER stores its clamped settings. -/
  | powerSettings {s : State} (hold filter : Nat) :
      Move s (s.setPower { s.power with idleHold := min 60000 hold, filter := clampFilter filter })
  /-- R136, R139: a stage's condition is met with a measurement in RISING, and the stage is monitored. -/
  | meetCondition {s : State} (k m : Nat) (h : s.power.state.monitors = true) :
      Move s (s.setPower { s.power.setRiseHistory k (pushHistory Config.riseDepth (s.power.riseHistory k) m) with
        monitored := insertStage k s.power.monitored })
  /-- R129: the power state, its timers, the good lines and the last fault change; outside RISING and ON no
  stage is monitored. -/
  | power {s : State} {p : Power} (hi : p.idleHold = s.power.idleHold) (hf : p.filter = s.power.filter)
      (hh : p.history = s.power.history)
      (hm : p.monitored = [] ∨
        p.monitored = s.power.monitored ∧ (p.state = s.power.state ∨ p.state.monitors = true)) :
      Move s (s.setPower p)
  /-- R152: the reset of every block. -/
  | reset {s : State} : Move s s.assertReset

/-- A chain of changes of the queues and of the settings. -/
def Moves : State → State → Prop := Relation.ReflTransGen Move

namespace Moves

theorem refl {s : State} : Moves s s := Relation.ReflTransGen.refl

theorem trans {s t u : State} (h : Moves s t) (h' : Moves t u) : Moves s u := Relation.ReflTransGen.trans h h'

theorem one {s t : State} (h : Move s t) : Moves s t := Relation.ReflTransGen.single h

/-- A chain goes on with one change. -/
theorem next {s t u : State} (h : Moves s t) (m : Move t u) : Moves s u := Relation.ReflTransGen.tail h m

/-- The other blocks may change before a chain, -/
theorem afterAside {s t u : State} (h : Moves t u) (e : t.books = s.books) : Moves s u :=
  Relation.ReflTransGen.head (.aside e) h

/-- and after one. -/
theorem thenAside {s t u : State} (h : Moves s t) (e : u.books = t.books) : Moves s u := h.next (.aside e)

theorem aside {s t : State} (h : t.books = s.books) : Moves s t := one (.aside h)

/-- What each change keeps, a chain of changes keeps. -/
theorem keeps {P : State → Prop} (hP : ∀ s t, Move s t → P s → P t) {s t : State} (h : Moves s t) (hs : P s) :
    P t := by
  induction h with
  | refl => exact hs
  | tail _ hm ih => exact hP _ _ hm ih

end Moves

@[simp] theorem State.arbitrate_books (s : State) : s.arbitrate.books = s.books := rfl

@[simp] theorem State.beginFrame_books (s : State) : s.beginFrame.books = s.books := by
  obtain ⟨p, c, a, h⟩ := s.beginFrame_frame
  rw [h]
  rfl

@[simp] theorem State.arbitrateAfter_books (s : State) (old : Arbiter) :
    (s.arbitrateAfter old).books = s.books := by
  obtain ⟨a, n, h⟩ := s.arbitrateAfter_frame old
  rw [h]
  rfl

/-! ### Notices -/

theorem Pending.endNotice_kind (p : Pending) : p.endNotice.kind = 1 := rfl

theorem Lane.endNotice_kind (l : Lane) : l.endNotice.kind = 1 := rfl

theorem State.deliver_moves {s : State} (h : s.notices.room = true) (w : Submitter) : Moves s (s.deliver w) := by
  cases w with
  | lane i => exact (Moves.one (.queueEnd h (Lane.endNotice_kind _))).thenAside rfl
  | admission =>
    unfold State.deliver
    split
    · contradiction
    · split
      · exact .refl
      · exact (Moves.one (.queueEnd h (Pending.endNotice_kind _))).next (.removeEntry _)

theorem State.submit_moves (s : State) (w : Submitter) : Moves s (s.submit w) := by
  unfold State.submit
  split
  · rename_i h
    exact State.deliver_moves (Bool.and_eq_true_iff.1 h).1 w
  · exact .one (.waiters _)

theorem State.submitDue_moves (n : Nat) : ∀ s : State, Moves s (State.submitDue n s) := by
  induction n with
  | zero => exact fun s => .refl
  | succ n ih =>
    intro s
    unfold State.submitDue
    split
    · exact .refl
    · exact (s.submit_moves _).trans (ih _)

theorem State.flushEnds_moves (s : State) : Moves s s.flushEnds := State.submitDue_moves 64 s

theorem State.takeWaiting_moves (n : Nat) : ∀ s : State, Moves s (State.takeWaiting n s) := by
  induction n with
  | zero => exact fun s => .refl
  | succ n ih =>
    intro s
    unfold State.takeWaiting
    split
    · exact .refl
    · rename_i who rest _
      split
      · rename_i hr
        have hd : Moves s ((s.setNotices { s.notices with waiting := rest }).deliver who) :=
          (Moves.one (.waiters rest)).trans (State.deliver_moves (by exact hr) who)
        simp only
        split
        · exact (hd.next (.waiters _)).trans (ih _)
        · exact hd.trans (ih _)
      · exact .refl

/-! ### The power sequencer -/

theorem State.enterFalling_moves (s : State) (k : Nat) : Moves s (s.enterFalling k) :=
  .one (.power rfl rfl rfl (.inl rfl))

theorem State.enterOff_moves (s : State) : Moves s s.enterOff := .one (.power rfl rfl rfl (.inl rfl))

theorem State.beginStage_moves (s : State) (k : Nat) : Moves s (s.beginStage k) :=
  .one (.power rfl rfl rfl (.inr ⟨rfl, .inr rfl⟩))

theorem State.setIdleTimer_moves (s : State) (v : Option Nat) :
    Moves s (s.setPower { s.power with idleTimer := v }) := .one (.power rfl rfl rfl (.inr ⟨rfl, .inl rfl⟩))

theorem State.settlePower_moves (s : State) : Moves s s.settlePower := by
  unfold State.settlePower
  split
  case h_2 => exact .refl
  split
  · split
    · exact s.setIdleTimer_moves _
    · exact s.enterFalling_moves _
  · split
    · split
      · exact .refl
      · split
        · exact s.enterFalling_moves _
        · exact s.setIdleTimer_moves _
    · exact s.setIdleTimer_moves _

theorem State.testDrained_moves (s : State) : Moves s s.testDrained := by
  unfold State.testDrained
  split
  · exact (Moves.one (.coalesce _)).next (.admissionMode (s := s.coalesce (.drainDone 1)) .normal)
  · exact .refl

theorem State.settle_moves (s : State) : Moves s s.settle :=
  (s.flushEnds_moves.trans (State.settlePower_moves _)).trans (State.testDrained_moves _)

theorem State.testRise_moves (s : State) : Moves s s.testRise := by
  unfold State.testRise
  split
  · exact s.beginStage_moves 1
  · exact .refl

/-! ### Arming and frames -/

theorem State.armLanes_moves (is : List LaneId) (n : Nat) (s : State) : Moves s (State.armLanes is n s).2 := by
  obtain ⟨m, c, l, h⟩ := State.armLanes_frame is n s
  rw [h]
  exact .aside rfl

theorem State.armPending_moves (s : State) (p : Pending) (i : LaneId) (g : Grant) :
    Moves s (s.armPending p i g) := by
  have h : Moves s ((s.takeRef g.slot).setAdm (s.adm.remove p)) :=
    (Moves.one (.removeEntry (s := s.takeRef g.slot) p)).afterAside rfl
  exact h.thenAside rfl

theorem State.armHead_moves {s s' : State} {c : UpdateClass} (h : s.armHead c = some s') : Moves s s' := by
  unfold State.armHead at h
  split at h
  · cases h
  · rename_i p _
    split at h
    · split at h
      · cases h
        exact s.armPending_moves p _ _
      · cases h
    · cases h

theorem State.armFifo_moves (c : UpdateClass) (n : Nat) : ∀ s : State, Moves s (State.armFifo c n s).2 := by
  induction n with
  | zero => exact fun s => by rw [State.armFifo]; exact .refl
  | succ n ih =>
    intro s
    unfold State.armFifo
    split
    · rename_i s' h
      exact (State.armHead_moves h).trans (ih s')
    · exact .refl

theorem State.armBoundary_moves (s : State) : Moves s s.armBoundary :=
  ((State.armLanes_moves _ _ s).trans (State.armFifo_moves .urgent _ _)).trans (State.armFifo_moves .normal _ _)

theorem State.startFrame_moves (s : State) : Moves s s.startFrame :=
  ((Moves.one .limitsInForce).trans (State.armBoundary_moves _)).thenAside (State.beginFrame_books _)

theorem State.testReady_moves (s : State) : Moves s s.testReady := by
  unfold State.testReady
  split
  · exact s.startFrame_moves
  · exact .refl

theorem State.testReadyIfFreed_moves (s before : State) : Moves s (s.testReadyIfFreed before) := by
  unfold State.testReadyIfFreed
  split
  · exact s.testReady_moves
  · exact .refl

theorem State.evalTrigger_moves (s : State) : Moves s s.evalTrigger := by
  obtain ⟨c, f, h⟩ := s.evalTrigger_frame
  rw [h]
  exact .aside rfl

/-- The cache's trigger with the admission unit's action, in either order (log entry 1). -/
theorem State.triggerWith_moves {act : State → State} (h : ∀ s, Moves s (act s)) (s : State) :
    Moves s (s.triggerWith act) := by
  unfold State.triggerWith
  split
  · split
    · simp only
      have hc : Moves s (s.setChoices (s.choices + 1)) := .aside rfl
      split
      · exact (hc.trans (State.evalTrigger_moves _)).trans (h _)
      · exact (hc.trans (h _)).trans (State.evalTrigger_moves _)
    · exact s.evalTrigger_moves.trans (h _)
  · exact h s

theorem State.advanceLanes_moves (s : State) : Moves s s.advanceLanes := by
  obtain ⟨c, l, h⟩ := State.foldl_frame State.passEnd State.passEnd_frame
    (allLanes.filter (fun i => (s.lane i).passDue)) (s.mapLanes Lane.advance)
  unfold State.advanceLanes
  simp only
  rw [h]
  exact (State.flushEnds_moves _).afterAside rfl

theorem State.boundaryWork_moves (s : State) : Moves s s.boundaryWork := by
  have h : Moves s s.advanceLanes.limitsInForce := s.advanceLanes_moves.next .limitsInForce
  unfold State.boundaryWork
  simp only
  split
  · exact h.trans (State.triggerWith_moves State.armBoundary_moves _)
  · exact h.trans (State.armBoundary_moves _)

theorem State.continueFrames_moves (s : State) : Moves s s.continueFrames := by
  unfold State.continueFrames
  split
  · exact .aside s.beginFrame_books
  · exact .aside rfl

theorem State.abandonLanes_moves (s : State) : Moves s s.abandonLanes := by
  obtain ⟨p, c, a, k, l, f, h⟩ := s.abandonLanes_frame
  rw [h]
  exact .aside rfl

theorem State.enterOn_moves (s : State) : Moves s s.enterOn := by
  have h : Moves s (s.setPower { s.power with state := .on, stageTimer := none, blankTimer := none }) :=
    .one (.power rfl rfl rfl (.inr ⟨rfl, .inr rfl⟩))
  exact h.trans (State.testReady_moves _)

theorem State.endStage_moves (s : State) (k : Nat) : Moves s (s.endStage k) := by
  unfold State.endStage
  split
  · exact s.beginStage_moves _
  · exact s.enterOn_moves

theorem State.conditionMet_moves {s : State} (h : s.power.state.monitors = true) (k m : Nat) :
    Moves s (s.conditionMet k m) :=
  (Moves.one (.meetCondition k m h)).trans (State.endStage_moves _ k)

theorem State.enterFault_moves (s : State) (k : Nat) (c : FaultCause) : Moves s (s.enterFault k c) := by
  have hp : Moves s (s.setPower { s.power with
      state := .fault, stageTimer := none, blankTimer := none, monitored := [], idleTimer := none,
      lastFault := some (k, c) }) := .one (.power rfl rfl rfl (.inl rfl))
  exact (hp.next (.coalesce _)).trans (State.abandonLanes_moves _)

theorem State.filteredChange_moves (s : State) (line : Fin 4) (high : Bool) (clocks : Nat) :
    Moves s (s.filteredChange line high clocks) := by
  unfold State.filteredChange
  split
  · split
    · exact s.enterFault_moves _ _
    · exact .refl
  · rename_i hk
    split
    · exact s.enterFault_moves _ _
    · split
      · exact State.conditionMet_moves (by rw [hk]; rfl) _ _
      · exact .refl
  · exact .refl

theorem State.setLine_moves (s : State) (line : Fin 4) (g : GoodLine) : Moves s (s.setLine line g) :=
  .one (.power rfl rfl rfl (.inr ⟨rfl, .inl rfl⟩))

theorem State.lineFiltered_moves (s : State) (line : Fin 4) (clocks : Nat) :
    Moves s (s.lineFiltered line clocks) :=
  (s.setLine_moves _ _).trans (State.filteredChange_moves _ _ _ _)

/-! ### The thermal unit -/

/-- A change of the thermal unit outside its history, miss count and override. -/
theorem State.setThermal_moves {s : State} {t : Thermal} (hh : t.history = s.thermal.history)
    (hm : t.misses = s.thermal.misses) (ho : t.override = s.thermal.override) : Moves s (s.setThermal t) :=
  .one (.thermal (.inl hh) (.inl hm) (.inl ho))

theorem State.setBand_moves (s : State) (b : Band) (w : BandBasis) (v : Option Int) :
    Moves s (s.setBand b w v) := by
  unfold State.setBand
  split
  · exact .refl
  · exact (State.setThermal_moves (t := { s.thermal with band := b }) rfl rfl rfl).next (.coalesce _)

theorem State.handBand_moves (s before : State) : Moves s (s.handBand before) := by
  unfold State.handBand
  split
  · exact .refl
  · exact State.triggerWith_moves State.testReady_moves s

theorem State.thermalMiss_moves (s : State) (code : Nat) : Moves s (s.thermalMiss code) := by
  unfold State.thermalMiss
  simp only
  split
  · exact .one (.thermal (.inl rfl) (.inr (Nat.min_le_left _ _)) (.inl rfl))
  · split
    · rename_i h
      exact .one (.thermal (.inl rfl) (.inr (by simp only; omega)) (.inl rfl))
    · have h : Moves s (s.setThermal { s.thermal with misses := 4, sensor := .faulty, history := [] }) :=
        .one (.thermal (.inr (.inl rfl)) (.inr (Nat.le_refl 4)) (.inl rfl))
      split
      · exact (h.next (.coalesce _)).trans (State.setBand_moves _ _ _ _)
      · exact h.next (.coalesce _)

theorem State.thermalSample_moves (s : State) (code : Nat) : Moves s (s.thermalSample code) := by
  have h : Moves s (s.setThermal { s.thermal with
      history := pushHistory Config.sampleDepth s.thermal.history (s.hdr.thermistor.getD code 0)
      misses := 0, sensor := .good }) :=
    .one (.thermal (.inr (.inr ⟨_, rfl⟩)) (.inr (Nat.zero_le 4)) (.inl rfl))
  unfold State.thermalSample
  simp only
  split <;> split
  · exact (h.next (.coalesce _)).trans (State.setBand_moves _ _ _ _)
  · exact h.trans (State.setBand_moves _ _ _ _)
  · exact h.next (.coalesce _)
  · exact h

theorem State.thermalCode_moves (s : State) (code : Nat) : Moves s (s.thermalCode code) := by
  unfold State.thermalCode
  split
  · exact s.thermalMiss_moves code
  · exact s.thermalSample_moves code

theorem State.conversion_moves (s : State) (code : Nat) : Moves s (s.conversion code) := by
  have h : Moves s (s.setThermal { s.thermal with converting := false }) := State.setThermal_moves rfl rfl rfl
  exact (((h.trans (State.thermalCode_moves _ code)).trans (State.handBand_moves _ s)).trans
    (State.settle_moves _)).thenAside (State.arbitrate_books _)

theorem State.setOverride_moves (s : State) (v : Int) : Moves s (s.setOverride v) :=
  (Moves.one (.thermal (t := { s.thermal with override := some (clampInt (-160) 340 v) })
    (.inl rfl) (.inl rfl) (.inr (.inr ⟨v, rfl⟩)))).trans (State.setBand_moves _ _ _ _)

theorem State.clearOverride_moves (s : State) : Moves s s.clearOverride := by
  have h : Moves s (s.setThermal { s.thermal with override := none }) :=
    .one (.thermal (.inl rfl) (.inl rfl) (.inr (.inl rfl)))
  unfold State.clearOverride
  split
  · exact .refl
  · simp only
    split
    · exact h.trans (State.setBand_moves _ _ _ _)
    · exact h.trans (State.setBand_moves _ _ _ _)

theorem State.startSampling_moves (s : State) : Moves s s.startSampling := State.setThermal_moves rfl rfl rfl

/-! ### The image loader and the reload -/

/-- The limits of a header that passes the checks are in range (R156). -/
theorem parseHeader_limits_legal {ws : List Word} (h : headerFault ws = none) :
    (parseHeader ws).limits.legal = true := by
  have hr : headerInRange ws = true := by
    by_contra hn
    simp [headerFault, hn, ite_eq_iff] at h
  simp only [headerInRange, Bool.and_eq_true, inRange, decide_eq_true_eq] at hr
  simp only [Limits.legal, Bool.and_eq_true, decide_eq_true_eq]
  tauto

theorem State.publish_moves {s : State} {h : Header} (hl : h.limits.legal = true) : Moves s (s.publish h) := by
  have hs : Moves s (s.setLoader { image := .initialising, words := [], header := some h, initDone := 0 }) :=
    .aside rfl
  have ht : ∀ u : State, Moves u (u.setThermal
      { u.thermal with band := h.fallback, depth := some h.depth, period := some h.period }) :=
    fun u => State.setThermal_moves rfl rfl rfl
  exact ((hs.next (.publishLimits h.limits hl)).trans (ht _)).thenAside rfl

theorem State.headerDelivery_moves (s : State) (r : FlashResult) : Moves s (s.headerDelivery r) := by
  unfold State.headerDelivery
  split
  · exact .aside rfl
  · simp only
    split
    · exact .aside rfl
    · unfold State.checkHeader
      split
      · exact .aside rfl
      · rename_i h
        exact State.publish_moves (parseHeader_limits_legal h)

theorem State.recheck_moves (s : State) (r : Reload) (k : SeqKind) : Moves s (s.recheck r k) := by
  obtain ⟨c, f, h⟩ := s.recheck_frame r k
  rw [h]
  exact .aside rfl

theorem State.reloadNext_moves (s : State) (r : Reload) (b : Band) : Moves s (s.reloadNext r b) := by
  unfold State.reloadNext
  split
  · exact .aside rfl
  · split
    · exact s.recheck_moves r _
    · exact (State.triggerWith_moves State.testReady_moves (s.slotReady r b)).afterAside rfl

theorem State.reloadTimeout_moves (s : State) (r : Reload) (b : Band) : Moves s (s.reloadTimeout r b) := by
  unfold State.reloadTimeout
  split
  · exact s.recheck_moves _ _
  · have h : Moves s (s.setCache { s.cache.endReload r.slot with failed := insertBand b s.cache.failed }) :=
      .aside rfl
    exact (h.next (.coalesce _)).trans (State.evalTrigger_moves _)

theorem State.reloadDelivery_moves (s : State) (r : Reload) (res : FlashResult) :
    Moves s (s.reloadDelivery r res) := by
  unfold State.reloadDelivery
  cases res with
  | word w => exact (State.reloadNext_moves (s.storeWord r w) r _).afterAside rfl
  | timeout =>
    simp only
    split
    · exact s.reloadTimeout_moves r _
    · exact (s.reloadTimeout_moves r _).trans (State.testReady_moves _)

theorem State.flashDelivery_moves (s : State) (r : FlashResult) : Moves s (s.flashDelivery r) := by
  have h : Moves s s.flashIdle := .aside rfl
  unfold State.flashDelivery
  simp only
  split
  · exact h.trans (State.headerDelivery_moves _ r)
  · split
    · exact h.trans (State.reloadDelivery_moves _ _ r)
    · exact h

end Sys2Proof.Machine
end

