-- ==== Sys2Proof/Proofs/CommandMoves.lean ====
section
/-! SUPPORT. Every command's effect on the queues and the settings is a chain of the changes of `Move`. -/

namespace Sys2Proof.Machine

/-! ### The owners' answers -/

theorem State.askDrain_books (s : State) : s.askDrain.books = s.books := rfl

theorem State.askScan_books (s : State) (x : Access) : (s.askScan x).books = s.books := rfl

theorem State.setScan_books (s : State) (c : Scan) : (s.setScan c).books = s.books := rfl

theorem State.updateLane_books (s : State) (i : LaneId) (f : Lane → Lane) :
    (s.updateLane i f).books = s.books := rfl

theorem State.mapLanes_books (s : State) (f : Lane → Lane) : (s.mapLanes f).books = s.books := rfl

theorem State.acceptWrite_moves (s : State) (e : WriteEntry) : Moves s (s.acceptWrite e).1 := by
  unfold State.acceptWrite
  split
  · exact .refl
  · rename_i h
    have hj : Moves s (s.setWb { s.wb with entries := s.wb.entries ++ [e] }) :=
      .one (.joinWrite e (Nat.lt_of_not_le h))
    unfold State.doneWith State.joinWrites
    simp only
    split
    · exact hj.thenAside (State.askDrain_books _)
    · exact hj

theorem handleDraw_moves (p : List Byte) (s : State) : Moves s (handleDraw p s).1 := by
  unfold handleDraw
  simp only
  split
  · exact .refl
  · exact s.acceptWrite_moves _

theorem handleFill_moves (p : List Byte) (s : State) : Moves s (handleFill p s).1 := by
  unfold handleFill
  split
  · exact .refl
  · exact s.acceptWrite_moves _

theorem handleUpdate_moves (p : List Byte) (s : State) : Moves s (handleUpdate p s).1 := by
  unfold handleUpdate
  split
  · exact .refl
  · rename_i r _
    simp only
    split
    · exact .refl
    · split
      · exact .refl
      · rename_i h
        have ha : Moves s (s.accept (s.newEntry r ((updateMode p).getD .clean) (updateClass p)
            (updateNoEscalate p))) := .one (.accept rfl (Nat.lt_of_not_le h))
        dsimp only
        exact ((ha.trans (State.testRise_moves _)).trans (State.testReady_moves _)).trans (State.settle_moves _)

theorem cancelLane_moves (s : State) (i : LaneId) : Moves s (cancelLane s i).1 := by
  unfold cancelLane State.doneWith State.turnAway
  split
  · exact .aside (s.updateLane_books i _)
  · exact .aside (s.updateLane_books i _)
  · have h : Moves s (s.updateLane i (fun l => l.endWaiting .cancelled)) := .aside (s.updateLane_books i _)
    dsimp only
    exact ((h.trans (State.flushEnds_moves _)).trans (State.testReadyIfFreed_moves _ s)).trans
      (State.settle_moves _)
  all_goals exact .refl

theorem handleCancel_moves (p : List Byte) (s : State) : Moves s (handleCancel p s).1 := by
  unfold handleCancel
  simp only
  split
  · refine (Moves.one (.mark _ fun e => ?_)).trans (State.settle_moves _)
    split
    · exact .inr rfl
    · exact .inl rfl
  · split
    · exact cancelLane_moves s _
    · exact .refl

theorem State.markAll_moves (s : State) : Moves s s.markAll := .one (.mark _ fun _ => .inr rfl)

theorem handleShutdown_moves (s : State) : Moves s (handleShutdown s).1 := by
  unfold handleShutdown
  split
  · exact .refl
  · have h : Moves s (s.setAdm { s.adm with mode := .draining }).markAll :=
      (Moves.one (.admissionMode .draining)).trans (State.markAll_moves _)
    dsimp only
    exact (h.thenAside (State.mapLanes_books _ _)).trans (State.settle_moves _)

theorem handleProbe_moves (p : List Byte) (s : State) : Moves s (handleProbe p s).1 := by
  unfold handleProbe State.turnAway
  simp only
  split
  · exact .refl
  · exact .aside rfl

theorem handleTemp_moves (p : List Byte) (s : State) : Moves s (handleTemp p s).1 := by
  have h : ∀ {u : State}, Moves s u → Moves s (u.handBand s).settle :=
    fun hu => (hu.trans (State.handBand_moves _ s)).trans (State.settle_moves _)
  unfold handleTemp State.doneWith
  simp only
  split
  · exact h (s.setOverride_moves _)
  · exact h s.clearOverride_moves

/-- A value clamped to 1 and an upper end lies between them. -/
theorem clampNat_bounds {hi : Nat} (h : 1 ≤ hi) (v : Nat) : 1 ≤ clampNat 1 hi v ∧ clampNat 1 hi v ≤ hi := by
  unfold clampNat
  omega

theorem handleSetLimits_moves (p : List Byte) (s : State) : Moves s (handleSetLimits p s).1 := by
  refine .one (.takeLimits _ ?_)
  obtain ⟨hr, hr'⟩ := clampNat_bounds (hi := 63) (by decide) (u16At p 0)
  obtain ⟨hb, hb'⟩ := clampNat_bounds (hi := 511) (by decide) (u16At p 2)
  simp [Limits.legal, hr, hr', hb, hb']

theorem State.haltPower_moves (s : State) : Moves s s.haltPower := by
  unfold State.haltPower
  split
  · exact s.enterFalling_moves _
  · exact s.enterFalling_moves _
  all_goals exact .refl

theorem handleHalt_moves (s : State) : Moves s (handleHalt s).1 := by
  dsimp only [handleHalt, State.doneWith]
  exact ((s.haltPower_moves.trans (State.markAll_moves _)).trans (State.abandonLanes_moves _)).trans
    (State.settle_moves _)

theorem State.clearFailed_moves (s : State) : Moves s s.clearFailed := by
  obtain ⟨c, f, h⟩ := s.clearFailed_frame
  rw [h]
  exact .aside rfl

theorem handleClearFault_moves (s : State) : Moves s (handleClearFault s).1 := by
  unfold handleClearFault
  split
  · dsimp only [State.doneWith]
    exact ((s.enterOff_moves.trans (State.clearFailed_moves _)).trans (State.testRise_moves _)).trans
      (State.settle_moves _)
  · exact .refl

theorem handleFetch_moves (s : State) : Moves s (handleFetch s).1 := by
  unfold handleFetch
  split
  · exact .refl
  · rename_i n rest h
    have hw : Moves s (State.takeWaiting 64 (s.setNotices { s.notices with queue := rest })) :=
      (Moves.one (.fetch h)).trans (State.takeWaiting_moves 64 _)
    dsimp only [State.doneWith]
    exact (hw.trans (State.testReadyIfFreed_moves _ s)).trans (State.settle_moves _)

theorem ownerAnswer_moves (k : RequestKind) (p : List Byte) (s : State) : Moves s (ownerAnswer k p s).1 := by
  cases k with
  | draw => exact handleDraw_moves p s
  | fill => exact handleFill_moves p s
  | update => exact handleUpdate_moves p s
  | cancel => exact handleCancel_moves p s
  | probe => exact handleProbe_moves p s
  | temp => exact handleTemp_moves p s
  | setLimits => exact handleSetLimits_moves p s
  | setThermal => exact State.setThermal_moves rfl rfl rfl
  | setPower => exact .one (.powerSettings _ _)
  | shutdown => exact handleShutdown_moves s
  | halt => exact handleHalt_moves s
  | clearFault => exact handleClearFault_moves s
  | fetch => exact handleFetch_moves s
  | status => exact .refl

/-! ### The link -/

theorem State.answer_books (s : State) (kind tag : Byte) (r : Option Reply) :
    (s.answer kind tag r).books = s.books := rfl

theorem State.answerCause_moves (s : State) (kind tag : Byte) (c : Cause) :
    Moves s (s.answerCause kind tag c).arbitrate := .aside rfl

theorem State.dispatch_moves (s : State) (k : RequestKind) (tag : Byte) (p : List Byte) :
    Moves s (s.dispatch k tag p) := by
  unfold State.dispatch
  split
  · exact .aside rfl
  · exact (ownerAnswer_moves k p s).thenAside (State.answer_books _ _ _ _)

theorem State.takeWhole_moves (s : State) (kind tag : Byte) (p : List Byte) (check : Word) :
    Moves s (s.takeWhole kind tag p check).arbitrate := by
  unfold State.takeWhole
  split
  · exact s.answerCause_moves _ _ _
  · exact (s.dispatch_moves _ tag p).thenAside (State.arbitrate_books _)

theorem State.takeRequest_moves (s : State) (k : RequestKind) (tag : Byte) (p : List Byte) (check : Word) :
    Moves s (s.takeRequest k tag p check) := by
  unfold State.takeRequest
  split
  · split
    · exact s.answerCause_moves _ _ _
    · exact s.takeWhole_moves _ tag p check
  · exact .refl

/-- What answers a malformed request is a reply and nothing else. -/
theorem State.malformedAnswer_cases {s t : State} {frame : List Byte} (h : s.malformedAnswer frame = some t) :
    ∃ kind tag c, t = s.answerCause kind tag c := by
  unfold State.malformedAnswer at h
  split at h
  · cases h; exact ⟨_, _, _, rfl⟩
  · cases h; exact ⟨_, _, _, rfl⟩
  · split at h
    · cases h; exact ⟨_, _, _, rfl⟩
    · cases h; exact ⟨_, _, _, rfl⟩
    · cases h
  · cases h
  · cases h

theorem State.malformed_moves (s : State) (frame : List Byte) :
    Moves s (((s.malformedAnswer frame).map State.arbitrate).getD s) := by
  cases h : s.malformedAnswer frame with
  | none => exact .refl
  | some t =>
    obtain ⟨kind, tag, c, rfl⟩ := State.malformedAnswer_cases h
    exact s.answerCause_moves kind tag c

theorem State.takeByte_moves (s : State) (b : Byte) : Moves s (s.takeByte b) := by
  unfold State.takeByte
  split
  · unfold State.receiveByte
    simp only
    split
    · exact s.answerCause_moves _ _ _
    · exact s.answerCause_moves _ _ _
    · exact s.takeWhole_moves _ _ _ _
    · exact .aside rfl
    · exact .aside rfl
  · split
    · exact .aside rfl
    · exact .refl
  · exact .aside rfl
  all_goals exact .refl

theorem State.select_moves (s : State) : Moves s s.select := by
  unfold State.select
  split
  · exact .aside rfl
  · exact .refl

theorem State.deselect_moves (s : State) : Moves s s.deselect := by
  unfold State.deselect
  split
  · exact .refl
  · exact .aside rfl

/-! ### The flash interface -/

theorem State.flashAccess_moves (s : State) : ∃ t, execFlashAccessComplete s = .next t ∧ Moves s t := by
  unfold execFlashAccessComplete
  split
  · exact ⟨_, rfl, ((s.flashDelivery_moves _).trans (State.settle_moves _)).thenAside (State.arbitrate_books _)⟩
  · exact ⟨_, rfl, .refl⟩

/-! ### The scan engine -/

theorem State.nextPeriod_books (s : State) (y : Nat) : (s.nextPeriod y).books = s.books := by
  obtain ⟨p, c, a, h⟩ := s.nextPeriod_frame y
  rw [h]
  rfl

theorem State.periodOver_books (s : State) : s.periodOver.books = s.books := by
  unfold State.periodOver
  split
  · exact s.nextPeriod_books _
  · rfl
  · split <;> rfl
  · rfl
  · rfl

theorem State.lineRead_books (s : State) (y : Nat) (a : LineAccess) (rest : List LineAccess) :
    (s.lineRead y a rest).books = s.books := by
  unfold State.lineRead
  simp only
  split <;> rfl

theorem State.discardedRead_books (s : State) : s.discardedRead.books = s.books := by
  obtain ⟨a, h⟩ := s.discardedRead_frame
  rw [h]
  rfl

theorem State.beginCommit_books (s : State) (y : Nat) : (s.beginCommit y).books = s.books := by
  obtain ⟨p, c, a, k, l, f, h⟩ := s.beginCommit_frame y
  rw [h]
  rfl

theorem State.lineCommitted_books (s : State) (y : Nat) : (s.lineCommitted y).books = s.books := by
  obtain ⟨p, c, a, k, l, f, h⟩ := s.lineCommitted_frame y
  rw [h]
  rfl

theorem State.leaveAll_books (s : State) (is : List LaneId) : (s.leaveAll is).books = s.books := by
  obtain ⟨c, l, f, h⟩ := s.leaveAll_frame is
  rw [h]
  rfl

theorem State.takeReports_books (s : State) (rs : List Report) : (s.takeReports rs).books = s.books := by
  obtain ⟨l, h⟩ := State.takeReports_frame rs s
  rw [h]
  rfl

theorem State.commitWrite_books (s : State) (y g : Nat) (rest : List LineAccess) :
    (s.commitWrite y g rest).books = s.books := by
  have hw : (s.writeBack y g).books = s.books := State.takeReports_books _ _
  unfold State.commitWrite
  simp only
  split
  · rw [State.lineCommitted_books, State.setScan_books, hw]
  · rw [State.askScan_books, State.leaveAll_books, State.setScan_books, hw]

theorem State.endSweep_moves (s : State) (left : List LaneId) : Moves s (s.endSweep left) := by
  have h : Moves s (((left.foldl State.leaveAbandoning s).setScan .stopped).flushEnds) := by
    obtain ⟨c, l, h⟩ := State.foldl_frame State.leaveAbandoning State.leaveAbandoning_frame left s
    rw [h]
    have ha : Moves s (({ s with cache := c, lanes := l } : State).setScan .stopped) := .aside rfl
    exact ha.trans (State.flushEnds_moves _)
  unfold State.endSweep
  simp only
  split
  · exact h.trans (State.testReady_moves _)
  · exact h.trans (State.triggerWith_moves State.testReady_moves _)

theorem State.sweepOn_moves (s : State) (left : List LaneId) (y : Nat) (rest : List LineAccess) :
    Moves s (s.sweepOn left y rest) := by
  have h : Moves s (s.leaveAll left) := .aside (s.leaveAll_books left)
  unfold State.sweepOn
  split
  · exact h.thenAside rfl
  · split
    · exact h.thenAside rfl
    · exact s.endSweep_moves left

theorem State.sweepAccess_moves (s : State) (y : Nat) (a : LineAccess) (rest : List LineAccess) :
    Moves s (s.sweepAccess y a rest) := by
  unfold State.sweepAccess
  split
  · rename_i g
    have h : (s.freeMemory.sweepWrite y g).books = s.books := State.takeReports_books _ _
    exact (State.sweepOn_moves _ _ y rest).afterAside h
  all_goals exact (s.freeMemory.sweepOn_moves [] y _).afterAside rfl

/-! ### The pixel memory -/

theorem State.nextDrain_frame (s : State) : ∃ a, s.nextDrain = { s with arb := a } := by
  unfold State.nextDrain
  split <;> exact ⟨_, rfl⟩

theorem State.entryDrained_moves {s : State} (h : s.wb.entries ≠ []) : Moves s s.entryDrained := by
  obtain ⟨a, ha⟩ := (s.setWb { entries := s.wb.entries.tail, done := 0 }).nextDrain_frame
  unfold State.entryDrained
  rw [ha]
  have hd : Moves (s.setArb a) ((s.setArb a).setWb { entries := s.wb.entries.tail, done := 0 }).lowerFences :=
    .one (.drainEntry h)
  exact ((hd.trans (State.testReady_moves _)).trans (State.settle_moves _)).afterAside rfl

theorem State.drainAccess_moves {s : State} {e : WriteEntry} {rest : List WriteEntry}
    (h : s.wb.entries = e :: rest) : Moves s (s.drainAccess e) := by
  have hne : s.wb.entries ≠ [] := by simp [h]
  unfold State.drainAccess
  simp only
  split
  · have h : Moves s ((s.freeMemory.setMem (s.mem.drainWrite e s.wb.done)).setWb
        { s.wb with done := s.wb.done + 1 }) :=
      Moves.afterAside (t := s.freeMemory.setMem (s.mem.drainWrite e s.wb.done))
        (.one (.countAccess (s.wb.done + 1))) rfl
    exact h.thenAside (State.askDrain_books _)
  · exact (State.entryDrained_moves (s := s.freeMemory.setMem (s.mem.drainWrite e s.wb.done)) hne).afterAside rfl

theorem State.probeReady_books (s : State) (x y : Nat) : (s.probeReady x y).books = s.books := by
  unfold State.probeReady
  split <;> rfl

theorem State.initWrite_books (s : State) (i : Nat) : (s.initWrite i).books = s.books := by
  unfold State.initWrite
  simp only
  split <;> rfl

theorem State.imageValid_moves (s : State) : Moves s s.imageValid := by
  have h : Moves s (s.setLoader { s.loader with image := .valid }) := .aside rfl
  exact (h.trans (State.startSampling_moves _)).trans (State.evalTrigger_moves _)

theorem State.initAccess_moves (s : State) : Moves s s.initAccess := by
  have h : ((s.initWrite s.loader.initDone).setLoader
      { s.loader with initDone := s.loader.initDone + 1 }).books = s.books := s.initWrite_books _
  unfold State.initAccess
  simp only
  split
  · exact .aside h
  · exact ((State.imageValid_moves _).afterAside (by exact h)).thenAside (State.arbitrate_books _)

/-! ### The power sequencer -/

theorem State.railChange_moves (s : State) (line : Fin 4) (high : Bool) (elapsed : Nat) :
    Moves s (s.railChange line high elapsed) := by
  unfold State.railChange
  simp only
  split
  · exact s.setLine_moves _ _
  · split
    · exact (((s.setLine_moves _ _).trans (State.lineFiltered_moves _ _ _)).trans
        (State.settle_moves _)).thenAside (State.arbitrate_books _)
    · exact s.setLine_moves _ _

theorem State.blankEnd_moves {s : State} {k : Nat} (h : s.power.state = .rising k) (b : Nat) :
    Moves s (s.blankEnd k b) := by
  have hp : Moves s (s.setPower { s.power with blankTimer := none }) :=
    .one (.power rfl rfl rfl (.inr ⟨rfl, .inl rfl⟩))
  unfold State.blankEnd
  simp only
  split
  · have hc := State.conditionMet_moves (s := s.setPower { s.power with blankTimer := none })
      (by simp [h, PowerState.monitors]) k
    exact ((hp.trans (hc _)).trans (State.settle_moves _)).thenAside (State.arbitrate_books _)
  · exact hp

theorem State.stageTimedOut_moves (s : State) (k : Nat) : Moves s (s.stageTimedOut k) := by
  unfold State.stageTimedOut
  split
  · exact .refl
  · exact ((s.enterFault_moves k .timeout).trans (State.settle_moves _)).thenAside (State.arbitrate_books _)
  · exact ((s.endStage_moves k).trans (State.settle_moves _)).thenAside (State.arbitrate_books _)

theorem State.fallDelayOver_moves (s : State) (k : Nat) : Moves s (s.fallDelayOver k) := by
  unfold State.fallDelayOver
  split
  · exact s.enterFalling_moves _
  · exact ((s.enterOff_moves.trans (State.testRise_moves _)).trans (State.settle_moves _)).thenAside
      (State.arbitrate_books _)

theorem State.releaseReset_moves (s : State) (ssLow : Bool) (railGood : BitVec 4) :
    Moves s (s.releaseReset ssLow railGood) := by
  have h : Moves s { s with resetHeld := false } := .aside rfl
  have hp : Moves s (({ s with resetHeld := false } : State).setPower
      { s.power with lines := releasedLines railGood }) := h.next (.power rfl rfl rfl (.inr ⟨rfl, .inl rfl⟩))
  refine hp.trans (.aside ?_)
  rfl

/-! ### The commands -/

/-- Every command's effect on the queues and settings is a chain of the changes listed. -/
theorem exec_moves {c : Instr} {s t : State} (h : exec c s = .next t) : Moves s t := by
  cases c
  case reset => cases h; exact .one .reset
  case resetRelease => cases h; split; exacts [s.releaseReset_moves _ _, .refl]
  case select => cases h; exact s.select_moves
  case deselect => cases h; exact s.deselect_moves
  case malformedRequest frame => cases h; split; exacts [s.malformed_moves frame, .refl]
  case byteBoundary b => cases h; exact s.takeByte_moves b
  case drainAccessComplete =>
    cases h; split
    · rename_i hw
      exact (State.drainAccess_moves hw).thenAside (State.arbitrateAfter_books _ _)
    · exact .refl
  case probeAccessComplete =>
    cases h; split
    · refine .aside ((State.arbitrateAfter_books _ _).trans ?_)
      split
      · exact s.probeReady_books _ _
      · rfl
    · exact .refl
  case initWriteComplete => cases h; split; exacts [s.initAccess_moves, .refl]
  case flashAccessComplete =>
    obtain ⟨u, hu, hm⟩ := s.flashAccess_moves
    cases hu.symm.trans h
    exact hm
  case linePeriodExpiry =>
    cases h; split
    · exact .aside s.periodOver_books
    · exact .refl
  case scanReadComplete =>
    cases h; split
    · exact .aside ((State.arbitrateAfter_books _ _).trans s.discardedRead_books)
    · split
      · exact .aside ((State.arbitrateAfter_books _ _).trans (s.lineRead_books _ _ _))
      · exact .refl
    · exact .refl
  case outputWindowEnd =>
    cases h; split
    · exact .aside (State.beginCommit_books _ _)
    · exact .refl
  case commitWriteComplete =>
    cases h; split
    · exact ((State.settle_moves _).afterAside (s.commitWrite_books _ _ _)).thenAside
        (State.arbitrateAfter_books _ _)
    · exact .refl
  case frameBoundary =>
    cases h; split
    · exact ((s.boundaryWork_moves.trans (State.continueFrames_moves _)).trans
        (State.settle_moves _)).thenAside (State.arbitrate_books _)
    · exact .refl
  case sweepAccessComplete =>
    cases h; split
    · exact ((s.sweepAccess_moves _ _ _).trans (State.settle_moves _)).thenAside
        (State.arbitrateAfter_books _ _)
    · exact .refl
  case sampleTimerExpiry => cases h; split; exacts [s.startSampling_moves, .refl]
  case conversionComplete => cases h; split; exacts [s.conversion_moves _, .refl]
  case railGoodChange => cases h; split; exacts [.refl, s.railChange_moves _ _ _]
  case glitchFilterExpiry =>
    cases h; split
    · exact ((s.lineFiltered_moves _ _).trans (State.settle_moves _)).thenAside (State.arbitrate_books _)
    · exact .refl
  case blankIntervalEnd =>
    cases h; split
    · rename_i hk _
      exact State.blankEnd_moves hk _
    · exact .refl
  case stageDelayExpiry =>
    cases h; split
    · split
      · exact ((s.endStage_moves _).trans (State.settle_moves _)).thenAside (State.arbitrate_books _)
      · exact .refl
    · exact .refl
  case stageTimeout => cases h; split; exacts [s.stageTimedOut_moves _, .refl]
  case fallDelayExpiry => cases h; split; exacts [s.fallDelayOver_moves _, .refl]
  case idleHoldExpiry => cases h; split; exacts [s.enterFalling_moves _, .refl]
  case flashSetupEnd => cases h; split; exacts [.aside rfl, .refl]
  case flashStrobeEnd =>
    cases h; split
    · split
      · exact .aside rfl
      · exact .aside rfl
    · exact .refl
  case fwaitInactive => cases h; split; exacts [.aside rfl, .refl]
  case flashWaitTimeout => cases h; split; exacts [.aside rfl, .refl]
  case shiftEnd => cases h; split; exacts [.aside rfl, .refl]
  all_goals cases h; exact s.takeRequest_moves _ _ _ _

/-- A step is a chain of the changes listed, after the front command has left the queue. -/
theorem step_moves {s t : State} (h : step s = .next t) : Moves s t := by
  unfold step at h
  split at h
  · cases h; exact .refl
  · exact (exec_moves h).afterAside rfl

end Sys2Proof.Machine
end

