-- ==== Sys2Proof/Proofs/Queues.lean ====
section
/-! SUPPORT. The capacities of the queues (R7, R11, R50, R52, R174, R175, R177): each change of `Move` keeps
them, and so every step does. -/

namespace Sys2Proof.Machine

/-! ### The notice queue -/

@[simp] theorem Notice.setFolded_kind (n : Notice) (f : Nat) : (n.setFolded f).kind = n.kind := by
  cases n <;> rfl

/-- Folding a notice in leaves one of its kind where there was none, and the number of every kind as it was
otherwise (R177). -/
theorem countP_coalesceInto (n : Notice) (k : Nat) (q : List Notice) :
    (coalesceInto n q).countP (fun m => m.kind = k) =
      if n.kind = k then max 1 (q.countP (fun m => m.kind = k)) else q.countP (fun m => m.kind = k) := by
  induction q with
  | nil => by_cases h : n.kind = k <;> simp [coalesceInto, h]
  | cons m q ih =>
    unfold coalesceInto
    by_cases hm : m.kind = n.kind
    · by_cases h : n.kind = k <;> simp [hm, h]
    · by_cases h : n.kind = k
      · simp [h ▸ hm, ih, h]
      · simp [hm, ih, h, List.countP_cons]

theorem Notices.updateEnds_eq (n : Notices) : n.updateEnds = n.queue.countP (fun m => m.kind = 1) := by
  unfold Notices.updateEnds
  congr 1

/-- The capacities of the notice queue: 31 UPDATE_END notices, and one of each other kind. -/
theorem Notices.fits_iff (n : Notices) : n.fits = true ↔
    n.queue.countP (fun m => m.kind = 1) ≤ 31 ∧
      ∀ k ∈ [2, 3, 4, 5, 6], n.queue.countP (fun m => m.kind = k) ≤ 1 := by
  simp [Notices.fits, Notices.updateEnds_eq, Config.updateEndRoom]

theorem Notices.fits_coalesce {n : Notices} (h : n.fits = true) (m : Notice) :
    ({ n with queue := coalesceInto m n.queue } : Notices).fits = true := by
  rw [Notices.fits_iff] at h ⊢
  obtain ⟨hends, hothers⟩ := h
  refine ⟨?_, fun k hk => ?_⟩
  · rw [countP_coalesceInto]
    split <;> omega
  · have := hothers k hk
    rw [countP_coalesceInto]
    split <;> omega

theorem Notices.fits_append {n : Notices} (h : n.fits = true) (hr : n.room = true) {m : Notice}
    (hm : m.kind = 1) : ({ n with queue := n.queue ++ [m] } : Notices).fits = true := by
  rw [Notices.fits_iff] at h ⊢
  obtain ⟨-, hothers⟩ := h
  have hlt : n.queue.countP (fun m => m.kind = 1) < 31 := by
    simpa [Notices.room, Notices.updateEnds_eq, Config.updateEndRoom] using hr
  refine ⟨by simp [hm]; omega, fun k hk => ?_⟩
  have hne : m.kind ≠ k := by rintro rfl; simp [hm] at hk
  simpa [hne] using hothers k hk

theorem Notices.fits_tail {n : Notices} {m : Notice} {rest : List Notice} (h : n.fits = true)
    (hq : n.queue = m :: rest) : ({ n with queue := rest } : Notices).fits = true := by
  rw [Notices.fits_iff, hq] at h
  rw [Notices.fits_iff]
  obtain ⟨hends, hothers⟩ := h
  have hle : ∀ p : Notice → Bool, rest.countP p ≤ (m :: rest).countP p :=
    fun p => (List.sublist_cons_self m rest).countP_le
  exact ⟨(hle _).trans hends, fun k hk => (hle _).trans (hothers k hk)⟩

/-! ### The FIFOs and the fences -/

/-- The capacities of the admission unit beside `w` entries in the write buffer. -/
theorem Admission.fits_iff (a : Admission) (w : Nat) : a.fits w = true ↔
    a.urgent.length ≤ 8 ∧ a.normal.length ≤ 24 ∧ (∀ p ∈ a.urgent, p.cls = .urgent ∧ p.fence ≤ w) ∧
      ∀ p ∈ a.normal, p.cls = .normal ∧ p.fence ≤ w := by
  simp only [Admission.fits, Bool.and_eq_true, decide_eq_true_eq, List.all_eq_true, List.mem_append,
    Config.urgentDepth, Config.normalDepth]
  grind

/-- Fewer entries fit where more do. -/
theorem Admission.fits_of_sublist {a b : Admission} {w : Nat} (h : a.fits w = true)
    (hu : b.urgent.Sublist a.urgent) (hn : b.normal.Sublist a.normal) : b.fits w = true := by
  rw [Admission.fits_iff] at h ⊢
  obtain ⟨hul, hnl, hue, hne⟩ := h
  exact ⟨hu.length_le.trans hul, hn.length_le.trans hnl, fun p hp => hue p (hu.subset hp),
    fun p hp => hne p (hn.subset hp)⟩

/-- Entries changed in place fit beside a write buffer that their fences still fit. -/
theorem Admission.fits_map {a : Admission} {v w : Nat} {f : Pending → Pending} (h : a.fits w = true)
    (hf : ∀ p, p.fence ≤ w → (f p).cls = p.cls ∧ (f p).fence ≤ v) : (a.mapPending f).fits v = true := by
  rw [Admission.fits_iff] at h ⊢
  obtain ⟨hul, hnl, hue, hne⟩ := h
  have hmem : ∀ (c : UpdateClass) (l : List Pending), (∀ p ∈ l, p.cls = c ∧ p.fence ≤ w) →
      ∀ q ∈ l.map f, q.cls = c ∧ q.fence ≤ v := by
    intro c l hl q hq
    obtain ⟨p, hp, rfl⟩ := List.mem_map.1 hq
    obtain ⟨hc, hw⟩ := hl p hp
    obtain ⟨hfc, hfv⟩ := hf p hw
    exact ⟨hfc.trans hc, hfv⟩
  exact ⟨by simpa [Admission.mapPending] using hul, by simpa [Admission.mapPending] using hnl,
    hmem _ _ hue, hmem _ _ hne⟩

/-- The same entries fit beside a longer write buffer. -/
theorem Admission.fits_mono {a : Admission} {v w : Nat} (h : a.fits w = true) (hv : w ≤ v) : a.fits v = true := by
  rw [Admission.fits_iff] at h ⊢
  obtain ⟨hul, hnl, hue, hne⟩ := h
  exact ⟨hul, hnl, fun p hp => ⟨(hue p hp).1, (hue p hp).2.trans hv⟩,
    fun p hp => ⟨(hne p hp).1, (hne p hp).2.trans hv⟩⟩

/-- An entry that joins its FIFO below the depth, fenced by the write buffer, fits. -/
theorem Admission.fits_join {a : Admission} {p : Pending} {w : Nat} (h : a.fits w = true) (hp : p.fence = w)
    (hd : (a.fifo p.cls).length < p.cls.depth) : (a.setFifo p.cls (a.fifo p.cls ++ [p])).fits w = true := by
  rw [Admission.fits_iff] at h ⊢
  obtain ⟨hul, hnl, hue, hne⟩ := h
  cases hc : p.cls <;>
    simp only [hc, Admission.fifo, Admission.setFifo, UpdateClass.depth, Config.urgentDepth,
      Config.normalDepth] at hd ⊢
  · refine ⟨hul, by simp; omega, hue, fun q hq => ?_⟩
    rcases List.mem_append.1 hq with hq | hq
    · exact hne q hq
    · obtain rfl := List.mem_singleton.1 hq
      exact ⟨hc, hp.le⟩
  · refine ⟨by simp; omega, hnl, fun q hq => ?_, hne⟩
    rcases List.mem_append.1 hq with hq | hq
    · exact hue q hq
    · obtain rfl := List.mem_singleton.1 hq
      exact ⟨hc, hp.le⟩

/-! ### All queues -/

theorem State.queuesFit_iff (s : State) : s.queuesFit = true ↔
    s.wb.entries.length ≤ 4 ∧ s.adm.fits s.wb.entries.length = true ∧ s.notices.fits = true := by
  simp only [State.queuesFit, Bool.and_eq_true, decide_eq_true_eq, and_assoc]
  exact Iff.rfl

/-- The queues lie in the books. -/
theorem State.queuesFit_of_books {s t : State} (h : t.books = s.books) (hs : s.queuesFit = true) :
    t.queuesFit = true := by
  simp only [State.books, Prod.mk.injEq] at h
  obtain ⟨hw, ha, hn, -⟩ := h
  rwa [State.queuesFit, hw, ha, hn]

/-- Every single change keeps the queues within their capacities. -/
theorem Move.keeps_queuesFit {s t : State} (h : Move s t) (hs : s.queuesFit = true) : t.queuesFit = true := by
  have hq := hs
  rw [State.queuesFit_iff] at hq
  obtain ⟨hw, ha, hn⟩ := hq
  cases h
  case aside h => exact State.queuesFit_of_books h hs
  case joinWrite e h =>
    have hlen : (s.wb.entries ++ [e]).length = s.wb.entries.length + 1 := by simp
    rw [State.queuesFit_iff]
    refine ⟨?_, Admission.fits_mono ha ?_, hn⟩ <;> simp [Config.writeEntries] at h ⊢
    omega
  case drainEntry h =>
    rw [State.queuesFit_iff]
    refine ⟨?_, Admission.fits_map ha fun p hp => ⟨rfl, ?_⟩, hn⟩
    · simp [State.lowerFences]
      omega
    · simp [State.lowerFences]
      omega
  case accept p hf h => exact (State.queuesFit_iff _).2 ⟨hw, Admission.fits_join ha hf h, hn⟩
  case removeEntry p =>
    exact (State.queuesFit_iff _).2
      ⟨hw, Admission.fits_of_sublist ha List.erase_sublist List.erase_sublist, hn⟩
  case mark f h =>
    refine (State.queuesFit_iff _).2 ⟨hw, Admission.fits_map ha fun p hp => ?_, hn⟩
    rcases h p with e | e <;> exact ⟨by rw [e], by rw [e]; exact hp⟩
  case coalesce n => exact (State.queuesFit_iff _).2 ⟨hw, ha, Notices.fits_coalesce hn n⟩
  case queueEnd n hr hk => exact (State.queuesFit_iff _).2 ⟨hw, ha, Notices.fits_append hn hr hk⟩
  case fetch n rest h => exact (State.queuesFit_iff _).2 ⟨hw, ha, Notices.fits_tail hn h⟩
  case reset => rfl
  all_goals exact hs

/-- Settles O56: a step is a chain of single changes, and each of them keeps the capacities. -/
theorem queuesStayWithinCapacity : Obligations.QueuesStayWithinCapacity := by
  unfold Obligations.QueuesStayWithinCapacity
  intro s t hs h
  exact (step_moves h).keeps (P := fun s => s.queuesFit = true) (fun _ _ => Move.keeps_queuesFit) hs

end Sys2Proof.Machine
end

