-- ==== Sys2Proof/Proofs/Reset.lean ====
section
/-! SUPPORT. The machine right after reset. -/

namespace Sys2Proof.Machine

/-- Settles O54, by evaluation: the state after reset is a closed term and every law a decidable test. -/
theorem lawsHoldAtReset : Obligations.LawsHoldAtReset := by
  unfold Obligations.LawsHoldAtReset
  refine ⟨?_, ?_, ?_, ?_, ?_, ?_, ?_⟩ <;> decide

end Sys2Proof.Machine
end

