-- ==== Sys2Proof/Proofs/Arbiter.lean ====
section
/-! SUPPORT. The arbiter's grants in their fixed order (R13) and after a completion (log entry 2), and that no
step leaves an access waiting beside a free memory. -/

namespace Sys2Proof.Machine

/-! ### The grant -/

/-- A free memory goes to the scan engine's waiting access. -/
theorem Arbiter.grant_scan {a : Arbiter} {x : Access} (hr : a.running = none) (hs : a.scan = some x)
    (hx : x = .commit ∨ x = .sweep ∨ ∃ d, x = .scanRead d) :
    a.grant = { a with running := some x, scan := none } := by
  rcases hx with rfl | rfl | ⟨d, rfl⟩ <;> simp [Arbiter.grant, Arbiter.first, Arbiter.give, hr, hs]

/-- With none of the scan engine's waiting it goes to the drain's. -/
theorem Arbiter.grant_drain {a : Arbiter} (hr : a.running = none) (hs : a.scan = none) (hd : a.drain = true) :
    a.grant = { a with running := some .drain, drain := false } := by
  simp [Arbiter.grant, Arbiter.first, Arbiter.give, hr, hs, hd]

/-- With neither waiting it goes to PROBE's. -/
theorem Arbiter.grant_probe {a : Arbiter} {x y : Nat} (hr : a.running = none) (hs : a.scan = none)
    (hd : a.drain = false) (hp : a.probe = some (x, y)) :
    a.grant = { a with running := some (.probe x y true), probe := none } := by
  simp [Arbiter.grant, Arbiter.first, Arbiter.give, hr, hs, hd, hp]

/-- Nothing waits: the order of R13 names no access. -/
theorem Arbiter.first_of_none {a : Arbiter} (hs : a.scan = none) (hd : a.drain = false) (hp : a.probe = none) :
    a.first = none := by simp [Arbiter.first, hs, hd, hp]

/-- At the end of an event in which an access completed the grant is the usual one, or it falls to the first
access that waited before, past one asked for in this event (log entry 2). -/
theorem State.arbitrateAfter_arb (s : State) (old : Arbiter) :
    (s.arbitrateAfter old).arb = s.arb.grant ∨
      ∃ x, s.arb.running = none ∧ (s.arb.longWaiting old).first = some x ∧ s.arb.first ≠ some x ∧
        (s.arbitrateAfter old).arb = s.arb.give x := by
  unfold State.arbitrateAfter
  split
  · rename_i x hr hx
    split
    · exact .inl rfl
    · rename_i hne
      split
      · exact .inl rfl
      · exact .inr ⟨x, hr, hx, hne, rfl⟩
  · exact .inl rfl

/-- An access that waited before and is passed over by the order of R13 is the drain's or PROBE's, and the
scan engine had none waiting before. -/
theorem Arbiter.longWaiting_first {a old : Arbiter} {x : Access} (hx : (a.longWaiting old).first = some x)
    (hne : a.first ≠ some x) :
    (old.scan = none ∨ a.scan = none) ∧
      ((old.drain = true ∧ a.drain = true ∧ x = .drain) ∨
        ((old.drain = false ∨ a.drain = false) ∧ old.probe ≠ none ∧
          ∃ u v, a.probe = some (u, v) ∧ x = .probe u v true)) := by
  have hscan : (a.longWaiting old).scan = none := by
    by_contra hsome
    obtain ⟨z, hz⟩ := Option.ne_none_iff_exists'.1 hsome
    have ha : a.scan = some z := by
      simp only [Arbiter.longWaiting] at hz
      split at hz
      · exact hz
      · cases hz
    exact hne (by simpa [Arbiter.first, hz, ha] using hx)
  have hold : old.scan = none ∨ a.scan = none := by
    cases ho : old.scan with
    | none => exact .inl rfl
    | some z => exact .inr (by simpa [Arbiter.longWaiting, ho] using hscan)
  refine ⟨hold, ?_⟩
  unfold Arbiter.first at hx
  rw [hscan] at hx
  simp only at hx
  split at hx
  · rename_i hd
    obtain ⟨had, hod⟩ := Bool.and_eq_true_iff.1 hd
    exact .inl ⟨hod, had, (Option.some.inj hx).symm⟩
  · rename_i hd
    have hd' : old.drain = false ∨ a.drain = false := by
      have hf : (a.drain && old.drain) = false := Bool.eq_false_of_not_eq_true hd
      exact (Bool.and_eq_false_iff.1 hf).symm
    obtain ⟨⟨u, v⟩, hp, rfl⟩ := Option.map_eq_some_iff.1 hx
    refine .inr ⟨hd', ?_, u, v, ?_, rfl⟩
    · rintro ho
      simp [Arbiter.longWaiting, ho] at hp
    · simp only [Arbiter.longWaiting] at hp
      split at hp
      · exact hp
      · cases hp

/-- A grant to the drain or to PROBE leaves the scan engine's access waiting. -/
theorem State.arbitrateAfter_grants (s : State) (old : Arbiter) :
    (s.arbitrateAfter old).arb = s.arb.grant ∨
      (s.arb.running = none ∧ (old.scan = none ∨ s.arb.scan = none) ∧
        ((old.drain = true ∧ s.arb.drain = true ∧
            (s.arbitrateAfter old).arb = { s.arb with running := some .drain, drain := false }) ∨
          ((old.drain = false ∨ s.arb.drain = false) ∧ old.probe ≠ none ∧
            ∃ x y, s.arb.probe = some (x, y) ∧
              (s.arbitrateAfter old).arb = { s.arb with running := some (.probe x y true), probe := none }))) := by
  refine (s.arbitrateAfter_arb old).imp_right fun ⟨x, hr, hx, hne, ht⟩ => ?_
  obtain ⟨hs, hcase⟩ := Arbiter.longWaiting_first hx hne
  refine ⟨hr, hs, hcase.imp ?_ ?_⟩
  · rintro ⟨ho, hd, rfl⟩
    exact ⟨ho, hd, ht⟩
  · rintro ⟨hd, hp, u, v, huv, rfl⟩
    exact ⟨hd, hp, u, v, huv, ht⟩

/-! ### Nothing waits beside a free memory -/

/-- Withdrawing a transaction's PROBE leaves no access waiting beside a free memory. -/
theorem Arbiter.withdrawProbe_settled {a : Arbiter} (h : a.settled = true) : a.withdrawProbe.settled = true := by
  unfold Arbiter.settled Arbiter.withdrawProbe at *
  cases hr : a.running with
  | some x => cases x <;> simp
  | none =>
    simp only [hr, Option.isSome_none, Bool.false_or, Option.isNone_iff_eq_none] at h ⊢
    unfold Arbiter.first at h ⊢
    cases hs : a.scan <;> cases hd : a.drain <;> simp_all

theorem State.arbitrate_settled (s : State) : s.arbitrate.arb.settled = true := Arbiter.grant_settled s.arb

theorem State.takeRequest_settled {s : State} (h : s.arb.settled = true) (k : RequestKind) (tag : Byte)
    (p : List Byte) (check : Word) : (s.takeRequest k tag p check).arb.settled = true := by
  unfold State.takeRequest
  split
  · exact State.arbitrate_settled _
  · exact h

theorem State.takeByte_settled {s : State} (h : s.arb.settled = true) (b : Byte) :
    (s.takeByte b).arb.settled = true := by
  unfold State.takeByte
  split
  · unfold State.receiveByte
    simp only
    split
    · exact State.arbitrate_settled _
    · exact State.arbitrate_settled _
    · exact State.arbitrate_settled _
    · exact h
    · exact h
  · split <;> exact h
  all_goals exact h

theorem State.initWrite_arb (s : State) (i : Nat) : (s.initWrite i).arb = s.arb := by
  unfold State.initWrite
  simp only
  split <;> rfl

theorem State.initAccess_settled {s : State} (h : s.arb.settled = true) : s.initAccess.arb.settled = true := by
  unfold State.initAccess
  simp only
  split
  · rw [State.setLoader_arb, State.initWrite_arb]
    exact h
  · exact State.arbitrate_settled _

theorem State.railChange_settled {s : State} (h : s.arb.settled = true) (line : Fin 4) (high : Bool)
    (elapsed : Nat) : (s.railChange line high elapsed).arb.settled = true := by
  unfold State.railChange
  simp only
  split
  · exact h
  · split
    · exact State.arbitrate_settled _
    · exact h

theorem State.blankEnd_settled {s : State} (h : s.arb.settled = true) (k b : Nat) :
    (s.blankEnd k b).arb.settled = true := by
  unfold State.blankEnd
  simp only
  split
  · exact State.arbitrate_settled _
  · exact h

theorem State.stageTimedOut_settled {s : State} (h : s.arb.settled = true) (k : Nat) :
    (s.stageTimedOut k).arb.settled = true := by
  unfold State.stageTimedOut
  split
  · exact h
  · exact State.arbitrate_settled _
  · exact State.arbitrate_settled _

theorem State.fallDelayOver_settled {s : State} (h : s.arb.settled = true) (k : Nat) :
    (s.fallDelayOver k).arb.settled = true := by
  unfold State.fallDelayOver
  split
  · exact h
  · exact State.arbitrate_settled _

theorem State.malformed_settled {s : State} (h : s.arb.settled = true) (frame : List Byte) :
    (((s.malformedAnswer frame).map State.arbitrate).getD s).arb.settled = true := by
  cases s.malformedAnswer frame with
  | none => exact h
  | some t => exact t.arbitrate_settled

/-- Every command ends with a grant, or leaves the arbiter with nothing to grant. -/
theorem exec_settled {c : Instr} {s t : State} (hs : s.arb.settled = true) (h : exec c s = .next t) :
    t.arb.settled = true := by
  cases c
  case reset => cases h; rfl
  case resetRelease => cases h; split <;> exact hs
  case select =>
    cases h
    unfold State.select
    split <;> exact hs
  case deselect =>
    cases h
    unfold State.deselect
    split
    · exact hs
    · exact Arbiter.withdrawProbe_settled hs
  case malformedRequest frame => cases h; split; exacts [State.malformed_settled hs frame, hs]
  case byteBoundary b => cases h; exact State.takeByte_settled hs b
  case drainAccessComplete => cases h; split; exacts [State.arbitrateAfter_settled _ _, hs]
  case probeAccessComplete => cases h; split; exacts [State.arbitrateAfter_settled _ _, hs]
  case initWriteComplete => cases h; split; exacts [State.initAccess_settled hs, hs]
  case flashAccessComplete => cases h; split; exacts [State.arbitrate_settled _, hs]
  case linePeriodExpiry => cases h; split; exacts [State.arbitrate_settled _, hs]
  case scanReadComplete =>
    cases h; split
    · exact State.arbitrateAfter_settled _ _
    · split; exacts [State.arbitrateAfter_settled _ _, hs]
    · exact hs
  case outputWindowEnd => cases h; split; exacts [State.arbitrate_settled _, hs]
  case commitWriteComplete => cases h; split; exacts [State.arbitrateAfter_settled _ _, hs]
  case frameBoundary => cases h; split; exacts [State.arbitrate_settled _, hs]
  case sweepAccessComplete => cases h; split; exacts [State.arbitrateAfter_settled _ _, hs]
  case sampleTimerExpiry => cases h; split <;> exact hs
  case conversionComplete => cases h; split; exacts [State.arbitrate_settled _, hs]
  case railGoodChange => cases h; split; exacts [hs, State.railChange_settled hs _ _ _]
  case glitchFilterExpiry => cases h; split; exacts [State.arbitrate_settled _, hs]
  case blankIntervalEnd => cases h; split; exacts [State.blankEnd_settled hs _ _, hs]
  case stageDelayExpiry =>
    cases h; split
    · split; exacts [State.arbitrate_settled _, hs]
    · exact hs
  case stageTimeout => cases h; split; exacts [State.stageTimedOut_settled hs _, hs]
  case fallDelayExpiry => cases h; split; exacts [State.fallDelayOver_settled hs _, hs]
  case idleHoldExpiry => cases h; split <;> exact hs
  case flashSetupEnd => cases h; split <;> exact hs
  case flashStrobeEnd =>
    cases h; split
    · split <;> exact hs
    · exact hs
  case fwaitInactive => cases h; split <;> exact hs
  case flashWaitTimeout => cases h; split <;> exact hs
  case shiftEnd => cases h; split <;> exact hs
  all_goals cases h; exact State.takeRequest_settled hs _ _ _ _

theorem step_settled {s t : State} (hs : s.arb.settled = true) (h : step s = .next t) :
    t.arb.settled = true := by
  unfold step at h
  split at h
  · cases h; exact hs
  · rename_i c rest _
    exact exec_settled (s := s.setPending rest) hs h

end Sys2Proof.Machine
end

