-- ==== Sys2Proof/Proofs/Settings.lean ====
section
/-! SUPPORT. The ranges of the settings (R36, R114, R118, R120, R129, R136, R139, R146): each change of `Move`
keeps them, and so every step does. -/

namespace Sys2Proof.Machine

/-! ### The ranges, block by block -/

/-- Both copies of the escalation limits are in range. -/
def LimitCopies.legal (l : LimitCopies) : Prop :=
  l.taken.all Limits.legal = true ∧ l.inForce.all Limits.legal = true

/-- The thermal unit's history, miss count and override are in range. -/
def Thermal.legal (t : Thermal) : Prop :=
  t.history.length ≤ 8 ∧ t.misses ≤ 4 ∧ t.override.all (fun v => -160 ≤ v && v ≤ 340) = true

/-- The power sequencer's settings and histories are in range, and stages are monitored in RISING and ON
alone, in increasing order. -/
def Power.legal (p : Power) : Prop :=
  p.idleHold ≤ 60000 ∧ p.filter ∈ [0, 20, 40, 80] ∧ (∀ h ∈ p.history.toList, h.length ≤ 8) ∧
    p.monitored.Pairwise (· < ·) ∧ (p.monitored = [] ∨ p.state.monitors = true)

theorem State.settingsLegal_iff (s : State) :
    s.settingsLegal = true ↔ s.limits.legal ∧ s.thermal.legal ∧ s.power.legal := by
  simp only [State.settingsLegal, Bool.and_eq_true, Bool.or_eq_true, decide_eq_true_eq, List.all_eq_true,
    List.contains_iff_mem, List.isEmpty_iff, LimitCopies.legal, Thermal.legal, Power.legal, and_assoc]
  exact Iff.rfl

/-! ### The thermal unit -/

/-- A history that keeps the latest `n` values is no longer than `n`. -/
theorem length_pushHistory_le {α : Type} (n : Nat) (h : List α) (v : α) : (pushHistory n h v).length ≤ n := by
  simp [pushHistory]
  omega

theorem clampInt_bounds {lo hi : Int} (h : lo ≤ hi) (v : Int) : lo ≤ clampInt lo hi v ∧ clampInt lo hi v ≤ hi := by
  unfold clampInt
  omega

theorem Thermal.legal_of_change {s t : Thermal} (h : s.legal)
    (hh : t.history = s.history ∨ t.history = [] ∨ ∃ v, t.history = pushHistory Config.sampleDepth s.history v)
    (hm : t.misses = s.misses ∨ t.misses ≤ 4)
    (ho : t.override = s.override ∨ t.override = none ∨ ∃ v, t.override = some (clampInt (-160) 340 v)) :
    t.legal := by
  obtain ⟨hlen, hmiss, hover⟩ := h
  refine ⟨?_, ?_, ?_⟩
  · rcases hh with e | e | ⟨v, e⟩ <;> rw [e]
    · exact hlen
    · simp
    · exact length_pushHistory_le 8 _ v
  · rcases hm with e | e
    · rwa [e]
    · exact e
  · rcases ho with e | e | ⟨v, e⟩ <;> rw [e]
    · exact hover
    · rfl
    · have := clampInt_bounds (lo := -160) (hi := 340) (by decide) v
      simpa using this

/-! ### The power sequencer -/

theorem clampFilter_mem (n : Nat) : clampFilter n ∈ [0, 20, 40, 80] := by
  unfold clampFilter
  split
  · simp
  · split
    · simp
    · split <;> simp

theorem mem_insertStage {j k : Nat} {l : List Nat} : j ∈ insertStage k l ↔ j = k ∨ j ∈ l := by
  induction l with
  | nil => simp [insertStage]
  | cons i l ih =>
    unfold insertStage
    split
    · simp
    · split
      · rename_i h
        simp [h]
      · simp [ih, or_left_comm]

/-- A stage joins the monitored set in its place (R139). -/
theorem pairwise_insertStage {l : List Nat} (h : l.Pairwise (· < ·)) (k : Nat) :
    (insertStage k l).Pairwise (· < ·) := by
  induction l with
  | nil => simp [insertStage]
  | cons i l ih =>
    have hl := List.pairwise_cons.1 h
    unfold insertStage
    split
    · rename_i hk
      exact List.pairwise_cons.2 ⟨fun j hj => by
        rcases List.mem_cons.1 hj with rfl | hj
        · exact hk
        · exact hk.trans (hl.1 j hj), h⟩
    · split
      · exact h
      · refine List.pairwise_cons.2 ⟨fun j hj => ?_, ih hl.2⟩
        rcases mem_insertStage.1 hj with rfl | hj
        · omega
        · exact hl.1 j hj

/-- A measurement joins one stage's history, which stays within its bound (R136). -/
theorem setRiseHistory_bounded {p : Power} (h : ∀ g ∈ p.history.toList, g.length ≤ 8) (k m : Nat) :
    ∀ g ∈ (p.setRiseHistory k (pushHistory Config.riseDepth (p.riseHistory k) m)).history.toList,
      g.length ≤ 8 := by
  intro g hg
  simp only [Power.setRiseHistory, Vector.toList_setIfInBounds] at hg
  rcases List.mem_or_eq_of_mem_set hg with hg | rfl
  · exact h g hg
  · exact length_pushHistory_le 8 _ m

/-! ### All settings -/

theorem State.settingsLegal_of_books {s t : State} (h : t.books = s.books) (hs : s.settingsLegal = true) :
    t.settingsLegal = true := by
  simp only [State.books, Prod.mk.injEq] at h
  obtain ⟨-, -, -, hl, ht, hp⟩ := h
  rw [State.settingsLegal_iff] at hs ⊢
  rwa [hl, ht, hp]

/-- Every single change keeps the settings in range. -/
theorem Move.keeps_settingsLegal {s t : State} (h : Move s t) (hs : s.settingsLegal = true) :
    t.settingsLegal = true := by
  have hq := hs
  rw [State.settingsLegal_iff] at hq
  obtain ⟨hl, ht, hp⟩ := hq
  obtain ⟨hhold, hfilter, hhist, hmon, hstate⟩ := id hp
  cases h
  case aside h => exact State.settingsLegal_of_books h hs
  case limitsInForce => exact (State.settingsLegal_iff _).2 ⟨⟨hl.1, hl.1⟩, ht, hp⟩
  case takeLimits l h => exact (State.settingsLegal_iff _).2 ⟨⟨h, hl.2⟩, ht, hp⟩
  case publishLimits l h => exact (State.settingsLegal_iff _).2 ⟨⟨h, h⟩, ht, hp⟩
  case thermal t hh hm ho =>
    exact (State.settingsLegal_iff _).2 ⟨hl, Thermal.legal_of_change ht hh hm ho, hp⟩
  case powerSettings hold filter =>
    exact (State.settingsLegal_iff _).2
      ⟨hl, ht, Nat.min_le_left _ _, clampFilter_mem filter, hhist, hmon, hstate⟩
  case meetCondition k m h =>
    exact (State.settingsLegal_iff _).2
      ⟨hl, ht, hhold, hfilter, setRiseHistory_bounded hhist k m, pairwise_insertStage hmon k, .inr h⟩
  case power p hi hf hh hm =>
    refine (State.settingsLegal_iff _).2 ⟨hl, ht, hi ▸ hhold, hf ▸ hfilter, hh ▸ hhist, ?_⟩
    rcases hm with e | ⟨e, he | he⟩
    · exact ⟨e ▸ List.Pairwise.nil, .inl e⟩
    · exact ⟨e ▸ hmon, hstate.imp (e.trans ·) (he ▸ ·)⟩
    · exact ⟨e ▸ hmon, .inr he⟩
  case reset => exact (by decide : State.reset.settingsLegal = true)
  all_goals exact hs

/-! ### The obligation -/

/-- Settles O60: the grants by the order of R13, no access left waiting by any command, and the settings by the
chain of single changes a step is. -/
theorem arbiterAndSettings : Obligations.ArbiterAndSettings := by
  unfold Obligations.ArbiterAndSettings
  refine ⟨fun a => ⟨fun h => ?_, fun x => Arbiter.grant_scan, Arbiter.grant_drain,
    fun x y => Arbiter.grant_probe, fun hs hd hp => Arbiter.grant_of_none (Arbiter.first_of_none hs hd hp)⟩,
    ?_, fun s t => step_settled, fun s t hs h => ?_⟩
  · obtain ⟨x, hx⟩ := Option.ne_none_iff_exists'.1 h
    exact Arbiter.grant_of_running hx
  · rintro s t old rfl
    obtain ⟨a, n, h⟩ := s.arbitrateAfter_frame old
    exact ⟨by rw [h], s.arbitrateAfter_grants old⟩
  · exact (step_moves h).keeps (P := fun s => s.settingsLegal = true) (fun _ _ => Move.keeps_settingsLegal) hs

end Sys2Proof.Machine
end

