-- ==== Sys2Proof/Proofs/Payloads.lean ====
section
/-! SUPPORT. What a request's payload carries is what the part reads from it (R181, R183), and how a request
that its owner answers at once comes out (R166, R168). -/

namespace Sys2Proof.Machine

/-! ### Fields -/

theorem byte_toNat (n : Nat) : (byte n).toNat = n % 256 := BitVec.toNat_ofNat n 8

/-- A 2-byte field is read back from the head of a payload, -/
theorem u16At_le16 {n : Nat} (h : fits16 n) (p : List Byte) : u16At (le16 n ++ p) 0 = n := by
  show (byte n).toNat + 256 * (byte (n / 256)).toNat = n
  rw [byte_toNat, byte_toNat]
  unfold fits16 at h
  omega

/-- and the fields after it as from the rest. -/
theorem u16At_le16_append (n : Nat) (p : List Byte) (i : Nat) :
    u16At (le16 n ++ p) (i + 2) = u16At p i := rfl

@[simp] theorem length_le16 (n : Nat) : (le16 n).length = 2 := rfl

/-! ### Levels -/

theorem levelPair_byte (a b : Level) : levelPair (byte (a.val + 16 * b.val)) = [a, b] := by
  have h : (byte (a.val + 16 * b.val)).toNat = a.val + 16 * b.val := by
    rw [byte_toNat]
    omega
  unfold levelPair
  rw [h, List.cons.injEq, List.cons.injEq]
  refine ⟨Fin.ext ?_, Fin.ext ?_, rfl⟩ <;> simp only [Fin.val_ofNat] <;> omega

/-- A run of an even number of levels is read back from its bytes. -/
theorem flatMap_packLevels {ls : List Level} (h : ls.length % 2 = 0) :
    (packLevels ls).flatMap levelPair = ls := by
  induction ls using packLevels.induct with
  | case1 a b rest ih =>
    rw [packLevels, List.flatMap_cons, levelPair_byte, ih (by simpa [Nat.add_assoc] using h)]
    rfl
  | case2 a => simp at h
  | case3 => rfl

theorem length_packLevels {ls : List Level} (h : ls.length % 2 = 0) : (packLevels ls).length = ls.length / 2 := by
  induction ls using packLevels.induct with
  | case1 a b rest ih =>
    rw [packLevels, List.length_cons, ih (by simpa [Nat.add_assoc] using h)]
    simp only [List.length_cons]
    omega
  | case2 a => simp at h
  | case3 => rfl

/-! ### DRAW -/

/-- The count word of a DRAW of `levels` (R183). -/
def drawCountWord (spare : Nat) (levels : List Level) : Nat :=
  levels.length % 1024 + 1024 * (spare % 4) +
    4096 * (if levels.length % 2 = 1 then (levels.headD 0).val else spare / 4 % 16)

/-- The levels of a DRAW that stand in bytes of their own: all, or all but the first of an odd number. -/
def drawPacked (levels : List Level) : List Level := if levels.length % 2 = 1 then levels.tail else levels

theorem drawPayload_eq (spare y x : Nat) (levels : List Level) : drawPayload spare y x levels =
    le16 y ++ (le16 x ++ (le16 (drawCountWord spare levels) ++ packLevels (drawPacked levels))) := by
  simp only [drawPayload, drawCountWord, drawPacked, List.append_assoc]

theorem drawPacked_even (levels : List Level) : (drawPacked levels).length % 2 = 0 := by
  unfold drawPacked
  split
  · rw [List.length_tail]
    omega
  · omega

theorem drawCountWord_fits (spare : Nat) (levels : List Level) : fits16 (drawCountWord spare levels) := by
  unfold fits16 drawCountWord
  have := (levels.headD 0).isLt
  split <;> omega

section Draw

variable {spare y x : Nat} {levels : List Level}

theorem drawPayload_countWord : u16At (drawPayload spare y x levels) 4 = drawCountWord spare levels := by
  rw [drawPayload_eq]
  exact (u16At_le16_append y _ 2).trans ((u16At_le16_append x _ 0).trans
    (u16At_le16 (drawCountWord_fits spare levels) _))

theorem drawCount_drawPayload (h : levels.length ≤ 512) :
    drawCount (drawPayload spare y x levels) = levels.length := by
  rw [drawCount, drawPayload_countWord, drawCountWord]
  omega

theorem length_drawPayload : (drawPayload spare y x levels).length = 6 + levels.length / 2 := by
  rw [drawPayload_eq]
  simp only [List.length_append, length_le16, length_packLevels (drawPacked_even levels)]
  unfold drawPacked
  split
  · rw [List.length_tail]
    omega
  · omega

/-- The levels sent in a DRAW are the levels read from it (R181). -/
theorem drawLevels_drawPayload (h : levels.length ≤ 512) :
    drawLevels (drawPayload spare y x levels) = levels := by
  have hpairs : ((drawPayload spare y x levels).drop 6).flatMap levelPair = drawPacked levels := by
    rw [drawPayload_eq]
    exact flatMap_packLevels (drawPacked_even levels)
  unfold drawLevels
  simp only [hpairs, drawCount_drawPayload h, drawPayload_countWord]
  split
  · rename_i hodd
    obtain ⟨a, rest, rfl⟩ : ∃ a rest, levels = a :: rest := by
      cases levels with
      | nil => simp at hodd
      | cons a rest => exact ⟨a, rest, rfl⟩
    have hhead : Fin.ofNat 16 (drawCountWord spare (a :: rest) / 4096) = a := by
      apply Fin.ext
      have := a.isLt
      rw [drawCountWord, if_pos hodd, Fin.val_ofNat, List.headD_cons]
      omega
    rw [hhead, drawPacked, if_pos hodd]
    simp
  · rename_i heven
    rw [drawPacked, if_neg heven, List.take_length]

theorem handleDraw_drawPayload (s : State) (hy : fits16 y) (hx : fits16 x) (h : levels.length ≤ 512) :
    handleDraw (drawPayload spare y x levels) s =
      if s.panelLines ≤ y || s.columns ≤ x then s.turnAway .region
      else s.acceptWrite (.draw y x (levels.take (s.columns - x))) := by
  have h0 : u16At (drawPayload spare y x levels) 0 = y := by rw [drawPayload_eq]; exact u16At_le16 hy _
  have h2 : u16At (drawPayload spare y x levels) 2 = x := by
    rw [drawPayload_eq]
    exact (u16At_le16_append y _ 0).trans (u16At_le16 hx _)
  simp only [handleDraw, h0, h2, drawLevels_drawPayload h]

end Draw

/-! ### FILL -/

theorem payloadRect_fillPayload {r : Rect} (level : Level) (h0 : fits16 r.x0) (h1 : fits16 r.y0)
    (h2 : fits16 r.x1) (h3 : fits16 r.y1) : payloadRect (fillPayload r level) = r := by
  have e : fillPayload r level =
      le16 r.x0 ++ (le16 r.y0 ++ (le16 r.x1 ++ (le16 r.y1 ++ [byte level.val]))) := by
    simp only [fillPayload, List.append_assoc]
  have hx0 : u16At (fillPayload r level) 0 = r.x0 := by rw [e]; exact u16At_le16 h0 _
  have hy0 : u16At (fillPayload r level) 2 = r.y0 := by
    rw [e]
    exact (u16At_le16_append _ _ 0).trans (u16At_le16 h1 _)
  have hx1 : u16At (fillPayload r level) 4 = r.x1 := by
    rw [e]
    exact (u16At_le16_append _ _ 2).trans ((u16At_le16_append _ _ 0).trans (u16At_le16 h2 _))
  have hy1 : u16At (fillPayload r level) 6 = r.y1 := by
    rw [e]
    exact (u16At_le16_append _ _ 4).trans ((u16At_le16_append _ _ 2).trans
      ((u16At_le16_append _ _ 0).trans (u16At_le16 h3 _)))
  simp only [payloadRect, hx0, hy0, hx1, hy1]

theorem byteAt_fillPayload (r : Rect) (level : Level) : byteAt (fillPayload r level) 8 = level.val := by
  show (byte level.val).toNat = level.val
  rw [byte_toNat]
  omega

theorem handleFill_fillPayload (s : State) {r : Rect} (level : Level) (h0 : fits16 r.x0) (h1 : fits16 r.y0)
    (h2 : fits16 r.x1) (h3 : fits16 r.y1) :
    handleFill (fillPayload r level) s =
      if r.x0 ≤ min r.x1 (s.columns - 1) ∧ r.y0 ≤ min r.y1 (s.panelLines - 1) then
        s.acceptWrite
          (.fill { r with x1 := min r.x1 (s.columns - 1), y1 := min r.y1 (s.panelLines - 1) } level)
      else s.turnAway .region := by
  have hl : Fin.ofNat 16 level.val = level := Fin.ext (Nat.mod_eq_of_lt level.isLt)
  unfold handleFill
  rw [payloadRect_fillPayload level h0 h1 h2 h3, byteAt_fillPayload, hl]
  by_cases h : r.x0 ≤ min r.x1 (s.columns - 1) ∧ r.y0 ≤ min r.y1 (s.panelLines - 1)
  · have hc : clipRect s.columns s.panelLines r =
        some { r with x1 := min r.x1 (s.columns - 1), y1 := min r.y1 (s.panelLines - 1) } := by
      simp only [clipRect, gt_iff_lt, Bool.or_eq_true, decide_eq_true_eq]
      exact if_neg (by omega)
    rw [hc, if_pos h]
  · have hc : clipRect s.columns s.panelLines r = none := by
      simp only [clipRect, gt_iff_lt, Bool.or_eq_true, decide_eq_true_eq]
      exact if_pos (by omega)
    rw [hc, if_neg h]

/-! ### The link's tests and the reply -/

/-- A correct frame of a kind passes the link's tests when its length and its fields do (R166). -/
theorem linkTests_sent {k : RequestKind} {tag : Byte} {p : List Byte} (hl : k.lengthAllowed p.length = true)
    (hf : fieldsDefined k p = true) (ha : lengthAgrees k p = true) :
    linkTests k.code tag p (frameCheck k.code tag p) = .ok k := by
  simp [linkTests, RequestKind.ofCode_code, hl, hf, ha]

/-- A request its owner answers in its own event: the owner's state, the reply, and the grant. -/
theorem exec_answered {s u : State} {k : RequestKind} {tag : Byte} {p : List Byte} {r : Reply}
    (hv : s.loader.image = .valid) (hr : s.receives k tag p) (hl : p.length ≤ 272)
    (ht : linkTests k.code tag p (frameCheck k.code tag p) = .ok k) (ho : ownerAnswer k p s = (u, some r)) :
    exec (k.sent tag p) s = .next { u with link := Link.answered k.code tag r, arb := u.arb.grant } := by
  rw [exec_sent (by rw [hv]; exact gate_valid k) hr hl ht, ho]
  rfl

/-! ### The write buffer's answer (R7 to R9) -/

theorem State.joinWrites_eq (s : State) (e : WriteEntry) : s.joinWrites e =
    { s with
      wb := { s.wb with entries := s.wb.entries ++ [e] }
      arb := { s.arb with drain := s.arb.drain || s.wb.entries.isEmpty } } := by
  unfold State.joinWrites
  cases h : s.wb.entries.isEmpty
  · simp only [Bool.or_false]
    rfl
  · simp only [Bool.or_true]
    rfl

theorem State.acceptWrite_room {s : State} (h : s.wb.entries.length < 4) (e : WriteEntry) :
    s.acceptWrite e = (s.joinWrites e, some (.done [])) := if_neg (Nat.not_le.2 h)

theorem State.acceptWrite_full {s : State} (h : 4 ≤ s.wb.entries.length) (e : WriteEntry) :
    s.acceptWrite e = (s, some (.of .writeFull)) := if_pos h

section Requests

variable {s u : State} {tag : Byte} {r : Reply}

/-- A DRAW of 1 to 512 levels reaches the write buffer's owner. -/
theorem exec_draw {spare y x : Nat} {levels : List Level} (hv : s.loader.image = .valid)
    (hr : s.receives .draw tag (drawPayload spare y x levels)) (h1 : 1 ≤ levels.length)
    (h512 : levels.length ≤ 512) (ho : handleDraw (drawPayload spare y x levels) s = (u, some r)) :
    exec (RequestKind.draw.sent tag (drawPayload spare y x levels)) s =
      .next { u with link := Link.answered 0x01 tag r, arb := u.arb.grant } := by
  have hcount := drawCount_drawPayload (spare := spare) (y := y) (x := x) h512
  have hlen := length_drawPayload (spare := spare) (y := y) (x := x) (levels := levels)
  refine exec_answered hv hr (by omega) (linkTests_sent ?_ ?_ ?_) ho
  · simp only [RequestKind.lengthAllowed, hlen, Bool.and_eq_true, decide_eq_true_eq]
    omega
  · simp [fieldsDefined, hcount, h1, h512]
  · simp [lengthAgrees, hcount, hlen]

/-- A FILL reaches the write buffer's owner. -/
theorem exec_fill {a : Rect} {level : Level} (hv : s.loader.image = .valid)
    (hr : s.receives .fill tag (fillPayload a level)) (ho : handleFill (fillPayload a level) s = (u, some r)) :
    exec (RequestKind.fill.sent tag (fillPayload a level)) s =
      .next { u with link := Link.answered 0x02 tag r, arb := u.arb.grant } := by
  have hlen : (fillPayload a level).length = 9 := rfl
  refine exec_answered hv hr (by omega) (linkTests_sent rfl ?_ rfl) ho
  simp [fieldsDefined, byteAt_fillPayload]

end Requests

end Sys2Proof.Machine
end

