-- ==== Sys2Proof/Proofs/WriteRequests.lean ====
section
/-! SUPPORT. DRAW and FILL (R8, R9), and PROBE (R16), at the link. -/

namespace Sys2Proof.Machine

/-- Settles O11: the owner reads back what was sent, and with room in the buffer the clipped entry joins. -/
theorem writesJoinBuffer : Obligations.WritesJoinBuffer := by
  unfold Obligations.WritesJoinBuffer
  constructor
  · intro s tag spare y x levels hv hr hy hx h1 h512 hyp hxp hroom
    have ho : handleDraw (drawPayload spare y x levels) s =
        (s.joinWrites (.draw y x (levels.take (s.columns - x))), some (.done [])) := by
      rw [handleDraw_drawPayload s hy hx h512, if_neg (by simp; omega), State.acceptWrite_room hroom]
    rw [exec_draw hv hr h1 h512 ho, State.joinWrites_eq]
  · intro s tag r level hv hr h0 h1 h2 h3 hx hy hroom
    have ho := handleFill_fillPayload s level h0 h1 h2 h3
    rw [if_pos ⟨hx, hy⟩, State.acceptWrite_room hroom] at ho
    rw [exec_fill hv hr ho, State.joinWrites_eq]

/-- Settles O12: off the panel the owner refuses before it looks at the buffer, and a full buffer takes nothing. -/
theorem writesTurnedAway : Obligations.WritesTurnedAway := by
  unfold Obligations.WritesTurnedAway
  constructor
  · intro s tag spare y x levels hv hr hy hx h1 h512
    have hd := handleDraw_drawPayload (spare := spare) s hy hx h512
    constructor
    · intro hoff
      rw [if_pos (by simpa using hoff)] at hd
      exact exec_draw hv hr h1 h512 hd
    · intro hyp hxp hfull
      rw [if_neg (by simp; omega), State.acceptWrite_full hfull] at hd
      exact exec_draw hv hr h1 h512 hd
  · intro s tag r level hv hr h0 h1 h2 h3
    have hf := handleFill_fillPayload s level h0 h1 h2 h3
    constructor
    · intro hoff
      rw [if_neg (by omega)] at hf
      exact exec_fill hv hr hf
    · intro hx hy hfull
      rw [if_pos ⟨hx, hy⟩, State.acceptWrite_full hfull] at hf
      exact exec_fill hv hr hf

/-- What PROBE's owner reads from its payload (R183). -/
theorem handleProbe_le16 (s : State) {x y : Nat} (hx : fits16 x) (hy : fits16 y) :
    handleProbe (le16 x ++ le16 y) s =
      if s.columns ≤ x || s.panelLines ≤ y then s.turnAway .region
      else (s.setArb { s.arb with probe := some (x, y) }, none) := by
  have h0 : u16At (le16 x ++ le16 y) 0 = x := u16At_le16 hx _
  have h2 : u16At (le16 x ++ le16 y) 2 = y := u16At_le16 (p := []) hy
  simp only [handleProbe, h0, h2]

/-- Settles O19: on the panel the owner asks the arbiter and leaves the reply for later. -/
theorem probeAsksOneAccess : Obligations.ProbeAsksOneAccess := by
  unfold Obligations.ProbeAsksOneAccess
  intro s tag x y hv hr hx hy
  have ht : linkTests RequestKind.probe.code tag (le16 x ++ le16 y)
      (frameCheck RequestKind.probe.code tag (le16 x ++ le16 y)) = .ok .probe := linkTests_sent rfl rfl rfl
  have hlen : (le16 x ++ le16 y).length ≤ 272 := by simp
  have hp := handleProbe_le16 s hx hy
  constructor
  · intro hxp hyp
    rw [if_neg (by simp; omega)] at hp
    rw [exec_sent (by rw [hv]; rfl) hr hlen ht, ownerAnswer, hp]
    rfl
  · intro hoff
    rw [if_pos (by simpa using hoff)] at hp
    exact exec_answered hv hr hlen ht hp

end Sys2Proof.Machine
end

