-- ==== Sys2Proof/Proofs/MemoryAccesses.lean ====
section
/-! SUPPORT. The completions of a PROBE access (R16) and of the initialisation's writes (R5, R159). -/

namespace Sys2Proof.Machine

/-! ### PROBE_ACCESS_COMPLETE -/

theorem exec_probeAccessComplete {s : State} {x y : Nat} {live : Bool}
    (h : s.arb.running = some (.probe x y live)) :
    exec .probeAccessComplete s =
      .next (((if live then s.probeReady x y else s).freeMemory).arbitrateAfter s.arb) := by
  simp only [exec, execProbeAccessComplete, h]

theorem State.probeReady_tagged {s : State} {tag : Byte} (h : s.link.probeTag = some tag) (x y : Nat) :
    s.probeReady x y = s.setLink { s.link with
      reply := some (replyFrame RequestKind.probe.code tag (probeReply s.mem x y)), probeTag := none } := by
  simp only [State.probeReady, h]

theorem State.probeReady_frame (s : State) (x y : Nat) : ∃ l, s.probeReady x y = s.setLink l := by
  unfold State.probeReady
  split <;> exact ⟨_, rfl⟩

/-- Settles O20: the completion readies the reply of an open transaction, frees the memory and grants. -/
theorem probeReplyReady : Obligations.ProbeReplyReady := by
  unfold Obligations.ProbeReplyReady
  intro s x y live h
  obtain ⟨l, hl⟩ : ∃ l, (if live then s.probeReady x y else s) = s.setLink l := by
    split
    · exact s.probeReady_frame x y
    · exact ⟨s.link, rfl⟩
  have hlink : (if live then s.probeReady x y else s).link = l := by rw [hl, State.setLink_link]
  obtain ⟨a, n, hf⟩ := (s.setLink l).freeMemory.arbitrateAfter_frame s.arb
  refine ⟨_, exec_probeAccessComplete h, ?_, State.arbitrateAfter_settled _ _, ?_, ?_, ?_⟩
  · rw [hl, hf]
    rfl
  · intro hs hd hp
    have hfirst : (s.setLink l).freeMemory.arb.first = none := Arbiter.first_of_none hs hd hp
    rw [hl, State.arbitrateAfter_of_none _ hfirst]
    exact ⟨rfl, rfl⟩
  · rintro rfl
    rw [hl, hf]
    exact hlink.symm
  · rintro tag rfl ht
    rw [if_pos rfl, State.probeReady_tagged ht] at hlink
    rw [hl, hf]
    exact hlink.symm

/-! ### INIT_WRITE_COMPLETE -/

/-- The columns of a panel's segment have numbers below the planes' stride (R1). -/
theorem segmentColumns_lt {columns g x : Nat} (hc : columns ≤ 2048) (h : x ∈ segmentColumns columns g) :
    x < 2048 := (mem_segmentColumns.1 h).2.2.trans_le hc

/-- What the `i`-th initialisation write leaves in the two planes (R5): one segment of one plane takes its initial
values, the cell plane's for an even `i` and the draft plane's for an odd one, and no other pixel changes. -/
def PixelMem.initWritten (m m' : PixelMem) (columns i x y' : Nat) : Prop :=
  m'.cell x y' = (if i % 2 = 0 ∧ y' = i / 2 / segments columns ∧
      x ∈ segmentColumns columns (i / 2 % segments columns) then Cell.initial else m.cell x y') ∧
  m'.draft x y' = (if i % 2 = 1 ∧ y' = i / 2 / segments columns ∧
      x ∈ segmentColumns columns (i / 2 % segments columns) then initialDraft else m.draft x y')

theorem State.initWrite_frame (s : State) (i : Nat) : ∃ m, s.initWrite i = s.setMem m := by
  unfold State.initWrite
  simp only
  split <;> exact ⟨_, rfl⟩

theorem State.initWrite_written {s : State} (hm : s.mem.wf = true) (hc : s.columns ≤ 2048) (i : Nat)
    {x : Nat} (hx : x < 2048) (y' : Nat) : s.mem.initWritten (s.initWrite i).mem s.columns i x y' := by
  have hxs : ∀ z ∈ segmentColumns s.columns (i / 2 % segments s.columns), z < 2048 :=
    fun z hz => segmentColumns_lt hc hz
  unfold PixelMem.initWritten State.initWrite
  simp only
  split
  · rename_i h0
    have h1 : ¬ i % 2 = 1 := by omega
    refine ⟨?_, ?_⟩
    · rw [State.setMem_mem, PixelMem.cell_writeCells _ _ _ _ hm hxs x y' hx]
      simp only [h0, true_and]
    · rw [State.setMem_mem, PixelMem.draft, (PixelMem.writeCells_frame _ _ _ _).1]
      simp only [h1, false_and, if_false]
      rfl
  · rename_i h0
    have h1 : i % 2 = 1 := by omega
    refine ⟨?_, ?_⟩
    · rw [State.setMem_mem, PixelMem.cell, (PixelMem.writeDrafts_frame _ _ _ _).1]
      simp only [h0, false_and, if_false]
      rfl
    · rw [State.setMem_mem, PixelMem.draft_writeDrafts _ _ _ _ hm hxs x y' hx]
      simp only [h1, true_and]

theorem exec_initWriteComplete {s : State} (h : s.arb.running = some .init) :
    exec .initWriteComplete s = .next s.initAccess := by
  simp only [exec, execInitWriteComplete, h]

/-- An initialisation write before the last. -/
theorem State.initAccess_before {s : State} (h : s.loader.initDone + 1 < s.initAccesses) :
    s.initAccess =
      (s.initWrite s.loader.initDone).setLoader { s.loader with initDone := s.loader.initDone + 1 } := if_pos h

/-- The last initialisation write. -/
theorem State.initAccess_last {s : State} (h : s.initAccesses ≤ s.loader.initDone + 1) :
    s.initAccess = ((s.initWrite s.loader.initDone).setLoader
      { s.loader with initDone := s.loader.initDone + 1 }).freeMemory.imageValid.arbitrate :=
  if_neg (Nat.not_lt.2 h)

/-- With the slots EMPTY, no reload and no failed band, a VALID image starts a reload into slot A (R24, R25). -/
theorem State.reloadTarget_empty {s : State} (hv : s.loader.image = .valid) (ha : s.cache.a.state = .empty)
    (hr : s.cache.a.refs = 0) (hb : s.cache.b.state = .empty) (hn : s.cache.reload = none)
    (hf : s.cache.failed = []) : s.reloadTarget = some .a := by
  simp [State.reloadTarget, State.trigger, Slot.holds, Cache.target, Slot.free, hv, ha, hr, hb, hn, hf]

/-- The image becomes VALID with the cache as reset left it: sampling starts, and the reload into slot A. -/
theorem State.imageValid_empty {s : State} (ha : s.cache.a.state = .empty) (hr : s.cache.a.refs = 0)
    (hb : s.cache.b.state = .empty) (hn : s.cache.reload = none) (hf : s.cache.failed = []) :
    s.imageValid = (((s.setLoader { s.loader with image := .valid }).startSampling).startReload .a) := by
  have ht : (s.setLoader { s.loader with image := .valid }).startSampling.reloadTarget = some .a :=
    State.reloadTarget_empty rfl ha hr hb hn hf
  rw [State.imageValid, State.evalTrigger, ht]

/-- Settles O31: each write sets its segment, and the last one makes the image VALID with the cache empty. -/
theorem initialisationRuns : Obligations.InitialisationRuns := by
  unfold Obligations.InitialisationRuns
  constructor
  · rintro s y g h hm hc hlt rfl rfl
    obtain ⟨m, hw⟩ := s.initWrite_frame s.loader.initDone
    have hwritten := fun {x : Nat} (hx : x < 2048) => State.initWrite_written hm hc s.loader.initDone hx
    rw [hw] at hwritten
    refine ⟨_, exec_initWriteComplete h, ?_⟩
    rw [State.initAccess_before hlt, hw]
    exact ⟨rfl, fun x y' hx => (hwritten hx y').1, fun x y' hx => (hwritten hx y').2, rfl⟩
  · rintro s y g h hle rfl rfl ha hr hb hn hf
    obtain ⟨m, hw⟩ := s.initWrite_frame s.loader.initDone
    have hwritten := fun hm hc {x : Nat} (hx : x < 2048) =>
      State.initWrite_written (s := s) hm hc s.loader.initDone hx
    rw [hw] at hwritten
    refine ⟨_, exec_initWriteComplete h, ?_⟩
    have hvalid := State.imageValid_empty (s := ((s.setMem m).setLoader
      { s.loader with initDone := s.loader.initDone + 1 }).freeMemory) ha hr hb hn hf
    rw [State.initAccess_last hle, hw, hvalid]
    exact ⟨rfl, fun hm hc x y' hx => hwritten hm hc hx y', rfl, rfl, rfl, rfl, rfl,
      State.arbitrate_settled _⟩

end Sys2Proof.Machine
end

