-- ==== Sys2Proof/Proofs/ReadyWork.lean ====
section
/-! SUPPORT. The test for ready work (R59): which state it makes of one with nothing left over, and the lane set a
frame begins with (R98, R99, R103). -/

namespace Sys2Proof.Machine

/-! ### Admission order (R50) -/

/-- Orders less than 2^31 above a base are compared by their distance from it. -/
theorem earlier_iff_of_base {a b base : BitVec 32} (ha : (a - base).toNat < 2147483648)
    (hb : (b - base).toNat < 2147483648) : earlier a b = true ↔ (a - base).toNat < (b - base).toNat := by
  have hba : b - a = (b - base) - (a - base) := by bv_omega
  simp only [earlier, Bool.and_eq_true, decide_eq_true_eq]
  rw [hba, BitVec.toNat_sub (b - base) (a - base)]
  omega

section Order

variable {α : Type} {key : α → BitVec 32}

theorem insertByOrder_perm (a : α) (l : List α) : (insertByOrder key a l).Perm (a :: l) := by
  induction l with
  | nil => exact .refl _
  | cons b l ih =>
    unfold insertByOrder
    split
    · exact (ih.cons b).trans (.swap a b l)
    · exact .refl _

theorem sortByOrder_perm (l : List α) : (sortByOrder key l).Perm l := by
  induction l with
  | nil => exact .refl _
  | cons a l ih => exact (insertByOrder_perm a _).trans (ih.cons a)

/-- An element put into its place in a list in admission order. -/
theorem insertByOrder_sorted {base : BitVec 32} {a : α} {l : List α}
    (hk : ∀ x ∈ a :: l, (key x - base).toNat < 2147483648)
    (h : l.Pairwise (fun x y => earlier (key y) (key x) = false)) :
    (insertByOrder key a l).Pairwise (fun x y => earlier (key y) (key x) = false) := by
  have hle : ∀ x ∈ a :: l, ∀ y ∈ a :: l,
      (earlier (key y) (key x) = false ↔ (key x - base).toNat ≤ (key y - base).toNat) := by
    intro x hx y hy
    rw [← Bool.not_eq_true, earlier_iff_of_base (hk y hy) (hk x hx), not_lt]
  induction l with
  | nil => exact List.pairwise_singleton _ _
  | cons b l ih =>
    have hb := List.pairwise_cons.1 h
    have hab : a ∈ a :: b :: l := by simp
    have hbm : b ∈ a :: b :: l := by simp
    have hsub : ∀ x ∈ a :: l, x ∈ a :: b :: l := fun x hx => by
      rcases List.mem_cons.1 hx with rfl | hx
      · exact hab
      · exact List.mem_cons_of_mem _ (List.mem_cons_of_mem _ hx)
    unfold insertByOrder
    split
    · rename_i hlt
      have hba : (key b - base).toNat ≤ (key a - base).toNat :=
        ((earlier_iff_of_base (hk b hbm) (hk a hab)).1 hlt).le
      refine List.pairwise_cons.2 ⟨fun x hx => ?_, ih (fun x hx => hk x (hsub x hx)) hb.2
        fun x hx y hy => hle x (hsub x hx) y (hsub y hy)⟩
      rcases List.mem_cons.1 ((insertByOrder_perm a l).mem_iff.1 hx) with rfl | hx
      · exact (hle b hbm x hab).2 hba
      · exact hb.1 x hx
    · rename_i hnlt
      have hab' : earlier (key b) (key a) = false := by simpa using hnlt
      refine List.pairwise_cons.2 ⟨fun x hx => ?_, h⟩
      rcases List.mem_cons.1 hx with rfl | hx
      · exact hab'
      · have hxm : x ∈ a :: b :: l := List.mem_cons_of_mem _ (List.mem_cons_of_mem _ hx)
        exact (hle a hab x hxm).2
          (((hle a hab b hbm).1 hab').trans ((hle b hbm x hxm).1 (hb.1 x hx)))

/-- A list in admission order has none earlier behind one later, for orders as near as R50 says they are. -/
theorem sortByOrder_sorted {base : BitVec 32} {l : List α} (hk : ∀ x ∈ l, (key x - base).toNat < 2147483648) :
    (sortByOrder key l).Pairwise (fun x y => earlier (key y) (key x) = false) := by
  induction l with
  | nil => exact List.Pairwise.nil
  | cons a l ih =>
    refine insertByOrder_sorted (base := base) (fun x hx => ?_) (ih fun x hx => hk x (List.mem_cons_of_mem _ hx))
    rcases List.mem_cons.1 hx with rfl | hx
    · exact hk x (by simp)
    · exact hk x (List.mem_cons_of_mem _ ((sortByOrder_perm l).mem_iff.1 hx))

/-- Only the empty list has no earliest element. -/
theorem earliestBy_eq_none {l : List α} : earliestBy key l = none ↔ l = [] := by
  cases l with
  | nil => simp [earliestBy]
  | cons a l =>
    unfold earliestBy
    split
    · simp
    · split <;> simp

end Order

/-! ### The lane set of a frame (R99, R103) -/

/-- The lanes that are ARMING, as the scan engine takes them before it orders them. -/
def State.armingViews (s : State) : List ArmingView :=
  (allLanes.filter (fun i => (s.lane i).state = .arming)).map (fun i => (s.lane i).armingView i)

/-- The lanes that are DRIVING, as the scan engine takes them. -/
def State.drivingViews (s : State) : List DrivingView :=
  (allLanes.filter (fun i => (s.lane i).state = .driving)).map (fun i => (s.lane i).drivingView i)

/-- What a frame begins with (R98, R106). -/
theorem State.beginFrame_eq (s : State) : s.beginFrame = { s with
    panel := { s.panel with gstart := true, gate := .line 0 }
    arb := { s.arb with scan := some (.scanRead false) }
    scan := { s.scan with
      pos := .line 0 .reading, arming := sortByOrder (·.order) s.armingViews, driving := s.drivingViews
      limits := s.limits.inForce, todo := lineReads s.columns 0 (sortByOrder (·.order) s.armingViews)
      cells := [], drafts := [], work := [], lineTimer := some (linePeriod s.hdr), windowTimer := none
      cut := false } } := by
  simp only [State.beginFrame, State.beginLine, State.setScan, State.setPanel, State.askScan, State.setArb,
    State.armingViews, State.drivingViews, decide_true]
  rfl

/-- The lane set depends on the scan engine's views and the lanes alone. -/
theorem State.holdsLaneSet_of_views {t s : State} (ha : t.scan.arming = sortByOrder (·.order) s.armingViews)
    (hd : t.scan.driving = s.drivingViews) (hl : t.lanes = s.lanes) : t.holdsLaneSet := by
  have hlane : ∀ i, t.lane i = s.lane i := fun i => by rw [State.lane, State.lane, hl]
  have harm : ∀ v ∈ t.scan.arming, ∃ i, v = (s.lane i).armingView i := by
    intro v hv
    rw [ha, (sortByOrder_perm _).mem_iff, State.armingViews, List.mem_map] at hv
    obtain ⟨i, -, rfl⟩ := hv
    exact ⟨i, rfl⟩
  refine ⟨?_, ?_, ?_, ?_, ?_⟩
  · rw [ha]
    simp only [hlane]
    refine ((sortByOrder_perm _).map _).trans ?_
    rw [State.armingViews, List.map_map]
    exact .of_eq (List.map_id _)
  · rintro v hv l rfl
    obtain ⟨i, rfl⟩ := harm v hv
    have hi : t.lane ((s.lane i).armingView i).lane = s.lane i := hlane i
    rw [hi]
    exact ⟨fun o h => by simp [Lane.armingView, h], fun r h => by simp [Lane.armingView, h],
      fun m h => by simp [Lane.armingView, h], rfl, fun sl h => by simp [Lane.armingView, h]⟩
  · intro base hbase
    rw [ha] at hbase ⊢
    exact sortByOrder_sorted (base := base) fun v hv => hbase v ((sortByOrder_perm _).mem_iff.2 hv)
  · rw [hd]
    simp only [hlane]
    rw [State.drivingViews, List.map_map]
    exact .of_eq (List.map_id _)
  · intro v hv
    rw [hd, State.drivingViews, List.mem_map] at hv
    obtain ⟨i, -, rfl⟩ := hv
    have hi : t.lane ((s.lane i).drivingView i).lane = s.lane i := hlane i
    rw [hi]
    exact ⟨rfl, fun sl h => by simp [Lane.drivingView, h]⟩

/-! ### Submissions due (R175) -/

theorem mem_allLanes (i : LaneId) : i ∈ allLanes := by
  revert i
  decide

/-- Nothing is due when every lane in REPORTING waits, and the admission unit waits while an entry is marked. -/
theorem State.submissionsDue_eq_nil (s : State) : s.submissionsDue = [] ↔
    (∀ i, (s.lane i).state = .reporting → Submitter.lane i ∈ s.notices.waiting) ∧
      (s.adm.marked = [] ∨ Submitter.admission ∈ s.notices.waiting) := by
  unfold State.submissionsDue
  rw [List.append_eq_nil_iff]
  refine and_congr ?_ ?_
  · simp [List.filter_eq_nil_iff, mem_allLanes]
  · cases h : s.adm.earliestMarked with
    | none => simp [earliestBy_eq_none.1 h]
    | some p =>
      have hne : s.adm.marked ≠ [] := fun e => by simp [Admission.earliestMarked, e, earliestBy] at h
      simp [hne]

/-! ### What arming does (R56, R70, R71) -/

/-- A lane in ARMING or DRIVING is in flight. -/
theorem State.lanesInFlight_of {s : State} {i : LaneId} (h : (s.lane i).state = .arming) :
    s.lanesInFlight = true :=
  List.any_eq_true.2 ⟨i, mem_allLanes i, by simp [h]⟩

theorem State.armWaiting_lane (s : State) (i j : LaneId) (g : Grant) :
    (s.armWaiting i g).lane j = if j = i then (s.lane i).nextPass g else s.lane j :=
  State.setLane_lane (s.takeRef g.slot) i j _

theorem State.armPending_lane (s : State) (p : Pending) (i j : LaneId) (g : Grant) :
    (s.armPending p i g).lane j = if j = i then Lane.taken p g else s.lane j :=
  State.setLane_lane ((s.takeRef g.slot).setAdm (s.adm.remove p)) i j _

theorem State.armWaiting_inFlight (s : State) (i : LaneId) (g : Grant) :
    (s.armWaiting i g).lanesInFlight = true :=
  State.lanesInFlight_of (i := i) (by rw [State.armWaiting_lane, if_pos rfl]; rfl)

theorem State.armPending_inFlight (s : State) (p : Pending) (i : LaneId) (g : Grant) :
    (s.armPending p i g).lanesInFlight = true :=
  State.lanesInFlight_of (i := i) (by rw [State.armPending_lane, if_pos rfl]; rfl)

/-- Arming a FIFO's head arms an unmarked entry. -/
theorem State.armHead_cases {s s' : State} {c : UpdateClass} (h : s.armHead c = some s') :
    ∃ p i g, p.marked = false ∧ s' = s.armPending p i g := by
  unfold State.armHead at h
  split at h
  · cases h
  · rename_i p hp
    split at h
    · split at h
      · cases h
        exact ⟨p, _, _, by simpa using List.find?_some hp, rfl⟩
      · cases h
    · cases h

/-- Step 1 of R56 arms a lane, or finds no place or no candidate with a grant and changes nothing. -/
theorem State.armLanes_cases (is : List LaneId) : ∀ (n : Nat) (s : State),
    (State.armLanes is n s).2.lanesInFlight = true ∨
      (State.armLanes is n s = (n, s) ∧ (n = 0 ∨ ∀ i ∈ is, s.grant ((s.lane i).cls.getD .normal) = none)) := by
  induction is with
  | nil => exact fun n s => .inr ⟨by rw [State.armLanes], .inr (by simp)⟩
  | cons i is ih =>
    intro n s
    cases n with
    | zero => exact .inr ⟨by rw [State.armLanes]; simp, .inl rfl⟩
    | succ n =>
      unfold State.armLanes
      split
      · rename_i g _
        rcases ih n (s.armWaiting i g) with h | ⟨h, -⟩
        · exact .inl h
        · exact .inl (by rw [h]; exact s.armWaiting_inFlight i g)
      · rename_i hi
        rcases ih (n + 1) s with h | ⟨h, h0 | hall⟩
        · exact .inl h
        · cases h0
        · exact .inr ⟨h, .inr (List.forall_mem_cons.2 ⟨hi, hall⟩)⟩

/-- Steps 2 and 3 of R56 arm a lane, or find no place or no head that can arm and change nothing. -/
theorem State.armFifo_cases (c : UpdateClass) (n : Nat) (s : State) :
    (State.armFifo c n s).2.lanesInFlight = true ∨
      (State.armFifo c n s = (n, s) ∧ (n = 0 ∨ s.armHead c = none)) := by
  induction n generalizing s with
  | zero => exact .inr ⟨by rw [State.armFifo], .inl rfl⟩
  | succ n ih =>
    unfold State.armFifo
    split
    · rename_i s' hs
      obtain ⟨p, i, g, -, rfl⟩ := State.armHead_cases hs
      rcases ih (s.armPending p i g) with h | ⟨h, -⟩
      · exact .inl h
      · exact .inl (by rw [h]; exact s.armPending_inFlight p i g)
    · rename_i hs
      exact .inr ⟨rfl, .inr hs⟩

/-- Lanes in flight stay in flight while a FIFO arms. -/
theorem State.armFifo_inFlight {s : State} (h : s.lanesInFlight = true) (c : UpdateClass) (n : Nat) :
    (State.armFifo c n s).2.lanesInFlight = true := by
  rcases State.armFifo_cases c n s with h' | ⟨h', -⟩
  · exact h'
  · rw [h']
    exact h

theorem State.armBoundary_eq (s : State) : s.armBoundary =
    (State.armFifo .normal
      (State.armFifo .urgent (State.armLanes s.waitingReady 4 s).1 (State.armLanes s.waitingReady 4 s).2).1
      (State.armFifo .urgent (State.armLanes s.waitingReady 4 s).1 (State.armLanes s.waitingReady 4 s).2).2).2 :=
  rfl

/-- Ready work arms (R59). -/
theorem State.armBoundary_inFlight {s : State} (h : s.readyWork = true) : s.armBoundary.lanesInFlight = true := by
  rw [State.armBoundary_eq]
  rcases State.armLanes_cases s.waitingReady 4 s with h1 | ⟨h1, h0 | hnone⟩
  · exact State.armFifo_inFlight (State.armFifo_inFlight h1 _ _) _ _
  · cases h0
  rw [h1]
  rcases State.armFifo_cases .urgent 4 s with h2 | ⟨h2, h0 | hurgent⟩
  · exact State.armFifo_inFlight h2 _ _
  · cases h0
  rw [h2]
  rcases State.armFifo_cases .normal 4 s with h3 | ⟨-, h0 | hnormal⟩
  · exact h3
  · cases h0
  have hw : s.waitingReady.any (fun i => (s.grant ((s.lane i).cls.getD .normal)).isSome) = false :=
    List.any_eq_false.2 fun i hi => by simp [hnone i hi]
  rw [State.readyWork, hw, hurgent, hnormal] at h
  cases h

/-! ### Arming makes no submission due -/

/-- An unmarked entry leaves the marked ones as they are. -/
theorem Admission.marked_remove {a : Admission} {p : Pending} (h : p.marked = false) :
    (a.remove p).marked = a.marked := by
  have herase : ∀ l : List Pending, (l.erase p).filter (·.marked) = l.filter (·.marked) := by
    intro l
    rw [← List.erase_filter, List.erase_of_not_mem]
    simp [h]
  simp only [Admission.marked, Admission.remove, List.filter_append, herase]

theorem State.armWaiting_dueNil {s : State} (h : s.submissionsDue = []) (i : LaneId) (g : Grant) :
    (s.armWaiting i g).submissionsDue = [] := by
  rw [State.submissionsDue_eq_nil] at h ⊢
  refine ⟨fun j hj => ?_, h.2⟩
  rw [State.armWaiting_lane] at hj
  split at hj
  · cases hj
  · exact h.1 j hj

theorem State.armPending_dueNil {s : State} (h : s.submissionsDue = []) {p : Pending} (hp : p.marked = false)
    (i : LaneId) (g : Grant) : (s.armPending p i g).submissionsDue = [] := by
  rw [State.submissionsDue_eq_nil] at h ⊢
  refine ⟨fun j hj => ?_, h.2.imp_left fun e => (Admission.marked_remove hp).trans e⟩
  rw [State.armPending_lane] at hj
  split at hj
  · cases hj
  · exact h.1 j hj

theorem State.armLanes_dueNil (is : List LaneId) : ∀ (n : Nat) (s : State), s.submissionsDue = [] →
    (State.armLanes is n s).2.submissionsDue = [] := by
  induction is with
  | nil => exact fun n s h => by rw [State.armLanes]; exact h
  | cons i is ih =>
    intro n s h
    cases n with
    | zero => rw [State.armLanes]; exact h; simp
    | succ n =>
      unfold State.armLanes
      split
      · exact ih n _ (State.armWaiting_dueNil h i _)
      · exact ih (n + 1) s h

theorem State.armFifo_dueNil (c : UpdateClass) (n : Nat) : ∀ s : State, s.submissionsDue = [] →
    (State.armFifo c n s).2.submissionsDue = [] := by
  induction n with
  | zero => exact fun s h => by rw [State.armFifo]; exact h
  | succ n ih =>
    intro s h
    unfold State.armFifo
    split
    · rename_i s' hs
      obtain ⟨p, i, g, hp, rfl⟩ := State.armHead_cases hs
      exact ih _ (State.armPending_dueNil h hp i g)
    · exact h

theorem State.armBoundary_dueNil {s : State} (h : s.submissionsDue = []) : s.armBoundary.submissionsDue = [] := by
  rw [State.armBoundary_eq]
  exact State.armFifo_dueNil _ _ _ (State.armFifo_dueNil _ _ _ (State.armLanes_dueNil _ _ _ h))

/-! ### Arming reads and writes nothing of the arbiter or the limits -/

/-- Whether a FIFO's head can arm (R56, R58). -/
theorem State.armHead_isSome (s : State) (c : UpdateClass) :
    (s.armHead c).isSome = (s.head c).any (fun p => s.eligible p && (s.freeLane c).isSome) := by
  unfold State.armHead
  cases s.head c with
  | none => rfl
  | some p =>
    simp only [Option.any_some]
    by_cases he : s.eligible p = true
    · have hg : (s.grant p.cls).isSome = true := by
        simp only [State.eligible, Bool.and_eq_true] at he
        exact he.1.1.2
      obtain ⟨g, hg⟩ := Option.isSome_iff_exists.1 hg
      rw [if_pos he, hg]
      cases s.freeLane c <;> simp [he]
    · simp [he]

theorem State.readyWork_eq (s : State) : s.readyWork =
    (s.waitingReady.any (fun i => (s.grant ((s.lane i).cls.getD .normal)).isSome) ||
      (s.head .urgent).any (fun p => s.eligible p && (s.freeLane .urgent).isSome) ||
      (s.head .normal).any (fun p => s.eligible p && (s.freeLane .normal).isSome)) := by
  rw [State.readyWork, State.armHead_isSome, State.armHead_isSome]

theorem State.limitsInForce_readyWork (s : State) : s.limitsInForce.readyWork = s.readyWork := by
  rw [State.readyWork_eq, State.readyWork_eq]
  rfl

theorem State.setArb_readyWork (s : State) (a : Arbiter) : (s.setArb a).readyWork = s.readyWork := by
  rw [State.readyWork_eq, State.readyWork_eq]
  rfl

theorem State.setArb_armLanes (a : Arbiter) (is : List LaneId) : ∀ (n : Nat) (s : State),
    State.armLanes is n (s.setArb a) =
      ((State.armLanes is n s).1, (State.armLanes is n s).2.setArb a) := by
  induction is with
  | nil => exact fun n s => by rw [State.armLanes, State.armLanes]
  | cons i is ih =>
    intro n s
    cases n with
    | zero => rw [State.armLanes, State.armLanes] <;> simp
    | succ n =>
      have hgrant : (s.setArb a).grant (((s.setArb a).lane i).cls.getD .normal) =
          s.grant ((s.lane i).cls.getD .normal) := rfl
      rw [State.armLanes, State.armLanes, hgrant]
      split
      · exact ih n (s.armWaiting i _)
      · exact ih (n + 1) s

theorem State.setArb_armHead (a : Arbiter) (c : UpdateClass) (s : State) :
    (s.setArb a).armHead c = (s.armHead c).map (·.setArb a) := by
  have hhead : (s.setArb a).head c = s.head c := rfl
  have helig : ∀ p, (s.setArb a).eligible p = s.eligible p := fun p => rfl
  have hgrant : ∀ p : Pending, (s.setArb a).grant p.cls = s.grant p.cls := fun p => rfl
  have hlane : (s.setArb a).freeLane c = s.freeLane c := rfl
  unfold State.armHead
  rw [hhead]
  cases s.head c with
  | none => rfl
  | some p =>
    simp only [helig, hgrant, hlane]
    split
    · cases s.grant p.cls <;> cases s.freeLane c <;> rfl
    · rfl

theorem State.setArb_armFifo (a : Arbiter) (c : UpdateClass) (n : Nat) : ∀ s : State,
    State.armFifo c n (s.setArb a) = ((State.armFifo c n s).1, (State.armFifo c n s).2.setArb a) := by
  induction n with
  | zero => exact fun s => by rw [State.armFifo, State.armFifo]
  | succ n ih =>
    intro s
    rw [State.armFifo, State.armFifo, State.setArb_armHead]
    cases s.armHead c with
    | none => rfl
    | some s' => exact ih s'

theorem State.setArb_armBoundary (s : State) (a : Arbiter) :
    (s.setArb a).armBoundary = s.armBoundary.setArb a := by
  have hw : (s.setArb a).waitingReady = s.waitingReady := rfl
  rw [State.armBoundary_eq, State.armBoundary_eq, hw, State.setArb_armLanes]
  simp only [State.setArb_armFifo]

/-! ### The end of an event with lanes in flight -/

/-- With nothing due, the rails ON and a lane in flight, the end of an event stops the idle hold timer (R140). -/
theorem State.settle_inFlight {s : State} (hd : s.submissionsDue = []) (hon : s.power.state = .on)
    (hf : s.lanesInFlight = true) : s.settle = s.setPower { s.power with idleTimer := none } := by
  have hactive : s.laneActivity = true := by
    obtain ⟨i, hi, h⟩ := List.any_eq_true.1 hf
    exact List.any_eq_true.2 ⟨i, hi, by simp only [Bool.or_eq_true] at h ⊢; exact .inl h⟩
  have hp : s.settlePower = s.setPower { s.power with idleTimer := none } := by
    unfold State.settlePower
    rw [hon]
    simp only
    split
    · rw [if_pos hf]
    · rw [if_neg (by simp [State.idle, hactive])]
  have hdrained : (s.setPower { s.power with idleTimer := none }).testDrained =
      s.setPower { s.power with idleTimer := none } := by
    unfold State.testDrained
    exact if_neg (by simp [hon])
  rw [State.settle, State.flushEnds_of_none hd, hp, hdrained]

/-! ### The arbiter at the end of an event -/

/-- A grant leaves the drain's access waiting or gives it the memory. -/
theorem Arbiter.give_drain {a : Arbiter} (h : a.drain = true) (x : Access) :
    (a.give x).running = some .drain ∨ (a.give x).drain = true := by
  cases x
  case drain => exact .inl rfl
  all_goals exact .inr h

theorem Arbiter.grant_cases (a : Arbiter) : a.grant = a ∨ ∃ x, a.first = some x ∧ a.grant = a.give x := by
  unfold Arbiter.grant
  split
  · rename_i x _ hx
    exact .inr ⟨x, hx, rfl⟩
  · exact .inl rfl

/-- The drain's access that waits, waits on or has the memory at the end of an event. -/
theorem State.arbitrateAfter_drain {s : State} (h : s.arb.drain = true) (old : Arbiter) :
    (s.arbitrateAfter old).arb.running = some .drain ∨ (s.arbitrateAfter old).arb.drain = true := by
  rcases s.arbitrateAfter_arb old with hg | ⟨x, -, -, -, hx⟩
  · rw [hg]
    rcases s.arb.grant_cases with hg | ⟨x, -, hx⟩
    · rw [hg]
      exact .inr h
    · rw [hx]
      exact Arbiter.give_drain h x
  · rw [hx]
    exact Arbiter.give_drain h x

/-- The scan engine's access that waits, waits on or has the memory at the end of an event. -/
theorem State.arbitrateAfter_scan {s : State} {x : Access} (h : s.arb.scan = some x) (old : Arbiter) :
    (s.arbitrateAfter old).arb.running = some x ∨ (s.arbitrateAfter old).arb.scan = some x := by
  rcases s.arbitrateAfter_grants old with hg | ⟨-, -, ⟨-, -, ht⟩ | ⟨-, -, _, _, -, ht⟩⟩
  · rw [hg]
    rcases s.arb.grant_cases with hg | ⟨z, hz, hg⟩
    · rw [hg]
      exact .inr h
    · obtain rfl : x = z := by simpa [Arbiter.first, h] using hz
      rw [hg]
      exact .inl (Arbiter.give_running _ _)
  · rw [ht]
    exact .inr h
  · rw [ht]
    exact .inr h

/-! ### The test for ready work at the end of an event (R59) -/

/-- A frame that begins with work in flight, at the end of its event: the idle hold stops and nothing else
changes. -/
theorem State.beginFrame_settle {w : State} (hd : w.submissionsDue = []) (hon : w.power.state = .on)
    (hf : w.lanesInFlight = true) :
    w.beginFrame.settle = w.beginFrame.setPower { w.power with idleTimer := none } := by
  rw [State.beginFrame_eq]
  exact State.settle_inFlight hd hon hf

/-- The blocks a frame's begin and the end of its event leave as they are. -/
theorem State.beginFrame_end_frame (w : State) (p : Power) (old : Arbiter) :
    ∃ g c b n, (w.beginFrame.setPower p).arbitrateAfter old =
      { w with panel := g, scan := c, power := p, arb := b, choices := n } := by
  obtain ⟨b, n, h⟩ := (w.beginFrame.setPower p).arbitrateAfter_frame old
  exact ⟨_, _, b, n, by rw [h, State.beginFrame_eq]; rfl⟩

/-- A frame that has begun from what the arming has made, with what the end of its event adds. -/
theorem State.frameBegun_of_armed {u w : State} (hlim : w.limits = { u.limits with inForce := u.limits.taken })
    (hl : w.lanes = u.limitsInForce.armBoundary.lanes) (ha : w.adm = u.limitsInForce.armBoundary.adm)
    (hm : w.mem = u.mem) (hf : w.lanesInFlight = true) (p : Power) (old : Arbiter) :
    u.frameBegun ((w.beginFrame.setPower p).arbitrateAfter old) := by
  have hask : (w.beginFrame.setPower p).arb.scan = some (.scanRead false) := by rw [State.beginFrame_eq]; rfl
  have hscan := State.arbitrateAfter_scan hask old
  obtain ⟨b, n, ht⟩ := (w.beginFrame.setPower p).arbitrateAfter_frame old
  rw [ht, State.beginFrame_eq] at hscan
  rw [ht, State.beginFrame_eq]
  have hinForce : w.limits.inForce = u.limits.taken := by rw [hlim]
  exact ⟨hlim, hinForce, hl, ha, hf, State.holdsLaneSet_of_views (s := w) rfl rfl rfl, rfl, rfl, rfl, hscan, hm⟩

/-- The test for ready work where it starts a frame. -/
theorem State.testReady_pos {s : State} (h : s.power.state = .on ∧ s.scan.pos = .stopped ∧ s.readyWork = true) :
    s.testReady = s.startFrame := by
  obtain ⟨hon, hstop, hr⟩ := h
  rw [State.testReady, if_pos (by simp [hon, hstop, hr])]

/-- The test for ready work where it does not. -/
theorem State.testReady_neg {s : State}
    (h : ¬ (s.power.state = .on ∧ s.scan.pos = .stopped ∧ s.readyWork = true)) : s.testReady = s := by
  rw [State.testReady, if_neg (by simpa [and_assoc] using h)]

/-- In an event that left nothing else over, the test for ready work and the end of the event are what
`State.readyTested` says, whatever accesses the event has asked the arbiter for. -/
theorem State.readyTested_of_quiet {u : State} (hq : u.quiet = true) (a old : Arbiter) :
    u.readyTested ((u.setArb a).testReady.settle.arbitrateAfter old) := by
  have hq' : (u.setArb a).quiet = true := hq
  have hready := u.setArb_readyWork a
  constructor
  · rintro ⟨hon, hstop, hr⟩
    have hdue : u.submissionsDue = [] := by
      simp only [State.quiet, Bool.and_eq_true, List.isEmpty_iff] at hq
      exact hq.1.1
    have hflight : u.limitsInForce.armBoundary.lanesInFlight = true :=
      State.armBoundary_inFlight (by rw [State.limitsInForce_readyWork, hr])
    have hdue' : u.limitsInForce.armBoundary.submissionsDue = [] :=
      State.armBoundary_dueNil (s := u.limitsInForce) hdue
    have hstart : (u.setArb a).startFrame = (u.limitsInForce.armBoundary.setArb a).beginFrame :=
      congrArg State.beginFrame (u.limitsInForce.setArb_armBoundary a)
    obtain ⟨k, l, m, hw⟩ := u.limitsInForce.armBoundary_frame
    rw [State.testReady_pos (by exact ⟨hon, hstop, hready.trans hr⟩), hstart]
    have hbegun := fun w => State.frameBegun_of_armed (u := u) (w := w)
    generalize u.limitsInForce.armBoundary = w at hw hflight hdue' hbegun ⊢
    have hpower : w.power = u.power := by rw [hw]; rfl
    have hsettle := State.beginFrame_settle (w := w.setArb a) (by exact hdue') (by rw [State.setArb_power, hpower, hon])
      hflight
    rw [State.setArb_power, hpower] at hsettle
    rw [hsettle]
    refine ⟨hbegun (w.setArb a) (by rw [hw]; rfl) rfl rfl (by rw [hw]; rfl) hflight _ old, ?_⟩
    obtain ⟨g, c, b, n, ht⟩ := (w.setArb a).beginFrame_end_frame { u.power with idleTimer := none } old
    rw [ht, hw]
    exact ⟨rfl, rfl, rfl⟩
  · intro hno
    obtain ⟨b, n, ht⟩ := (u.setArb a).arbitrateAfter_frame old
    rw [State.testReady_neg (by rwa [hready]), State.settle_of_quiet hq', ht]
    rfl

end Sys2Proof.Machine
end

