-- ==== Sys2Proof/Proofs/Drain.lean ====
section
/-! SUPPORT. The drain's accesses (R10, R11): what one writes, and what the last one of an entry leaves. -/

namespace Sys2Proof.Machine

/-! ### What an access writes -/

theorem WriteEntry.columnsIn_lt {e : WriteEntry} (h : e.area.x1 < 2048) {g x : Nat} (hx : x ∈ e.columnsIn g) :
    x < 2048 := by
  simp only [WriteEntry.columnsIn, List.mem_range'_1] at hx
  omega

/-- A drain access leaves the cell plane. -/
theorem PixelMem.drainWrite_cells (m : PixelMem) (e : WriteEntry) (i : Nat) : (m.drainWrite e i).cells = m.cells :=
  (PixelMem.writeDrafts_frame _ _ _ m).1

/-- A drain access writes the entry's levels into its pixels of one segment, and no other pixel (R10). -/
theorem PixelMem.drainWrite_draft {m : PixelMem} (hm : m.wf = true) {e : WriteEntry} (h : e.area.x1 < 2048)
    (i : Nat) {x : Nat} (hx : x < 2048) (y : Nat) :
    (m.drainWrite e i).draft x y =
      if y = e.lineOf i ∧ x ∈ e.columnsIn (e.segmentOf i) then e.levelAt x else m.draft x y :=
  PixelMem.draft_writeDrafts _ _ _ m hm (fun _ hz => e.columnsIn_lt h hz) x y hx

/-! ### The fences fall (R11) -/

/-- An entry whose fence has fallen by 1. -/
def Pending.lowered (p : Pending) : Pending := { p with fence := p.fence - 1 }

/-- The fences have no part in what may be left over at the end of an event. -/
theorem State.quiet_lowered {s t : State} (ha : t.adm = s.adm.mapPending Pending.lowered)
    (hl : t.lanes = s.lanes) (hn : t.notices = s.notices) (hp : t.power = s.power) (hq : s.quiet = true) :
    t.quiet = true := by
  have hlane : ∀ i, t.lane i = s.lane i := fun i => by rw [State.lane, State.lane, hl]
  have hrise : t.riseRequest = s.riseRequest := by
    simp [State.riseRequest, ha, Admission.mapPending, Pending.lowered, List.any_map, Function.comp_def]
  have hidle : t.idle = s.idle := by simp [State.idle, State.laneActivity, hlane, hrise]
  have hmarked : t.adm.marked = s.adm.marked.map Pending.lowered := by
    simp only [Admission.marked, ha, Admission.mapPending, ← List.map_append, List.filter_map]
    rfl
  have hdue : t.submissionsDue = [] ↔ s.submissionsDue = [] := by
    simp only [State.submissionsDue_eq_nil, hlane, hn, hmarked, List.map_eq_nil_iff]
  have hmode : t.adm.mode = s.adm.mode := by rw [ha]; rfl
  have hquiet : t.powerQuiet = s.powerQuiet := by
    simp only [State.powerQuiet, hp, hmode, hidle, State.lanesInFlight, hlane]
  have hfree : t.allFree = s.allFree := by simp [State.allFree, hlane]
  have hu : t.adm.urgent.isEmpty = s.adm.urgent.isEmpty := by simp [ha, Admission.mapPending]
  have hnm : t.adm.normal.isEmpty = s.adm.normal.isEmpty := by simp [ha, Admission.mapPending]
  unfold State.quiet at hq ⊢
  rw [hquiet, hfree, hmode, hp, hu, hnm]
  simpa only [Bool.and_eq_true, List.isEmpty_iff, hdue] using hq

/-! ### The accesses -/

theorem exec_drainAccessComplete {s : State} {e : WriteEntry} {rest : List WriteEntry}
    (hr : s.arb.running = some .drain) (hw : s.wb.entries = e :: rest) :
    exec .drainAccessComplete s = .next ((s.drainAccess e).arbitrateAfter s.arb) := by
  simp only [exec, execDrainAccessComplete, hr, hw]

/-- The next access is asked for while entries are left (R10). -/
theorem State.nextDrain_eq (s : State) :
    s.nextDrain = s.setArb { s.arb with drain := s.arb.drain || !s.wb.entries.isEmpty } := by
  unfold State.nextDrain
  cases h : s.wb.entries.isEmpty
  · simp only [Bool.not_false, Bool.or_true]
    rfl
  · simp only [Bool.not_true, Bool.or_false]
    rfl

/-- The state an entry's last access leads to, before the test for ready work, with the arbiter as it was. -/
def State.drained (s : State) (m : PixelMem) (rest : List WriteEntry) : State :=
  { s with mem := m, wb := { entries := rest, done := 0 }, adm := s.adm.mapPending Pending.lowered }

theorem State.drained_quiet {s : State} (hq : s.quiet = true) (m : PixelMem) (rest : List WriteEntry) :
    (s.drained m rest).quiet = true := State.quiet_lowered rfl rfl rfl rfl hq

/-- An access before an entry's last. -/
theorem State.drainAccess_before {s : State} {e : WriteEntry} (h : s.wb.done + 1 < e.cost) :
    s.drainAccess e = { s with
      mem := s.mem.drainWrite e s.wb.done
      wb := { s.wb with done := s.wb.done + 1 }
      arb := { s.arb with running := none, drain := true } } := if_pos h

/-- An entry's last access. -/
theorem State.drainAccess_last {s : State} {e : WriteEntry} {rest : List WriteEntry}
    (hw : s.wb.entries = e :: rest) (h : e.cost ≤ s.wb.done + 1) :
    s.drainAccess e = ((s.drained (s.mem.drainWrite e s.wb.done) rest).setArb
      { s.arb with running := none, drain := s.arb.drain || !rest.isEmpty }).testReady.settle := by
  unfold State.drainAccess State.entryDrained
  simp only
  rw [if_neg (Nat.not_lt.2 h), State.nextDrain_eq]
  simp only [State.setMem_wb, State.freeMemory, State.setArb_wb, hw, List.tail_cons]
  rfl

/-- The test for ready work leaves the pixel memory, and the drain's access waiting. -/
theorem State.testReady_settle_keeps (s : State) :
    s.testReady.settle.mem = s.mem ∧ s.testReady.settle.arb.drain = s.arb.drain := by
  have hsettle : ∀ u : State, u.settle.mem = u.mem ∧ u.settle.arb = u.arb := by
    intro u
    obtain ⟨n, l, a, p, h⟩ := u.settle_frame
    rw [h]
    exact ⟨rfl, rfl⟩
  obtain ⟨hmem, harb⟩ := hsettle s.testReady
  rw [hmem, harb]
  by_cases h : s.power.state = .on ∧ s.scan.pos = .stopped ∧ s.readyWork = true
  · obtain ⟨k, l, a, hw⟩ := s.limitsInForce.armBoundary_frame
    rw [State.testReady_pos h, State.startFrame, State.beginFrame_eq, hw]
    exact ⟨rfl, rfl⟩
  · rw [State.testReady_neg h]
    exact ⟨rfl, rfl⟩

/-- Settles O30: before the last access only the count moves on; after it the fences fall, the next entry's access
is asked for, and the test for ready work is made in a state with nothing left over. -/
theorem drainWritesDraft : Obligations.DrainWritesDraft := by
  unfold Obligations.DrainWritesDraft
  intro s e rest hr hw hm hx1 hcase
  refine ⟨_, exec_drainAccessComplete hr hw, ?_⟩
  have hdraft := fun {x : Nat} (hx : x < 2048) y => PixelMem.drainWrite_draft hm hx1 s.wb.done hx y
  have hcells := s.mem.drainWrite_cells e s.wb.done
  obtain ⟨a, n, ht⟩ := (s.drainAccess e).arbitrateAfter_frame s.arb
  have hmemAfter : ((s.drainAccess e).arbitrateAfter s.arb).mem = (s.drainAccess e).mem := by rw [ht]
  by_cases hlast : s.wb.done + 1 < e.cost
  · have hacc := State.drainAccess_before hlast
    have hmem : ((s.drainAccess e).arbitrateAfter s.arb).mem = s.mem.drainWrite e s.wb.done := by
      rw [hmemAfter, hacc]
    have hask : (s.drainAccess e).arb.drain = true := by rw [hacc]
    refine ⟨by rw [hmem, hcells], fun x y hx => by rw [hmem, hdraft hx], State.arbitrateAfter_settled _ _,
      fun _ => State.arbitrateAfter_drain hask _, fun _ => ?_, fun h => absurd hlast (Nat.not_lt.2 h)⟩
    rw [ht, hacc, ← hw]
    exact ⟨rfl, rfl⟩
  · have hacc := State.drainAccess_last hw (Nat.not_lt.1 hlast)
    have hq : s.quiet = true := hcase.resolve_left hlast
    obtain ⟨hkeepMem, hkeepDrain⟩ := State.testReady_settle_keeps
      ((s.drained (s.mem.drainWrite e s.wb.done) rest).setArb
        { s.arb with running := none, drain := s.arb.drain || !rest.isEmpty })
    rw [← hacc] at hkeepMem hkeepDrain
    have hmem : ((s.drainAccess e).arbitrateAfter s.arb).mem = s.mem.drainWrite e s.wb.done :=
      hmemAfter.trans hkeepMem
    refine ⟨by rw [hmem, hcells], fun x y hx => by rw [hmem, hdraft hx], State.arbitrateAfter_settled _ _,
      fun h => State.arbitrateAfter_drain ?_ _, fun h => absurd h hlast, fun _ u hu => ?_⟩
    · have hne : rest ≠ [] := h.resolve_left hlast
      rw [hkeepDrain]
      cases rest with
      | nil => exact absurd rfl hne
      | cons _ _ => exact Bool.or_true _
    · have hu' : u = s.drained (s.mem.drainWrite e s.wb.done) rest := by
        rw [hu, hmem]
        rfl
      rw [hu', hacc]
      exact State.readyTested_of_quiet (State.drained_quiet hq _ _) _ _

end Sys2Proof.Machine
end

