-- ==== Sys2Proof/Proofs/CacheChoices.lean ====
section
/-! SUPPORT. Which slot the waveform cache grants, substitutes or takes as a reload's target (R24, R25, R31, R32), and
what an evaluation of the trigger does. -/

namespace Sys2Proof.Machine

/-! ### The two slots -/

theorem SlotId.forall_iff {p : SlotId → Prop} : (∀ i, p i) ↔ p .a ∧ p .b :=
  ⟨fun h => ⟨h .a, h .b⟩, fun h i => by cases i; exacts [h.1, h.2]⟩

@[simp] theorem Cache.slot_a (c : Cache) : c.slot .a = c.a := rfl

@[simp] theorem Cache.slot_b (c : Cache) : c.slot .b = c.b := rfl

theorem Slot.readyWith_iff (sl : Slot) (b : Band) : sl.readyWith b = true ↔ sl.state = .ready ∧ sl.band = some b := by
  simp [Slot.readyWith]

theorem Slot.free_iff (sl : Slot) : sl.free = true ↔ sl.refs = 0 ∧ sl.state ≠ .loading := by simp [Slot.free]

theorem Slot.holds_iff (sl : Slot) (b : Band) : sl.holds b = true ↔ sl.state ≠ .empty ∧ sl.band = some b := by
  simp [Slot.holds]

theorem Cache.readyBand_of_ready {c : Cache} {i : SlotId} (h : (c.slot i).state = .ready) :
    c.readyBand i = (c.slot i).band := if_pos h

theorem Cache.readyBand_of_not_ready {c : Cache} {i : SlotId} (h : (c.slot i).state ≠ .ready) :
    c.readyBand i = none := if_neg h

/-! ### The grant (R31, R32) -/

theorem Cache.grant_of_a {c : Cache} {cur : Band} (hs : c.a.state = .ready) (hb : c.a.band = some cur)
    (cls : UpdateClass) : c.grant cur cls = some ⟨.a, cur, false⟩ :=
  if_pos ((Slot.readyWith_iff _ _).2 ⟨hs, hb⟩)

theorem Cache.grant_of_b {c : Cache} {cur : Band} (ha : ¬ (c.a.state = .ready ∧ c.a.band = some cur))
    (hs : c.b.state = .ready) (hb : c.b.band = some cur) (cls : UpdateClass) :
    c.grant cur cls = some ⟨.b, cur, false⟩ := by
  rw [Cache.grant, if_neg (mt (Slot.readyWith_iff _ _).1 ha), if_pos ((Slot.readyWith_iff _ _).2 ⟨hs, hb⟩)]

/-- With the current band in neither slot, URGENT and a failed band are answered with the substitute. -/
theorem Cache.grant_of_neither {c : Cache} {cur : Band}
    (h : ∀ i, ¬ ((c.slot i).state = .ready ∧ (c.slot i).band = some cur)) (cls : UpdateClass) :
    c.grant cur cls = if cls = .urgent ∨ cur ∈ c.failed then c.substitute cur else none := by
  have ha : ¬ c.a.readyWith cur = true := mt (Slot.readyWith_iff _ _).1 (h .a)
  have hb : ¬ c.b.readyWith cur = true := mt (Slot.readyWith_iff _ _).1 (h .b)
  rw [Cache.grant, if_neg ha, if_neg hb]
  simp only [Bool.or_eq_true, decide_eq_true_eq, List.contains_iff_mem]

/-- Of two READY slots the substitute is the nearer one, and the lower band of two equally near. -/
theorem Cache.substitute_of_both {c : Cache} {x y : Band} (cur : Band) (ha : c.readyBand .a = some x)
    (hb : c.readyBand .b = some y) (hne : x ≠ y) : c.substitute cur =
      if distance x.val cur.val < distance y.val cur.val ∨
        (distance x.val cur.val = distance y.val cur.val ∧ x < y) then some ⟨.a, x, true⟩
      else some ⟨.b, y, true⟩ := by
  have hval : x.val ≠ y.val := fun e => hne (Fin.ext e)
  simp only [Cache.substitute, ha, hb, Fin.lt_def]
  rcases Nat.lt_trichotomy (distance x.val cur.val) (distance y.val cur.val) with hd | hd | hd
  · rw [if_pos hd, if_pos (.inl hd)]
  · rw [if_neg (by omega), if_neg (by omega)]
    by_cases hlt : y.val < x.val
    · rw [if_pos hlt, if_neg (by omega)]
    · rw [if_neg hlt, if_pos (by omega)]
  · rw [if_neg (by omega), if_pos hd, if_neg (by omega)]

/-! ### The target (R25) -/

/-- A reload's target is free of references and not in LOADING. -/
theorem Cache.target_free {c : Cache} {cur : Band} {i : SlotId} (h : c.target cur = some i) :
    (c.slot i).free = true := by
  unfold Cache.target at h
  split at h
  · rename_i hc; cases h; exact (Bool.and_eq_true_iff.1 hc).1
  split at h
  · rename_i hc; cases h; exact (Bool.and_eq_true_iff.1 hc).1
  split at h
  · rename_i hc
    obtain ⟨ha, hb⟩ := Bool.and_eq_true_iff.1 hc
    split at h
    · cases h; exact hb
    · cases h; exact ha
  split at h
  · rename_i hc; cases h; exact hc
  split at h
  · rename_i hc; cases h; exact hc
  · cases h

/-- With no EMPTY slot to take, the target is the free slot, of two the farther one. -/
theorem Cache.target_of_no_empty {c : Cache} (cur : Band) (ha : c.a.state ≠ .empty) (hb : c.b.state ≠ .empty) :
    c.target cur =
      if c.a.free = true ∧ c.b.free = true then
        (if c.a.distanceFrom cur < c.b.distanceFrom cur then some .b else some .a)
      else if c.a.free = true then some .a else if c.b.free = true then some .b else none := by
  simp [Cache.target, ha, hb]

theorem Cache.target_of_only_a {c : Cache} (cur : Band) (ha : c.a.state ≠ .empty) (hb : c.b.state ≠ .empty)
    (hfree : c.a.free = true) (hnot : ¬ c.b.free = true) : c.target cur = some .a := by
  rw [Cache.target_of_no_empty cur ha hb, if_neg (fun h => hnot h.2), if_pos hfree]

/-- A slot with references or in LOADING is not free. -/
theorem Slot.not_free {sl : Slot} (h : sl.refs ≠ 0 ∨ sl.state = .loading) : ¬ sl.free = true := by
  rw [Slot.free_iff]
  exact fun ⟨h0, hl⟩ => h.elim (· h0) hl

/-! ### The trigger (R24) -/

theorem State.trigger_iff (s : State) : s.trigger = true ↔
    s.loader.image = .valid ∧ s.thermal.band ∉ s.cache.failed ∧
      ∀ i, ¬ ((s.cache.slot i).state ≠ .empty ∧ (s.cache.slot i).band = some s.thermal.band) := by
  simp only [State.trigger, Bool.and_eq_true, Bool.not_eq_true', ← Bool.not_eq_true, decide_eq_true_eq,
    Slot.holds_iff, List.contains_iff_mem, SlotId.forall_iff, Cache.slot_a, Cache.slot_b]
  tauto

/-- A reload is due: the trigger holds and none is in progress. -/
theorem State.reloadTarget_of_due {s : State} (ht : s.trigger = true) (hn : s.cache.reload = none) :
    s.reloadTarget = s.cache.target s.thermal.band := by simp [State.reloadTarget, ht, hn]

theorem State.reloadTarget_of_no_trigger {s : State} (h : ¬ s.trigger = true) : s.reloadTarget = none := by
  simp [State.reloadTarget, h]

theorem State.evalTrigger_of_none {s : State} (h : s.reloadTarget = none) : s.evalTrigger = s := by
  rw [State.evalTrigger, h]

theorem State.evalTrigger_of_some {s : State} {i : SlotId} (h : s.reloadTarget = some i) :
    s.evalTrigger = s.startReload i := by rw [State.evalTrigger, h]

/-- While a slot that is not EMPTY has the current band no reload starts. -/
theorem State.reloadTarget_of_held {s : State} {i : SlotId} (hs : (s.cache.slot i).state ≠ .empty)
    (hb : (s.cache.slot i).band = some s.thermal.band) : s.reloadTarget = none :=
  State.reloadTarget_of_no_trigger fun h => ((State.trigger_iff s).1 h).2.2 i ⟨hs, hb⟩

/-- Of a failed band no reload starts. -/
theorem State.reloadTarget_of_failed {s : State} (h : s.thermal.band ∈ s.cache.failed) : s.reloadTarget = none :=
  State.reloadTarget_of_no_trigger fun ht => ((State.trigger_iff s).1 ht).2.1 h

/-! ### The obligation -/

theorem Cache.grant_chooses (c : Cache) (cur : Band) (cls : UpdateClass)
    (h : ∀ i, ¬ ((c.slot i).state = .ready ∧ (c.slot i).band = some cur)) (hc : cls = .urgent ∨ cur ∈ c.failed) :
    (c.a.state ≠ .ready → c.b.state ≠ .ready → c.grant cur cls = none) ∧
    (∀ x, c.a.state = .ready → c.a.band = some x → c.b.state ≠ .ready → c.grant cur cls = some ⟨.a, x, true⟩) ∧
    (∀ y, c.a.state ≠ .ready → c.b.state = .ready → c.b.band = some y → c.grant cur cls = some ⟨.b, y, true⟩) ∧
    (∀ (x y : Band) (dx dy : Nat), c.a.state = .ready → c.a.band = some x → c.b.state = .ready →
      c.b.band = some y → x ≠ y → dx = distance x.val cur.val → dy = distance y.val cur.val →
      c.grant cur cls =
        if dx < dy ∨ (dx = dy ∧ x < y) then some ⟨.a, x, true⟩ else some ⟨.b, y, true⟩) := by
  have hready : ∀ {i : SlotId} {x : Band}, (c.slot i).state = .ready → (c.slot i).band = some x →
      c.readyBand i = some x := fun hs hx => (Cache.readyBand_of_ready hs).trans hx
  have hnone : ∀ {i : SlotId}, (c.slot i).state ≠ .ready → c.readyBand i = none := Cache.readyBand_of_not_ready
  rw [Cache.grant_of_neither h, if_pos hc]
  refine ⟨fun ha hb => ?_, fun x ha hx hb => ?_, fun y ha hb hy => ?_, ?_⟩
  · rw [Cache.substitute, hnone (i := .a) ha, hnone (i := .b) hb]
  · rw [Cache.substitute, hready (i := .a) ha hx, hnone (i := .b) hb]
  · rw [Cache.substitute, hnone (i := .a) ha, hready (i := .b) hb hy]
  · rintro x y dx dy ha hx hb hy hne rfl rfl
    exact Cache.substitute_of_both cur (hready (i := .a) ha hx) (hready (i := .b) hb hy) hne

/-- Settles O35: each answer by the branch of the grant, of the target and of the trigger it is read off. -/
theorem cacheChoosesSlots : Obligations.CacheChoosesSlots := by
  unfold Obligations.CacheChoosesSlots
  refine ⟨fun c cur cls => ⟨fun hs hb => Cache.grant_of_a hs hb cls, fun ha hs hb => Cache.grant_of_b ha hs hb cls,
    fun h => ⟨?_, Cache.grant_chooses c cur cls h⟩⟩, fun c cur => ⟨fun i h => ?_, ?_, ?_, ?_, ?_, ?_, ?_⟩,
    fun s due hdue => ⟨?_, ?_⟩⟩
  · rintro rfl hf
    rw [Cache.grant_of_neither h, if_neg (by simp [hf])]
  · exact (Slot.free_iff _).1 (Cache.target_free h)
  · intro hs hr
    simp [Cache.target, Slot.free, hs, hr]
  · intro ha hs hr
    simp [Cache.target, Slot.free, ha, hs, hr]
  · intro ha hr hb hnot
    exact Cache.target_of_only_a cur (by simp [ha]) hb ((Slot.free_iff _).2 ⟨hr, by simp [ha]⟩) (Slot.not_free hnot)
  · intro hb hr ha hnot
    rw [Cache.target_of_no_empty cur ha (by simp [hb]), if_neg (fun h => Slot.not_free hnot h.1),
      if_neg (Slot.not_free hnot), if_pos ((Slot.free_iff _).2 ⟨hr, by simp [hb]⟩)]
  · intro x y ha hra hx hb hrb hy
    rw [Cache.target_of_no_empty cur (by simp [ha]) (by simp [hb]),
      if_pos ⟨(Slot.free_iff _).2 ⟨hra, by simp [ha]⟩, (Slot.free_iff _).2 ⟨hrb, by simp [hb]⟩⟩,
      Slot.distanceFrom, Slot.distanceFrom, hx, hy]
    rfl
  · intro h
    by_contra hne
    obtain ⟨i, hi⟩ := Option.ne_none_iff_exists'.1 hne
    exact Slot.not_free (h i) (Cache.target_free hi)
  · rintro (hno | hno)
    · refine State.evalTrigger_of_none ?_
      cases hn : s.cache.reload with
      | some r => simp [State.reloadTarget, hn]
      | none =>
        refine State.reloadTarget_of_no_trigger fun ht => hno (hdue.2 ?_)
        obtain ⟨hv, hf, hs⟩ := (State.trigger_iff s).1 ht
        exact ⟨hv, hn, hf, hs⟩
    · exact State.evalTrigger_of_none (by rw [State.reloadTarget, hno]; exact ite_self _)
  · intro i hd ht
    obtain ⟨hv, hn, hf, hs⟩ := hdue.1 hd
    have htrigger := (State.trigger_iff s).2 ⟨hv, hf, hs⟩
    rw [State.evalTrigger_of_some ((State.reloadTarget_of_due htrigger hn).trans ht)]
    rfl

end Sys2Proof.Machine
end

