-- ==== Sys2Proof/Proofs/HandOn.lean ====
section
/-! SUPPORT. The trigger's evaluation beside the test for ready work (R24, R33, R124): in either order (log entry 1) an
event that left nothing else over ends as `State.handedOn` says. -/

namespace Sys2Proof.Machine

/-! ### Arming reads and writes five blocks alone -/

/-- The blocks the arming reads or writes are those of `s`, the others those of `o`. -/
def State.amid (s o : State) : State :=
  { o with cache := s.cache, lanes := s.lanes, adm := s.adm, thermal := s.thermal, power := s.power }

theorem State.amid_armLanes (o : State) (is : List LaneId) : ∀ (n : Nat) (s : State),
    State.armLanes is n (s.amid o) = ((State.armLanes is n s).1, (State.armLanes is n s).2.amid o) := by
  induction is with
  | nil => exact fun n s => by rw [State.armLanes, State.armLanes]
  | cons i is ih =>
    intro n s
    cases n with
    | zero => rw [State.armLanes, State.armLanes] <;> simp
    | succ n =>
      have hgrant : (s.amid o).grant (((s.amid o).lane i).cls.getD .normal) =
          s.grant ((s.lane i).cls.getD .normal) := rfl
      rw [State.armLanes, State.armLanes, hgrant]
      split
      · exact ih n (s.armWaiting i _)
      · exact ih (n + 1) s

theorem State.amid_armHead (o : State) (c : UpdateClass) (s : State) :
    (s.amid o).armHead c = (s.armHead c).map (·.amid o) := by
  have hhead : (s.amid o).head c = s.head c := rfl
  have helig : ∀ p, (s.amid o).eligible p = s.eligible p := fun _ => rfl
  have hgrant : ∀ k, (s.amid o).grant k = s.grant k := fun _ => rfl
  have hlane : (s.amid o).freeLane c = s.freeLane c := rfl
  simp only [State.armHead, hhead, helig, hgrant, hlane]
  split
  · rfl
  · split
    · split <;> rfl
    · rfl

theorem State.amid_armFifo (o : State) (c : UpdateClass) (n : Nat) : ∀ s : State,
    State.armFifo c n (s.amid o) = ((State.armFifo c n s).1, (State.armFifo c n s).2.amid o) := by
  induction n with
  | zero => exact fun s => by rw [State.armFifo, State.armFifo]
  | succ n ih =>
    intro s
    rw [State.armFifo, State.armFifo, State.amid_armHead]
    cases s.armHead c with
    | none => rfl
    | some s' => exact ih s'

/-- The arming of a boundary is the same among whatever other blocks. -/
theorem State.amid_armBoundary (s o : State) : (s.amid o).armBoundary = s.armBoundary.amid o := by
  have hw : (s.amid o).waitingReady = s.waitingReady := rfl
  rw [State.armBoundary_eq, State.armBoundary_eq, hw, State.amid_armLanes]
  simp only [State.amid_armFifo]

/-! ### The model's counter of its choices has no part in the test for ready work -/

theorem State.setChoices_readyWork (s : State) (n : Nat) : (s.setChoices n).readyWork = s.readyWork := by
  rw [State.readyWork_eq, State.readyWork_eq]
  rfl

theorem State.setChoices_armBoundary (s : State) (n : Nat) :
    (s.setChoices n).limitsInForce.armBoundary = s.limitsInForce.armBoundary.amid (s.setChoices n).limitsInForce :=
  s.limitsInForce.amid_armBoundary (s.setChoices n).limitsInForce

/-- What the test for ready work makes of a state does not hang on the counter. -/
theorem State.readyTested_of_setChoices {u t : State} {n : Nat} (h : (u.setChoices n).readyTested t) :
    u.readyTested t := by
  obtain ⟨hpos, hneg⟩ := h
  rw [State.setChoices_readyWork] at hpos hneg
  refine ⟨fun hc => ?_, fun hc => ?_⟩
  · obtain ⟨hbegun, hcache, hpower, hrest⟩ := hpos hc
    rw [State.frameBegun, State.setChoices_armBoundary] at hbegun
    rw [State.setChoices_armBoundary] at hcache
    exact ⟨hbegun, hcache, hpower, congrArg (State.setChoices · u.choices) hrest⟩
  · exact congrArg (State.setChoices · u.choices) (hneg hc)

/-! ### The trigger reads and writes the cache and the flash interface alone -/

/-- An evaluation of the trigger is the same with another power record, arbiter and counter. -/
theorem State.evalTrigger_beside (s : State) (p : Power) (a : Arbiter) (n : Nat) :
    State.evalTrigger { s with power := p, arb := a, choices := n } =
      { s.evalTrigger with power := p, arb := a, choices := n } := by
  have ht : State.reloadTarget { s with power := p, arb := a, choices := n } = s.reloadTarget := rfl
  unfold State.evalTrigger
  rw [ht]
  cases s.reloadTarget <;> rfl

theorem State.evalTrigger_setPower (s : State) (p : Power) :
    (s.setPower p).evalTrigger = s.evalTrigger.setPower p := by
  obtain ⟨c, f, h⟩ := s.evalTrigger_frame
  have hb := s.evalTrigger_beside p s.arb s.choices
  rw [h] at hb ⊢
  exact hb

theorem State.evalTrigger_setChoices (s : State) (n : Nat) :
    (s.setChoices n).evalTrigger = s.evalTrigger.setChoices n := by
  obtain ⟨c, f, h⟩ := s.evalTrigger_frame
  have hb := s.evalTrigger_beside s.power s.arb n
  rw [h] at hb ⊢
  exact hb

theorem State.evalTrigger_arbitrate (s : State) : s.arbitrate.evalTrigger = s.evalTrigger.arbitrate := by
  obtain ⟨c, f, h⟩ := s.evalTrigger_frame
  have hb := s.evalTrigger_beside s.power s.arb.grant s.choices
  rw [h] at hb ⊢
  exact hb

/-- The cache and the flash interface have no part in what an event leaves over. -/
theorem State.evalTrigger_quiet (s : State) : s.evalTrigger.quiet = s.quiet := by
  obtain ⟨c, f, h⟩ := s.evalTrigger_frame
  rw [h]
  rfl

theorem State.evalTrigger_settle_quiet {s : State} (hq : s.quiet = true) : s.evalTrigger.settle = s.evalTrigger :=
  State.settle_of_quiet (s.evalTrigger_quiet.trans hq)

/-! ### The end of the event -/

/-- A grant at an event's end is one in which no access waited before. -/
theorem State.arbitrate_eq_after (s : State) :
    s.arbitrate = s.arbitrateAfter { running := none, scan := none, drain := false, probe := none } := by
  have hnone : (s.arb.longWaiting { running := none, scan := none, drain := false, probe := none }).first = none := by
    simp [Arbiter.longWaiting, Arbiter.first]
  unfold State.arbitrateAfter
  rw [hnone]
  split
  · contradiction
  · rfl

/-- With a frame in hand, a reload that starts leaves the end of the event as it is without one. -/
theorem State.evalTrigger_settle_inFlight {s : State} (hd : s.submissionsDue = []) (hon : s.power.state = .on)
    (hf : s.lanesInFlight = true) : s.evalTrigger.settle = s.settle.evalTrigger := by
  obtain ⟨c, f, h⟩ := s.evalTrigger_frame
  have hd' : s.evalTrigger.submissionsDue = [] := by rw [h]; exact hd
  have hp : s.evalTrigger.power = s.power := by rw [h]
  have hf' : s.evalTrigger.lanesInFlight = true := by rw [h]; exact hf
  rw [State.settle_inFlight hd' (by rw [hp, hon]) hf', State.settle_inFlight hd hon hf, State.evalTrigger_setPower, hp]

/-- What a frame from rest begins with (R59): nothing due, and a lane in flight. -/
theorem State.startFrame_inHand {u : State} (hd : u.submissionsDue = []) (hr : u.readyWork = true) :
    u.startFrame.submissionsDue = [] ∧ u.startFrame.lanesInFlight = true ∧ u.startFrame.power = u.power := by
  have hdue := State.armBoundary_dueNil (s := u.limitsInForce) hd
  have hflight := State.armBoundary_inFlight (u.limitsInForce_readyWork.trans hr)
  obtain ⟨p, v, b, hf⟩ := u.limitsInForce.armBoundary.beginFrame_frame
  obtain ⟨k, l, a, hw⟩ := u.limitsInForce.armBoundary_frame
  rw [State.startFrame, hf]
  exact ⟨hdue, hflight, by rw [hw]; rfl⟩

/-- After a test for ready work in a state with nothing left over, the end of the event is beside a reload that
starts as it is without one. -/
theorem State.testReady_evalTrigger_settle {u : State} (hq : u.quiet = true) :
    u.testReady.evalTrigger.settle = u.testReady.settle.evalTrigger := by
  by_cases hc : u.power.state = .on ∧ u.scan.pos = .stopped ∧ u.readyWork = true
  · have hdue : u.submissionsDue = [] := by
      simp only [State.quiet, Bool.and_eq_true, List.isEmpty_iff] at hq
      exact hq.1.1
    obtain ⟨hd, hf, hp⟩ := State.startFrame_inHand hdue hc.2.2
    rw [State.testReady_pos hc]
    exact State.evalTrigger_settle_inFlight hd (by rw [hp, hc.1]) hf
  · rw [State.testReady_neg hc, State.settle_of_quiet hq, State.evalTrigger_settle_quiet hq]

/-- Where the scan engine is as it was, no frame has begun. -/
theorem State.readyTested_no_frame {u t : State} (h : u.readyTested t) (hs : t.scan = u.scan) :
    ¬ (u.power.state = .on ∧ u.scan.pos = .stopped ∧ u.readyWork = true) := by
  intro hc
  obtain ⟨-, -, -, -, -, -, hpos, -⟩ := (h.1 hc).1
  rw [hs, hc.2.1] at hpos
  cases hpos

/-- The test for ready work and the end of an event in which no access completed; with no frame begun, the arbiter is
the one before with its grant. -/
theorem State.testReady_end {u t : State} (hq : u.quiet = true) (ht : t = u.testReady.settle.arbitrate) :
    u.readyTested t ∧ (t.scan = u.scan → t.arb = u.arb.grant) := by
  have htested : u.readyTested t := by
    rw [ht, State.arbitrate_eq_after]
    exact State.readyTested_of_quiet hq u.arb _
  refine ⟨htested, fun hs => ?_⟩
  rw [ht, State.testReady_neg (State.readyTested_no_frame htested hs), State.settle_of_quiet hq]
  rfl

/-! ### The trigger beside the test, in either order (R33; log entry 1) -/

/-- Where no reload is due the test for ready work is made alone. -/
theorem State.triggerWith_of_none {s : State} (h : s.reloadTarget = none) (act : State → State) :
    s.triggerWith act = act s := by rw [State.triggerWith, h]

/-- The trigger is evaluated first, or the other action is, with the counter as it is or raised. -/
theorem State.triggerWith_cases (s : State) (act : State → State) :
    ∃ n, s.triggerWith act = act (s.setChoices n).evalTrigger ∨
      s.triggerWith act = (act (s.setChoices n)).evalTrigger := by
  unfold State.triggerWith
  split
  · split
    · exact ⟨s.choices + 1, by simp only; split; exacts [.inl rfl, .inr rfl]⟩
    · exact ⟨s.choices, .inl rfl⟩
  · rename_i h
    exact ⟨s.choices, .inl (congrArg act (State.evalTrigger_of_none h).symm)⟩

/-- The test for ready work after the trigger. -/
theorem State.evalTriggerReady_end {v t : State} (hq : v.quiet = true)
    (ht : t = v.evalTrigger.testReady.settle.arbitrate) :
    v.evalTrigger.readyTested t ∧ (t.scan = v.scan → t.arb = v.arb.grant) := by
  obtain ⟨htested, harb⟩ := State.testReady_end (v.evalTrigger_quiet.trans hq) ht
  obtain ⟨c, f, he⟩ := v.evalTrigger_frame
  refine ⟨htested, fun hs => ?_⟩
  rw [he] at harb
  exact harb hs

/-- The trigger and the test for ready work in an event that left nothing else over. -/
theorem State.triggerReady_end {v t : State} (hq : v.quiet = true)
    (ht : t = (v.triggerWith State.testReady).settle.arbitrate) :
    v.handedOn t ∧ (t.scan = v.scan → t.arb = v.arb.grant) := by
  obtain ⟨n, h | h⟩ := v.triggerWith_cases State.testReady
  · rw [h] at ht
    obtain ⟨htested, harb⟩ := State.evalTriggerReady_end (v := v.setChoices n) hq ht
    rw [State.evalTrigger_setChoices] at htested
    exact ⟨.inl (State.readyTested_of_setChoices htested), harb⟩
  · have hq' : (v.setChoices n).quiet = true := hq
    rw [h, State.testReady_evalTrigger_settle hq', ← State.evalTrigger_arbitrate] at ht
    obtain ⟨htested, harb⟩ := State.testReady_end hq' rfl
    generalize (v.setChoices n).testReady.settle.arbitrate = w at ht htested harb
    refine ⟨.inr ⟨w, State.readyTested_of_setChoices htested, ht⟩, fun hs => ?_⟩
    obtain ⟨c, f, he⟩ := w.evalTrigger_frame
    rw [he] at ht
    rw [ht] at hs ⊢
    exact harb hs

/-- With no reload due the event ends with the test for ready work alone. -/
theorem State.triggerReady_end_of_none {v t : State} (hq : v.quiet = true) (hn : v.reloadTarget = none)
    (ht : t = (v.triggerWith State.testReady).settle.arbitrate) : v.readyTested t :=
  (State.testReady_end hq (by rw [ht, State.triggerWith_of_none hn])).1

end Sys2Proof.Machine
end

