-- ==== Sys2Proof/Proofs/Reload.lean ====
section
/-! SUPPORT. A reload from access to access (R26 to R29): its words stored, the re-check before a table, the slot READY,
and the two ways a TIMEOUT is met. -/

namespace Sys2Proof.Machine

/-! ### One slot replaced -/

@[simp] theorem Cache.setSlot_slot_same (c : Cache) (i : SlotId) (v : Slot) : (c.setSlot i v).slot i = v := by
  cases i <;> rfl

@[simp] theorem Cache.setSlot_setSlot (c : Cache) (i : SlotId) (v w : Slot) :
    (c.setSlot i v).setSlot i w = c.setSlot i w := by cases i <;> rfl

@[simp] theorem Cache.setSlot_failed (c : Cache) (i : SlotId) (v : Slot) : (c.setSlot i v).failed = c.failed := by
  cases i <;> rfl

/-- The reload and the failed set are no part of a slot. -/
@[simp] theorem Cache.slot_other (c : Cache) (r : Option Reload) (f : List Band) (i : SlotId) :
    Cache.slot { c with reload := r, failed := f } i = c.slot i := by cases i <;> rfl

/-- Putting a slot back as it was undoes a change of the slot and of the reload. -/
theorem Cache.setSlot_restored (c : Cache) (q : Option Reload) (i : SlotId) (v : Slot) :
    Cache.setSlot { { c.setSlot i v with reload := q } with reload := c.reload } i (c.slot i) = c := by
  cases i <;> rfl

theorem Cache.endReload_setSlot (c : Cache) (i : SlotId) (v : Slot) :
    (c.setSlot i v).endReload i = { c.setSlot i v.emptied with reload := none } := by
  rw [Cache.endReload, Cache.setSlot_slot_same, Cache.setSlot_setSlot]

theorem mem_insertBand {b c : Band} {l : List Band} : c ∈ insertBand b l ↔ c = b ∨ c ∈ l := by
  induction l with
  | nil => simp [insertBand]
  | cons d l ih =>
    unfold insertBand
    split
    · simp
    · split
      · rename_i h
        simp [h]
      · simp [ih, or_left_comm]

/-! ### A delivered word (R26, R28) -/

theorem State.storeWord_slot (s : State) (r : Reload) (w : Word) : (s.storeWord r w).cache.slot r.slot =
    { s.cache.slot r.slot with words := sparseSet 0 (s.cache.slot r.slot).words (tableWord r.kind r.word) w } :=
  Cache.setSlot_slot_same _ _ _

/-- The slot READY after its last word, with the words and the four frame counts it then has. -/
theorem State.storeWord_slotReady (s : State) (r : Reload) (w : Word) (b : Band) :
    (s.storeWord r w).slotReady r b = s.setCache { s.cache.setSlot r.slot { s.cache.slot r.slot with
      state := .ready, refs := 0
      words := sparseSet 0 (s.cache.slot r.slot).words (tableWord r.kind r.word) w
      frames := [SeqKind.swift, .tone, .cleanUp, .cleanDown].map (fun k => (s.hdr.table b k).frames) } with
        reload := none } := by
  rw [State.slotReady, State.storeWord_slot, State.storeWord, State.setCache_cache, Cache.setSlot_setSlot]
  rfl

theorem State.slotReady_held (s : State) (r : Reload) (b : Band) :
    ((s.slotReady r b).cache.slot r.slot).state = .ready ∧
      ((s.slotReady r b).cache.slot r.slot).band = (s.cache.slot r.slot).band := by
  simp [State.slotReady]

theorem State.reloadNext_table {s : State} {r : Reload} {b : Band} {k : SeqKind}
    (h : (s.hdr.table b r.kind).frames * 32 ≤ r.word + 1) (hk : r.kind.next = some k) :
    s.reloadNext r b = s.recheck r k := by
  rw [State.reloadNext, tableWords, if_neg (Nat.not_lt.2 h), hk]

theorem State.reloadNext_last {s : State} {r : Reload} {b : Band}
    (h : (s.hdr.table b r.kind).frames * 32 ≤ r.word + 1) (hk : r.kind.next = none) :
    s.reloadNext r b = (s.slotReady r b).triggerWith State.testReady := by
  rw [State.reloadNext, tableWords, if_neg (Nat.not_lt.2 h), hk]

/-! ### The next word (R26), the re-check (R27), and the end of their event -/

/-- An event that leaves nothing over ends with the arbiter's grant alone. -/
theorem State.end_of_quiet {s : State} (hq : s.quiet = true) : s.settle.arbitrate = { s with arb := s.arb.grant } := by
  rw [State.settle_of_quiet hq]
  rfl

/-- Before the last word of a table the next one is asked for. -/
theorem State.storeWord_within {s : State} (hq : s.quiet = true) {r : Reload} {b : Band} (w : Word)
    (h : r.word + 1 < (s.hdr.table b r.kind).frames * 32) :
    ((s.storeWord r w).reloadNext r b).settle.arbitrate = { s with
      cache := { s.cache.setSlot r.slot { s.cache.slot r.slot with
        words := sparseSet 0 (s.cache.slot r.slot).words (tableWord r.kind r.word) w } with
          reload := some { r with word := r.word + 1 } }
      flash := { s.flash with
        state := .setup, addr := (s.hdr.table b r.kind).offset + (r.word + 1), clocks := s.flash.timing.setup
        ext := 0, result := none }
      arb := s.arb.grant } := by
  have hnext : (s.storeWord r w).reloadNext r b = ((s.storeWord r w).setCache { (s.storeWord r w).cache with
      reload := some { r with word := r.word + 1 } }).flashRead ((s.hdr.table b r.kind).offset + (r.word + 1)) :=
    if_pos h
  rw [hnext, State.end_of_quiet (by exact hq)]
  rfl

/-- With the slot's band still current the table's first word is asked for. -/
theorem State.recheck_current {s : State} (hq : s.quiet = true) {r : Reload}
    (hb : (s.cache.slot r.slot).band = some s.thermal.band) (k : SeqKind) :
    (s.recheck r k).settle.arbitrate = { s with
      cache := { s.cache with reload := some { r with kind := k, word := 0 } }
      flash := { s.flash with
        state := .setup, addr := (s.hdr.table s.thermal.band k).offset, clocks := s.flash.timing.setup, ext := 0
        result := none }
      arb := s.arb.grant } := by
  rw [State.recheck, if_pos hb, State.end_of_quiet (by exact hq)]
  rfl

/-- With another band current the reload is given up and the trigger evaluated. -/
theorem State.recheck_stale {s : State} (hq : s.quiet = true) {r : Reload}
    (hb : (s.cache.slot r.slot).band ≠ some s.thermal.band) (k : SeqKind) :
    (s.recheck r k).settle.arbitrate =
      { (s.setCache (s.cache.endReload r.slot)).evalTrigger with arb := s.arb.grant } := by
  have hq' : (s.setCache (s.cache.endReload r.slot)).quiet = true := hq
  obtain ⟨c, f, h⟩ := (s.setCache (s.cache.endReload r.slot)).evalTrigger_frame
  rw [State.recheck, if_neg hb, State.end_of_quiet ((State.evalTrigger_quiet _).trans hq'), h]
  rfl

/-! ### A TIMEOUT (R29) -/

theorem State.evalTrigger_failed (s : State) : s.evalTrigger.cache.failed = s.cache.failed := by
  unfold State.evalTrigger
  split
  · exact Cache.setSlot_failed _ _ _
  · rfl

theorem State.recheck_failed (s : State) (r : Reload) (k : SeqKind) :
    (s.recheck r k).cache.failed = s.cache.failed := by
  unfold State.recheck
  split
  · rfl
  · exact (State.evalTrigger_failed _).trans (Cache.setSlot_failed _ _ _)

/-- A first TIMEOUT restarts the attempt. -/
theorem State.reloadDelivery_firstTimeout {s : State} {r : Reload} (h : r.retry = 0) :
    s.reloadDelivery r .timeout = s.recheck { r with retry := 1 } .swift := by
  have ht : ∀ b, s.reloadTimeout r b = s.recheck { r with retry := 1 } .swift := fun b => if_pos h
  simp only [State.reloadDelivery, ht, State.recheck_failed, if_true]

/-- What a second TIMEOUT makes of the state before the trigger and the test for ready work. -/
def State.bandFailed (s : State) (r : Reload) (b : Band) : State :=
  (s.setCache { s.cache.endReload r.slot with failed := insertBand b s.cache.failed }).coalesce
    (.flash 1 (insertBand b s.cache.failed))

/-- A second TIMEOUT fails the band, and the failed set's change is followed by the test for ready work (R59). -/
theorem State.reloadDelivery_secondTimeout {s : State} {r : Reload} {b : Band} (h : r.retry = 1)
    (hb : (s.cache.slot r.slot).band = some b) (hf : b ∉ s.cache.failed) :
    s.reloadDelivery r .timeout = (s.bandFailed r b).evalTrigger.testReady := by
  have ht : s.reloadTimeout r b = (s.bandFailed r b).evalTrigger := if_neg (by omega)
  have hnew : (s.bandFailed r b).evalTrigger.cache.failed ≠ s.cache.failed := by
    rw [State.evalTrigger_failed]
    exact fun e => hf (e ▸ mem_insertBand.2 (.inl rfl))
  simp only [State.reloadDelivery, hb, Option.getD_some, ht, if_neg hnew]

/-! ### FLASH_ACCESS_COMPLETE in a reload -/

section

variable {s : State} {r : Reload} {b : Band}

theorem exec_reloadDelivery (hv : s.loader.image = .valid) (hh : s.flash.state = .hold)
    (hr : s.cache.reload = some r) {res : FlashResult} (hres : s.flash.result = some res) :
    exec .flashAccessComplete s = .next (s.flashIdle.reloadDelivery r res).settle.arbitrate := by
  simp only [exec, execFlashAccessComplete, hh, hres, State.flashDelivery, hv, hr]
  rfl

/-- A reload's word is stored in its slot, and the reload goes on from there. -/
theorem exec_reloadWord (hv : s.loader.image = .valid) (hh : s.flash.state = .hold) (hr : s.cache.reload = some r)
    (hb : (s.cache.slot r.slot).band = some b) {w : Word} (hres : s.flash.result = some (.word w)) :
    exec .flashAccessComplete s =
      .next ((s.flashIdle.storeWord r w).reloadNext r b).settle.arbitrate := by
  have hgetD : ((s.flashIdle.cache.slot r.slot).band).getD 0 = b := by
    rw [show s.flashIdle.cache = s.cache from rfl, hb, Option.getD_some]
  rw [exec_reloadDelivery hv hh hr hres, State.reloadDelivery, hgetD]

end

/-- The four tables in the order of R26. -/
theorem SeqKind.next_of_order {j k : SeqKind}
    (h : j = .swift ∧ k = .tone ∨ j = .tone ∧ k = .cleanUp ∨ j = .cleanUp ∧ k = .cleanDown) : j.next = some k := by
  rcases h with ⟨rfl, rfl⟩ | ⟨rfl, rfl⟩ | ⟨rfl, rfl⟩ <;> rfl

/-- Settles O36: each delivery by the branch of the reload it takes; the end of its event adds the arbiter's grant
and, where the admission unit tests for ready work, what `State.readyTested` or `State.handedOn` says. -/
theorem reloadAdvances : Obligations.ReloadAdvances := by
  unfold Obligations.ReloadAdvances
  intro s r b hv hh hr hb hq hwf
  have hget := fun (w : Word) i => sparseGet_set hwf (tableWord r.kind r.word) w i
  have hstoredBand : ∀ w, ((s.flashIdle.storeWord r w).cache.slot r.slot).band = some b := fun w => by
    rw [State.storeWord_slot]
    exact hb
  have hidle : s.flashIdle.quiet = true := hq
  have hstored : ∀ w, (s.flashIdle.storeWord r w).quiet = true := fun _ => hq
  refine ⟨fun w hres hlt => ?_, fun w k hres hlast hk => ?_, fun hres h0 hne v hu => ?_, fun w hres hk hlast => ?_,
    fun hres h0 hcur => ?_, fun hres h1 hf => ?_⟩
  · refine ⟨_, by rw [exec_reloadWord hv hh hr hb hres, State.storeWord_within hidle w hlt], ?_⟩
    simp only [Cache.slot_other, Cache.setSlot_slot_same]
    exact ⟨hget w, trivial, s.cache.setSlot_restored none _ _, rfl, rfl, rfl⟩
  · have hnext : (s.hdr.table b r.kind).frames * 32 ≤ r.word + 1 := hlast.ge
    refine ⟨_, _, by rw [exec_reloadWord hv hh hr hb hres,
      State.reloadNext_table (by exact hnext) (SeqKind.next_of_order hk)], hget w, fun hcur => ?_, ?_⟩
    · rw [State.recheck_current (hstored w) ((hstoredBand w).trans (congrArg some hcur)), hcur]
      rfl
    · rintro hne v rfl
      rw [State.recheck_stale (hstored w) (by rw [hstoredBand]; exact fun e => hne (Option.some.inj e)),
        State.storeWord, State.setCache_cache, Cache.endReload_setSlot]
      rfl
  · subst hu
    rw [exec_reloadDelivery hv hh hr hres, State.reloadDelivery_firstTimeout h0,
      State.recheck_stale hidle (by exact fun e => hne (Option.some.inj (hb.symm.trans e)))]
    rfl
  · have hend : r.kind.next = none := by rw [hk]; rfl
    have hready : ((s.flashIdle.storeWord r w).slotReady r b).quiet = true := hq
    obtain ⟨hstate, hband⟩ := (s.flashIdle.storeWord r w).slotReady_held r b
    obtain ⟨hhanded, harb⟩ := State.triggerReady_end hready rfl
    refine ⟨_, _, _, _, by rw [exec_reloadWord hv hh hr hb hres, State.reloadNext_last (by rw [hk]; exact hlast) hend],
      hget w, fun k => by cases k <;> rfl, State.storeWord_slotReady s.flashIdle r w b, fun hcur => ?_,
      fun _ => hhanded, harb⟩
    refine State.triggerReady_end_of_none hready (State.reloadTarget_of_held (by rw [hstate]; decide) ?_) rfl
    exact hband.trans ((hstoredBand w).trans (congrArg some hcur))
  · rw [exec_reloadDelivery hv hh hr hres, State.reloadDelivery_firstTimeout h0,
      State.recheck_current hidle (by exact hb.trans (congrArg some hcur)), hcur]
    rfl
  · have hexec := exec_reloadDelivery hv hh hr hres
    rw [State.reloadDelivery_secondTimeout h1 (by exact hb) (by exact hf)] at hexec
    have hquiet : (s.flashIdle.bandFailed r b).quiet = true := hq
    obtain ⟨htested, harb⟩ := State.evalTriggerReady_end hquiet rfl
    refine ⟨_, s.flashIdle.bandFailed r b, _, hexec, fun c => mem_insertBand, rfl, fun hcur => ?_, fun _ => .inl htested,
      harb⟩
    have hfailed : s.thermal.band ∈ (s.flashIdle.bandFailed r b).cache.failed := mem_insertBand.2 (.inl hcur.symm)
    have hnone : (s.flashIdle.bandFailed r b).evalTrigger = s.flashIdle.bandFailed r b :=
      State.evalTrigger_of_none (State.reloadTarget_of_failed hfailed)
    rw [hnone] at htested ⊢
    exact htested

end Sys2Proof.Machine
end

