-- ==== Sys2Proof/Proofs/CellLaws.lean ====
section
/-! SUPPORT. The law of one cell (R2, R49): drive, completion, arming and release keep residue and balance in
range and an unowned record in its stored form, and so do the accesses that write cells to the plane. -/

namespace Sys2Proof.Machine

/-! ### The arithmetic of one cell (R40 to R48) -/

theorem Cell.legal_iff (c : Cell) : c.legal = true ↔
    c.residue ≤ 63 ∧ -511 ≤ c.balance ∧ c.balance ≤ 511 ∧ (c.owner = none → c.goal = 0 ∧ c.kind = .swift) := by
  cases h : c.owner <;> simp [Cell.legal, h, and_assoc]

theorem Cell.initial_legal : Cell.initial.legal = true := rfl

theorem Cell.legal_balance {c : Cell} (h : c.legal = true) : -511 ≤ c.balance ∧ c.balance ≤ 511 := by
  obtain ⟨-, hlo, hhi, -⟩ := c.legal_iff.1 h
  exact ⟨hlo, hhi⟩

/-- A record without owner is stored in the form of R2, so its numbers alone decide. -/
theorem Cell.unowned_legal {c : Cell} (hr : c.residue ≤ 63) (hb : -511 ≤ c.balance ∧ c.balance ≤ 511) :
    c.unowned.legal = true :=
  (Cell.legal_iff _).2 ⟨hr, hb.1, hb.2, fun _ => ⟨rfl, rfl⟩⟩

theorem driveBalance_bounds (b : Int) (d : Drive) : -511 ≤ driveBalance b d ∧ driveBalance b d ≤ 511 := by
  unfold driveBalance clampInt
  omega

theorem completedResidue_le (h : Header) (c : Cell) : completedResidue h c ≤ 63 := by
  unfold completedResidue
  split <;> omega

theorem driveCell_legal (h : Header) (sl : Slot) (step : Nat) {c : Cell} (hc : c.legal = true) :
    (driveCell h sl step c).1.legal = true := by
  obtain ⟨hr, -, -, ho⟩ := c.legal_iff.1 hc
  have hb := driveBalance_bounds c.balance (sl.lookup c.kind c.level c.goal step)
  unfold driveCell
  simp only
  split
  · exact Cell.unowned_legal (completedResidue_le h _) hb
  · exact (Cell.legal_iff _).2 ⟨hr, hb.1, hb.2, ho⟩

theorem releaseCell_legal {c : Cell} (hc : c.legal = true) : (releaseCell c).legal = true := by
  have hb := Cell.legal_balance hc
  exact Cell.unowned_legal (Nat.le_refl 63) hb

/-! ### What the arming tests answer (R40 to R44) -/

/-- A cell with an owner is a leftover. -/
theorem armCell_owned {c : Cell} {o : LaneId} (ho : c.owner = some o) (v : ArmingView) (lim : Limits) (sl : Slot)
    (x y : Nat) (d : Level) : armCell v lim sl x y d c = (c, some (.leftover v.lane x y o)) := by
  simp only [armCell, ho]

/-- An unowned cell that the pass does not arm stays as it is. -/
theorem armCell_unarmed {v : ArmingView} {d : Level} {c : Cell} (ho : c.owner = none)
    (ha : armsCell v.mode (effectiveGoal v.mode d) c = false) (lim : Limits) (sl : Slot) (x y : Nat) :
    armCell v lim sl x y d c = (c, none) := by
  simp [armCell, ho, ha]

/-- An unowned cell that the pass arms takes goal, owner and kind. -/
theorem armCell_armed {v : ArmingView} {d : Level} {c : Cell} (ho : c.owner = none)
    (ha : armsCell v.mode (effectiveGoal v.mode d) c = true) (lim : Limits) (sl : Slot) (x y : Nat) :
    armCell v lim sl x y d c =
      ({ c with
          goal := effectiveGoal v.mode d, owner := some v.lane
          kind := armedKind v.mode (escalates v.mode v.noEscalate lim c) c.balance },
        some (.armed v.lane
          (sl.frameCount (armedKind v.mode (escalates v.mode v.noEscalate lim c) c.balance))
          (escalates v.mode v.noEscalate lim c))) := by
  simp [armCell, ho, ha]

theorem armCell_legal (v : ArmingView) (lim : Limits) (sl : Slot) (x y : Nat) (d : Level) {c : Cell}
    (hc : c.legal = true) : (armCell v lim sl x y d c).1.legal = true := by
  cases ho : c.owner with
  | some o => rwa [armCell_owned ho]
  | none =>
    cases ha : armsCell v.mode (effectiveGoal v.mode d) c with
    | false => rwa [armCell_unarmed ho ha]
    | true =>
      obtain ⟨hr, hlo, hhi, -⟩ := c.legal_iff.1 hc
      rw [armCell_armed ho ha]
      exact (Cell.legal_iff _).2 ⟨hr, hlo, hhi, fun h => absurd h (by simp)⟩

/-! ### The computation of a line (R102, R103) -/

theorem State.driveStep_legal (s : State) {c : Cell} (hc : c.legal = true) : (s.driveStep c).cell.legal = true := by
  unfold State.driveStep
  split
  · exact hc
  · split
    · exact hc
    · exact driveCell_legal _ _ _ hc

theorem State.armStep_legal (s : State) (x y : Nat) (d : Level) (v : ArmingView) {w : CellWork}
    (hw : w.cell.legal = true) : (s.armStep x y d w v).cell.legal = true := by
  unfold State.armStep
  split
  · exact armCell_legal _ _ _ _ _ _ hw
  · exact hw

theorem State.computeCell_legal (s : State) (x y : Nat) (d : Level) {c : Cell} (hc : c.legal = true) :
    (s.computeCell x y d c).cell.legal = true :=
  List.foldlRecOn (motive := fun w => w.cell.legal = true) s.scan.arming (s.armStep x y d) (s.driveStep_legal hc)
    fun _ hw v _ => s.armStep_legal x y d v hw

theorem State.computeFrom_legal (s : State) (y : Nat) : ∀ (x : Nat) (cs : List Cell),
    (∀ c ∈ cs, c.legal = true) → ∀ w ∈ s.computeFrom y x cs, w.cell.legal = true
  | _, [], _, _, hw => absurd hw (by simp [State.computeFrom])
  | x, c :: cs, hcs, w, hw => by
    obtain ⟨hc, hrest⟩ := List.forall_mem_cons.1 hcs
    rw [State.computeFrom] at hw
    rcases List.mem_cons.1 hw with rfl | hw
    · exact s.computeCell_legal x y _ hc
    · exact s.computeFrom_legal y (x + 1) cs hrest w hw

/-! ### Lists in canonical form -/

/-- What holds of the unlisted value and of every listed one holds of every value read. -/
theorem sparseGet_of_all {α : Type} {P : α → Prop} {d : α} (hd : P d) {m : List (Nat × α)}
    (h : ∀ e ∈ m, P e.2) (i : Nat) : P (sparseGet d m i) := by
  induction m with
  | nil => exact hd
  | cons e m ih =>
    obtain ⟨he, hm⟩ := List.forall_mem_cons.1 h
    unfold sparseGet
    split
    · exact he
    · exact ih hm

/-- An entry put before a list is the only new one, -/
theorem mem_sparseCons {α : Type} [DecidableEq α] {d v : α} {i : Nat} {m : List (Nat × α)} {e : Nat × α}
    (h : e ∈ sparseCons d i v m) : e = (i, v) ∨ e ∈ m := by
  unfold sparseCons at h
  split at h
  · exact .inr h
  · exact List.mem_cons.1 h

/-- and so is one written. -/
theorem mem_sparseSet {α : Type} [DecidableEq α] {d v : α} {i : Nat} {e : Nat × α} :
    ∀ {m : List (Nat × α)}, e ∈ sparseSet d m i v → e = (i, v) ∨ e ∈ m
  | [], h => mem_sparseCons h
  | (k, w) :: m, h => by
    unfold sparseSet at h
    split at h
    · exact mem_sparseCons h
    · split at h
      · exact (mem_sparseCons h).imp_right (List.mem_cons_of_mem _)
      · rcases List.mem_cons.1 h with rfl | h
        · exact .inr List.mem_cons_self
        · exact (mem_sparseSet h).imp_right (List.mem_cons_of_mem _)

/-! ### The planes (R1, R2) -/

/-- Both planes are in canonical form and every listed cell is legal. -/
def PixelMem.legal (m : PixelMem) : Prop := m.wf = true ∧ ∀ e ∈ m.cells, e.2.legal = true

namespace PixelMem.legal

variable {m : PixelMem}

/-- Every cell read is legal, listed or not. -/
theorem cell (h : m.legal) (x y : Nat) : (m.cell x y).legal = true :=
  sparseGet_of_all (P := fun c : Cell => c.legal = true) Cell.initial_legal h.2 _

theorem setCell (h : m.legal) (x y : Nat) {c : Cell} (hc : c.legal = true) : (m.setCell x y c).legal := by
  refine ⟨PixelMem.wf_setCell h.1 x y c, fun e he => ?_⟩
  rcases mem_sparseSet he with rfl | he
  · exact hc
  · exact h.2 e he

theorem writeCells {xs : List Nat} {f : Nat → Cell} (h : m.legal) (y : Nat) (hf : ∀ x ∈ xs, (f x).legal = true) :
    (m.writeCells xs y f).legal :=
  List.foldlRecOn (motive := PixelMem.legal) xs (fun m x => m.setCell x y (f x)) h
    fun _ hm x hx => hm.setCell x y (hf x hx)

theorem writeDrafts (h : m.legal) (xs : List Nat) (y : Nat) (f : Nat → Level) : (m.writeDrafts xs y f).legal := by
  obtain ⟨hcells, hwf⟩ := PixelMem.writeDrafts_frame xs y f m
  exact ⟨hwf h.1, by rw [hcells]; exact h.2⟩

end PixelMem.legal

/-! ### The cells of the whole part -/

theorem State.cellsLegal_iff (s : State) : s.cellsLegal = true ↔
    s.mem.legal ∧ (∀ c ∈ s.scan.cells, c.legal = true) ∧ ∀ w ∈ s.scan.work, w.cell.legal = true := by
  simp only [State.cellsLegal, PixelMem.legal, Bool.and_eq_true, List.all_eq_true, and_assoc]

/-- A legal plane beside the same line in hand. -/
theorem State.cellsLegal_of_mem {s t : State} (hs : s.cellsLegal = true) (hm : t.mem.legal)
    (hscan : t.scan = s.scan) : t.cellsLegal = true := by
  rw [State.cellsLegal_iff] at hs ⊢
  rw [hscan]
  exact ⟨hm, hs.2⟩

end Sys2Proof.Machine
end

