-- ==== Sys2Proof/Proofs/CellsKept.lean ====
section
/-! SUPPORT. Most events leave every cell record as it is, in the planes and in the line in hand, or drop the
line in hand where another line, a blank line or the sweep begins (R100, R107, R109): a relation that the
shared operations and the owners' answers satisfy, and that carries the law of R2 and R49 along. -/

namespace Sys2Proof.Machine

/-- What the law of the cells speaks of: the planes, and the cells read and computed of the line in hand. -/
def State.cellRecords (s : State) : PixelMem × List Cell × List CellWork := (s.mem, s.scan.cells, s.scan.work)

/-- An event keeps the cell records, or keeps the planes and drops the line in hand. -/
def CellsKept (s t : State) : Prop := t.cellRecords = s.cellRecords ∨ t.cellRecords = (s.mem, [], [])

namespace CellsKept

variable {s t u : State}

theorem refl : CellsKept s s := .inl rfl

theorem trans (h : CellsKept s t) (h' : CellsKept t u) : CellsKept s u := by
  have hm : t.mem = s.mem := by rcases h with h | h <;> exact congrArg Prod.fst h
  rcases h' with h' | h'
  · rcases h with h | h
    · exact .inl (h'.trans h)
    · exact .inr (h'.trans h)
  · exact .inr (by rw [h', hm])

/-- Blocks other than the cells' may change before, -/
theorem afterAside (h : CellsKept t u) (e : t.cellRecords = s.cellRecords) : CellsKept s u :=
  trans (.inl e) h

/-- and after. -/
theorem thenAside (e : u.cellRecords = t.cellRecords) (h : CellsKept s t) : CellsKept s u := h.trans (.inl e)

theorem legal (h : CellsKept s t) (hs : s.cellsLegal = true) : t.cellsLegal = true := by
  rw [State.cellsLegal_iff] at hs ⊢
  obtain ⟨hmem, hcells, hwork⟩ := hs
  rcases h with h | h
  all_goals
    simp only [State.cellRecords, Prod.mk.injEq] at h
    obtain ⟨hm, hc, hw⟩ := h
    rw [hm, hc, hw]
  · exact ⟨hmem, hcells, hwork⟩
  · exact ⟨hmem, by simp, by simp⟩

end CellsKept

/-! ### Operations that leave the cell records as they are -/

@[simp] theorem State.arbitrate_cellRecords (s : State) : s.arbitrate.cellRecords = s.cellRecords := rfl

@[simp] theorem State.answer_cellRecords (s : State) (kind tag : Byte) (r : Option Reply) :
    (s.answer kind tag r).cellRecords = s.cellRecords := rfl

@[simp] theorem State.loseLaneSet_cellRecords (s : State) : s.loseLaneSet.cellRecords = s.cellRecords := rfl

@[simp] theorem State.limitsInForce_cellRecords (s : State) : s.limitsInForce.cellRecords = s.cellRecords := rfl

@[simp] theorem State.updateLane_cellRecords (s : State) (i : LaneId) (f : Lane → Lane) :
    (s.updateLane i f).cellRecords = s.cellRecords := rfl

@[simp] theorem State.askScan_cellRecords (s : State) (x : Access) : (s.askScan x).cellRecords = s.cellRecords := rfl

@[simp] theorem State.lowerFences_cellRecords (s : State) : s.lowerFences.cellRecords = s.cellRecords := rfl

@[simp] theorem State.nextDrain_cellRecords (s : State) : s.nextDrain.cellRecords = s.cellRecords := by
  obtain ⟨a, h⟩ := s.nextDrain_frame
  rw [h]
  rfl

@[simp] theorem State.arbitrateAfter_cellRecords (s : State) (old : Arbiter) :
    (s.arbitrateAfter old).cellRecords = s.cellRecords := by
  obtain ⟨a, n, h⟩ := s.arbitrateAfter_frame old
  rw [h]
  rfl

@[simp] theorem State.flushEnds_cellRecords (s : State) : s.flushEnds.cellRecords = s.cellRecords := by
  obtain ⟨n, l, a, h⟩ := s.flushEnds_frame
  rw [h]
  rfl

@[simp] theorem State.takeWaiting_cellRecords (n : Nat) (s : State) :
    (State.takeWaiting n s).cellRecords = s.cellRecords := by
  obtain ⟨m, l, a, h⟩ := State.takeWaiting_frame n s
  rw [h]
  rfl

@[simp] theorem State.settle_cellRecords (s : State) : s.settle.cellRecords = s.cellRecords := by
  obtain ⟨n, l, a, p, h⟩ := s.settle_frame
  rw [h]
  rfl

@[simp] theorem State.testRise_cellRecords (s : State) : s.testRise.cellRecords = s.cellRecords := by
  obtain ⟨p, h⟩ := s.testRise_frame
  rw [h]
  rfl

@[simp] theorem State.evalTrigger_cellRecords (s : State) : s.evalTrigger.cellRecords = s.cellRecords := by
  obtain ⟨c, f, h⟩ := s.evalTrigger_frame
  rw [h]
  rfl

@[simp] theorem State.recheck_cellRecords (s : State) (r : Reload) (k : SeqKind) :
    (s.recheck r k).cellRecords = s.cellRecords := by
  obtain ⟨c, f, h⟩ := s.recheck_frame r k
  rw [h]
  rfl

@[simp] theorem State.reloadTimeout_cellRecords (s : State) (r : Reload) (b : Band) :
    (s.reloadTimeout r b).cellRecords = s.cellRecords := by
  obtain ⟨n, c, f, h⟩ := s.reloadTimeout_frame r b
  rw [h]
  rfl

@[simp] theorem State.clearFailed_cellRecords (s : State) : s.clearFailed.cellRecords = s.cellRecords := by
  obtain ⟨c, f, h⟩ := s.clearFailed_frame
  rw [h]
  rfl

@[simp] theorem State.leaveAll_cellRecords (s : State) (is : List LaneId) :
    (s.leaveAll is).cellRecords = s.cellRecords := by
  obtain ⟨c, l, f, h⟩ := s.leaveAll_frame is
  rw [h]
  rfl

@[simp] theorem State.advanceLanes_cellRecords (s : State) : s.advanceLanes.cellRecords = s.cellRecords := by
  obtain ⟨c, n, l, a, h⟩ := s.advanceLanes_frame
  rw [h]
  rfl

@[simp] theorem State.armBoundary_cellRecords (s : State) : s.armBoundary.cellRecords = s.cellRecords := by
  obtain ⟨k, l, a, h⟩ := s.armBoundary_frame
  rw [h]
  rfl

@[simp] theorem State.setBand_cellRecords (s : State) (b : Band) (w : BandBasis) (v : Option Int) :
    (s.setBand b w v).cellRecords = s.cellRecords := by
  obtain ⟨n, h⟩ := s.setBand_frame b w v
  rw [h]
  rfl

@[simp] theorem State.discardedRead_cellRecords (s : State) : s.discardedRead.cellRecords = s.cellRecords := by
  obtain ⟨a, h⟩ := s.discardedRead_frame
  rw [h]
  rfl

theorem State.acceptWrite_cellRecords (s : State) (e : WriteEntry) :
    (s.acceptWrite e).1.cellRecords = s.cellRecords := by
  unfold State.acceptWrite
  split
  · rfl
  · dsimp only [State.doneWith]
    rw [State.joinWrites_eq]
    rfl

theorem State.haltPower_cellRecords (s : State) : s.haltPower.cellRecords = s.cellRecords := by
  unfold State.haltPower
  split <;> rfl

theorem State.thermalMiss_cellRecords (s : State) (code : Nat) :
    (s.thermalMiss code).cellRecords = s.cellRecords := by
  unfold State.thermalMiss
  simp only
  split
  · rfl
  · split
    · rfl
    · split
      · exact State.setBand_cellRecords _ _ _ _
      · rfl

theorem State.thermalSample_cellRecords (s : State) (code : Nat) :
    (s.thermalSample code).cellRecords = s.cellRecords := by
  unfold State.thermalSample
  simp only
  split <;> split
  · exact State.setBand_cellRecords _ _ _ _
  · exact State.setBand_cellRecords _ _ _ _
  · rfl
  · rfl

theorem State.thermalCode_cellRecords (s : State) (code : Nat) :
    (s.thermalCode code).cellRecords = s.cellRecords := by
  unfold State.thermalCode
  split
  · exact s.thermalMiss_cellRecords code
  · exact s.thermalSample_cellRecords code

theorem State.clearOverride_cellRecords (s : State) : s.clearOverride.cellRecords = s.cellRecords := by
  unfold State.clearOverride
  split
  · rfl
  · simp only
    split <;> exact State.setBand_cellRecords _ _ _ _

theorem State.headerDelivery_cellRecords (s : State) (r : FlashResult) :
    (s.headerDelivery r).cellRecords = s.cellRecords := by
  unfold State.headerDelivery
  split
  · rfl
  · simp only
    split
    · rfl
    · unfold State.checkHeader
      split <;> rfl

/-! ### Lines, frames and the sweep (R98, R100, R107, R109) -/

/-- A line that begins has no cell in hand. -/
theorem State.beginLine_cellsKept (s : State) (y : Nat) : CellsKept s (s.beginLine y) := .inr rfl

theorem State.nextPeriod_cellsKept (s : State) (y : Nat) : CellsKept s (s.nextPeriod y) := by
  unfold State.nextPeriod
  split
  · exact s.beginLine_cellsKept _
  · exact .inr rfl

theorem State.beginFrame_cellsKept (s : State) : CellsKept s s.beginFrame := .inr rfl

/-- Nor has the sweep when it begins. -/
theorem State.enterSweep_cellsKept (s : State) : CellsKept s s.enterSweep := by
  unfold State.enterSweep
  simp only
  split <;> exact .inr (State.leaveAll_cellRecords _ _)

theorem State.lineCommitted_cellsKept (s : State) (y : Nat) : CellsKept s (s.lineCommitted y) := by
  unfold State.lineCommitted
  split
  · exact s.enterSweep_cellsKept
  · split
    · exact s.nextPeriod_cellsKept y
    · exact .inl rfl

theorem State.beginCommit_cellsKept (s : State) (y : Nat) : CellsKept s (s.beginCommit y) := by
  unfold State.beginCommit
  simp only
  split
  · exact .afterAside (State.lineCommitted_cellsKept _ y) rfl
  · exact .inl rfl

theorem State.cutFrame_cellsKept (s : State) : CellsKept s s.cutFrame := by
  unfold State.cutFrame
  split
  · exact .refl
  · exact s.enterSweep_cellsKept
  · exact .afterAside (State.enterSweep_cellsKept _) rfl
  · simp only
    split
    · exact .afterAside (State.enterSweep_cellsKept _) rfl
    · exact .afterAside (State.enterSweep_cellsKept _) rfl
    · exact .thenAside (State.loseLaneSet_cellRecords _) (.afterAside (State.beginCommit_cellsKept _ _) rfl)
    · exact .inl rfl
    · exact .afterAside (State.enterSweep_cellsKept _) rfl

theorem State.abandonLanes_cellsKept (s : State) : CellsKept s s.abandonLanes := by
  unfold State.abandonLanes
  simp only
  split
  · exact .afterAside (State.cutFrame_cellsKept _) rfl
  · exact .inl rfl

theorem State.startFrame_cellsKept (s : State) : CellsKept s s.startFrame :=
  .afterAside (State.beginFrame_cellsKept _) (State.armBoundary_cellRecords _)

theorem State.testReady_cellsKept (s : State) : CellsKept s s.testReady := by
  unfold State.testReady
  split
  · exact s.startFrame_cellsKept
  · exact .refl

theorem State.testReadyIfFreed_cellsKept (s before : State) : CellsKept s (s.testReadyIfFreed before) := by
  unfold State.testReadyIfFreed
  split
  · exact s.testReady_cellsKept
  · exact .refl

/-- The cache's trigger with the admission unit's action, in either order (log entry 1). -/
theorem State.triggerWith_cellsKept {act : State → State} (h : ∀ s, CellsKept s (act s)) (s : State) :
    CellsKept s (s.triggerWith act) := by
  obtain ⟨n, e | e⟩ := s.triggerWith_cases act <;> rw [e]
  · exact .afterAside (h _) (State.evalTrigger_cellRecords (s.setChoices n))
  · exact .thenAside (State.evalTrigger_cellRecords _) (.afterAside (h (s.setChoices n)) rfl)

theorem State.handBand_cellsKept (s before : State) : CellsKept s (s.handBand before) := by
  unfold State.handBand
  split
  · exact .refl
  · exact State.triggerWith_cellsKept State.testReady_cellsKept s

theorem State.boundaryWork_cellsKept (s : State) : CellsKept s s.boundaryWork := by
  have h : s.advanceLanes.limitsInForce.cellRecords = s.cellRecords :=
    (State.limitsInForce_cellRecords _).trans s.advanceLanes_cellRecords
  have harm : ∀ u : State, CellsKept u u.armBoundary := fun u => .inl u.armBoundary_cellRecords
  unfold State.boundaryWork
  simp only
  split
  · exact .afterAside (State.triggerWith_cellsKept harm _) h
  · exact .afterAside (harm _) h

theorem State.continueFrames_cellsKept (s : State) : CellsKept s s.continueFrames := by
  unfold State.continueFrames
  split
  · exact s.beginFrame_cellsKept
  · exact .inr rfl

theorem State.endSweep_cellsKept (s : State) (left : List LaneId) : CellsKept s (s.endSweep left) := by
  have h : CellsKept s (((left.foldl State.leaveAbandoning s).setScan .stopped).flushEnds) := by
    obtain ⟨c, l, h⟩ := State.foldl_frame State.leaveAbandoning State.leaveAbandoning_frame left s
    rw [h]
    exact .inr (State.flushEnds_cellRecords _)
  unfold State.endSweep
  simp only
  split
  · exact h.trans (State.testReady_cellsKept _)
  · exact h.trans (State.triggerWith_cellsKept State.testReady_cellsKept _)

theorem State.sweepOn_cellsKept (s : State) (left : List LaneId) (y : Nat) (rest : List LineAccess) :
    CellsKept s (s.sweepOn left y rest) := by
  obtain ⟨c, l, f, h⟩ := s.leaveAll_frame left
  unfold State.sweepOn
  rw [h]
  split
  · exact .inl rfl
  · split
    · exact .inr rfl
    · exact s.endSweep_cellsKept left

theorem State.periodOver_cellsKept (s : State) : CellsKept s s.periodOver := by
  unfold State.periodOver
  split
  · exact s.nextPeriod_cellsKept _
  · exact .inl rfl
  · split
    · exact .inr rfl
    · exact .refl
  · exact .refl
  · exact .refl

/-! ### The power sequencer -/

theorem State.endStage_cellsKept (s : State) (k : Nat) : CellsKept s (s.endStage k) := by
  unfold State.endStage
  split
  · exact .inl rfl
  · exact .afterAside (State.testReady_cellsKept _) rfl

theorem State.conditionMet_cellsKept (s : State) (k m : Nat) : CellsKept s (s.conditionMet k m) :=
  .afterAside (State.endStage_cellsKept _ k) rfl

theorem State.enterFault_cellsKept (s : State) (k : Nat) (c : FaultCause) : CellsKept s (s.enterFault k c) :=
  .afterAside (State.abandonLanes_cellsKept _) rfl

theorem State.filteredChange_cellsKept (s : State) (line : Fin 4) (high : Bool) (clocks : Nat) :
    CellsKept s (s.filteredChange line high clocks) := by
  unfold State.filteredChange
  split
  · split
    · exact s.enterFault_cellsKept _ _
    · exact .refl
  · split
    · exact s.enterFault_cellsKept _ _
    · split
      · exact s.conditionMet_cellsKept _ _
      · exact .refl
  · exact .refl

theorem State.lineFiltered_cellsKept (s : State) (line : Fin 4) (clocks : Nat) :
    CellsKept s (s.lineFiltered line clocks) :=
  .afterAside (State.filteredChange_cellsKept _ _ _ _) rfl

/-- The end of an event changes no cell record. -/
theorem CellsKept.settled {s t : State} (h : CellsKept s t) : CellsKept s t.settle.arbitrate :=
  .thenAside (State.settle_cellRecords _) h

theorem State.railChange_cellsKept (s : State) (line : Fin 4) (high : Bool) (elapsed : Nat) :
    CellsKept s (s.railChange line high elapsed) := by
  unfold State.railChange
  simp only
  split
  · exact .inl rfl
  · split
    · exact .settled (.afterAside (State.lineFiltered_cellsKept _ _ _) rfl)
    · exact .inl rfl

theorem State.blankEnd_cellsKept (s : State) (k b : Nat) : CellsKept s (s.blankEnd k b) := by
  unfold State.blankEnd
  simp only
  split
  · exact .settled (.afterAside (State.conditionMet_cellsKept _ _ _) rfl)
  · exact .inl rfl

theorem State.stageTimedOut_cellsKept (s : State) (k : Nat) : CellsKept s (s.stageTimedOut k) := by
  unfold State.stageTimedOut
  split
  · exact .refl
  · exact (s.enterFault_cellsKept k .timeout).settled
  · exact (s.endStage_cellsKept k).settled

theorem State.fallDelayOver_cellsKept (s : State) (k : Nat) : CellsKept s (s.fallDelayOver k) := by
  have h : CellsKept s s.enterOff.testRise := .inl (State.testRise_cellRecords _)
  unfold State.fallDelayOver
  split
  · exact .inl rfl
  · exact h.settled

/-! ### The thermal unit and the flash interface -/

theorem State.conversion_cellsKept (s : State) (code : Nat) : CellsKept s (s.conversion code) :=
  .settled (.afterAside (State.handBand_cellsKept _ s) (State.thermalCode_cellRecords _ code))

theorem State.reloadNext_cellsKept (s : State) (r : Reload) (b : Band) : CellsKept s (s.reloadNext r b) := by
  unfold State.reloadNext
  split
  · exact .inl rfl
  · split
    · exact .inl (s.recheck_cellRecords r _)
    · exact .afterAside (State.triggerWith_cellsKept State.testReady_cellsKept (s.slotReady r b)) rfl

theorem State.reloadDelivery_cellsKept (s : State) (r : Reload) (res : FlashResult) :
    CellsKept s (s.reloadDelivery r res) := by
  unfold State.reloadDelivery
  cases res with
  | word w => exact .afterAside (State.reloadNext_cellsKept (s.storeWord r w) r _) rfl
  | timeout =>
    have h := s.reloadTimeout_cellRecords r (((s.cache.slot r.slot).band).getD 0)
    simp only
    split
    · exact .inl h
    · exact .afterAside (State.testReady_cellsKept _) h

theorem State.flashDelivery_cellsKept (s : State) (r : FlashResult) : CellsKept s (s.flashDelivery r) := by
  unfold State.flashDelivery
  simp only
  split
  · exact .inl (State.headerDelivery_cellRecords s.flashIdle r)
  · split
    · exact .afterAside (State.reloadDelivery_cellsKept s.flashIdle _ r) rfl
    · exact .inl rfl

/-! ### The drain -/

theorem State.entryDrained_cellsKept (s : State) : CellsKept s s.entryDrained := by
  have h : (s.setWb { entries := s.wb.entries.tail, done := 0 }).nextDrain.lowerFences.cellRecords = s.cellRecords :=
    (State.lowerFences_cellRecords _).trans (State.nextDrain_cellRecords _)
  exact .thenAside (State.settle_cellRecords _) (.afterAside (State.testReady_cellsKept _) h)

/-! ### The owners' answers -/

theorem handleDraw_cellsKept (p : List Byte) (s : State) : CellsKept s (handleDraw p s).1 := by
  unfold handleDraw
  simp only
  split
  · exact .refl
  · exact .inl (s.acceptWrite_cellRecords _)

theorem handleFill_cellsKept (p : List Byte) (s : State) : CellsKept s (handleFill p s).1 := by
  unfold handleFill
  split
  · exact .refl
  · exact .inl (s.acceptWrite_cellRecords _)

theorem handleUpdate_cellsKept (p : List Byte) (s : State) : CellsKept s (handleUpdate p s).1 := by
  unfold handleUpdate
  split
  · exact .refl
  · simp only
    split
    · exact .refl
    · split
      · exact .refl
      · exact .thenAside (State.settle_cellRecords _)
          (.afterAside (State.testReady_cellsKept _) (State.testRise_cellRecords _))

theorem cancelLane_cellsKept (s : State) (i : LaneId) : CellsKept s (cancelLane s i).1 := by
  unfold cancelLane
  split
  · exact .inl rfl
  · exact .inl rfl
  · dsimp only [State.doneWith]
    exact .thenAside (State.settle_cellRecords _)
      (.afterAside (State.testReadyIfFreed_cellsKept _ s)
        ((State.flushEnds_cellRecords _).trans (s.updateLane_cellRecords i _)))
  all_goals exact .refl

theorem handleCancel_cellsKept (p : List Byte) (s : State) : CellsKept s (handleCancel p s).1 := by
  unfold handleCancel
  simp only
  split
  · exact .inl (State.settle_cellRecords _)
  · split
    · exact cancelLane_cellsKept s _
    · exact .refl

theorem handleShutdown_cellsKept (s : State) : CellsKept s (handleShutdown s).1 := by
  unfold handleShutdown
  split
  · exact .refl
  · exact .inl (State.settle_cellRecords _)

theorem handleProbe_cellsKept (p : List Byte) (s : State) : CellsKept s (handleProbe p s).1 := by
  unfold handleProbe
  simp only
  split
  · exact .refl
  · exact .inl rfl

theorem handleTemp_cellsKept (p : List Byte) (s : State) : CellsKept s (handleTemp p s).1 := by
  have h : ∀ {u : State}, u.cellRecords = s.cellRecords → CellsKept s (u.handBand s).settle :=
    fun hu => .thenAside (State.settle_cellRecords _) (.afterAside (State.handBand_cellsKept _ s) hu)
  unfold handleTemp State.doneWith
  simp only
  split
  · exact h (State.setBand_cellRecords _ _ _ _)
  · exact h s.clearOverride_cellRecords

theorem handleHalt_cellsKept (s : State) : CellsKept s (handleHalt s).1 :=
  .thenAside (State.settle_cellRecords _)
    (.afterAside (State.abandonLanes_cellsKept s.haltPower.markAll) s.haltPower_cellRecords)

theorem handleClearFault_cellsKept (s : State) : CellsKept s (handleClearFault s).1 := by
  unfold handleClearFault
  split
  · have h : s.enterOff.clearFailed.testRise.cellRecords = s.cellRecords :=
      (State.testRise_cellRecords _).trans (State.clearFailed_cellRecords _)
    exact .inl ((State.settle_cellRecords _).trans h)
  · exact .refl

theorem handleFetch_cellsKept (s : State) : CellsKept s (handleFetch s).1 := by
  unfold handleFetch
  split
  · exact .refl
  · dsimp only [State.doneWith]
    exact .thenAside (State.settle_cellRecords _)
      (.afterAside (State.testReadyIfFreed_cellsKept _ s) (State.takeWaiting_cellRecords 64 _))

theorem ownerAnswer_cellsKept (k : RequestKind) (p : List Byte) (s : State) :
    CellsKept s (ownerAnswer k p s).1 := by
  cases k with
  | draw => exact handleDraw_cellsKept p s
  | fill => exact handleFill_cellsKept p s
  | update => exact handleUpdate_cellsKept p s
  | cancel => exact handleCancel_cellsKept p s
  | probe => exact handleProbe_cellsKept p s
  | temp => exact handleTemp_cellsKept p s
  | setLimits => exact .inl rfl
  | setThermal => exact .inl rfl
  | setPower => exact .inl rfl
  | shutdown => exact handleShutdown_cellsKept s
  | halt => exact handleHalt_cellsKept s
  | clearFault => exact handleClearFault_cellsKept s
  | fetch => exact handleFetch_cellsKept s
  | status => exact .refl

/-! ### The link -/

theorem State.takeWhole_cellsKept (s : State) (kind tag : Byte) (p : List Byte) (check : Word) :
    CellsKept s (s.takeWhole kind tag p check) := by
  unfold State.takeWhole
  split
  · exact .inl rfl
  · unfold State.dispatch
    split
    · exact .inl rfl
    · exact .thenAside (State.answer_cellRecords _ _ _ _) (ownerAnswer_cellsKept _ p s)

theorem State.takeRequest_cellsKept (s : State) (k : RequestKind) (tag : Byte) (p : List Byte) (check : Word) :
    CellsKept s (s.takeRequest k tag p check) := by
  unfold State.takeRequest
  split
  · split
    · exact .inl rfl
    · exact .thenAside (State.arbitrate_cellRecords _) (s.takeWhole_cellsKept _ tag p check)
  · exact .refl

theorem State.malformed_cellsKept (s : State) (frame : List Byte) :
    CellsKept s (((s.malformedAnswer frame).map State.arbitrate).getD s) := by
  cases h : s.malformedAnswer frame with
  | none => exact .refl
  | some t =>
    obtain ⟨kind, tag, c, rfl⟩ := State.malformedAnswer_cases h
    exact .inl rfl

theorem State.takeByte_cellsKept (s : State) (b : Byte) : CellsKept s (s.takeByte b) := by
  unfold State.takeByte
  split
  · unfold State.receiveByte
    simp only
    split
    · exact .inl rfl
    · exact .inl rfl
    · exact .thenAside (State.arbitrate_cellRecords _) (s.takeWhole_cellsKept _ _ _ _)
    · exact .inl rfl
    · exact .inl rfl
  · split
    · exact .inl rfl
    · exact .refl
  · exact .inl rfl
  all_goals exact .refl

theorem State.select_cellsKept (s : State) : CellsKept s s.select := by
  unfold State.select
  split <;> exact .inl rfl

theorem State.deselect_cellsKept (s : State) : CellsKept s s.deselect := by
  unfold State.deselect
  split <;> exact .inl rfl

end Sys2Proof.Machine
end

