-- ==== Sys2Proof/Proofs/CellAccesses.lean ====
section
/-! SUPPORT. The events that do write cell records: the reads of a line and its computation (R101, R102), its
write-backs (R104), the sweep (R111), the drain (R10) and the initialisation (R5); and with them every step. -/

namespace Sys2Proof.Machine

/-! ### A line's reads and computation (R101, R102) -/

theorem State.capture_work (s : State) (y : Nat) (a : LineAccess) : (s.capture y a).work = s.scan.work := by
  cases a <;> rfl

/-- A read adds cells of the plane to the line in hand. -/
theorem State.capture_legal {s : State} (hs : s.cellsLegal = true) (y : Nat) (a : LineAccess) :
    ∀ c ∈ (s.capture y a).cells, c.legal = true := by
  obtain ⟨hm, hc, -⟩ := s.cellsLegal_iff.1 hs
  cases a with
  | readCells g =>
    intro c hin
    rcases List.mem_append.1 hin with hin | hin
    · exact hc c hin
    · obtain ⟨x, -, rfl⟩ := List.mem_map.1 hin
      exact hm.cell x y
  | readDrafts g => exact hc
  | write g => exact hc

/-- The computation's cells come from the cells read. -/
theorem State.prepareLine_legal {s : State} (hs : s.cellsLegal = true) (y : Nat) :
    (s.prepareLine y).cellsLegal = true := by
  obtain ⟨hm, hc, -⟩ := s.cellsLegal_iff.1 hs
  exact (State.cellsLegal_iff _).2 ⟨hm, hc, s.computeFrom_legal y 0 s.scan.cells hc⟩

theorem State.lineRead_legal {s : State} (hs : s.cellsLegal = true) (y : Nat) (a : LineAccess)
    (rest : List LineAccess) : (s.lineRead y a rest).cellsLegal = true := by
  obtain ⟨hm, -, hw⟩ := s.cellsLegal_iff.1 hs
  have h : (s.freeMemory.setScan { s.capture y a with todo := rest }).cellsLegal = true := by
    refine (State.cellsLegal_iff _).2 ⟨hm, State.capture_legal hs y a, ?_⟩
    show ∀ w ∈ (s.capture y a).work, w.cell.legal = true
    rw [State.capture_work]
    exact hw
  unfold State.lineRead
  simp only
  split
  · exact State.prepareLine_legal h y
  · exact h

/-! ### The write-back and the commit (R104) -/

theorem Scan.workAt_legal {c : Scan} (h : ∀ w ∈ c.work, w.cell.legal = true) (x : Nat) :
    (c.workAt x).cell.legal = true := by
  unfold Scan.workAt
  rw [List.getD_eq_getElem?_getD]
  cases hx : c.work[x]? with
  | none => exact Cell.initial_legal
  | some w => exact h w (List.mem_of_getElem? hx)

theorem State.takeReports_mem (s : State) (rs : List Report) : (s.takeReports rs).mem = s.mem := by
  obtain ⟨l, h⟩ := State.takeReports_frame rs s
  rw [h]

theorem State.takeReports_scan (s : State) (rs : List Report) : (s.takeReports rs).scan = s.scan := by
  obtain ⟨l, h⟩ := State.takeReports_frame rs s
  rw [h]

/-- A write access to the cell plane with its reports: legal cells leave legal cells. -/
theorem State.writeCells_legal {s : State} (hs : s.cellsLegal = true) {xs : List Nat} (y : Nat) {f : Nat → Cell}
    (hf : ∀ x ∈ xs, (f x).legal = true) (rs : List Report) :
    ((s.setMem (s.mem.writeCells xs y f)).takeReports rs).cellsLegal = true := by
  obtain ⟨hm, -⟩ := s.cellsLegal_iff.1 hs
  refine State.cellsLegal_of_mem hs ?_ (State.takeReports_scan _ rs)
  rw [State.takeReports_mem]
  exact hm.writeCells y hf

theorem State.freeMemory_legal {s : State} (hs : s.cellsLegal = true) : s.freeMemory.cellsLegal = true := hs

theorem State.writeBack_legal {s : State} (hs : s.cellsLegal = true) (y g : Nat) :
    (s.writeBack y g).cellsLegal = true := by
  obtain ⟨-, -, hw⟩ := s.cellsLegal_iff.1 hs
  exact State.writeCells_legal (State.freeMemory_legal hs) y (fun x _ => Scan.workAt_legal hw x) _

theorem State.commitWrite_legal {s : State} (hs : s.cellsLegal = true) (y g : Nat) (rest : List LineAccess) :
    (s.commitWrite y g rest).cellsLegal = true := by
  have hscan : (s.writeBack y g).scan = s.scan := State.takeReports_scan _ _
  have h : ((s.writeBack y g).setScan { s.scan with todo := rest }).cellsLegal = true := by
    rw [← hscan]
    exact State.writeBack_legal hs y g
  unfold State.commitWrite
  simp only
  split
  · exact (State.lineCommitted_cellsKept _ y).legal h
  · exact CellsKept.legal (.inl ((State.askScan_cellRecords _ _).trans (State.leaveAll_cellRecords _ _))) h

/-! ### The sweep (R48, R111) -/

theorem State.sweepWrite_legal {s : State} (hs : s.cellsLegal = true) (y g : Nat) :
    (s.sweepWrite y g).cellsLegal = true := by
  obtain ⟨hm, -⟩ := s.cellsLegal_iff.1 hs
  exact State.writeCells_legal hs y (fun x _ => releaseCell_legal (hm.cell x y)) _

theorem State.sweepAccess_legal {s : State} (hs : s.cellsLegal = true) (y : Nat) (a : LineAccess)
    (rest : List LineAccess) : (s.sweepAccess y a rest).cellsLegal = true := by
  unfold State.sweepAccess
  split
  · exact (State.sweepOn_cellsKept _ _ y rest).legal (State.sweepWrite_legal (State.freeMemory_legal hs) y _)
  all_goals exact (s.freeMemory.sweepOn_cellsKept [] y _).legal (State.freeMemory_legal hs)

/-! ### The drain and the initialisation (R10, R5) -/

theorem State.drainAccess_legal {s : State} (hs : s.cellsLegal = true) (e : WriteEntry) :
    (s.drainAccess e).cellsLegal = true := by
  obtain ⟨hm, -⟩ := s.cellsLegal_iff.1 hs
  have h : (s.freeMemory.setMem (s.mem.drainWrite e s.wb.done)).cellsLegal = true :=
    State.cellsLegal_of_mem hs (hm.writeDrafts _ _ _) rfl
  unfold State.drainAccess
  simp only
  split
  · exact h
  · exact (State.entryDrained_cellsKept _).legal h

theorem State.initWrite_legal {s : State} (hs : s.cellsLegal = true) (i : Nat) :
    (s.initWrite i).cellsLegal = true := by
  obtain ⟨hm, -⟩ := s.cellsLegal_iff.1 hs
  unfold State.initWrite
  simp only
  split
  · exact State.cellsLegal_of_mem hs (hm.writeCells _ fun _ _ => Cell.initial_legal) rfl
  · exact State.cellsLegal_of_mem hs (hm.writeDrafts _ _ _) rfl

theorem State.initAccess_legal {s : State} (hs : s.cellsLegal = true) : s.initAccess.cellsLegal = true := by
  have h := State.initWrite_legal hs s.loader.initDone
  unfold State.initAccess
  simp only
  split
  · exact h
  · exact CellsKept.legal (.inl (State.evalTrigger_cellRecords _)) h

theorem State.probeReady_legal {s : State} (hs : s.cellsLegal = true) (x y : Nat) :
    (s.probeReady x y).cellsLegal = true := by
  obtain ⟨l, h⟩ := s.probeReady_frame x y
  rw [h]
  exact hs

/-! ### The commands -/

theorem State.arbitrateAfter_legal {s : State} (hs : s.cellsLegal = true) (old : Arbiter) :
    (s.arbitrateAfter old).cellsLegal = true := CellsKept.legal (.inl (s.arbitrateAfter_cellRecords old)) hs

theorem State.settle_legal {s : State} (hs : s.cellsLegal = true) : s.settle.cellsLegal = true :=
  CellsKept.legal (.inl s.settle_cellRecords) hs

/-- Every command keeps every cell legal. -/
theorem exec_cellsLegal {c : Instr} {s t : State} (hs : s.cellsLegal = true) (h : exec c s = .next t) :
    t.cellsLegal = true := by
  cases c
  case reset => cases h; exact CellsKept.legal (s := s) (.inr rfl) hs
  case resetRelease => cases h; split <;> exact hs
  case select => cases h; exact s.select_cellsKept.legal hs
  case deselect => cases h; exact s.deselect_cellsKept.legal hs
  case malformedRequest frame => cases h; split; exacts [(s.malformed_cellsKept frame).legal hs, hs]
  case byteBoundary b => cases h; exact (s.takeByte_cellsKept b).legal hs
  case drainAccessComplete =>
    cases h; split
    · exact State.arbitrateAfter_legal (State.drainAccess_legal hs _) _
    · exact hs
  case probeAccessComplete =>
    cases h; split
    · refine State.arbitrateAfter_legal (State.freeMemory_legal ?_) _
      split
      · exact State.probeReady_legal hs _ _
      · exact hs
    · exact hs
  case initWriteComplete => cases h; split; exacts [State.initAccess_legal hs, hs]
  case flashAccessComplete =>
    cases h; split
    · exact (s.flashDelivery_cellsKept _).settled.legal hs
    · exact hs
  case linePeriodExpiry =>
    cases h; split
    · exact s.periodOver_cellsKept.legal hs
    · exact hs
  case scanReadComplete =>
    cases h; split
    · exact State.arbitrateAfter_legal (CellsKept.legal (.inl s.discardedRead_cellRecords) hs) _
    · split
      · exact State.arbitrateAfter_legal (State.lineRead_legal hs _ _ _) _
      · exact hs
    · exact hs
  case outputWindowEnd =>
    cases h; split
    · exact (State.beginCommit_cellsKept _ _).legal hs
    · exact hs
  case commitWriteComplete =>
    cases h; split
    · exact State.arbitrateAfter_legal (State.settle_legal (State.commitWrite_legal hs _ _ _)) _
    · exact hs
  case frameBoundary =>
    cases h; split
    · exact (s.boundaryWork_cellsKept.trans (State.continueFrames_cellsKept _)).settled.legal hs
    · exact hs
  case sweepAccessComplete =>
    cases h; split
    · exact State.arbitrateAfter_legal (State.settle_legal (State.sweepAccess_legal hs _ _ _)) _
    · exact hs
  case sampleTimerExpiry => cases h; split <;> exact hs
  case conversionComplete => cases h; split; exacts [(s.conversion_cellsKept _).legal hs, hs]
  case railGoodChange => cases h; split; exacts [hs, (s.railChange_cellsKept _ _ _).legal hs]
  case glitchFilterExpiry =>
    cases h; split
    · exact (s.lineFiltered_cellsKept _ _).settled.legal hs
    · exact hs
  case blankIntervalEnd => cases h; split; exacts [(s.blankEnd_cellsKept _ _).legal hs, hs]
  case stageDelayExpiry =>
    cases h; split
    · split
      · exact (s.endStage_cellsKept _).settled.legal hs
      · exact hs
    · exact hs
  case stageTimeout => cases h; split; exacts [(s.stageTimedOut_cellsKept _).legal hs, hs]
  case fallDelayExpiry => cases h; split; exacts [(s.fallDelayOver_cellsKept _).legal hs, hs]
  case idleHoldExpiry => cases h; split <;> exact hs
  case flashSetupEnd => cases h; split <;> exact hs
  case flashStrobeEnd =>
    cases h; split
    · split <;> exact hs
    · exact hs
  case fwaitInactive => cases h; split <;> exact hs
  case flashWaitTimeout => cases h; split <;> exact hs
  case shiftEnd => cases h; split <;> exact hs
  all_goals cases h; exact (s.takeRequest_cellsKept _ _ _ _).legal hs

/-- Settles O55: most events keep the cell records or drop the line in hand, and those that write cells write
legal ones. -/
theorem cellsStayLegal : Obligations.CellsStayLegal := by
  unfold Obligations.CellsStayLegal
  intro s t hs h
  unfold step at h
  split at h
  · cases h; exact hs
  · rename_i rest _
    exact exec_cellsLegal (s := s.setPending rest) hs h

end Sys2Proof.Machine
end

