-- ==== Sys2Proof/Proofs/Escalation.lean ====
section
/-! SUPPORT. The arming tests in the words of R41 to R44, and the escalation limits: SET-LIMITS at the link and
its owner (R37), and the boundary that brings the taken pair into force (R36). -/

namespace Sys2Proof.Machine

/-! ### The arming tests (R41 to R44) -/

theorem effectiveGoal_eq (m : Mode) (d : Level) :
    effectiveGoal m d = if m = .swift then (if d.val ≤ 7 then 0 else 15) else d := by
  cases m with
  | swift => simp [effectiveGoal, Nat.lt_succ_iff]
  | tone => rfl
  | clean => rfl

theorem armsCell_iff (m : Mode) (e : Level) (c : Cell) : armsCell m e c = true ↔ m = .clean ∨ e ≠ c.level := by
  simp [armsCell]

/-- A cell escalates at a residue limit or at a balance limit of either sign. -/
theorem escalates_iff (m : Mode) (ne : Bool) (lim : Limits) (c : Cell) : escalates m ne lim c = true ↔
    m ≠ .clean ∧ ne = false ∧
      (lim.residue ≤ c.residue ∨ (lim.balance : Int) ≤ c.balance ∨ c.balance ≤ -(lim.balance : Int)) := by
  have habs : lim.balance ≤ c.balance.natAbs ↔
      (lim.balance : Int) ≤ c.balance ∨ c.balance ≤ -(lim.balance : Int) := by omega
  simp [escalates, habs, and_assoc]

theorem armedKind_eq (m : Mode) (esc : Bool) (b : Int) : armedKind m esc b =
    if esc = true ∨ m = .clean then (if 0 < b then .cleanDown else .cleanUp)
    else if m = .swift then .swift else .tone := by
  cases esc with
  | true => simp [armedKind, cleaningKind]
  | false => cases m <;> simp [armedKind, cleaningKind]

/-- Settles O53: the three outcomes of the arming tests, with goal, escalation and kind as the rules word them. -/
theorem armingFollowsTests : Obligations.ArmingFollowsTests := by
  unfold Obligations.ArmingFollowsTests
  intro v lim sl x y d e c esc k he hesc hk
  have hgoal : effectiveGoal v.mode d = e := (effectiveGoal_eq v.mode d).trans he.symm
  have hescalates : escalates v.mode v.noEscalate lim c = esc :=
    Bool.eq_iff_iff.2 ((escalates_iff _ _ _ _).trans hesc.symm)
  have hkind : armedKind v.mode esc c.balance = k := (armedKind_eq _ _ _).trans hk.symm
  refine ⟨fun o ho => armCell_owned ho v lim sl x y d, fun ho hmode hsame => ?_, fun ho harms => ?_⟩
  · refine armCell_unarmed ho (Bool.eq_false_iff.2 fun harms => ?_) lim sl x y
    rw [hgoal, armsCell_iff] at harms
    exact harms.elim hmode (absurd hsame)
  · have h := armCell_armed ho (by rw [hgoal, armsCell_iff]; exact harms) lim sl x y
    rwa [hescalates, hkind, hgoal] at h

/-! ### SET-LIMITS at the link and its owner (R37) -/

/-- A request the image-state gate turns away is answered with the gate's cause and changes nothing else (R167). -/
theorem exec_gated {s : State} {k : RequestKind} {tag : Byte} {p : List Byte} {c : Cause}
    (hg : s.loader.image.gate k = some c) (hr : s.receives k tag p) (hl : p.length ≤ 272)
    (ht : linkTests k.code tag p (frameCheck k.code tag p) = .ok k) :
    exec (k.sent tag p) s = .next { s with link := Link.answered k.code tag (.of c), arb := s.arb.grant } := by
  rw [RequestKind.sent, exec_command, State.takeRequest_received hl hr.1 hr.2]
  simp only [State.takeWhole, ht, State.dispatch, hg]
  rfl

/-- Every value of the two fields passes the link's tests (R166, R183). -/
theorem linkTests_setLimits (tag : Byte) {p : List Byte} (h : p.length = 4) :
    linkTests 0x07 tag p (frameCheck 0x07 tag p) = .ok .setLimits :=
  linkTests_sent (k := .setLimits) (by rw [h]; rfl) rfl rfl

/-- What SET-LIMITS' owner reads from its payload, clamps and answers (R37). -/
theorem handleSetLimits_le16 (s : State) {residue balance : Nat} (hr : fits16 residue) (hb : fits16 balance) :
    handleSetLimits (le16 residue ++ le16 balance) s =
      (s.setLimits { s.limits with
          taken := some { residue := max 1 (min 63 residue), balance := max 1 (min 511 balance) } },
        some (.done (le16 (max 1 (min 63 residue)) ++ le16 (max 1 (min 511 balance))))) := by
  have h0 : u16At (le16 residue ++ le16 balance) 0 = residue := u16At_le16 hr _
  have h2 : u16At (le16 residue ++ le16 balance) 2 = balance := u16At_le16 (p := []) hb
  simp only [handleSetLimits, h0, h2, clampNat, State.doneWith]

/-! ### The boundary (R36, R107) -/

theorem State.evalTrigger_limits (s : State) : s.evalTrigger.limits = s.limits := by
  obtain ⟨c, f, h⟩ := s.evalTrigger_frame
  rw [h]

theorem State.armBoundary_limits (s : State) : s.armBoundary.limits = s.limits := by
  obtain ⟨k, l, a, h⟩ := s.armBoundary_frame
  rw [h]

/-- The pass ends and the arming around it leave the limits as the boundary sets them (R36). -/
theorem State.boundaryWork_limits (s : State) :
    s.boundaryWork.limits = { taken := s.limits.taken, inForce := s.limits.taken } := by
  obtain ⟨c, n, l, a, hadvance⟩ := s.advanceLanes_frame
  have hforce : s.advanceLanes.limitsInForce.limits = { taken := s.limits.taken, inForce := s.limits.taken } := by
    rw [hadvance]
    rfl
  unfold State.boundaryWork
  simp only
  split
  · obtain ⟨n, h | h⟩ := s.advanceLanes.limitsInForce.triggerWith_cases State.armBoundary
    · rw [h, State.armBoundary_limits, State.evalTrigger_limits]
      exact hforce
    · rw [h, State.evalTrigger_limits, State.armBoundary_limits]
      exact hforce
  · rw [State.armBoundary_limits]
    exact hforce

theorem State.continueFrames_limits (s : State) : s.continueFrames.limits = s.limits := by
  unfold State.continueFrames
  split <;> rfl

theorem State.settle_limits (s : State) : s.settle.limits = s.limits := by
  obtain ⟨n, l, a, p, h⟩ := s.settle_frame
  rw [h]

theorem State.arbitrate_limits (s : State) : s.arbitrate.limits = s.limits := rfl

theorem State.atLastBlank_of_blank {s : State} {k : Nat} (hp : s.scan.pos = .blank k) (ht : s.scan.lineTimer ≠ none)
    (hk : k + 1 = s.hdr.blankLines) : s.atLastBlank = true := by
  simp [State.atLastBlank, hp, hk, Option.isSome_iff_ne_none, ht]

/-- FRAME_BOUNDARY at the end of the last blank line. -/
theorem exec_frameBoundary {s : State} (h : s.atLastBlank = true) :
    exec .frameBoundary s = .next s.boundaryWork.continueFrames.settle.arbitrate := by
  show execFrameBoundary s = _
  rw [execFrameBoundary, if_pos h]

/-- Settles O21: the owner clamps and stores, the gate answers in its place outside VALID, and of what a boundary
does only its own step touches the limits. -/
theorem setLimitsStored : Obligations.SetLimitsStored := by
  unfold Obligations.SetLimitsStored
  refine ⟨fun tag p h => linkTests_setLimits tag h, fun s k hp ht hk _ => ?_, fun s l => rfl, ?_⟩
  · refine ⟨_, exec_frameBoundary (State.atLastBlank_of_blank hp ht hk), ?_⟩
    rw [State.arbitrate_limits, State.settle_limits, State.continueFrames_limits, State.boundaryWork_limits]
  · intro s tag residue balance hr hfr hfb
    have hlen : (le16 residue ++ le16 balance).length ≤ 272 := by simp
    have htests := linkTests_setLimits tag (p := le16 residue ++ le16 balance) (by simp)
    refine ⟨fun hv => ?_, fun hl => ?_, fun ⟨r, hi⟩ => ?_⟩
    · exact exec_answered hv hr hlen htests (handleSetLimits_le16 s hfr hfb)
    · exact exec_gated (by rcases hl with h | h <;> rw [h] <;> rfl) hr hlen htests
    · exact exec_gated (by rw [hi]; rfl) hr hlen htests

end Sys2Proof.Machine
end

