-- ==== Sys2Proof/Proofs/LaneReports.lean ====
section
/-! SUPPORT. What a run of reports makes of one lane's record (R4, R72 to R74): each field of the record is a count,
a maximum, a union or a hull over the reports about the lane. -/

namespace Sys2Proof.Machine

/-! ### The reports about one lane -/

/-- What a report makes of the record of lane `i`: those about other lanes leave it. -/
def Lane.hear (i : LaneId) (l : Lane) (r : Report) : Lane := if r.lane = i then l.report r else l

theorem State.takeReport_lane (s : State) (r : Report) (i : LaneId) :
    (s.takeReport r).lane i = (s.lane i).hear i r := by
  rw [State.takeReport, State.updateLane, State.setLane_lane, Lane.hear]
  by_cases h : i = r.lane
  · rw [if_pos h, if_pos h.symm, h]
  · rw [if_neg h, if_neg (Ne.symm h)]

/-- A lane's record after a run of reports is its own record with the reports heard one after another. -/
theorem State.takeReports_lane (rs : List Report) (i : LaneId) : ∀ s : State,
    (s.takeReports rs).lane i = rs.foldl (Lane.hear i) (s.lane i) := by
  induction rs with
  | nil => exact fun s => rfl
  | cons r rs ih =>
    intro s
    rw [State.takeReports, List.foldl_cons, ← State.takeReports, ih, State.takeReport_lane, List.foldl_cons]

/-- Whether a report says that lane `i` armed a cell. -/
def Report.arms (i : LaneId) : Report → Bool
  | .armed j _ _ => j = i
  | .leftover _ _ _ _ | .completed _ => false

/-- Whether a report says that lane `i` armed a cell by escalation. -/
def Report.escalates (i : LaneId) : Report → Bool
  | .armed j _ e => j = i && e
  | .leftover _ _ _ _ | .completed _ => false

/-- Whether a report is a leftover of lane `i`. -/
def Report.leaves (i : LaneId) : Report → Bool
  | .leftover j _ _ _ => j = i
  | .armed _ _ _ | .completed _ => false

/-- Whether a report says that a cell of lane `i` has completed. -/
def Report.completes (i : LaneId) : Report → Bool
  | .completed j => j = i
  | .armed _ _ _ | .leftover _ _ _ _ => false

section OneReport

variable (i : LaneId) (l : Lane)

/-- What a lane hears of a cell armed (R4, R72). -/
theorem Lane.hear_armed (j : LaneId) (f : Nat) (e : Bool) : l.hear i (.armed j f e) = if j = i then
    { l with
      armed := l.armed + 1, escalated := l.escalated + (if e then 1 else 0), span := max l.span f
      live := l.live + 1 }
    else l := rfl

/-- What a lane hears of a leftover (R73, R74). -/
theorem Lane.hear_leftover (j : LaneId) (x y : Nat) (o : LaneId) : l.hear i (.leftover j x y o) = if j = i then
    { l with
      leftovers := l.leftovers + 1, box := some (growBox l.box x y), blockers := insertLane o l.blockers }
    else l := rfl

/-- What a lane hears of a cell completed (R4). -/
theorem Lane.hear_completed (j : LaneId) : l.hear i (.completed j) =
    if j = i then { l with live := l.live - 1 } else l := rfl

end OneReport

/-! ### Totals and live count (R4, R72) -/

/-- A field that every report heard raises by 1 or leaves counts the reports that raise it. -/
theorem Lane.hearAll_count {i : LaneId} {field : Lane → Nat} {p : Report → Bool}
    (hone : ∀ l r, field (l.hear i r) = field l + if p r then 1 else 0) (rs : List Report) : ∀ l : Lane,
    field (rs.foldl (Lane.hear i) l) = field l + rs.countP p := by
  induction rs with
  | nil => exact fun l => rfl
  | cons r rs ih =>
    intro l
    rw [List.foldl_cons, ih, hone, List.countP_cons]
    omega

theorem Lane.hear_armedTotal (i : LaneId) (l : Lane) (r : Report) :
    (l.hear i r).armed = l.armed + if r.arms i then 1 else 0 := by
  cases r with
  | armed j f e => by_cases h : j = i <;> simp [Lane.hear_armed, Report.arms, h]
  | leftover j x y o => by_cases h : j = i <;> simp [Lane.hear_leftover, Report.arms, h]
  | completed j => by_cases h : j = i <;> simp [Lane.hear_completed, Report.arms, h]

theorem Lane.hear_escalatedTotal (i : LaneId) (l : Lane) (r : Report) :
    (l.hear i r).escalated = l.escalated + if r.escalates i then 1 else 0 := by
  cases r with
  | armed j f e => by_cases h : j = i <;> simp [Lane.hear_armed, Report.escalates, h]
  | leftover j x y o => by_cases h : j = i <;> simp [Lane.hear_leftover, Report.escalates, h]
  | completed j => by_cases h : j = i <;> simp [Lane.hear_completed, Report.escalates, h]

theorem Lane.hear_leftoverTotal (i : LaneId) (l : Lane) (r : Report) :
    (l.hear i r).leftovers = l.leftovers + if r.leaves i then 1 else 0 := by
  cases r with
  | armed j f e => by_cases h : j = i <;> simp [Lane.hear_armed, Report.leaves, h]
  | leftover j x y o => by_cases h : j = i <;> simp [Lane.hear_leftover, Report.leaves, h]
  | completed j => by_cases h : j = i <;> simp [Lane.hear_completed, Report.leaves, h]

/-- The live count, where it counts the cells that complete at the start. -/
theorem Lane.hearAll_live (i : LaneId) (rs : List Report) : ∀ l : Lane, rs.countP (Report.completes i) ≤ l.live →
    (rs.foldl (Lane.hear i) l).live + rs.countP (Report.completes i) = l.live + rs.countP (Report.arms i) := by
  induction rs with
  | nil => exact fun l _ => rfl
  | cons r rs ih =>
    intro l h
    have hrs := ih (l.hear i r)
    rw [List.countP_cons] at h
    rw [List.foldl_cons, List.countP_cons, List.countP_cons]
    cases r with
    | armed j f e =>
      by_cases hj : j = i <;> simp [Lane.hear_armed, Report.arms, Report.completes, hj] at h hrs ⊢ <;> omega
    | leftover j x y o =>
      by_cases hj : j = i <;> simp [Lane.hear_leftover, Report.arms, Report.completes, hj] at h hrs ⊢ <;> omega
    | completed j =>
      by_cases hj : j = i <;> simp [Lane.hear_completed, Report.arms, Report.completes, hj] at h hrs ⊢ <;> omega

/-! ### Span, blockers and leftover box (R72 to R74) -/

/-- The span is the largest of the old one and the frame counts of the cells armed (R72). -/
theorem Lane.hearAll_span (i : LaneId) (n : Nat) (rs : List Report) : ∀ l : Lane,
    (rs.foldl (Lane.hear i) l).span ≤ n ↔ l.span ≤ n ∧ ∀ f e, Report.armed i f e ∈ rs → f ≤ n := by
  induction rs with
  | nil => exact fun l => by simp
  | cons r rs ih =>
    intro l
    rw [List.foldl_cons, ih]
    cases r with
    | armed j f e =>
      by_cases h : j = i
      · subst h
        rw [Lane.hear_armed, if_pos rfl]
        constructor
        · exact fun ⟨hmax, hrs⟩ => ⟨le_of_max_le_left hmax, fun g b hm => by
            rcases List.mem_cons.1 hm with hm | hm
            · cases hm
              exact le_of_max_le_right hmax
            · exact hrs g b hm⟩
        · exact fun ⟨hl, hrs⟩ =>
            ⟨max_le hl (hrs f e (by simp)), fun g b hm => hrs g b (List.mem_cons_of_mem _ hm)⟩
      · simp [Lane.hear_armed, h, Ne.symm h]
    | leftover j x y o => by_cases h : j = i <;> simp [Lane.hear_leftover, h]
    | completed j => by_cases h : j = i <;> simp [Lane.hear_completed, h]

theorem mem_insertLane {i j : LaneId} {l : List LaneId} : j ∈ insertLane i l ↔ j = i ∨ j ∈ l := by
  induction l with
  | nil => simp [insertLane]
  | cons k l ih =>
    unfold insertLane
    split
    · simp
    · split
      · rename_i h
        simp [h]
      · simp only [List.mem_cons, ih]
        tauto

/-- The blocker set gains the owners that the leftovers name (R74). -/
theorem Lane.hearAll_blockers (i o : LaneId) (rs : List Report) : ∀ l : Lane,
    o ∈ (rs.foldl (Lane.hear i) l).blockers ↔ o ∈ l.blockers ∨ ∃ x y, Report.leftover i x y o ∈ rs := by
  induction rs with
  | nil => exact fun l => by simp
  | cons r rs ih =>
    intro l
    rw [List.foldl_cons, ih]
    cases r with
    | armed j f e => by_cases h : j = i <;> simp [Lane.hear_armed, h]
    | leftover j x y p =>
      by_cases h : j = i
      · subst h
        simp [Lane.hear_leftover, mem_insertLane, exists_or]
        tauto
      · simp [Lane.hear_leftover, h, Ne.symm h]
    | completed j => by_cases h : j = i <;> simp [Lane.hear_completed, h]

/-- A box holds a pixel (00_scope.md 3.4). -/
abbrev Rect.covers (b : Rect) (x y : Nat) : Prop := b.x0 ≤ x ∧ x ≤ b.x1 ∧ b.y0 ≤ y ∧ y ≤ b.y1

/-- A box holds another, if there is another. -/
abbrev Rect.spans (b : Rect) (c : Option Rect) : Prop :=
  ∀ r, c = some r → b.x0 ≤ r.x0 ∧ r.x1 ≤ b.x1 ∧ b.y0 ≤ r.y0 ∧ r.y1 ≤ b.y1

/-- The grown box is the smallest that holds the old one and the pixel (R73). -/
theorem Rect.spans_growBox (b : Rect) (c : Option Rect) (x y : Nat) :
    b.spans (some (growBox c x y)) ↔ b.spans c ∧ b.covers x y := by
  cases c with
  | none => simp [Rect.spans, growBox]
  | some r =>
    simp only [Rect.spans, growBox, Option.some.injEq, forall_eq']
    omega

/-- The leftover box is the smallest that holds the old one and every leftover reported (R73). -/
theorem Lane.hearAll_box (i : LaneId) (b : Rect) (rs : List Report) : ∀ l : Lane,
    ((∀ x y o, Report.leftover i x y o ∈ rs → b.covers x y) ∧ b.spans l.box) ↔
      b.spans (rs.foldl (Lane.hear i) l).box := by
  induction rs with
  | nil => exact fun l => by simp
  | cons r rs ih =>
    intro l
    rw [List.foldl_cons, ← ih]
    cases r with
    | armed j f e => by_cases h : j = i <;> simp [Lane.hear_armed, h]
    | leftover j x y o =>
      by_cases h : j = i
      · subst h
        rw [Lane.hear_leftover, if_pos rfl, Rect.spans_growBox]
        constructor
        · exact fun ⟨hrs, hl⟩ => ⟨fun x' y' o' hm => hrs x' y' o' (List.mem_cons_of_mem _ hm), hl, hrs x y o (by simp)⟩
        · rintro ⟨hrs, hl, hxy⟩
          refine ⟨fun x' y' o' hm => ?_, hl⟩
          rcases List.mem_cons.1 hm with hm | hm
          · cases hm
            exact hxy
          · exact hrs x' y' o' hm
      · simp [Lane.hear_leftover, h, Ne.symm h]
    | completed j => by_cases h : j = i <;> simp [Lane.hear_completed, h]

/-! ### What no report changes -/

/-- A lane's record with the fields that reports write at their reset values. -/
def Lane.unreported (l : Lane) : Lane :=
  { l with armed := 0, escalated := 0, leftovers := 0, live := 0, span := 0, box := none, blockers := [] }

theorem Lane.hearAll_unreported (i : LaneId) (rs : List Report) : ∀ l : Lane,
    (rs.foldl (Lane.hear i) l).unreported = l.unreported := by
  induction rs with
  | nil => exact fun l => rfl
  | cons r rs ih =>
    intro l
    rw [List.foldl_cons, ih, Lane.hear]
    split
    · cases r <;> rfl
    · rfl

/-! ### The obligation -/

/-- Settles O41: a lane's record hears the reports one after another, and each field is an induction over them. -/
theorem reportsAreCounted : Obligations.ReportsAreCounted := by
  unfold Obligations.ReportsAreCounted
  rintro s rs i l rfl
  obtain ⟨lanes, hframe⟩ := State.takeReports_frame rs s
  have hsame := Lane.hearAll_unreported i rs (s.lane i)
  simp only [Lane.unreported, Lane.mk.injEq] at hsame
  obtain ⟨hstate, hid, horder, -, -, -, hpass, -, hslot, -, -, hstep, -, -, -, -, -, -, -, hcancel, houtcome⟩ := hsame
  rw [State.takeReports_lane]
  exact ⟨Lane.hearAll_count (Lane.hear_armedTotal i) rs _, Lane.hearAll_count (Lane.hear_escalatedTotal i) rs _,
    Lane.hearAll_count (Lane.hear_leftoverTotal i) rs _, Lane.hearAll_live i rs _,
    fun n => Lane.hearAll_span i n rs _, fun j => Lane.hearAll_blockers i j rs _, fun b => Lane.hearAll_box i b rs _,
    hstate, hid, horder, hpass, hslot, hstep, hcancel, houtcome, by rw [hframe], by rw [hframe]⟩

end Sys2Proof.Machine
end

