-- ==== Sys2Proof/Proofs/UpdateEnds.lean ====
section
/-! SUPPORT. The UPDATE_END notices of one event that only lanes end in (R91, R175, R176): which lanes become FREE,
which wait, and in which order. -/

namespace Sys2Proof.Machine

/-! ### The earliest of a list (R50) -/

/-- The earliest element is one of the list, and none is earlier, for orders as near as R50 says they are. -/
theorem earliestBy_spec {α : Type} {key : α → BitVec 32} {l : List α} {a : α} (h : earliestBy key l = some a) :
    a ∈ l ∧ ∀ base : BitVec 32, (∀ x ∈ l, (key x - base).toNat < 2147483648) →
      ∀ x ∈ l, earlier (key x) (key a) = false := by
  induction l generalizing a with
  | nil => cases h
  | cons b l ih =>
    have hself : ∀ x : α, earlier (key x) (key x) = false := fun x => by simp [earlier]
    unfold earliestBy at h
    split at h
    · rename_i hnone
      cases h
      rw [earliestBy_eq_none.1 hnone]
      exact ⟨by simp, fun base _ x hx => by rw [List.mem_singleton.1 hx]; exact hself _⟩
    · rename_i c hc
      obtain ⟨hmem, hfirst⟩ := ih hc
      have hcl : c ∈ b :: l := List.mem_cons_of_mem _ hmem
      split at h <;> rename_i hcb <;> cases h
      · refine ⟨hcl, fun base hbase x hx => ?_⟩
        rcases List.mem_cons.1 hx with rfl | hx
        · rw [earlier_iff_of_base (hbase a hcl) (hbase x hx)] at hcb
          rw [← Bool.not_eq_true, earlier_iff_of_base (hbase x hx) (hbase a hcl)]
          omega
        · exact hfirst base (fun y hy => hbase y (List.mem_cons_of_mem _ hy)) x hx
      · refine ⟨by simp, fun base hbase x hx => ?_⟩
        rcases List.mem_cons.1 hx with rfl | hxl
        · exact hself _
        · have hcx := hfirst base (fun y hy => hbase y (List.mem_cons_of_mem _ hy)) x hxl
          have hb : b ∈ b :: l := by simp
          rw [← Bool.not_eq_true, earlier_iff_of_base (hbase x hx) (hbase c hcl)] at hcx
          rw [earlier_iff_of_base (hbase c hcl) (hbase b hb)] at hcb
          rw [← Bool.not_eq_true, earlier_iff_of_base (hbase x hx) (hbase b hb)]
          omega

/-! ### The submissions of lanes (R91, R175) -/

/-- The lanes in REPORTING that do not wait yet. -/
def State.lanesDue (s : State) : List LaneId :=
  allLanes.filter (fun i => (s.lane i).state = .reporting && !s.notices.waiting.contains (.lane i))

/-- The admission unit has no submission to make: no entry is marked, or it waits already (R61). -/
def State.admissionSilent (s : State) : Prop := s.adm.marked = [] ∨ Submitter.admission ∈ s.notices.waiting

/-- The admission order of a lane's update. -/
def State.laneOrder (s : State) (i : LaneId) : BitVec 32 := (s.lane i).order.getD 0

theorem State.mem_lanesDue {s : State} {i : LaneId} :
    i ∈ s.lanesDue ↔ (s.lane i).state = .reporting ∧ Submitter.lane i ∉ s.notices.waiting := by
  simp [State.lanesDue, mem_allLanes]

theorem State.lanesDue_nodup (s : State) : s.lanesDue.Nodup := List.Nodup.filter _ (by decide)

theorem State.lanesDue_length (s : State) : s.lanesDue.length ≤ 16 := List.length_filter_le _ allLanes

/-- With the admission unit silent the lanes' submissions are all that are due. -/
theorem State.submissionsDue_lanes {s : State} (h : s.admissionSilent) :
    s.submissionsDue = s.lanesDue.map (fun i => (s.laneOrder i, Submitter.lane i)) := by
  have hadm : (match s.adm.earliestMarked with
      | some p => if s.notices.waiting.contains .admission then [] else [(p.order, Submitter.admission)]
      | none => []) = [] := by
    rcases h with h | h
    · rw [Admission.earliestMarked, h]
      rfl
    · cases s.adm.earliestMarked <;> simp [h]
  exact (congrArg _ hadm).trans (List.append_nil _)

/-- With nothing left over from earlier events, no submission is due, -/
theorem State.quiet_due {s : State} (h : s.quiet = true) : s.submissionsDue = [] := by
  simp only [State.quiet, Bool.and_eq_true, List.isEmpty_iff] at h
  obtain ⟨⟨hdue, -⟩, -⟩ := h
  exact hdue

/-- the admission unit's neither. -/
theorem State.quiet_admissionSilent {s : State} (h : s.quiet = true) : s.admissionSilent :=
  (s.submissionsDue_eq_nil.1 (State.quiet_due h)).2

/-- A lane on the waiting list is in REPORTING (R175). -/
theorem State.waiting_reports {s : State} (h : s.railsGuarded = true) {i : LaneId}
    (hi : Submitter.lane i ∈ s.notices.waiting) : (s.lane i).state = .reporting := by
  simp only [State.railsGuarded, State.waitersReport, Bool.and_eq_true, List.all_eq_true] at h
  obtain ⟨⟨⟨⟨⟨⟨-, hall⟩, -⟩, -⟩, -⟩, -⟩, -⟩ := h
  simpa using hall _ hi

theorem Notices.room_iff {n : Notices} : n.room = true ↔ n.updateEnds < 31 := decide_eq_true_iff

/-- A lane's notice that finds room. -/
theorem State.submit_room {s : State} {i : LaneId} (h : s.notices.updateEnds < 31 ∧ s.notices.waiting = []) :
    s.submit (.lane i) = (s.queueNotice (s.lane i).endNotice).setLane i Lane.free :=
  if_pos (by rw [Bool.and_eq_true, Notices.room_iff, List.isEmpty_iff]; exact h)

/-- A lane's notice that finds none. -/
theorem State.submit_full {s : State} {w : Submitter} (h : ¬ (s.notices.updateEnds < 31 ∧ s.notices.waiting = [])) :
    s.submit w = s.setNotices { s.notices with waiting := s.notices.waiting ++ [w] } :=
  if_neg fun hr => by
    rw [Bool.and_eq_true, Notices.room_iff, List.isEmpty_iff] at hr
    exact h hr

/-- Either way the lane has no submission due any more. -/
theorem State.submit_lanesDue (s : State) (i : LaneId) : (s.submit (.lane i)).lanesDue = s.lanesDue.erase i := by
  rw [s.lanesDue_nodup.erase_eq_filter, State.lanesDue, State.lanesDue, List.filter_filter]
  refine List.filter_congr fun j _ => ?_
  by_cases h : s.notices.updateEnds < 31 ∧ s.notices.waiting = []
  · rw [State.submit_room h, State.setLane_lane]
    by_cases hj : j = i
    · simp [hj, Lane.free]
    · rw [if_neg hj, bne_iff_ne.2 hj, Bool.true_and]
      rfl
  · rw [State.submit_full h, Bool.eq_iff_iff]
    simp [State.setNotices, State.lane]
    tauto

/-- The lane `i` is the one whose submission comes first: it is due, and none that is due is earlier (R176). -/
def State.FirstDue (s : State) (i : LaneId) : Prop :=
  i ∈ s.lanesDue ∧ ∀ base : BitVec 32, (∀ j ∈ s.lanesDue, (s.laneOrder j - base).toNat < 2147483648) →
    ∀ j ∈ s.lanesDue, earlier (s.laneOrder j) (s.laneOrder i) = false

/-- The round of submissions that takes the earliest lane. -/
theorem State.submitDue_round {s : State} (h : s.admissionSilent) (n : Nat) :
    (s.lanesDue = [] ∧ State.submitDue (n + 1) s = s) ∨
      ∃ i, s.FirstDue i ∧ State.submitDue (n + 1) s = State.submitDue n (s.submit (.lane i)) := by
  rw [State.submitDue, State.submissionsDue_lanes h]
  split
  · rename_i hnone
    exact .inl ⟨List.map_eq_nil_iff.1 (earliestBy_eq_none.1 hnone), rfl⟩
  · rename_i order who hsome
    obtain ⟨hmem, hfirst⟩ := earliestBy_spec hsome
    obtain ⟨i, hi, heq⟩ := List.mem_map.1 hmem
    obtain ⟨rfl, rfl⟩ : s.laneOrder i = order ∧ Submitter.lane i = who := by simpa using heq
    exact .inr ⟨i, ⟨hi, fun base hbase j hj =>
      hfirst base (List.forall_mem_map.2 hbase) (s.laneOrder j, .lane j) (List.mem_map.2 ⟨j, hj, rfl⟩)⟩, rfl⟩

/-! ### One event's notices -/

/-- What the submissions of an event make of `s`: the lanes `ds` become FREE with their notices queued, and behind them
the lanes `ws` wait, in admission order (R91, R175, R176). -/
structure State.Ended (s t : State) (ds ws : List LaneId) : Prop where
  frame : t = { s with
    lanes := t.lanes
    notices := {
      queue := s.notices.queue ++ ds.map (fun i => (s.lane i).endNotice)
      waiting := s.notices.waiting ++ ws.map Submitter.lane } }
  lane : ∀ i, t.lane i = if i ∈ ds then Lane.free else s.lane i
  all : (ds ++ ws).Perm s.lanesDue
  room : ds ≠ [] → s.notices.waiting = [] ∧ s.notices.updateEnds + ds.length ≤ 31
  full : ws ≠ [] → s.notices.waiting ≠ [] ∨ 31 ≤ s.notices.updateEnds + ds.length
  sorted : ∀ base : BitVec 32, (∀ i ∈ s.lanesDue, (s.laneOrder i - base).toNat < 2147483648) →
    (ds ++ ws).Pairwise (fun i j => earlier (s.laneOrder j) (s.laneOrder i) = false)

/-- Nothing due, nothing made. -/
theorem State.ended_nil {s : State} (h : s.lanesDue = []) : s.Ended s [] [] where
  frame := by simp
  lane := fun i => by simp
  all := by simp [h]
  room := fun h => absurd rfl h
  full := fun h => absurd rfl h
  sorted := fun _ _ => .nil

section FirstLane

variable {s t : State} {i : LaneId} {ds ws : List LaneId}

/-- The order of the lanes due when the earliest goes first. -/
theorem State.FirstDue.sorted_cons {u : State} {is : List LaneId} (hi : s.FirstDue i)
    (hdue : u.lanesDue = s.lanesDue.erase i) (horder : ∀ j, j ≠ i → u.laneOrder j = s.laneOrder j)
    (hall : is.Perm u.lanesDue)
    (hsorted : ∀ base : BitVec 32, (∀ j ∈ u.lanesDue, (u.laneOrder j - base).toNat < 2147483648) →
      is.Pairwise (fun j k => earlier (u.laneOrder k) (u.laneOrder j) = false))
    (base : BitVec 32) (hbase : ∀ j ∈ s.lanesDue, (s.laneOrder j - base).toNat < 2147483648) :
    (i :: is).Pairwise (fun j k => earlier (s.laneOrder k) (s.laneOrder j) = false) := by
  have hrest : ∀ j ∈ is, j ≠ i ∧ j ∈ s.lanesDue := fun j hj =>
    s.lanesDue_nodup.mem_erase_iff.1 (hdue ▸ hall.mem_iff.1 hj)
  have hbase' : ∀ j ∈ u.lanesDue, (u.laneOrder j - base).toNat < 2147483648 := fun j hj => by
    obtain ⟨hji, hjs⟩ := hrest j (hall.mem_iff.2 hj)
    rw [horder j hji]
    exact hbase j hjs
  refine List.pairwise_cons.2 ⟨fun j hj => hi.2 base hbase j (hrest j hj).2, ?_⟩
  refine (hsorted base hbase').imp_of_mem fun {j k} hj hk h => ?_
  rwa [horder j (hrest j hj).1, horder k (hrest k hk).1] at h

/-- The earliest lane finds room. -/
theorem State.Ended.cons_room (hr : s.notices.updateEnds < 31 ∧ s.notices.waiting = []) (hi : s.FirstDue i)
    (h : (s.submit (.lane i)).Ended t ds ws) : s.Ended t (i :: ds) ws := by
  have hdue := s.submit_lanesDue i
  have hall := h.all
  have hlane : ∀ j, (s.submit (.lane i)).lane j = if j = i then Lane.free else s.lane j := fun j => by
    rw [State.submit_room hr]
    exact State.setLane_lane _ i j _
  have hne : ∀ j ∈ ds, j ≠ i := fun j hj =>
    (s.lanesDue_nodup.mem_erase_iff.1 (hdue ▸ hall.mem_iff.1 (List.mem_append_left _ hj))).1
  have hqueue : (s.submit (.lane i)).notices =
      { s.notices with queue := s.notices.queue ++ [(s.lane i).endNotice] } := by
    rw [State.submit_room hr]
    rfl
  have hends : (s.submit (.lane i)).notices.updateEnds = s.notices.updateEnds + 1 := by
    rw [hqueue, Notices.updateEnds, List.countP_append]
    rfl
  have hroom := h.room
  have hfull := h.full
  rw [hends, hqueue] at hroom hfull
  refine ⟨?_, fun j => ?_, ?_, fun _ => ⟨hr.2, ?_⟩, fun hw => ?_, ?_⟩
  · have hmap : ds.map (fun j => ((s.submit (.lane i)).lane j).endNotice) = ds.map (fun j => (s.lane j).endNotice) :=
      List.map_congr_left fun j hj => by rw [hlane, if_neg (hne j hj)]
    have hframe := h.frame
    rw [hmap, hqueue, State.submit_room hr] at hframe
    simpa [State.queueNotice, State.setNotices, State.setLane, State.setLanes] using hframe
  · rw [h.lane, hlane]
    by_cases hj : j = i <;> simp [hj]
  · rw [hdue] at hall
    exact (hall.cons i).trans (List.perm_cons_erase hi.1).symm
  · cases ds with
    | nil => exact hr.1
    | cons d ds =>
      have hds := (hroom (by simp)).2
      simp only [List.length_cons] at hds ⊢
      omega
  · rcases hfull hw with hfull | hfull
    · exact .inl hfull
    · exact .inr (by simp only [List.length_cons]; omega)
  · exact hi.sorted_cons hdue (fun j hj => by rw [State.laneOrder, hlane, if_neg hj]; rfl) hall h.sorted

/-- The earliest lane finds none: all behind it wait too. -/
theorem State.Ended.cons_full (hr : ¬ (s.notices.updateEnds < 31 ∧ s.notices.waiting = [])) (hi : s.FirstDue i)
    (h : (s.submit (.lane i)).Ended t ds ws) : s.Ended t [] (i :: ws) := by
  have hdue := s.submit_lanesDue i
  obtain rfl : ds = [] := by
    by_contra hds
    have hw := (h.room hds).1
    rw [State.submit_full hr] at hw
    simp at hw
  have hall := h.all
  refine ⟨?_, fun j => ?_, ?_, fun h => absurd rfl h, fun _ => ?_, ?_⟩
  · have hframe := h.frame
    rw [State.submit_full hr] at hframe
    simpa [State.setNotices] using hframe
  · rw [h.lane, State.submit_full hr]
    rfl
  · rw [hdue] at hall
    exact (hall.cons i).trans (List.perm_cons_erase hi.1).symm
  · by_contra hno
    simp only [not_or, not_not, List.length_nil] at hno
    exact hr ⟨by omega, hno.1⟩
  · exact hi.sorted_cons hdue (fun j hj => by rw [State.submit_full hr]; rfl) hall h.sorted

end FirstLane

/-- The submissions of an event in which only lanes end (R176). -/
theorem State.submitDue_ended (n : Nat) : ∀ s : State, s.admissionSilent → s.lanesDue.length ≤ n →
    ∃ ds ws, s.Ended (State.submitDue n s) ds ws := by
  induction n with
  | zero => exact fun s _ hn => ⟨[], [], State.ended_nil (List.length_eq_zero_iff.1 (Nat.le_zero.1 hn))⟩
  | succ n ih =>
    intro s hs hn
    rcases State.submitDue_round hs n with ⟨hnil, hround⟩ | ⟨i, hi, hround⟩ <;> rw [hround]
    · exact ⟨[], [], State.ended_nil hnil⟩
    · have hlen : (s.submit (.lane i)).lanesDue.length ≤ n := by
        rw [s.submit_lanesDue i, List.length_erase_of_mem hi.1]
        omega
      by_cases hr : s.notices.updateEnds < 31 ∧ s.notices.waiting = []
      · obtain ⟨ds, ws, h⟩ := ih (s.submit (.lane i)) (by rw [State.submit_room hr]; exact hs) hlen
        exact ⟨_, _, h.cons_room hr hi⟩
      · have hs' : (s.submit (.lane i)).admissionSilent := by
          rw [State.submit_full hr]
          exact hs.imp_right (List.mem_append_left _)
        obtain ⟨ds, ws, h⟩ := ih _ hs' hlen
        exact ⟨_, _, h.cons_full hr hi⟩

theorem State.flushEnds_ended {s : State} (h : s.admissionSilent) : ∃ ds ws, s.Ended s.flushEnds ds ws :=
  State.submitDue_ended 64 s h (s.lanesDue_length.trans (by decide))

/-! ### What an event's notices make of one lane -/

section OneLane

variable {s t : State} {i : LaneId} {ds ws : List LaneId}

/-- A lane without a submission due stays as it is. -/
theorem State.Ended.lane_of_not_due (h : s.Ended t ds ws) (hi : i ∉ s.lanesDue) : t.lane i = s.lane i := by
  rw [h.lane, if_neg fun hd => hi (h.all.mem_iff.1 (List.mem_append_left _ hd))]

/-- A lane with one becomes FREE with its notice queued, or waits. -/
theorem State.Ended.lane_of_due (h : s.Ended t ds ws) (hi : i ∈ s.lanesDue) :
    (t.lane i = Lane.free ∧ (s.lane i).endNotice ∈ t.notices.queue) ∨
      (t.lane i = s.lane i ∧ Submitter.lane i ∈ t.notices.waiting) := by
  rw [h.lane, h.frame]
  by_cases hd : i ∈ ds
  · exact .inl ⟨if_pos hd, List.mem_append_right _ (List.mem_map.2 ⟨i, hd, rfl⟩)⟩
  · have hw : i ∈ ws := (List.mem_append.1 (h.all.mem_iff.2 hi)).resolve_left hd
    exact .inr ⟨if_neg hd, List.mem_append_right _ (List.mem_map.2 ⟨i, hw, rfl⟩)⟩

/-- With nobody waiting and room for all of them, every lane with a submission due becomes FREE (R175). -/
theorem State.Ended.lane_free (h : s.Ended t ds ws) (hi : i ∈ s.lanesDue) (hw : s.notices.waiting = [])
    (hroom : s.notices.updateEnds + s.lanesDue.length ≤ 31) : t.lane i = Lane.free := by
  have hlength := h.all.length_eq
  rw [List.length_append] at hlength
  obtain rfl : ws = [] := by
    by_contra hne
    have hpos := List.length_pos_iff.2 hne
    rcases h.full hne with hfull | hfull
    · exact hfull hw
    · omega
  have hd : i ∈ ds := by simpa using h.all.mem_iff.2 hi
  rw [h.lane, if_pos hd]

/-- Where there is no room or others wait, no notice is queued (R175). -/
theorem State.Ended.queue_of_full (h : s.Ended t ds ws) (hfull : 31 ≤ s.notices.updateEnds ∨ s.notices.waiting ≠ []) :
    t.notices.queue = s.notices.queue := by
  obtain rfl : ds = [] := by
    by_contra hne
    obtain ⟨hw, hroom⟩ := h.room hne
    have hpos := List.length_pos_iff.2 hne
    rcases hfull with hfull | hfull
    · omega
    · exact hfull hw
  rw [h.frame]
  simp

end OneLane

/-- After an event's submissions none is due. -/
theorem State.Ended.dueNil {s t : State} {ds ws : List LaneId} (h : s.Ended t ds ws) (hs : s.admissionSilent) :
    t.submissionsDue = [] := by
  have hwaiting : t.notices.waiting = s.notices.waiting ++ ws.map Submitter.lane := by rw [h.frame]
  have hadm : t.adm = s.adm := by rw [h.frame]
  rw [State.submissionsDue_eq_nil, hwaiting, hadm]
  refine ⟨fun i hi => ?_, hs.imp_right (List.mem_append_left _)⟩
  by_cases hdue : i ∈ s.lanesDue
  · rcases h.lane_of_due hdue with ⟨hfree, -⟩ | ⟨-, hw⟩
    · rw [hfree] at hi
      cases hi
    · rwa [hwaiting] at hw
  · rw [h.lane_of_not_due hdue] at hi
    exact List.mem_append_left _ (not_not.1 fun hw => hdue (State.mem_lanesDue.2 ⟨hi, hw⟩))

/-- Where one lane alone has a submission due, it is the only one made. -/
theorem State.flushEnds_single {s : State} {i : LaneId} (hs : s.admissionSilent) (hdue : s.lanesDue = [i]) :
    s.flushEnds = s.submit (.lane i) := by
  have hrest : (s.submit (.lane i)).submissionsDue = [] := by
    have hempty : (s.submit (.lane i)).lanesDue = [] := by simp [s.submit_lanesDue i, hdue]
    have hsilent : (s.submit (.lane i)).admissionSilent := by
      by_cases hr : s.notices.updateEnds < 31 ∧ s.notices.waiting = []
      · rw [State.submit_room hr]
        exact hs
      · rw [State.submit_full hr]
        exact hs.imp_right (List.mem_append_left _)
    rw [State.submissionsDue_lanes hsilent, hempty, List.map_nil]
  rcases State.submitDue_round hs 63 with ⟨hnil, -⟩ | ⟨j, ⟨hj, -⟩, hround⟩
  · simp [hnil] at hdue
  · obtain rfl : j = i := by simpa [hdue] using hj
    rw [State.flushEnds, hround, State.submitDue, hrest]
    rfl

/-! ### The notices in admission order (R176) -/

/-- The notice of a lane's update that ends with an outcome (R91, R185). -/
def Lane.noticeWith (l : Lane) (o : UpdateOutcome) : Notice :=
  .updateEnd (l.id.getD 0) o (l.pass.getD 0) l.armed l.escalated l.leftovers l.substituted

theorem Lane.endNotice_of_outcome {l : Lane} {o : UpdateOutcome} (h : l.outcome = some o) :
    l.endNotice = l.noticeWith o := by rw [Lane.endNotice, h]; rfl

theorem countP_allLanes_mem {l : List LaneId} (h : l.Nodup) : allLanes.countP (fun i => i ∈ l) = l.length := by
  rw [List.countP_eq_length_filter]
  refine ((List.perm_ext_iff_of_nodup (List.Nodup.filter _ (by decide)) h).2 fun i => ?_).length_eq
  simp [mem_allLanes]

/-- An event that leads from `s` to `u`, with its lanes' submissions still to make, and then to `t`: its notices are
those of the lanes that become FREE. -/
theorem State.Ended.endsInOrder {s u t : State} {ds ws : List LaneId} (h : u.Ended t ds ws)
    (hnotices : u.notices = s.notices) (hadm : u.adm = s.adm)
    (hfree : ∀ i, (u.lane i).state = .free ↔ (s.lane i).state = .free)
    (hkept : ∀ i ∈ u.lanesDue, u.laneOrder i = s.laneOrder i ∧ ∃ o, (u.lane i).endNotice = (s.lane i).noticeWith o) :
    s.endsInOrder t (ds.map (fun i => (u.lane i).endNotice)) := by
  have hds : ∀ i ∈ ds, i ∈ u.lanesDue := fun i hi => h.all.mem_iff.1 (List.mem_append_left _ hi)
  have hws : ∀ i ∈ ws, i ∈ u.lanesDue := fun i hi => h.all.mem_iff.1 (List.mem_append_right _ hi)
  have hlive : ∀ i ∈ u.lanesDue, (u.lane i).state ≠ .free := fun i hi hf => by
    rw [(State.mem_lanesDue.1 hi).1] at hf
    cases hf
  have hroom := h.room
  have hfull := h.full
  rw [hnotices] at hroom hfull
  refine ⟨ds.map (fun i => (u.laneOrder i, (u.lane i).endNotice)), ws.map (fun i => (u.laneOrder i, Submitter.lane i)),
    ?_, ?_, fun base _ hbase => ?_, fun x hx => ?_, fun x hx => ?_, fun hne => ?_, fun hne => ?_, ?_⟩
  · simp
  · rw [h.frame, ← hnotices]
    simp
  · have hsorted := h.sorted base fun i hi => by
      rw [(hkept i hi).1]
      exact hbase i (mt (hfree i).2 (hlive i hi))
    rw [List.map_map, List.map_map]
    show (ds.map u.laneOrder ++ ws.map u.laneOrder).Pairwise _
    rw [← List.map_append]
    exact List.pairwise_map.2 hsorted
  · obtain ⟨i, hi, rfl⟩ := List.mem_map.1 hx
    obtain ⟨horder, o, hnotice⟩ := hkept i (hds i hi)
    exact .inl ⟨i, _, o, rfl, Prod.ext horder hnotice⟩
  · obtain ⟨i, hi, rfl⟩ := List.mem_map.1 hx
    exact .inl ⟨i, Prod.ext (hkept i (hws i hi)).1 rfl⟩
  · rw [List.length_map]
    exact hroom (by simpa using hne)
  · rw [List.length_map]
    exact hfull (by simpa using hne)
  · have hfreed : ∀ i, ((s.lane i).state ≠ .free ∧ (t.lane i).state = .free) ↔ i ∈ ds := fun i => by
      rw [ne_eq, ← hfree i, h.lane]
      by_cases hi : i ∈ ds
      · simp [hi, hlive i (hds i hi), Lane.free]
      · simp [hi]
    have hcount : allLanes.countP (fun i => (s.lane i).state ≠ .free && (t.lane i).state = .free) = ds.length := by
      rw [← countP_allLanes_mem (List.nodup_append.1 (h.all.nodup_iff.2 u.lanesDue_nodup)).1]
      exact List.countP_congr fun i _ => by simpa using hfreed i
    rw [hcount, List.length_map, h.frame, ← hadm]

end Sys2Proof.Machine
end

