-- ==== Sys2Proof/Proofs/PassEnds.lean ====
section
/-! SUPPORT. The pass ends of a frame boundary (R78 to R81): what they make of each lane, of the two slots' references,
and of the lanes whose notices are then submitted. -/

namespace Sys2Proof.Machine

/-! ### Rows of R79 -/

/-- A lane out of whose blocker set the lanes `is` have gone (R74). -/
def Lane.without (l : Lane) (is : List LaneId) : Lane := { l with blockers := l.blockers.filter (fun j => j ∉ is) }

/-- The row of R79 that has the lane wait for its next pass. -/
def Lane.passesAgain (l : Lane) (m : AdmissionMode) : Prop :=
  l.cancel = false ∧ l.leftovers ≠ 0 ∧ m = .normal ∧ l.pass.getD 0 < 4

/-- The outcome of the other rows. -/
def Lane.passOutcome (l : Lane) : UpdateOutcome :=
  if l.cancel = true then .cancelled else if l.leftovers = 0 then .complete else .partially

theorem Lane.afterPass_waiting {l : Lane} {m : AdmissionMode} (h : l.passesAgain m) :
    l.afterPass m = { l with slot := none, band := none, state := .waiting, region := l.box } := by
  obtain ⟨hcancel, hleft, hmode, hpass⟩ := h
  have hmore : ¬ 4 ≤ l.pass.getD 0 := Nat.not_le.2 hpass
  simp [Lane.afterPass, hcancel, hleft, hmode, Config.passes, hmore]

theorem Lane.afterPass_ended {l : Lane} {m : AdmissionMode} (h : ¬ l.passesAgain m) :
    l.afterPass m =
      { l with slot := none, band := none, state := .reporting, outcome := some l.passOutcome } := by
  unfold Lane.afterPass Lane.passOutcome
  cases hc : l.cancel
  · by_cases hl : l.leftovers = 0
    · simp [hl]
    · have hlast : (m = .draining || Config.passes ≤ l.pass.getD 0) = true := by
        cases m with
        | draining => rfl
        | normal => exact decide_eq_true (Nat.not_lt.1 fun hp => h ⟨hc, hl, rfl, hp⟩)
      simp [hl, hlast]
  · simp

/-- A blocker set has no part in R79. -/
theorem Lane.afterPass_without (l : Lane) (m : AdmissionMode) (is : List LaneId) :
    (l.without is).afterPass m = (l.afterPass m).without is := by
  unfold Lane.afterPass Lane.without
  split
  · rfl
  · split
    · rfl
    · split <;> rfl

/-- A pass end, in whatever row, keeps what the update's notice tells and its order. -/
theorem Lane.afterPass_kept (l : Lane) (m : AdmissionMode) :
    (l.afterPass m).order = l.order ∧ ∀ o, (l.afterPass m).noticeWith o = l.noticeWith o := by
  by_cases h : l.passesAgain m
  · rw [Lane.afterPass_waiting h]
    exact ⟨rfl, fun _ => rfl⟩
  · rw [Lane.afterPass_ended h]
    exact ⟨rfl, fun _ => rfl⟩

/-! ### One pass end (R78) -/

theorem State.releaseLane_lane (s : State) (i j : LaneId) : (s.releaseLane i).lane j = s.lane j := by
  unfold State.releaseLane
  split <;> rfl

theorem State.passEnd_lane (s : State) (i j : LaneId) : (s.passEnd i).lane j =
    if j = i then ((s.lane i).afterPass s.adm.mode).without [i] else (s.lane j).without [i] := by
  have hblock : ∀ k, ((s.releaseLane i).unblock i).lane k = (s.lane k).without [i] := fun k => by
    rw [State.unblock, State.mapLanes_lane, State.releaseLane_lane]
    simp [Lane.without]
  rw [State.passEnd, State.updateLane, State.setLane_lane, hblock, hblock, Lane.afterPass_without]

/-- What a slot's count is after the passes of the lanes `is` have released their references (R23). -/
def State.released (s : State) (is : List LaneId) (sl : SlotId) : Slot :=
  { s.cache.slot sl with refs := (s.cache.slot sl).refs - is.countP (fun i => (s.lane i).slot = some sl) }

theorem State.releaseLane_slot (s : State) (i : LaneId) (sl : SlotId) :
    (s.releaseLane i).cache.slot sl = s.released [i] sl := by
  unfold State.releaseLane State.released
  cases h : (s.lane i).slot with
  | none => simp [h]
  | some sl' => cases sl <;> cases sl' <;> simp [h, State.releaseRef, State.setCache, Cache.setSlot, Cache.slot]

theorem State.releaseLane_cache (s : State) (i : LaneId) :
    { (s.releaseLane i).cache with a := s.cache.a, b := s.cache.b } = s.cache := by
  unfold State.releaseLane
  split
  · rename_i sl _
    cases sl <;> rfl
  · rfl

/-! ### The pass ends of one boundary (R80) -/

theorem State.passEnds_adm (is : List LaneId) : ∀ s : State, (is.foldl State.passEnd s).adm = s.adm := fun s => by
  obtain ⟨c, l, h⟩ := State.foldl_frame State.passEnd State.passEnd_frame is s
  rw [h]

theorem State.passEnds_lane {is : List LaneId} (hd : is.Nodup) (j : LaneId) : ∀ s : State,
    (is.foldl State.passEnd s).lane j =
      if j ∈ is then ((s.lane j).afterPass s.adm.mode).without is else (s.lane j).without is := by
  have hnil : ∀ l : Lane, l.without [] = l := fun l => by simp [Lane.without]
  have hcons : ∀ (l : Lane) (i : LaneId) (is : List LaneId), (l.without [i]).without is = l.without (i :: is) :=
    fun l i is => by
      simp only [Lane.without, List.filter_filter, List.mem_cons, List.not_mem_nil, or_false, not_or, Bool.decide_and]
      simp only [Bool.and_comm]
  induction is with
  | nil => exact fun s => by simp [hnil]
  | cons i is ih =>
    intro s
    obtain ⟨hi, hd⟩ := List.nodup_cons.1 hd
    have hadm : (s.passEnd i).adm = s.adm := State.passEnds_adm [i] s
    rw [List.foldl_cons, ih hd, hadm, State.passEnd_lane]
    by_cases hj : j = i
    · subst hj
      simp [hi, hcons]
    · simp [hj, hcons, Lane.afterPass_without]

theorem State.passEnds_slot {is : List LaneId} (hd : is.Nodup) (sl : SlotId) : ∀ s : State,
    (is.foldl State.passEnd s).cache.slot sl = s.released is sl := by
  induction is with
  | nil => exact fun s => by simp [State.released]
  | cons i is ih =>
    intro s
    obtain ⟨hi, hd⟩ := List.nodup_cons.1 hd
    have hslot : (s.passEnd i).cache.slot sl = s.released [i] sl := s.releaseLane_slot i sl
    have hcount : is.countP (fun j => ((s.passEnd i).lane j).slot = some sl) =
        is.countP (fun j => (s.lane j).slot = some sl) := List.countP_congr fun j hj => by
      have hne : j ≠ i := ne_of_mem_of_not_mem hj hi
      rw [State.passEnd_lane, if_neg hne]
      rfl
    rw [List.foldl_cons, ih hd, State.released, hcount, hslot]
    simp only [State.released, List.countP_cons, List.countP_nil, Nat.zero_add, Nat.sub_sub, Nat.add_comm]

theorem State.passEnds_cache (is : List LaneId) : ∀ s : State,
    { (is.foldl State.passEnd s).cache with a := s.cache.a, b := s.cache.b } = s.cache := by
  induction is with
  | nil => exact fun s => rfl
  | cons i is ih =>
    intro s
    have hone : { (s.passEnd i).cache with a := s.cache.a, b := s.cache.b } = s.cache := s.releaseLane_cache i
    have hrest := congrArg (fun c => { c with a := s.cache.a, b := s.cache.b : Cache }) (ih (s.passEnd i))
    exact hrest.trans hone

/-! ### Steps 1 to 3 of a boundary before the notices (R69, R75, R76) -/

/-- The lanes whose pass ends at a boundary. -/
def State.passesDue (s : State) : List LaneId := allLanes.filter (fun i => (s.lane i).passDue)

/-- The lanes have advanced and the pass ends are carried out; the submissions are still to be made. -/
def State.passesEnded (s : State) : State := s.passesDue.foldl State.passEnd (s.mapLanes Lane.advance)

theorem State.advanceLanes_eq (s : State) : s.advanceLanes = s.passesEnded.flushEnds := rfl

theorem State.mem_passesDue {s : State} {i : LaneId} : i ∈ s.passesDue ↔ (s.lane i).passDue = true := by
  simp [State.passesDue, mem_allLanes]

theorem State.passesDue_nodup (s : State) : s.passesDue.Nodup := List.Nodup.filter _ (by decide)

theorem Lane.passDue_iff (l : Lane) : l.passDue = true ↔
    (l.state = .driving ∧ l.step + 1 = l.span) ∨ (l.state = .arming ∧ l.span = 0) := by simp [Lane.passDue]

/-- A lane whose pass ends has its step raised before, if it is DRIVING (R75). -/
theorem Lane.advance_due {l : Lane} (h : l.passDue = true) :
    l.advance = { l with step := if l.state = .driving then l.step + 1 else l.step } := by
  rcases l.passDue_iff.1 h with ⟨hs, -⟩ | ⟨hs, hspan⟩
  · simp [Lane.advance, hs]
  · have hadvance : l.advance = l := by simp [Lane.advance, hs, hspan]
    rw [hadvance, if_neg (by simp [hs])]

/-- A lane whose pass does not end (R75, R76). -/
theorem Lane.advance_of_not_due {l : Lane} (h : l.passDue = false) : l.advance = { l with
    state := if l.state = .arming then .driving else l.state
    step := if l.state = .driving then l.step + 1 else if l.state = .arming then 0 else l.step } := by
  have hspan : l.state = .arming → l.span ≠ 0 := fun hs h0 => by
    rw [l.passDue_iff.2 (.inr ⟨hs, h0⟩)] at h
    cases h
  unfold Lane.advance
  split
  · rename_i hs
    simp [hs]
  · rename_i hs
    simp [hs, hspan hs]
  · rename_i hdriving harming
    rw [if_neg harming, if_neg hdriving, if_neg harming]

/-- What a boundary makes of a lane before the notices. -/
theorem State.passesEnded_lane (s : State) (i : LaneId) : s.passesEnded.lane i =
    if (s.lane i).passDue then ((s.lane i).advance.afterPass s.adm.mode).without s.passesDue
    else (s.lane i).advance.without s.passesDue := by
  rw [State.passesEnded, State.passEnds_lane s.passesDue_nodup, State.mapLanes_lane]
  simp only [State.mem_passesDue]
  rfl

section

variable (s : State) (i : LaneId)

/-- The record of lane `i` with its pass behind it: no slot, its step raised if it was DRIVING, and no lane whose pass
ends at the same boundary among its blockers (R74, R75, R78). -/
def State.pastPass : Lane :=
  { s.lane i with
    slot := none, band := none
    step := if (s.lane i).state = .driving then (s.lane i).step + 1 else (s.lane i).step
    blockers := (s.lane i).blockers.filter (fun j => !(s.lane j).passDue) }

theorem Lane.without_passesDue (l : Lane) :
    l.without s.passesDue = { l with blockers := l.blockers.filter (fun j => !(s.lane j).passDue) } := by
  have hfilter : ∀ j, decide (j ∉ s.passesDue) = !(s.lane j).passDue := fun j => by
    simp [State.mem_passesDue]
  simp only [Lane.without, hfilter]

variable {s i}

/-- A pass that ends with another to follow (R79). -/
theorem State.passesEnded_waiting (hdue : (s.lane i).passDue = true) (h : (s.lane i).passesAgain s.adm.mode) :
    s.passesEnded.lane i = { s.pastPass i with state := .waiting, region := (s.lane i).box } := by
  rw [State.passesEnded_lane, if_pos hdue, Lane.advance_due hdue, Lane.afterPass_waiting (by exact h),
    Lane.without_passesDue]
  rfl

/-- A pass that ends its update (R79, R81). -/
theorem State.passesEnded_reporting (hdue : (s.lane i).passDue = true) (h : ¬ (s.lane i).passesAgain s.adm.mode) :
    s.passesEnded.lane i =
      { s.pastPass i with state := .reporting, outcome := some (s.lane i).passOutcome } := by
  rw [State.passesEnded_lane, if_pos hdue, Lane.advance_due hdue, Lane.afterPass_ended (by exact h),
    Lane.without_passesDue]
  rfl

/-- A lane whose pass goes on, or that has none (R69, R75, R76). -/
theorem State.passesEnded_on (hdue : (s.lane i).passDue = false) :
    s.passesEnded.lane i = { s.pastPass i with
      slot := (s.lane i).slot, band := (s.lane i).band
      state := if (s.lane i).state = .arming then .driving else (s.lane i).state
      step := if (s.lane i).state = .driving then (s.lane i).step + 1
        else if (s.lane i).state = .arming then 0 else (s.lane i).step } := by
  rw [State.passesEnded_lane, if_neg (by simp [hdue]), Lane.advance_of_not_due hdue, Lane.without_passesDue]
  rfl

/-- The state of a lane whose pass goes on is FREE or REPORTING only if it was so before. -/
theorem State.passesEnded_state_on (hdue : (s.lane i).passDue = false) {v : LaneState} (ha : v ≠ .arming)
    (hd : v ≠ .driving) : (s.passesEnded.lane i).state = v ↔ (s.lane i).state = v := by
  rw [State.passesEnded_on hdue]
  simp only
  split
  · rename_i harming
    rw [harming]
    exact ⟨fun e => absurd e.symm hd, fun e => absurd e.symm ha⟩
  · exact .rfl

theorem State.passesEnded_free : (s.passesEnded.lane i).state = .free ↔ (s.lane i).state = .free := by
  cases hdue : (s.lane i).passDue
  · exact State.passesEnded_state_on hdue (by decide) (by decide)
  · have hs : (s.lane i).state ≠ .free := by
      rcases (Lane.passDue_iff _).1 hdue with ⟨h, -⟩ | ⟨h, -⟩ <;> simp [h]
    refine iff_of_false ?_ hs
    by_cases h : (s.lane i).passesAgain s.adm.mode
    · simp [State.passesEnded_waiting hdue h]
    · simp [State.passesEnded_reporting hdue h]

end

/-- The blocks the pass ends leave as they are. -/
theorem State.passesEnded_frame (s : State) : ∃ c l, s.passesEnded = { s with cache := c, lanes := l } :=
  State.foldl_frame State.passEnd State.passEnd_frame s.passesDue (s.mapLanes Lane.advance)

theorem State.passesEnded_slot (s : State) (sl : SlotId) : s.passesEnded.cache.slot sl = { s.cache.slot sl with
    refs := (s.cache.slot sl).refs -
      allLanes.countP (fun i => (s.lane i).passDue && (s.lane i).slot = some sl) } := by
  have hslot : ∀ l : Lane, l.advance.slot = l.slot := fun l => by
    unfold Lane.advance
    split
    · rfl
    · split <;> rfl
    · rfl
  rw [State.passesEnded, State.passEnds_slot s.passesDue_nodup, State.released]
  simp only [State.mapLanes_lane, hslot, State.passesDue, List.countP_filter, Bool.and_comm]
  rfl

/-! ### The submissions of a boundary (R91, R175) -/

theorem Lane.passDue_not_reporting {l : Lane} (h : l.passDue = true) : l.state ≠ .reporting := by
  rcases l.passDue_iff.1 h with ⟨hs, -⟩ | ⟨hs, -⟩ <;> simp [hs]

/-- The lanes that have a notice to submit are those whose update ends at the boundary. -/
theorem State.passesEnded_lanesDue {s : State} (hq : s.quiet = true) (hg : s.railsGuarded = true) (i : LaneId) :
    i ∈ s.passesEnded.lanesDue ↔ (s.lane i).passDue = true ∧ ¬ (s.lane i).passesAgain s.adm.mode := by
  obtain ⟨c, l, hframe⟩ := s.passesEnded_frame
  have hnotices : s.passesEnded.notices = s.notices := by rw [hframe]
  rw [State.mem_lanesDue, hnotices]
  cases hdue : (s.lane i).passDue
  · rw [State.passesEnded_state_on hdue (by decide) (by decide)]
    have hwaits := (s.submissionsDue_eq_nil.1 (State.quiet_due hq)).1 i
    simpa using hwaits
  · have hnew : Submitter.lane i ∉ s.notices.waiting := fun hi =>
      Lane.passDue_not_reporting hdue (State.waiting_reports hg hi)
    by_cases h : (s.lane i).passesAgain s.adm.mode
    · simp [State.passesEnded_waiting hdue h, h]
    · simp [State.passesEnded_reporting hdue h, h, hnew]

/-- No more than the passes that end at the boundary. -/
theorem State.passesEnded_lanesDue_length {s : State} (hq : s.quiet = true) (hg : s.railsGuarded = true) :
    s.passesEnded.lanesDue.length ≤ allLanes.countP (fun i => (s.lane i).passDue) := by
  rw [List.countP_eq_length_filter]
  exact (s.passesEnded.lanesDue_nodup.subperm fun i hi =>
    State.mem_passesDue.2 ((State.passesEnded_lanesDue hq hg i).1 hi).1).length_le

/-! ### The obligation -/

/-- Settles O43: the pass ends are made lane by lane, and then the notices of those that end their updates. -/
theorem passEndsFollowTable : Obligations.PassEndsFollowTable := by
  unfold Obligations.PassEndsFollowTable
  rintro s t hq hg rfl
  obtain ⟨c, lanes, hframe⟩ := s.passesEnded_frame
  have hnotices : s.passesEnded.notices = s.notices := by rw [hframe]
  have hadm : s.passesEnded.adm = s.adm := by rw [hframe]
  have hsilent : s.passesEnded.admissionSilent := by
    rw [State.admissionSilent, hnotices, hadm]
    exact State.quiet_admissionSilent hq
  have hends := State.passesEnded_lanesDue hq hg
  obtain ⟨ds, ws, hended⟩ := State.flushEnds_ended hsilent
  rw [← State.advanceLanes_eq] at hended
  have hqueue : s.advanceLanes.notices.queue =
      s.notices.queue ++ ds.map (fun i => (s.passesEnded.lane i).endNotice) := by rw [hended.frame, hnotices]
  have hcache : s.advanceLanes.cache = s.passesEnded.cache := by rw [hended.frame]
  refine ⟨Lane.passDue_iff, ?_, fun sl => ?_, ?_, ⟨_, hqueue, ?_⟩, ?_⟩
  · rintro i l m rfl rfl
    refine ⟨fun hdue => ⟨fun hcancel hleft hmode hpass => ?_, ?_⟩, fun hdue => ?_⟩
    · have h : (s.lane i).passesAgain s.adm.mode := ⟨hcancel, hleft, hmode, hpass⟩
      rw [hended.lane_of_not_due (fun hi => ((hends i).1 hi).2 h), State.passesEnded_waiting hdue h]
      rfl
    · rintro o rfl h
      have hi : i ∈ s.passesEnded.lanesDue := (hends i).2 ⟨hdue, h⟩
      have hrow := State.passesEnded_reporting hdue h
      refine ⟨?_, fun hw hroom => ?_, fun hfull => ?_⟩
      · have hlane := hended.lane_of_due hi
        rw [hrow] at hlane
        exact hlane
      · have hlength := State.passesEnded_lanesDue_length hq hg
        exact hended.lane_free hi (by rw [hnotices, hw]) (by rw [hnotices]; omega)
      · rw [hended.queue_of_full (by rw [hnotices]; exact hfull), hnotices]
    · rw [hended.lane_of_not_due (fun hi => by simp [((hends i).1 hi).1] at hdue), State.passesEnded_on hdue]
      rfl
  · rw [hcache]
    exact s.passesEnded_slot sl
  · rw [hcache]
    exact State.passEnds_cache s.passesDue (s.mapLanes Lane.advance)
  · refine hended.endsInOrder hnotices hadm (fun i => State.passesEnded_free) fun i hi => ?_
    obtain ⟨hdue, h⟩ := (hends i).1 hi
    rw [State.laneOrder, State.passesEnded_reporting hdue h]
    exact ⟨rfl, _, rfl⟩
  · rw [hended.frame, hframe]

end Sys2Proof.Machine
end

