-- ==== Sys2Proof/Proofs/CancelLane.lean ====
section
/-! SUPPORT. The CANCEL of a lane's update (R84): the lane in hand, a WAITING lane's end, the test for ready work and
the idle test that follow (R59, R140), and the ids that no such lane holds. -/

namespace Sys2Proof.Machine

/-! ### The test for ready work and the idle test (R59, R140) -/

/-- Ready work is work in hand: the sequencer is not idle. -/
theorem State.not_idle_of_readyWork {s : State} (h : s.readyWork = true) : s.idle = false := by
  have hhead : ∀ (c : UpdateClass) (f : Pending → Bool), (s.head c).any f = true → s.riseRequest = true := by
    intro c f hf
    cases hp : s.head c with
    | none => simp [hp] at hf
    | some p =>
      have hfifo : s.adm.fifo c ⊆ s.adm.urgent ++ s.adm.normal := by
        cases c
        · exact List.subset_append_right _ _
        · exact List.subset_append_left _ _
      have hunmarked : (!p.marked) = true := List.find?_some (p := fun q : Pending => !q.marked) hp
      exact List.any_eq_true.2 ⟨p, hfifo (List.mem_of_find?_eq_some hp), hunmarked⟩
  rw [State.readyWork_eq, Bool.or_eq_true, Bool.or_eq_true] at h
  rcases h with (hwaiting | hurgent) | hnormal
  · obtain ⟨i, hi, -⟩ := List.any_eq_true.1 hwaiting
    have hstate : (s.lane i).state = .waiting := by
      obtain ⟨-, hready⟩ := List.mem_filter.1 ((sortByOrder_perm _).mem_iff.1 hi)
      rw [Bool.and_eq_true, decide_eq_true_eq] at hready
      exact hready.1
    have hactive : s.laneActivity = true := List.any_eq_true.2 ⟨i, mem_allLanes i, by simp [hstate]⟩
    simp [State.idle, hactive]
  · simp [State.idle, hhead _ _ hurgent]
  · simp [State.idle, hhead _ _ hnormal]

/-- The end of an event in ON and NORMAL with no submission due and no idle hold running: idleness that has begun
starts the idle hold, or the fall (R140). -/
theorem State.settle_idle {s : State} (hd : s.submissionsDue = []) (hon : s.power.state = .on)
    (hm : s.adm.mode = .normal) (ht : s.power.idleTimer = none) : s.settle = { s with
      power := if s.idle = true then
          (if s.power.idleHold = 0 then
            { s.power with
              state := .falling s.stageCount, stageTimer := some ((s.stage s.stageCount).fall * 10)
              blankTimer := none, monitored := [], idleTimer := none }
          else { s.power with idleTimer := some s.power.idleHold })
        else s.power } := by
  have hpower : s.settlePower = s.setPower (if s.idle = true then
      (if s.power.idleHold = 0 then (s.enterFalling s.stageCount).power
        else { s.power with idleTimer := some s.power.idleHold }) else s.power) := by
    unfold State.settlePower
    split
    · split
      · rename_i hm'
        rw [hm] at hm'
        cases hm'
      · by_cases hi : s.idle = true
        · by_cases hh : s.power.idleHold = 0
          · simp only [hi, hh, ht, Option.isSome_none, Bool.false_eq_true, if_true, if_false]
            rfl
          · simp only [hi, hh, ht, Option.isSome_none, Bool.false_eq_true, if_true, if_false]
        · rw [if_neg hi, if_neg hi, ← ht]
    · rename_i hoff
      exact absurd hon hoff
  have hmode : s.settlePower.adm.mode = .normal := by rw [hpower]; exact hm
  rw [State.settle, State.flushEnds_of_none hd, State.testDrained, if_neg (by simp [hmode]), hpower]
  rfl

/-- The link has no part in the test for ready work. -/
theorem State.readyTested_setLink {u t : State} (h : u.readyTested t) (k : Link) :
    (u.setLink k).readyTested (t.setLink k) := by
  obtain ⟨hpos, hneg⟩ := h
  have hready : (u.setLink k).readyWork = u.readyWork := by
    rw [State.readyWork_eq, State.readyWork_eq]
    rfl
  have harm : (u.setLink k).limitsInForce.armBoundary = u.limitsInForce.armBoundary.amid (u.setLink k).limitsInForce :=
    u.limitsInForce.amid_armBoundary (u.setLink k).limitsInForce
  rw [State.readyTested, State.frameBegun, harm, hready]
  refine ⟨fun hc => ?_, fun hc => congrArg (State.setLink · k) (hneg hc)⟩
  obtain ⟨hbegun, hcache, hpower, hrest⟩ := hpos hc
  exact ⟨hbegun, hcache, hpower, congrArg (State.setLink · k) hrest⟩

/-! ### The lane that holds an id (R84) -/

theorem State.laneWithId_some {s : State} {id : Nat} {i : LaneId} (h : s.laneWithId id = some i) :
    (s.lane i).state ≠ .free ∧ (s.lane i).id = some id := by simpa using List.find?_some h

theorem State.laneWithId_unique {s : State} {id : Nat} {i : LaneId} (hs : (s.lane i).state ≠ .free)
    (hid : (s.lane i).id = some id) (hone : ∀ j, (s.lane j).state ≠ .free → (s.lane j).id = some id → j = i) :
    s.laneWithId id = some i := by
  cases h : s.laneWithId id with
  | none =>
    have hno := List.find?_eq_none.1 h i (mem_allLanes i)
    simp [hs, hid] at hno
  | some j =>
    obtain ⟨hj, hjid⟩ := State.laneWithId_some h
    rw [hone j hj hjid]

/-- CANCEL of an id that no pending entry holds goes to the lanes. -/
theorem handleCancel_lane {s : State} {id : Nat} (hf : fits16 id)
    (hp : ∀ q ∈ s.adm.urgent ++ s.adm.normal, q.id ≠ id) : handleCancel (le16 id) s =
      (s.laneWithId id).elim (s.turnAway .unknownId) (cancelLane s) := by
  have hid : u16At (le16 id) 0 = id := u16At_le16 (p := []) hf
  have hnone : (s.adm.urgent ++ s.adm.normal).any (fun e => e.id = id) = false :=
    List.any_eq_false.2 fun q hq => by simpa using hp q hq
  simp only [handleCancel, hid]
  rw [if_neg (by simp [hnone])]
  cases s.laneWithId id <;> rfl

/-- A CANCEL that its owner answers. -/
theorem exec_cancel {s u : State} {tag : Byte} {id : Nat} {r : Reply} (hv : s.loader.image = .valid)
    (hr : s.receives .cancel tag (le16 id)) (ho : handleCancel (le16 id) s = (u, some r)) :
    exec (RequestKind.cancel.sent tag (le16 id)) s =
      .next { u with link := Link.answered 0x04 tag r, arb := u.arb.grant } :=
  exec_answered hv hr (by simp) (linkTests_sent rfl rfl rfl) ho

/-! ### A WAITING lane that is cancelled (R84, R91) -/

/-- The record of a WAITING lane whose update a CANCEL has ended. -/
def Lane.cancelled (l : Lane) : Lane := { l with state := .reporting, outcome := some .cancelled }

/-- What a CANCEL makes of a WAITING lane, its submission made. -/
def State.waitingCancelled (s : State) (i : LaneId) : State := (s.setLane i (s.lane i).cancelled).flushEnds

/-- A lane in flight takes the CANCEL as a flag (R84). -/
theorem cancelLane_inFlight {s : State} {i : LaneId}
    (hs : (s.lane i).state = .arming ∨ (s.lane i).state = .driving) :
    cancelLane s i = (s.updateLane i (fun l => { l with cancel := true })).doneWith [] := by
  rcases hs with hs | hs <;> simp only [cancelLane, hs]

section Waiting

variable {s : State} {i : LaneId} (hw : (s.lane i).state = .waiting) (hq : s.quiet = true)
  (hg : s.railsGuarded = true)

include hw in
theorem cancelLane_waiting : cancelLane s i =
    (((s.waitingCancelled i).testReadyIfFreed s).settle, some (.done [])) := by
  have hend : s.updateLane i (fun l => l.endWaiting .cancelled) = s.setLane i (s.lane i).cancelled := by
    rw [State.updateLane, Lane.endWaiting, if_pos hw]
    rfl
  simp only [cancelLane, hw, hend]
  rfl

include hw in
/-- A lane WAITING is found in ON and NORMAL alone, and no idle hold runs beside it (R94, R86, R140). -/
theorem State.waiting_powered (hg : s.railsGuarded = true) :
    s.power.state = .on ∧ s.adm.mode = .normal ∧ s.power.idleTimer = none := by
  have hactive : s.laneActivity = true := List.any_eq_true.2 ⟨i, mem_allLanes i, by simp [hw]⟩
  have hsome : allLanes.all (fun j => (s.lane j).state ≠ .waiting) = false :=
    List.all_eq_false.2 ⟨i, mem_allLanes i, by simp [hw]⟩
  simp only [State.railsGuarded, State.waitersPowered, hsome, hactive, Bool.and_eq_true, Bool.or_eq_true,
    Bool.false_eq_true, false_or, decide_eq_true_eq, Bool.not_true, or_false, Option.isNone_iff_eq_none] at hg
  obtain ⟨⟨⟨⟨⟨-, hon, hmode⟩, -⟩, -⟩, -⟩, htimer⟩ := hg
  exact ⟨hon, hmode, htimer⟩

include hw hq hg in
/-- Its submission is the only one due. -/
theorem State.cancelled_lanesDue : (s.setLane i (s.lane i).cancelled).lanesDue = [i] := by
  refine List.perm_singleton.1 ((List.perm_ext_iff_of_nodup (State.lanesDue_nodup _) (List.nodup_singleton i)).2
    fun j => ?_)
  rw [State.mem_lanesDue, State.setLane_lane, List.mem_singleton]
  by_cases hj : j = i
  · have hnew : Submitter.lane i ∉ s.notices.waiting := fun hi => by
      simp [State.waiting_reports hg hi] at hw
    simp [hj, Lane.cancelled, hnew]
  · have hwaits := (s.submissionsDue_eq_nil.1 (State.quiet_due hq)).1 j
    simpa [hj] using hwaits

include hq in
theorem State.cancelled_admissionSilent : (s.setLane i (s.lane i).cancelled).admissionSilent := by
  show s.admissionSilent
  exact State.quiet_admissionSilent hq

include hw hq hg in
/-- The lane is FREE with its notice queued, or waits. -/
theorem State.waitingCancelled_eq {id : Nat} (hid : (s.lane i).id = some id) : s.waitingCancelled i =
    if s.notices.updateEnds < 31 ∧ s.notices.waiting = [] then
      { s.setLane i Lane.free with
        notices := { s.notices with queue := s.notices.queue ++ [.updateEnd id .cancelled ((s.lane i).pass.getD 0)
          (s.lane i).armed (s.lane i).escalated (s.lane i).leftovers (s.lane i).substituted] } }
    else
      { s.setLane i (s.lane i).cancelled with
        notices := { s.notices with waiting := s.notices.waiting ++ [.lane i] } } := by
  have hnotice : ((s.setLane i (s.lane i).cancelled).lane i).endNotice = .updateEnd id .cancelled
      ((s.lane i).pass.getD 0) (s.lane i).armed (s.lane i).escalated (s.lane i).leftovers (s.lane i).substituted := by
    rw [State.setLane_lane_same, Lane.endNotice, Lane.cancelled, hid]
    rfl
  rw [State.waitingCancelled, State.flushEnds_single (State.cancelled_admissionSilent hq)
    (State.cancelled_lanesDue hw hq hg)]
  split
  · rename_i hr
    rw [State.submit_room (by exact hr), hnotice]
    simp [State.queueNotice, State.setNotices, State.setLane, State.setLanes]
  · rename_i hr
    rw [State.submit_full (by exact hr)]
    rfl

include hw hq hg in
/-- No submission is due any more, and nothing but the lane and the notices has changed. -/
theorem State.waitingCancelled_spec : (s.waitingCancelled i).submissionsDue = [] ∧
    (∃ l n, s.waitingCancelled i = { s with lanes := l, notices := n }) ∧
    ∀ j, j ≠ i → (s.waitingCancelled i).lane j = s.lane j := by
  have hsilent := State.cancelled_admissionSilent (i := i) hq
  obtain ⟨ds, ws, h⟩ := State.flushEnds_ended hsilent
  refine ⟨h.dueNil hsilent, ⟨_, _, h.frame⟩, fun j hj => ?_⟩
  have hnot : j ∉ (s.setLane i (s.lane i).cancelled).lanesDue := by
    rw [State.cancelled_lanesDue hw hq hg, List.mem_singleton]
    exact hj
  exact (h.lane_of_not_due hnot).trans (State.setLane_lane_other s _ hj)

include hw hq hg in
/-- The test for ready work is made where the lane has become FREE (R59). -/
theorem State.waitingCancelled_testReady : (s.waitingCancelled i).testReadyIfFreed s =
    if ((s.waitingCancelled i).lane i).state = .free then (s.waitingCancelled i).testReady
    else s.waitingCancelled i := by
  obtain ⟨-, -, hother⟩ := State.waitingCancelled_spec hw hq hg
  have hfreed : (s.waitingCancelled i).laneFreed s = true ↔ ((s.waitingCancelled i).lane i).state = .free := by
    rw [State.laneFreed, List.any_eq_true]
    constructor
    · rintro ⟨j, -, hj⟩
      by_cases hji : j = i
      · subst hji
        simp at hj
        exact hj.1
      · simp [hother j hji] at hj
    · exact fun h => ⟨i, mem_allLanes i, by simp [h, hw]⟩
  simp only [State.testReadyIfFreed, hfreed]

end Waiting

/-! ### The obligation -/

/-- Settles O18: the one lane that holds the id takes the CANCEL, and a WAITING lane's end is followed by the test for
ready work and the idle test of an event with nothing else in it. -/
theorem cancelReachesLane : Obligations.CancelReachesLane := by
  unfold Obligations.CancelReachesLane
  intro s tag id hv hr hf hp
  have hcancel := handleCancel_lane hf hp
  refine ⟨fun i hs hid hone => ?_, fun i u hw hid hone hg hq hu => ?_, fun hnone => ?_⟩
  · have hfree : (s.lane i).state ≠ .free := by rcases hs with hs | hs <;> simp [hs]
    rw [State.laneWithId_unique hfree hid hone] at hcancel
    exact exec_cancel hv hr (hcancel.trans (cancelLane_inFlight hs))
  · obtain ⟨hon, hmode, htimer⟩ := State.waiting_powered hw hg
    replace hu : u = s.waitingCancelled i := hu.trans (State.waitingCancelled_eq hw hq hg hid).symm
    rw [State.laneWithId_unique (by simp [hw]) hid hone] at hcancel
    have hexec := exec_cancel hv hr (hcancel.trans (cancelLane_waiting hw))
    obtain ⟨hdue, ⟨l, n, hframe⟩, -⟩ := State.waitingCancelled_spec hw hq hg
    rw [State.waitingCancelled_testReady hw hq hg, ← hu] at hexec
    rw [← hu] at hdue hframe
    have hupower : u.power = s.power := by rw [hframe]
    have huadm : u.adm = s.adm := by rw [hframe]
    have huscan : u.scan = s.scan := by rw [hframe]
    refine ⟨hon, fun ⟨hfree, hstop, hready⟩ => ?_, fun hno => ?_⟩
    · rw [if_pos hfree] at hexec
      have huquiet : u.quiet = true := by
        simp [State.quiet, hdue, State.powerQuiet, hupower, huadm, hon, hmode, htimer,
          State.not_idle_of_readyWork hready]
      have htested := State.readyTested_setLink (State.testReady_end huquiet rfl).1 (Link.answered 0x04 tag (.done []))
      generalize u.testReady.settle = w at hexec htested
      exact ⟨_, hexec, htested⟩
    · have htest : (if (u.lane i).state = .free then u.testReady else u) = u := by
        split
        · rename_i hfree
          exact State.testReady_neg fun ⟨_, hstop, hready⟩ => hno ⟨hfree, huscan ▸ hstop, hready⟩
        · rfl
      rw [htest, State.settle_idle hdue (by rw [hupower, hon]) (by rw [huadm, hmode]) (by rw [hupower, htimer])]
        at hexec
      rw [hexec, hframe]
      rfl
  · have hlane : (s.laneWithId id).elim (s.turnAway .unknownId) (cancelLane s) = s.turnAway .unknownId := by
      cases h : s.laneWithId id with
      | none => rfl
      | some i =>
        obtain ⟨hfree, hid⟩ := State.laneWithId_some h
        rcases (hnone i hid).resolve_left hfree with hs | hs <;> simp only [Option.elim, cancelLane, hs]
    exact exec_cancel hv hr (hcancel.trans hlane)

end Sys2Proof.Machine
end

