-- ==== Sys2Proof/Proofs/LeavingLanes.lean ====
section
/-! SUPPORT. Lanes that leave ABANDONING (R89): their records, the references they release, and the trigger evaluated
after them all (log entry 13). -/

namespace Sys2Proof.Machine

/-- The record of a lane that has left ABANDONING (R89). -/
def Lane.left (l : Lane) : Lane :=
  { l with state := .reporting, outcome := some .abandoned, slot := none, band := none }

theorem State.leaveAbandoning_lane (s : State) (i j : LaneId) : (s.leaveAbandoning i).lane j =
    if j = i then (s.lane i).left.without [i] else (s.lane j).without [i] := by
  have hblock : ∀ k, ((s.releaseLane i).unblock i).lane k = (s.lane k).without [i] := fun k => by
    rw [State.unblock, State.mapLanes_lane, State.releaseLane_lane]
    simp [Lane.without]
  rw [State.leaveAbandoning, State.updateLane, State.setLane_lane, hblock, hblock]
  rfl

theorem Lane.without_nil (l : Lane) : l.without [] = l := by simp [Lane.without]

theorem Lane.without_without (l : Lane) (i : LaneId) (is : List LaneId) :
    (l.without [i]).without is = l.without (i :: is) := by
  simp only [Lane.without, List.filter_filter, List.mem_cons, List.not_mem_nil, or_false, not_or, Bool.decide_and]
  simp only [Bool.and_comm]

/-- The lanes `is` leave ABANDONING one after another: each has left, and all are out of every blocker set. -/
theorem State.leaveAbandonings_lane {is : List LaneId} (hd : is.Nodup) (j : LaneId) : ∀ s : State,
    (is.foldl State.leaveAbandoning s).lane j =
      if j ∈ is then (s.lane j).left.without is else (s.lane j).without is := by
  induction is with
  | nil => exact fun s => by simp [Lane.without_nil]
  | cons i is ih =>
    intro s
    obtain ⟨hi, hd⟩ := List.nodup_cons.1 hd
    have hleft : ∀ l : Lane, (l.without [i]).left = l.left.without [i] := fun _ => rfl
    rw [List.foldl_cons, ih hd, State.leaveAbandoning_lane]
    by_cases hj : j = i
    · subst hj
      simp [hi, Lane.without_without]
    · simp [hj, Lane.without_without, hleft]

/-- Each releases its reference (R23). -/
theorem State.leaveAbandonings_slot {is : List LaneId} (hd : is.Nodup) (sl : SlotId) : ∀ s : State,
    (is.foldl State.leaveAbandoning s).cache.slot sl = s.released is sl := by
  induction is with
  | nil => exact fun s => by simp [State.released]
  | cons i is ih =>
    intro s
    obtain ⟨hi, hd⟩ := List.nodup_cons.1 hd
    have hslot : (s.leaveAbandoning i).cache.slot sl = s.released [i] sl := s.releaseLane_slot i sl
    have hcount : is.countP (fun j => ((s.leaveAbandoning i).lane j).slot = some sl) =
        is.countP (fun j => (s.lane j).slot = some sl) := List.countP_congr fun j hj => by
      rw [State.leaveAbandoning_lane, if_neg (ne_of_mem_of_not_mem hj hi)]
      rfl
    rw [List.foldl_cons, ih hd, State.released, hcount, hslot]
    simp only [State.released, List.countP_cons, List.countP_nil, Nat.zero_add, Nat.sub_sub, Nat.add_comm]

theorem State.leaveAbandonings_cache (is : List LaneId) : ∀ s : State,
    { (is.foldl State.leaveAbandoning s).cache with a := s.cache.a, b := s.cache.b } = s.cache := by
  induction is with
  | nil => exact fun s => rfl
  | cons i is ih =>
    intro s
    have hone : { (s.leaveAbandoning i).cache with a := s.cache.a, b := s.cache.b } = s.cache := s.releaseLane_cache i
    exact (congrArg (fun c => { c with a := s.cache.a, b := s.cache.b : Cache }) (ih (s.leaveAbandoning i))).trans hone

theorem State.leaveAbandonings_frame (s : State) (is : List LaneId) :
    ∃ c l, is.foldl State.leaveAbandoning s = { s with cache := c, lanes := l } :=
  State.foldl_frame State.leaveAbandoning State.leaveAbandoning_frame is s

/-- The trigger's evaluation after them leaves the lanes as they are. -/
theorem State.leaveAll_lane {is : List LaneId} (hd : is.Nodup) (s : State) (j : LaneId) :
    (s.leaveAll is).lane j = if j ∈ is then (s.lane j).left.without is else (s.lane j).without is := by
  cases is with
  | nil => simp [State.leaveAll, Lane.without_nil]
  | cons i is =>
    obtain ⟨c, f, h⟩ := ((i :: is).foldl State.leaveAbandoning s).evalTrigger_frame
    rw [← State.leaveAbandonings_lane hd, State.leaveAll, List.isEmpty_cons, if_neg (by simp), h]
    rfl

theorem State.mem_sweptLanes {s : State} {i : LaneId} :
    i ∈ s.sweptLanes ↔ (s.lane i).state = .abandoning ∧ (s.lane i).live = 0 := by
  simp [State.sweptLanes, mem_allLanes]

theorem State.mem_justSwept {s before : State} {i : LaneId} : i ∈ s.justSwept before ↔
    ((s.lane i).state = .abandoning ∧ (s.lane i).live = 0) ∧ 0 < (before.lane i).live := by
  rw [State.justSwept, List.mem_filter, State.mem_sweptLanes, decide_eq_true_eq]

theorem State.sweptLanes_nodup (s : State) : s.sweptLanes.Nodup := List.Nodup.filter _ (by decide)

theorem State.justSwept_nodup (s before : State) : (s.justSwept before).Nodup := s.sweptLanes_nodup.filter _

end Sys2Proof.Machine
end


-- ==== Sys2Proof/Proofs/RailsLaw.lean ====
section
/-! SUPPORT. The law of R108 in two halves: what it says of lanes, waiting list and idle hold, and what it says of
frame, cut and outputs; and the shared operations, each of which keeps it or hands it to the end of its event. -/

namespace Sys2Proof.Machine

/-! ### The two halves of the law -/

/-- What the law says of the lanes (R175, R94, R86, R140).  In the middle of an event (`mid`) with the rails ON the idle
hold may still be running beside an active lane: the end of the event stops it. -/
structure State.LanesGuarded (mid : Bool) (s : State) : Prop where
  once : s.notices.waiting.Nodup
  reports : ∀ i, Submitter.lane i ∈ s.notices.waiting → (s.lane i).state = .reporting
  powered : ∀ i, (s.lane i).state = .waiting → s.power.state = .on ∧ s.adm.mode = .normal
  idle : (mid = true ∧ s.power.state = .on) ∨ s.power.idleTimer = none ∨ s.laneActivity = false

/-- What the law says of the scan engine (R97, R107, R108, R109): the outputs are enabled in an output window alone, a
frame that is not cut has the rails ON and a lane in flight, and only a commit outlasts a cut. -/
structure State.ScanGuarded (s : State) : Prop where
  window : s.panel.soe = true → (∃ y, s.scan.pos = .line y .window) ∧ s.scan.cut = false
  frame : s.scan.pos ≠ .stopped → (∀ y, s.scan.pos ≠ .sweep y) → s.scan.cut = false →
    s.power.state = .on ∧ s.lanesInFlight = true
  commits : s.scan.cut = true → ∃ y, s.scan.pos = .line y .commit

/-- The law between events (`mid` false), and in the middle of one (`mid` true). -/
structure State.Guarded (mid : Bool) (s : State) : Prop where
  lanes : s.LanesGuarded mid
  scan : s.ScanGuarded

theorem State.lanesInFlight_iff {s : State} :
    s.lanesInFlight = true ↔ ∃ i, (s.lane i).state = .arming ∨ (s.lane i).state = .driving := by
  simp [State.lanesInFlight, mem_allLanes]

theorem State.lanesInFlight_congr {s t : State} (h : t.lanes = s.lanes) : t.lanesInFlight = s.lanesInFlight := by
  have hlane : ∀ i, t.lane i = s.lane i := fun i => by rw [State.lane, State.lane, h]
  rw [State.lanesInFlight, State.lanesInFlight, funext hlane]

theorem State.laneActivity_eq_false {s : State} : s.laneActivity = false ↔
    ∀ i, (s.lane i).state ≠ .arming ∧ (s.lane i).state ≠ .driving ∧ (s.lane i).state ≠ .waiting := by
  simp [State.laneActivity, mem_allLanes, and_assoc]

/-- The law is the two halves of it. -/
theorem State.railsGuarded_iff {s : State} : s.railsGuarded = true ↔ s.Guarded false := by
  have hreport : s.waitersReport = true ↔ s.notices.waiting.Nodup ∧
      ∀ i, Submitter.lane i ∈ s.notices.waiting → (s.lane i).state = .reporting := by
    simp only [State.waitersReport, Bool.and_eq_true, decide_eq_true_eq, List.all_eq_true]
    refine and_congr_right fun _ => ⟨fun h i hi => by simpa using h _ hi, fun h w hw => ?_⟩
    cases w with
    | lane i => simpa using h i hw
    | admission => rfl
  have hpowered : s.waitersPowered = true ↔
      ∀ i, (s.lane i).state = .waiting → s.power.state = .on ∧ s.adm.mode = .normal := by
    simp only [State.waitersPowered, Bool.or_eq_true, Bool.and_eq_true, decide_eq_true_eq, List.all_eq_true,
      mem_allLanes, true_imp_iff]
    exact ⟨fun h i hi => h.resolve_left fun hall => hall i hi, fun h => by
      by_cases hw : ∃ i, (s.lane i).state = .waiting
      · exact .inr (h _ hw.choose_spec)
      · exact .inl (not_exists.1 hw)⟩
  have hwindow : (!s.panel.soe || (s.scan.inWindow && !s.scan.cut)) = true ↔
      (s.panel.soe = true → (∃ y, s.scan.pos = .line y .window) ∧ s.scan.cut = false) := by
    unfold Scan.inWindow
    cases s.panel.soe <;> cases s.scan.cut <;> split <;> simp_all
  have hframe : (!(s.scan.scanning && !s.scan.cut) || (s.power.state = .on && s.lanesInFlight)) = true ↔
      (s.scan.pos ≠ .stopped → (∀ y, s.scan.pos ≠ .sweep y) → s.scan.cut = false →
        s.power.state = .on ∧ s.lanesInFlight = true) := by
    unfold Scan.scanning
    cases s.scan.cut <;> split <;> simp_all
  have hcommit : (!s.scan.cut || s.scan.inCommit) = true ↔
      (s.scan.cut = true → ∃ y, s.scan.pos = .line y .commit) := by
    unfold Scan.inCommit
    cases s.scan.cut <;> split <;> simp_all
  have hidle : (s.power.idleTimer.isNone || !s.laneActivity) = true ↔
      ((false = true ∧ s.power.state = .on) ∨ s.power.idleTimer = none ∨ s.laneActivity = false) := by simp
  rw [State.railsGuarded, Bool.and_eq_true, Bool.and_eq_true, Bool.and_eq_true, Bool.and_eq_true, Bool.and_eq_true,
    hreport, hpowered, hwindow, hframe, hcommit, hidle]
  exact ⟨fun ⟨⟨⟨⟨⟨⟨honce, hrep⟩, hpow⟩, hsoe⟩, hrun⟩, hcut⟩, htimer⟩ => ⟨⟨honce, hrep, hpow, htimer⟩, hsoe, hrun, hcut⟩,
    fun ⟨⟨honce, hrep, hpow, htimer⟩, hsoe, hrun, hcut⟩ => ⟨⟨⟨⟨⟨⟨honce, hrep⟩, hpow⟩, hsoe⟩, hrun⟩, hcut⟩, htimer⟩⟩

/-- What the law reads of the part. -/
def State.guards (s : State) : List Submitter × (LaneId → LaneState) × AdmissionMode × PowerState × Option Nat × Bool ×
    ScanPos × Bool :=
  (s.notices.waiting, fun i => (s.lane i).state, s.adm.mode, s.power.state, s.power.idleTimer, s.panel.soe, s.scan.pos,
    s.scan.cut)

section Changes

variable {mid : Bool} {s t : State}

/-- A change of what the law does not read keeps it. -/
theorem State.Guarded.aside (hs : s.Guarded mid) (e : t.guards = s.guards) : t.Guarded mid := by
  simp only [State.guards, Prod.mk.injEq] at e
  obtain ⟨hwaiting, hlane, hmode, hpower, htimer, hsoe, hpos, hcut⟩ := e
  have hstate : ∀ i, (t.lane i).state = (s.lane i).state := fun i => congrFun hlane i
  have hflight : t.lanesInFlight = s.lanesInFlight := by simp only [State.lanesInFlight, hstate]
  have hactive : t.laneActivity = s.laneActivity := by simp only [State.laneActivity, hstate]
  obtain ⟨⟨honce, hrep, hpow, hidle⟩, hwin, hrun, hcom⟩ := hs
  refine ⟨⟨?_, ?_, ?_, ?_⟩, ?_, ?_, ?_⟩
  all_goals
    simp only [hwaiting, hstate, hmode, hpower, htimer, hsoe, hpos, hcut, hflight, hactive]
    assumption

/-- Between events the law says more than in the middle of one. -/
theorem State.Guarded.inEvent (hs : s.Guarded mid) : s.Guarded true :=
  ⟨⟨hs.lanes.once, hs.lanes.reports, hs.lanes.powered, hs.lanes.idle.imp_left fun h => ⟨rfl, h.2⟩⟩, hs.scan⟩

/-- With the rails not ON it says no less. -/
theorem State.LanesGuarded.of_off (hs : s.LanesGuarded mid) (hoff : s.power.state ≠ .on) (mid' : Bool) :
    s.LanesGuarded mid' :=
  ⟨hs.once, hs.reports, hs.powered, .inr (hs.idle.resolve_left fun h => hoff h.2)⟩

/-- Outside an output window the outputs are disabled. -/
theorem State.ScanGuarded.soe_off (hs : s.ScanGuarded) (hp : ∀ y, s.scan.pos ≠ .line y .window) :
    s.panel.soe = false := by
  refine Bool.eq_false_of_not_eq_true fun h => ?_
  obtain ⟨⟨y, hy⟩, -⟩ := hs.window h
  exact hp y hy

/-- Outside a commit no cut is left. -/
theorem State.ScanGuarded.uncut (hs : s.ScanGuarded) (hp : ∀ y, s.scan.pos ≠ .line y .commit) : s.scan.cut = false := by
  refine Bool.eq_false_of_not_eq_true fun h => ?_
  obtain ⟨y, hy⟩ := hs.commits h
  exact hp y hy

/-- A lane is active only in flight or with the rails ON and the mode NORMAL. -/
theorem State.LanesGuarded.active (hs : s.LanesGuarded mid) (ha : s.laneActivity = true) :
    s.lanesInFlight = true ∨ (s.power.state = .on ∧ s.adm.mode = .normal) := by
  by_contra hno
  rw [not_or, State.lanesInFlight_iff, not_exists] at hno
  have hnone : s.laneActivity = false := State.laneActivity_eq_false.2 fun i =>
    ⟨fun h => hno.1 i (.inl h), fun h => hno.1 i (.inr h), fun h => hno.2 (hs.powered i h)⟩
  rw [hnone] at ha
  cases ha

/-- A lane in flight is active. -/
theorem State.not_inFlight_of_inactive (h : s.laneActivity = false) : s.lanesInFlight = false := by
  rw [State.laneActivity_eq_false] at h
  refine Bool.eq_false_of_not_eq_true fun hf => ?_
  obtain ⟨i, hi | hi⟩ := State.lanesInFlight_iff.1 hf
  · exact (h i).1 hi
  · exact (h i).2.1 hi

/-- The power sequencer's record changes: the power state stays, or it was not ON, or no lane is active. -/
theorem State.Guarded.setPower {mid' : Bool} {p : Power} (hs : s.Guarded mid)
    (hstate : p.state = s.power.state ∨ s.power.state ≠ .on ∨ s.laneActivity = false)
    (hidle : (mid' = true ∧ p.state = .on) ∨ p.idleTimer = none ∨ s.laneActivity = false) :
    (s.setPower p).Guarded mid' := by
  obtain ⟨⟨honce, hrep, hpow, -⟩, hwin, hrun, hcom⟩ := hs
  refine ⟨⟨honce, hrep, fun i hi => ?_, hidle⟩, hwin, fun h1 h2 h3 => ?_, hcom⟩
  · obtain ⟨hon, hmode⟩ := hpow i hi
    rcases hstate with h | h | h
    · exact ⟨h.trans hon, hmode⟩
    · exact absurd hon h
    · exact absurd hi (State.laneActivity_eq_false.1 h i).2.2
  · obtain ⟨hon, hflight⟩ := hrun h1 h2 h3
    rcases hstate with h | h | h
    · exact ⟨h.trans hon, hflight⟩
    · exact absurd hon h
    · rw [State.not_inFlight_of_inactive h] at hflight
      cases hflight

/-- A change of the power record with the rails not ON, the idle hold stopped or as it was. -/
theorem State.Guarded.setPower_of_off {p : Power} (hs : s.Guarded mid) (hoff : s.power.state ≠ .on)
    (htimer : p.idleTimer = none ∨ p.idleTimer = s.power.idleTimer) (mid' : Bool) : (s.setPower p).Guarded mid' := by
  refine hs.setPower (.inr (.inl hoff)) (.inr ?_)
  rcases htimer with h | h
  · exact .inl h
  · rw [h]
    exact hs.lanes.idle.resolve_left fun h => hoff h.2

end Changes

/-! ### The end of an event (R91, R175, R140, R141, R63) -/

/-- Lanes in REPORTING may have become FREE; the others are as they were. -/
def State.OnlyFreed (s t : State) : Prop :=
  ∀ i, t.lane i = s.lane i ∨ ((s.lane i).state = .reporting ∧ t.lane i = Lane.free)

section Freed

variable {mid : Bool} {s t u : State}

theorem State.OnlyFreed.refl (s : State) : s.OnlyFreed s := fun _ => .inl rfl

theorem State.OnlyFreed.trans (h : s.OnlyFreed t) (h' : t.OnlyFreed u) : s.OnlyFreed u := by
  intro i
  rcases h i with hi | ⟨hr, hi⟩
  · rw [← hi]
    exact h' i
  · rcases h' i with hi' | ⟨hr', -⟩
    · exact .inr ⟨hr, hi'.trans hi⟩
    · rw [hi] at hr'
      cases hr'

/-- A lane not in REPORTING is as it was. -/
theorem State.OnlyFreed.lane (h : s.OnlyFreed t) {i : LaneId} (hi : (s.lane i).state ≠ .reporting) :
    t.lane i = s.lane i := (h i).resolve_right fun hr => hi hr.1

/-- No lane has come into a state other than FREE, nor left one other than REPORTING. -/
theorem State.OnlyFreed.state_iff (h : s.OnlyFreed t) (i : LaneId) {v : LaneState} (hr : v ≠ .reporting)
    (hf : v ≠ .free) : (t.lane i).state = v ↔ (s.lane i).state = v := by
  rcases h i with hi | ⟨hs, hi⟩
  · rw [hi]
  · rw [hi, hs]
    exact iff_of_false hf.symm hr.symm

theorem State.OnlyFreed.lanesInFlight (h : s.OnlyFreed t) : t.lanesInFlight = s.lanesInFlight := by
  rw [Bool.eq_iff_iff, State.lanesInFlight_iff, State.lanesInFlight_iff]
  exact exists_congr fun i => or_congr (h.state_iff i (by decide) (by decide)) (h.state_iff i (by decide) (by decide))

theorem State.OnlyFreed.laneActivity (h : s.OnlyFreed t) : t.laneActivity = s.laneActivity := by
  rw [← Bool.not_inj_iff, Bool.eq_iff_iff, Bool.not_eq_true', Bool.not_eq_true', State.laneActivity_eq_false,
    State.laneActivity_eq_false]
  exact forall_congr' fun i => and_congr (not_congr (h.state_iff i (by decide) (by decide)))
    (and_congr (not_congr (h.state_iff i (by decide) (by decide))) (not_congr (h.state_iff i (by decide) (by decide))))

/-- Lanes in REPORTING end, and the waiting list changes with them. -/
theorem State.LanesGuarded.freed (hs : s.LanesGuarded mid) (h : s.OnlyFreed t) (hp : t.power = s.power)
    (hm : t.adm.mode = s.adm.mode) (honce : t.notices.waiting.Nodup)
    (hrep : ∀ i, Submitter.lane i ∈ t.notices.waiting → (t.lane i).state = .reporting) : t.LanesGuarded mid := by
  refine ⟨honce, hrep, fun i hi => ?_, ?_⟩
  · rw [hp, hm]
    exact hs.powered i ((h.state_iff i (by decide) (by decide)).1 hi)
  · rw [hp, h.laneActivity]
    exact hs.idle

/-- The scan engine's half of the law reads no more than these. -/
theorem State.ScanGuarded.aside (hs : s.ScanGuarded) (hc : t.scan = s.scan) (hp : t.panel = s.panel)
    (hw : t.power.state = s.power.state) (hf : s.lanesInFlight = true → t.lanesInFlight = true) : t.ScanGuarded := by
  obtain ⟨hwin, hrun, hcom⟩ := hs
  rw [← hc, ← hp] at hwin
  rw [← hc, ← hw] at hrun
  rw [← hc] at hcom
  exact ⟨hwin, fun h1 h2 h3 => (hrun h1 h2 h3).imp_right hf, hcom⟩

end Freed

section Submissions

variable {mid : Bool} {s : State}

/-- Who has a submission due does not wait yet, and is a lane in REPORTING or the admission unit (R175). -/
theorem State.mem_submissionsDue {o : BitVec 32} {w : Submitter} (h : (o, w) ∈ s.submissionsDue) :
    w ∉ s.notices.waiting ∧ ∀ i, w = .lane i → (s.lane i).state = .reporting := by
  unfold State.submissionsDue at h
  rcases List.mem_append.1 h with h | h
  · obtain ⟨i, hi, he⟩ := List.mem_map.1 h
    obtain ⟨-, rfl⟩ := Prod.mk.inj he
    have hdue : (s.lane i).state = .reporting ∧ Submitter.lane i ∉ s.notices.waiting := by
      simpa using (List.mem_filter.1 hi).2
    exact ⟨hdue.2, fun j hj => by cases hj; exact hdue.1⟩
  · split at h
    · split at h
      · cases h
      · rename_i hw
        obtain ⟨-, rfl⟩ := Prod.mk.inj (List.mem_singleton.1 h)
        exact ⟨by simpa using hw, fun j hj => by cases hj⟩
    · cases h

theorem State.deliver_onlyFreed {w : Submitter} (hw : ∀ i, w = .lane i → (s.lane i).state = .reporting) :
    s.OnlyFreed (s.deliver w) := by
  intro j
  cases w with
  | lane i =>
    rw [State.deliver, State.setLane_lane]
    split
    · rename_i h
      exact .inr ⟨by rw [h]; exact hw i rfl, rfl⟩
    · exact .inl rfl
  | admission =>
    unfold State.deliver
    split
    · contradiction
    · split <;> exact .inl rfl

theorem State.deliver_waiting (w : Submitter) : (s.deliver w).notices.waiting = s.notices.waiting := by
  unfold State.deliver
  split
  · rfl
  · split <;> rfl

theorem State.deliver_mode (w : Submitter) : (s.deliver w).adm.mode = s.adm.mode := by
  unfold State.deliver
  split
  · rfl
  · split <;> rfl

theorem State.deliver_power (w : Submitter) : (s.deliver w).power = s.power := by
  obtain ⟨n, l, a, h⟩ := s.deliver_frame w
  rw [h]

theorem State.submit_onlyFreed {w : Submitter} (hw : ∀ i, w = .lane i → (s.lane i).state = .reporting) :
    s.OnlyFreed (s.submit w) := by
  unfold State.submit
  split
  · exact State.deliver_onlyFreed hw
  · exact .refl s

/-- A submission that is due: with room nobody waits, and without the submitter waits from now on. -/
theorem State.LanesGuarded.submit (hs : s.LanesGuarded mid) {w : Submitter} (hnew : w ∉ s.notices.waiting)
    (hw : ∀ i, w = .lane i → (s.lane i).state = .reporting) : (s.submit w).LanesGuarded mid := by
  have hfreed := State.submit_onlyFreed hw
  unfold State.submit at hfreed ⊢
  split
  · rename_i hroom
    have hempty : s.notices.waiting = [] := List.isEmpty_iff.1 (Bool.and_eq_true_iff.1 hroom).2
    rw [if_pos hroom] at hfreed
    refine hs.freed hfreed (State.deliver_power w) (State.deliver_mode w) ?_ fun i hi => ?_
    · rw [State.deliver_waiting]
      exact hs.once
    · rw [State.deliver_waiting, hempty] at hi
      cases hi
  · refine hs.freed (.refl s) rfl rfl ?_ fun i hi => ?_
    · exact List.nodup_append.2 ⟨hs.once, List.nodup_singleton w, fun a ha b hb => by
        rw [List.mem_singleton.1 hb]
        exact ne_of_mem_of_not_mem ha hnew⟩
    · rcases List.mem_append.1 hi with hi | hi
      · exact hs.reports i hi
      · exact hw i (List.mem_singleton.1 hi).symm

theorem State.submitDue_onlyFreed (n : Nat) : ∀ s : State, s.OnlyFreed (State.submitDue n s) := by
  induction n with
  | zero => exact fun s => .refl s
  | succ n ih =>
    intro s
    unfold State.submitDue
    split
    · exact .refl s
    · rename_i hsome
      exact (State.submit_onlyFreed (State.mem_submissionsDue (earliestBy_spec hsome).1).2).trans (ih _)

theorem State.LanesGuarded.submitDue (n : Nat) : ∀ {s : State}, s.LanesGuarded mid →
    (State.submitDue n s).LanesGuarded mid := by
  induction n with
  | zero => exact fun hs => hs
  | succ n ih =>
    intro s hs
    unfold State.submitDue
    split
    · exact hs
    · rename_i hsome
      obtain ⟨hnew, hw⟩ := State.mem_submissionsDue (earliestBy_spec hsome).1
      exact ih (hs.submit hnew hw)

theorem State.flushEnds_onlyFreed (s : State) : s.OnlyFreed s.flushEnds := State.submitDue_onlyFreed 64 s

/-- An event's submissions keep the law. -/
theorem State.Guarded.flushEnds (hs : s.Guarded mid) : s.flushEnds.Guarded mid := by
  refine ⟨hs.lanes.submitDue 64, ?_⟩
  have hflight := s.flushEnds_onlyFreed.lanesInFlight
  obtain ⟨n, l, a, h⟩ := s.flushEnds_frame
  rw [h] at hflight ⊢
  exact hs.scan.aside rfl rfl rfl fun hf => hflight.trans hf

theorem State.deliver_lane_other {w : Submitter} {i : LaneId} (h : w ≠ .lane i) : (s.deliver w).lane i = s.lane i := by
  cases w with
  | lane j => exact State.setLane_lane_other _ _ fun e => h (by rw [e])
  | admission =>
    unfold State.deliver
    split
    · contradiction
    · split <;> rfl

/-- A FETCH's room goes to the waiting list's head, a lane in REPORTING or the admission unit. -/
theorem State.Guarded.deliverWaiting {w : Submitter} {rest : List Submitter} (hs : s.Guarded mid)
    (h : s.notices.waiting = w :: rest) :
    ((s.setNotices { s.notices with waiting := rest }).deliver w).Guarded mid := by
  have honce := hs.lanes.once
  have hrep := hs.lanes.reports
  rw [h] at honce hrep
  obtain ⟨hw, hrest⟩ := List.nodup_cons.1 honce
  have hfreed : s.OnlyFreed ((s.setNotices { s.notices with waiting := rest }).deliver w) :=
    State.deliver_onlyFreed (s := s.setNotices { s.notices with waiting := rest }) fun i hi =>
      hrep i (hi ▸ List.mem_cons_self)
  have hpower := State.deliver_power (s := s.setNotices { s.notices with waiting := rest }) w
  have hmode := State.deliver_mode (s := s.setNotices { s.notices with waiting := rest }) w
  have hwaiting := State.deliver_waiting (s := s.setNotices { s.notices with waiting := rest }) w
  refine ⟨hs.lanes.freed hfreed hpower hmode (by rw [hwaiting]; exact hrest) fun i hi => ?_, ?_⟩
  · rw [hwaiting] at hi
    have hne : w ≠ .lane i := fun e => hw (e ▸ hi)
    rw [State.deliver_lane_other hne]
    exact hrep i (List.mem_cons_of_mem _ hi)
  · have hflight := hfreed.lanesInFlight
    obtain ⟨m, l, a, hframe⟩ := (s.setNotices { s.notices with waiting := rest }).deliver_frame w
    rw [hframe] at hflight ⊢
    exact hs.scan.aside rfl rfl rfl fun hf => hflight.trans hf

/-- The admission unit joins the waiting list. -/
theorem State.Guarded.admissionWaits (hs : s.Guarded mid) (h : Submitter.admission ∉ s.notices.waiting) :
    (s.setNotices { s.notices with waiting := s.notices.waiting ++ [.admission] }).Guarded mid := by
  refine ⟨hs.lanes.freed (.refl s) rfl rfl ?_ fun i hi => ?_, hs.scan.aside rfl rfl rfl id⟩
  · exact List.nodup_append.2 ⟨hs.lanes.once, List.nodup_singleton _, fun x hx y hy => by
      rw [List.mem_singleton.1 hy]
      exact ne_of_mem_of_not_mem hx h⟩
  · rcases List.mem_append.1 hi with hi | hi
    · exact hs.lanes.reports i hi
    · cases List.mem_singleton.1 hi

theorem State.Guarded.takeWaiting (n : Nat) : ∀ {s : State}, s.Guarded mid → (State.takeWaiting n s).Guarded mid := by
  induction n with
  | zero => exact fun hs => hs
  | succ n ih =>
    intro s hs
    unfold State.takeWaiting
    split
    · exact hs
    · rename_i w rest hwait
      split
      · have hnext := hs.deliverWaiting hwait
        simp only
        split
        · rename_i hadm
          have hw : w = .admission := by simpa using (Bool.and_eq_true_iff.1 hadm).1
          refine ih (hnext.admissionWaits ?_)
          rw [State.deliver_waiting, ← hw]
          exact (List.nodup_cons.1 (hwait ▸ hs.lanes.once)).1
        · exact ih hnext
      · exact hs

/-- The power sequencer acts on idleness and draining: the idle hold runs beside no active lane. -/
theorem State.Guarded.settlePower (hs : s.Guarded true) : s.settlePower.Guarded false := by
  unfold State.settlePower
  split
  case h_2 =>
    rename_i hoff
    exact ⟨hs.lanes.of_off hoff false, hs.scan⟩
  split
  · rename_i hmode
    split
    · exact hs.setPower (.inl rfl) (.inr (.inl rfl))
    · rename_i hflight
      have hnone : s.laneActivity = false := Bool.eq_false_of_not_eq_true fun ha => by
        rcases hs.lanes.active ha with h | ⟨-, h⟩
        · exact hflight h
        · rw [hmode] at h
          cases h
      exact hs.setPower (.inr (.inr hnone)) (.inr (.inl rfl))
  · split
    · rename_i hidle
      have hnone : s.laneActivity = false := by
        simpa using (Bool.and_eq_true_iff.1 hidle).1
      split
      · exact ⟨⟨hs.lanes.once, hs.lanes.reports, hs.lanes.powered, .inr (.inr hnone)⟩, hs.scan⟩
      · split
        · exact hs.setPower (.inr (.inr hnone)) (.inr (.inl rfl))
        · exact hs.setPower (.inl rfl) (.inr (.inr hnone))
    · exact hs.setPower (.inl rfl) (.inr (.inl rfl))

theorem State.Guarded.testDrained (hs : s.Guarded mid) : s.testDrained.Guarded mid := by
  unfold State.testDrained
  split
  · obtain ⟨⟨honce, hrep, hpow, hidle⟩, hscan⟩ := hs
    exact ⟨⟨honce, hrep, fun i hi => ⟨(hpow i hi).1, rfl⟩, hidle⟩, hscan.aside rfl rfl rfl id⟩
  · exact hs

/-- The end of an event brings the law back as it stands between events. -/
theorem State.Guarded.settle (hs : s.Guarded mid) : s.settle.Guarded false :=
  hs.inEvent.flushEnds.settlePower.testDrained

end Submissions

end Sys2Proof.Machine
end

