-- ==== Sys2Proof/Proofs/RailsKept.lean ====
section
/-! SUPPORT. The law of R108 under arming, frames, boundaries, lines, the sweep, cuts, the power sequencer and the image
loader. -/

namespace Sys2Proof.Machine

/-! ### Arming (R56) -/

/-- Lanes WAITING or FREE may have become ARMING; the others are as they were. -/
def State.OnlyArmed (s t : State) : Prop := ∀ i, t.lane i = s.lane i ∨
  (((s.lane i).state = .waiting ∨ (s.lane i).state = .free) ∧ (t.lane i).state = .arming)

section Armed

variable {mid : Bool} {s t u : State}

theorem State.OnlyArmed.refl (s : State) : s.OnlyArmed s := fun _ => .inl rfl

theorem State.OnlyArmed.trans (h : s.OnlyArmed t) (h' : t.OnlyArmed u) : s.OnlyArmed u := by
  intro i
  rcases h i with hi | ⟨hs, hi⟩
  · rw [← hi]
    exact h' i
  · rcases h' i with hi' | ⟨hs', -⟩
    · exact .inr ⟨hs, by rw [hi', hi]⟩
    · rcases hs' with hs' | hs' <;> rw [hi] at hs' <;> cases hs'

/-- A lane neither WAITING nor FREE is as it was. -/
theorem State.OnlyArmed.lane (h : s.OnlyArmed t) {i : LaneId} (hw : (s.lane i).state ≠ .waiting)
    (hf : (s.lane i).state ≠ .free) : t.lane i = s.lane i :=
  (h i).resolve_right fun hi => hi.1.elim hw hf

/-- Lanes arm with the rails ON. -/
theorem State.LanesGuarded.armed (hs : s.LanesGuarded mid) (hon : s.power.state = .on) (h : s.OnlyArmed t)
    (hn : t.notices = s.notices) (hp : t.power = s.power) (hm : t.adm.mode = s.adm.mode) : t.LanesGuarded true := by
  refine ⟨by rw [hn]; exact hs.once, fun i hi => ?_, fun i hi => ?_, .inl ⟨rfl, by rw [hp, hon]⟩⟩
  · have hr := hs.reports i (hn ▸ hi)
    rw [h.lane (by simp [hr]) (by simp [hr]), hr]
  · rw [hp, hm]
    refine hs.powered i ?_
    rcases h i with hi' | ⟨-, hi'⟩
    · rwa [← hi']
    · rw [hi'] at hi
      cases hi

/-- The lanes, the notices and what the law reads of the power sequencer and of the admission unit stay. -/
theorem State.LanesGuarded.aside (hs : s.LanesGuarded mid) (hl : t.lanes = s.lanes) (hn : t.notices = s.notices)
    (hp : t.power = s.power) (hm : t.adm.mode = s.adm.mode) : t.LanesGuarded mid := by
  have hlane : ∀ i, t.lane i = s.lane i := fun i => by rw [State.lane, State.lane, hl]
  refine hs.freed (fun i => .inl (hlane i)) hp hm (by rw [hn]; exact hs.once) fun i hi => ?_
  rw [hlane]
  exact hs.reports i (hn ▸ hi)

end Armed

theorem State.armLanes_onlyArmed {s : State} (is : List LaneId) : ∀ (n : Nat) (t : State), s.OnlyArmed t →
    (∀ i ∈ is, (s.lane i).state = .waiting) → s.OnlyArmed (State.armLanes is n t).2 := by
  induction is with
  | nil => exact fun n t h _ => by rw [State.armLanes]; exact h
  | cons i is ih =>
    intro n t h hw
    obtain ⟨hi, hw⟩ := List.forall_mem_cons.1 hw
    cases n with
    | zero => rw [State.armLanes]; exact h; simp
    | succ n =>
      unfold State.armLanes
      split
      · rename_i g _
        refine ih n _ (fun j => ?_) hw
        rw [State.armWaiting_lane]
        split
        · rename_i hj
          exact .inr ⟨.inl (hj ▸ hi), rfl⟩
        · exact h j
      · exact ih (n + 1) t h hw

/-- A FIFO's head takes a FREE lane. -/
theorem State.armHead_onlyArmed {s s' : State} {c : UpdateClass} (h : s.armHead c = some s') :
    s.OnlyArmed s' ∧ s'.adm.mode = s.adm.mode := by
  unfold State.armHead at h
  split at h
  · cases h
  · split at h
    · split at h
      · rename_i i _ hi
        cases h
        have hfree : (s.lane i).state = .free := by simpa using List.find?_some hi
        refine ⟨fun j => ?_, rfl⟩
        rw [State.armPending_lane]
        split
        · rename_i hj
          exact .inr ⟨.inr (hj ▸ hfree), rfl⟩
        · exact .inl rfl
      · cases h
    · cases h

theorem State.armFifo_onlyArmed (c : UpdateClass) (n : Nat) : ∀ s : State,
    s.OnlyArmed (State.armFifo c n s).2 ∧ (State.armFifo c n s).2.adm.mode = s.adm.mode := by
  induction n with
  | zero => exact fun s => by rw [State.armFifo]; exact ⟨.refl s, rfl⟩
  | succ n ih =>
    intro s
    unfold State.armFifo
    split
    · rename_i s' hs
      obtain ⟨harmed, hmode⟩ := State.armHead_onlyArmed hs
      exact ⟨harmed.trans (ih s').1, (ih s').2.trans hmode⟩
    · exact ⟨.refl s, rfl⟩

/-- What a boundary's arming makes of the lanes, and that it leaves the admission mode. -/
theorem State.armBoundary_onlyArmed (s : State) :
    s.OnlyArmed s.armBoundary ∧ s.armBoundary.adm.mode = s.adm.mode := by
  have hwait : ∀ i ∈ s.waitingReady, (s.lane i).state = .waiting := fun i hi => by
    have hmem := (sortByOrder_perm _).mem_iff.1 hi
    simp only [List.mem_filter, Bool.and_eq_true, decide_eq_true_eq] at hmem
    obtain ⟨-, hwaiting, -⟩ := hmem
    exact hwaiting
  have h1 := State.armLanes_onlyArmed s.waitingReady 4 s (.refl s) hwait
  obtain ⟨m, c, l, hframe⟩ := State.armLanes_frame s.waitingReady 4 s
  have hmode : (State.armLanes s.waitingReady 4 s).2.adm.mode = s.adm.mode := by rw [hframe]
  rw [State.armBoundary_eq]
  obtain ⟨h2, hmode2⟩ := State.armFifo_onlyArmed .urgent (State.armLanes s.waitingReady 4 s).1
    (State.armLanes s.waitingReady 4 s).2
  obtain ⟨h3, hmode3⟩ := State.armFifo_onlyArmed .normal _ _
  exact ⟨(h1.trans h2).trans h3, hmode3.trans (hmode2.trans hmode)⟩

/-! ### Frames (R98, R59) -/

section Frames

variable {mid : Bool} {s t : State}

theorem State.LanesGuarded.limitsInForce (hs : s.LanesGuarded mid) : s.limitsInForce.LanesGuarded mid :=
  hs.aside rfl rfl rfl rfl

theorem State.LanesGuarded.armBoundary (hs : s.LanesGuarded mid) (hon : s.power.state = .on) :
    s.armBoundary.LanesGuarded true := by
  obtain ⟨harmed, hmode⟩ := s.armBoundary_onlyArmed
  obtain ⟨k, l, a, h⟩ := s.armBoundary_frame
  exact hs.armed hon harmed (by rw [h]) (by rw [h]) hmode

/-- A frame begins with the outputs disabled, the rails ON and a lane in flight. -/
theorem State.LanesGuarded.beginFrame (hs : s.LanesGuarded mid) (hon : s.power.state = .on)
    (hf : s.lanesInFlight = true) (hsoe : s.panel.soe = false) : s.beginFrame.Guarded mid := by
  rw [State.beginFrame_eq]
  refine ⟨hs.aside rfl rfl rfl rfl, fun h => ?_, fun _ _ _ => ⟨hon, hf⟩, fun h => by cases h⟩
  rw [show s.panel.soe = true from h] at hsoe
  cases hsoe

theorem State.Guarded.testReady (hs : s.Guarded mid) : s.testReady.Guarded true := by
  by_cases h : s.power.state = .on ∧ s.scan.pos = .stopped ∧ s.readyWork = true
  · obtain ⟨hon, hstop, hready⟩ := h
    have hsoe : s.panel.soe = false := hs.scan.soe_off (by simp [hstop])
    have hlanes : s.limitsInForce.armBoundary.LanesGuarded true := hs.lanes.limitsInForce.armBoundary hon
    have hf : s.limitsInForce.armBoundary.lanesInFlight = true :=
      State.armBoundary_inFlight (s.limitsInForce_readyWork.trans hready)
    obtain ⟨k, l, a, hframe⟩ := s.limitsInForce.armBoundary_frame
    rw [State.testReady_pos ⟨hon, hstop, hready⟩]
    exact hlanes.beginFrame (by rw [hframe]; exact hon) hf (by rw [hframe]; exact hsoe)
  · rw [State.testReady_neg h]
    exact hs.inEvent

theorem State.Guarded.testReadyIfFreed (hs : s.Guarded mid) (before : State) :
    (s.testReadyIfFreed before).Guarded true := by
  unfold State.testReadyIfFreed
  split
  · exact hs.testReady
  · exact hs.inEvent

theorem State.evalTrigger_guards (s : State) : s.evalTrigger.guards = s.guards := by
  obtain ⟨c, f, h⟩ := s.evalTrigger_frame
  rw [h]
  rfl

theorem State.Guarded.evalTrigger (hs : s.Guarded mid) : s.evalTrigger.Guarded mid := hs.aside s.evalTrigger_guards

theorem State.Guarded.triggerReady (hs : s.Guarded mid) : (s.triggerWith State.testReady).Guarded true := by
  obtain ⟨n, h | h⟩ := s.triggerWith_cases State.testReady <;> rw [h]
  · exact (State.Guarded.aside (t := s.setChoices n) hs rfl).evalTrigger.testReady
  · exact (State.Guarded.aside (t := s.setChoices n) hs rfl).testReady.evalTrigger

/-! ### The frame boundary (R69, R107) -/

/-- The pass ends of a boundary with the rails ON. -/
theorem State.LanesGuarded.advanceLanes (hs : s.LanesGuarded mid) (hon : s.power.state = .on) :
    s.advanceLanes.LanesGuarded true := by
  have hended : s.passesEnded.LanesGuarded true := by
    have hstate : ∀ i v, (s.lane i).passDue = false → v ≠ .arming → v ≠ .driving →
        ((s.passesEnded.lane i).state = v ↔ (s.lane i).state = v) :=
      fun _ _ hdue => State.passesEnded_state_on hdue
    have hwaiting : ∀ i, (s.passesEnded.lane i).state = .waiting → s.adm.mode = .normal := fun i hi => by
      cases hdue : (s.lane i).passDue
      · exact (hs.powered i ((hstate i _ hdue (by decide) (by decide)).1 hi)).2
      · by_cases h : (s.lane i).passesAgain s.adm.mode
        · obtain ⟨-, -, hmode, -⟩ := h
          exact hmode
        · rw [State.passesEnded_reporting hdue h] at hi
          cases hi
    have hreport : ∀ i, (s.lane i).state = .reporting → (s.passesEnded.lane i).state = .reporting := fun i hi =>
      (hstate i _ (Bool.eq_false_of_not_eq_true fun hd => Lane.passDue_not_reporting hd hi) (by decide)
        (by decide)).2 hi
    obtain ⟨c, l, h⟩ := s.passesEnded_frame
    have hnotices : s.passesEnded.notices = s.notices := by rw [h]
    have hpower : s.passesEnded.power = s.power := by rw [h]
    have hadm : s.passesEnded.adm = s.adm := by rw [h]
    refine ⟨by rw [hnotices]; exact hs.once, fun i hi => ?_, fun i hi => ?_, .inl ⟨rfl, by rw [hpower, hon]⟩⟩
    · rw [hnotices] at hi
      exact hreport i (hs.reports i hi)
    · rw [hpower, hadm]
      exact ⟨hon, hwaiting i hi⟩
  exact hended.submitDue 64

/-- The limits, cache, flash interface, notices, lanes, admission unit and counter may have changed from `s` to `t`, and
nothing else. -/
def State.BoundaryKept (s t : State) : Prop :=
  { t with
    limits := s.limits, cache := s.cache, flash := s.flash, notices := s.notices, lanes := s.lanes, adm := s.adm
    choices := s.choices } = s

theorem State.BoundaryKept.trans {s t u : State} (h : s.BoundaryKept t) (h' : t.BoundaryKept u) : s.BoundaryKept u := by
  unfold State.BoundaryKept at h h' ⊢
  exact (congrArg (fun v : State => { v with
    limits := s.limits, cache := s.cache, flash := s.flash, notices := s.notices, lanes := s.lanes, adm := s.adm
    choices := s.choices }) h').trans h

section

variable {s t : State} (h : s.BoundaryKept t)

include h

theorem State.BoundaryKept.panel : t.panel = s.panel := by
  unfold State.BoundaryKept at h
  exact (congrArg State.panel h :)

theorem State.BoundaryKept.power : t.power = s.power := by
  unfold State.BoundaryKept at h
  exact (congrArg State.power h :)

theorem State.BoundaryKept.mem : t.mem = s.mem := by
  unfold State.BoundaryKept at h
  exact (congrArg State.mem h :)

theorem State.BoundaryKept.wb : t.wb = s.wb := by
  unfold State.BoundaryKept at h
  exact (congrArg State.wb h :)

theorem State.BoundaryKept.thermal : t.thermal = s.thermal := by
  unfold State.BoundaryKept at h
  exact (congrArg State.thermal h :)

end

theorem State.boundaryWork_kept (s : State) : s.BoundaryKept s.boundaryWork := by
  have harm : ∀ u : State, u.BoundaryKept u.armBoundary := fun u => by
    obtain ⟨c, l, a, h⟩ := u.armBoundary_frame
    rw [h]
    rfl
  have htrigger : ∀ u : State, u.BoundaryKept u.evalTrigger := fun u => by
    obtain ⟨c, f, h⟩ := u.evalTrigger_frame
    rw [h]
    rfl
  have hcount : ∀ (u : State) k, u.BoundaryKept (u.setChoices k) := fun _ _ => rfl
  have hadvance : s.BoundaryKept s.advanceLanes.limitsInForce := by
    obtain ⟨c, n, l, a, h⟩ := s.advanceLanes_frame
    rw [h]
    rfl
  unfold State.boundaryWork
  simp only
  split
  · obtain ⟨k, h | h⟩ := s.advanceLanes.limitsInForce.triggerWith_cases State.armBoundary <;> rw [h]
    · exact hadvance.trans ((hcount _ k).trans ((htrigger _).trans (harm _)))
    · exact hadvance.trans ((hcount _ k).trans ((harm _).trans (htrigger _)))
  · exact hadvance.trans (harm _)

theorem State.LanesGuarded.boundaryWork (hs : s.LanesGuarded mid) (hon : s.power.state = .on) :
    s.boundaryWork.LanesGuarded true := by
  have hadvance : s.advanceLanes.limitsInForce.LanesGuarded true := (hs.advanceLanes hon).limitsInForce
  have hpower : s.advanceLanes.limitsInForce.power.state = .on := by
    obtain ⟨c, n, l, a, h⟩ := s.advanceLanes_frame
    rw [h]
    exact hon
  have htrigger : ∀ {u : State}, u.LanesGuarded true → u.evalTrigger.LanesGuarded true := fun {u} hu => by
    obtain ⟨c, f, h⟩ := u.evalTrigger_frame
    rw [h]
    exact hu.aside rfl rfl rfl rfl
  unfold State.boundaryWork
  simp only
  split
  · generalize s.advanceLanes.limitsInForce = u at hadvance hpower
    obtain ⟨k, h | h⟩ := u.triggerWith_cases State.armBoundary <;> rw [h]
    · obtain ⟨c, f, he⟩ := (u.setChoices k).evalTrigger_frame
      refine (htrigger (hadvance.aside (t := u.setChoices k) rfl rfl rfl rfl)).armBoundary ?_
      rw [he]
      exact hpower
    · exact htrigger ((hadvance.aside (t := u.setChoices k) rfl rfl rfl rfl).armBoundary hpower)
  · exact hadvance.armBoundary hpower

/-- In the sweep, or STOPPED, the law asks for disabled outputs alone. -/
theorem State.LanesGuarded.offFrame (hs : s.LanesGuarded mid) (hsoe : s.panel.soe = false)
    (hpos : s.scan.pos = .stopped ∨ ∃ y, s.scan.pos = .sweep y) (hcut : s.scan.cut = false) : s.Guarded mid := by
  refine ⟨hs, fun h => ?_, fun h1 h2 _ => ?_, fun h => ?_⟩
  · rw [hsoe] at h
    cases h
  · rcases hpos with h | ⟨y, h⟩
    · exact absurd h h1
    · exact absurd h (h2 y)
  · rw [hcut] at h
    cases h

/-- Either way the boundary goes on, the outputs are disabled. -/
theorem State.LanesGuarded.continueFrames (hs : s.LanesGuarded mid) (hsoe : s.panel.soe = false) :
    s.continueFrames.Guarded mid := by
  unfold State.continueFrames
  split
  · rename_i h
    obtain ⟨hon, hf⟩ := Bool.and_eq_true_iff.1 h
    exact hs.beginFrame (of_decide_eq_true hon) hf hsoe
  · exact State.LanesGuarded.offFrame (hs.aside rfl rfl rfl rfl) rfl (.inl rfl) rfl

/-! ### Lines (R100, R104) -/

/-- The next period of a frame begins. -/
theorem State.LanesGuarded.nextPeriod (hs : s.LanesGuarded mid) (hsoe : s.panel.soe = false)
    (hcut : s.scan.cut = false) (hrun : s.power.state = .on ∧ s.lanesInFlight = true) (y : Nat) :
    (s.nextPeriod y).Guarded mid := by
  have hoff : s.panel.soe ≠ true := by simp [hsoe]
  have hnone : s.scan.cut ≠ true := by simp [hcut]
  unfold State.nextPeriod
  split <;> exact ⟨hs.aside rfl rfl rfl rfl, fun h => absurd h hoff, fun _ _ _ => hrun, fun h => absurd h hnone⟩

/-- Lanes may have come into REPORTING: those that leave ABANDONING, or WAITING lanes that end. -/
theorem State.LanesGuarded.reporting (hs : s.LanesGuarded mid)
    (h : ∀ i, (t.lane i).state = (s.lane i).state ∨ (t.lane i).state = .reporting)
    (hn : t.notices = s.notices) (hp : t.power = s.power)
    (hm : ∀ i, (t.lane i).state = .waiting → t.adm.mode = s.adm.mode) : t.LanesGuarded mid := by
  refine ⟨by rw [hn]; exact hs.once, fun i hi => ?_, fun i hi => ?_, ?_⟩
  · rcases h i with h | h
    · rw [h]
      exact hs.reports i (hn ▸ hi)
    · exact h
  · rcases h i with h | h
    · rw [hp, hm i hi]
      exact hs.powered i (h ▸ hi)
    · rw [h] at hi
      cases hi
  · rw [hp]
    refine hs.idle.imp_right (Or.imp_right fun hno => ?_)
    rw [State.laneActivity_eq_false] at hno ⊢
    intro i
    rcases h i with h | h
    · rw [h]
      exact hno i
    · simp [h]

theorem State.LanesGuarded.leaveAbandonings (hs : s.LanesGuarded mid) {is : List LaneId} (hd : is.Nodup) :
    (is.foldl State.leaveAbandoning s).LanesGuarded mid := by
  have hlane := fun j => State.leaveAbandonings_lane hd j s
  obtain ⟨c, l, h⟩ := s.leaveAbandonings_frame is
  rw [h] at hlane ⊢
  refine hs.reporting (fun j => ?_) rfl rfl fun _ _ => rfl
  rw [hlane]
  split
  · exact .inr rfl
  · exact .inl rfl

theorem State.LanesGuarded.leaveAll (hs : s.LanesGuarded mid) {is : List LaneId} (hd : is.Nodup) :
    (s.leaveAll is).LanesGuarded mid := by
  unfold State.leaveAll
  split
  · exact hs
  · have hleft := hs.leaveAbandonings hd
    obtain ⟨c, f, h⟩ := (is.foldl State.leaveAbandoning s).evalTrigger_frame
    rw [h]
    exact hleft.aside rfl rfl rfl rfl

/-- Lanes in flight stay in flight while others leave ABANDONING. -/
theorem State.leaveAll_inFlight {is : List LaneId} (hd : is.Nodup) (his : ∀ i ∈ is, (s.lane i).state = .abandoning)
    (hf : s.lanesInFlight = true) : (s.leaveAll is).lanesInFlight = true := by
  rw [State.lanesInFlight_iff] at hf ⊢
  obtain ⟨i, hi⟩ := hf
  have hnot : i ∉ is := fun hmem => by
    rcases hi with hi | hi <;> rw [his i hmem] at hi <;> cases hi
  exact ⟨i, by rw [State.leaveAll_lane hd, if_neg hnot]; exact hi⟩

/-! ### The sweep and the cut (R109, R111) -/

theorem State.LanesGuarded.enterSweep (hs : s.LanesGuarded mid) (hsoe : s.panel.soe = false) :
    s.enterSweep.Guarded mid := by
  have hleave : ∀ u : State, u.LanesGuarded mid → u.panel = s.panel → u.scan.pos = .sweep 0 → u.scan.cut = false →
      (u.leaveAll u.sweptLanes).Guarded mid := fun u hu hp hpos hcut => by
    have hlanes := hu.leaveAll u.sweptLanes_nodup
    obtain ⟨c, l, f, h⟩ := u.leaveAll_frame u.sweptLanes
    rw [h] at hlanes ⊢
    exact hlanes.offFrame (by rw [← hsoe, ← hp]) (.inr ⟨0, hpos⟩) hcut
  unfold State.enterSweep
  simp only
  split
  · exact hleave _ (hs.aside rfl rfl rfl rfl) rfl rfl rfl
  · exact hleave _ (hs.aside rfl rfl rfl rfl) rfl rfl rfl

/-- The commit of a line is complete. -/
theorem State.LanesGuarded.lineCommitted (hs : s.LanesGuarded mid) (hsoe : s.panel.soe = false)
    (hrun : s.scan.cut = false → s.power.state = .on ∧ s.lanesInFlight = true) (y : Nat) :
    (s.lineCommitted y).Guarded mid := by
  unfold State.lineCommitted
  split
  · exact hs.enterSweep hsoe
  · rename_i hcut
    have hcut' : s.scan.cut = false := Bool.eq_false_of_not_eq_true hcut
    split
    · exact hs.nextPeriod hsoe hcut' (hrun hcut') y
    · refine ⟨hs.aside rfl rfl rfl rfl, fun h => ?_, fun _ _ _ => hrun hcut', fun h => absurd h hcut⟩
      rw [show s.panel.soe = true from h] at hsoe
      cases hsoe

/-- A commit begins, in a frame or after a cut. -/
theorem State.LanesGuarded.beginCommit (hs : s.LanesGuarded mid) (hsoe : s.panel.soe = false)
    (hrun : s.scan.cut = false → s.power.state = .on ∧ s.lanesInFlight = true) (y : Nat) :
    (s.beginCommit y).Guarded mid := by
  unfold State.beginCommit
  simp only
  split
  · refine State.LanesGuarded.lineCommitted ?_ (by exact hsoe) (by exact hrun) y
    exact hs.aside rfl rfl rfl rfl
  · refine ⟨hs.aside rfl rfl rfl rfl, fun h => ?_, fun _ _ h => hrun h, fun _ => ⟨y, rfl⟩⟩
    rw [show s.panel.soe = true from h] at hsoe
    cases hsoe

theorem State.Guarded.loseLaneSet (hs : s.Guarded mid) : s.loseLaneSet.Guarded mid := hs.aside rfl

/-- A cut takes the frame out of the law's reach, whatever the power state is by now. -/
theorem State.LanesGuarded.cutFrame (hs : s.LanesGuarded mid)
    (hsoe : s.panel.soe = true → ∃ y, s.scan.pos = .line y .window)
    (hcut : s.scan.cut = true → ∃ y, s.scan.pos = .line y .commit) : s.cutFrame.Guarded mid := by
  have hoff : (∀ y, s.scan.pos ≠ .line y .window) → s.panel.soe = false := fun hp =>
    Bool.eq_false_of_not_eq_true fun h => by
      obtain ⟨y, hy⟩ := hsoe h
      exact hp y hy
  unfold State.cutFrame
  split
  · rename_i y hpos
    refine hs.offFrame (hoff (by simp [hpos])) (.inr ⟨y, hpos⟩) (Bool.eq_false_of_not_eq_true fun h => ?_)
    obtain ⟨z, hz⟩ := hcut h
    rw [hpos] at hz
    cases hz
  · rename_i hpos
    exact hs.enterSweep (hoff (by simp [hpos]))
  · exact State.LanesGuarded.enterSweep (hs.aside rfl rfl rfl rfl) rfl
  · simp only
    split
    · exact State.LanesGuarded.enterSweep (hs.aside rfl rfl rfl rfl) rfl
    · exact State.LanesGuarded.enterSweep (hs.aside rfl rfl rfl rfl) rfl
    · rename_i y _ _
      refine State.Guarded.loseLaneSet (State.LanesGuarded.beginCommit ?_ rfl (fun h => by cases h) y)
      exact hs.aside rfl rfl rfl rfl
    · rename_i y _ hpos
      refine State.Guarded.loseLaneSet ?_
      exact ⟨hs.aside rfl rfl rfl rfl, fun h => (by cases h), fun _ _ h => (by cases h), fun _ => ⟨y, hpos⟩⟩
    · exact State.LanesGuarded.enterSweep (hs.aside rfl rfl rfl rfl) rfl

theorem Lane.abandon_state (l : Lane) : l.abandon.state =
    match l.state with
    | .arming | .driving => .abandoning
    | .waiting => .reporting
    | v => v := by
  unfold Lane.abandon Lane.endWaiting
  cases h : l.state <;> simp [h]

/-- HALT, a fault or a timeout at the lanes and the scan engine (R88): the law holds afterwards, whatever the event has
made of the power state and of the admission unit before. -/
theorem State.Guarded.abandonLanes (hs : s.Guarded mid) (hn : t.notices.waiting = s.notices.waiting)
    (hl : t.lanes = s.lanes) (hp : t.panel = s.panel) (hc : t.scan = s.scan) : t.abandonLanes.Guarded false := by
  have hlane : ∀ i, ((t.mapLanes Lane.abandon).lane i).state = (s.lane i).abandon.state := fun i => by
    rw [State.mapLanes_lane, State.lane, State.lane, hl]
  have hinactive : (t.mapLanes Lane.abandon).laneActivity = false := State.laneActivity_eq_false.2 fun i => by
    rw [hlane, Lane.abandon_state]
    cases (s.lane i).state <;> simp
  have hflight : t.lanesInFlight = s.lanesInFlight := State.lanesInFlight_congr hl
  have hlanes : (t.mapLanes Lane.abandon).LanesGuarded false := by
    refine ⟨hn ▸ hs.lanes.once, fun i hi => ?_, fun i hi => ?_, .inr (.inr hinactive)⟩
    · rw [hlane, Lane.abandon_state, hs.lanes.reports i (hn ▸ hi)]
    · exact absurd hi (State.laneActivity_eq_false.1 hinactive i).2.2
  have hscan : (t.mapLanes Lane.abandon).scan = s.scan := hc
  have hpanel : (t.mapLanes Lane.abandon).panel = s.panel := hp
  unfold State.abandonLanes
  simp only
  split
  · exact hlanes.cutFrame (fun h => by rw [hscan]; exact (hs.scan.window (hpanel ▸ h)).1)
      (fun h => by rw [hscan] at h ⊢; exact hs.scan.commits h)
  · rename_i hno
    refine ⟨hlanes, fun h => ?_, fun h1 h2 h3 => ?_, fun h => ?_⟩
    · rw [hscan]
      exact hs.scan.window (hpanel ▸ h)
    · rw [hscan] at h1 h2 h3
      exact absurd (hflight.trans (hs.scan.frame h1 h2 h3).2) hno
    · rw [hscan] at h ⊢
      exact hs.scan.commits h

end Frames

end Sys2Proof.Machine
end

