-- ==== Sys2Proof/Proofs/RailsCommands.lean ====
section
/-! SUPPORT. The law of R108 under every command, and with it under every step. -/

namespace Sys2Proof.Machine

section Commands

variable {mid : Bool} {s t : State}

/-! ### The ends of events -/

theorem State.Guarded.arbitrate (hs : s.Guarded mid) : s.arbitrate.Guarded mid := hs.aside rfl

theorem State.Guarded.arbitrateAfter (hs : s.Guarded mid) (old : Arbiter) : (s.arbitrateAfter old).Guarded mid := by
  obtain ⟨a, n, h⟩ := s.arbitrateAfter_frame old
  rw [h]
  exact hs.aside rfl

/-- The end of an event in which no access has completed. -/
theorem State.Guarded.settled (hs : s.Guarded mid) : s.settle.arbitrate.Guarded false := hs.settle.arbitrate

/-! ### The power sequencer -/

theorem State.Guarded.beginStage (hs : s.Guarded mid) (hoff : s.power.state ≠ .on) (k : Nat) (mid' : Bool) :
    (s.beginStage k).Guarded mid' := by
  refine hs.setPower_of_off hoff ?_ mid'
  exact .inr rfl

theorem State.Guarded.testRise (hs : s.Guarded mid) : s.testRise.Guarded mid := by
  unfold State.testRise
  split
  · rename_i h
    have hoff : s.power.state = .off := of_decide_eq_true (Bool.and_eq_true_iff.1 h).1
    exact hs.beginStage (by simp [hoff]) 1 mid
  · exact hs

theorem State.Guarded.endStage (hs : s.Guarded mid) (hoff : s.power.state ≠ .on) (k : Nat) :
    (s.endStage k).Guarded true := by
  unfold State.endStage
  split
  · exact hs.beginStage hoff _ true
  · refine State.Guarded.testReady (mid := mid) (hs.setPower_of_off hoff ?_ mid)
    exact .inr rfl

theorem State.Guarded.conditionMet (hs : s.Guarded mid) (hoff : s.power.state ≠ .on) (k m : Nat) :
    (s.conditionMet k m).Guarded true := by
  have hmet : (s.setPower { s.power.setRiseHistory k (pushHistory Config.riseDepth (s.power.riseHistory k) m) with
      monitored := insertStage k s.power.monitored }).Guarded mid := hs.aside rfl
  exact hmet.endStage hoff k

theorem State.Guarded.enterFault (hs : s.Guarded mid) (k : Nat) (c : FaultCause) : (s.enterFault k c).Guarded false :=
  hs.abandonLanes rfl rfl rfl rfl

theorem State.Guarded.filteredChange (hs : s.Guarded mid) (line : Fin 4) (high : Bool) (clocks : Nat) :
    (s.filteredChange line high clocks).Guarded true := by
  unfold State.filteredChange
  split
  · split
    · exact (hs.enterFault _ _).inEvent
    · exact hs.inEvent
  · rename_i hrising
    split
    · exact (hs.enterFault _ _).inEvent
    · split
      · exact hs.conditionMet (by simp [hrising]) _ _
      · exact hs.inEvent
  · exact hs.inEvent

theorem State.Guarded.setLine (hs : s.Guarded mid) (line : Fin 4) (g : GoodLine) : (s.setLine line g).Guarded mid :=
  hs.aside rfl

theorem State.Guarded.lineFiltered (hs : s.Guarded mid) (line : Fin 4) (clocks : Nat) :
    (s.lineFiltered line clocks).Guarded true := (hs.setLine _ _).filteredChange _ _ _

theorem State.Guarded.railChange (hs : s.Guarded false) (line : Fin 4) (high : Bool) (elapsed : Nat) :
    (s.railChange line high elapsed).Guarded false := by
  unfold State.railChange
  simp only
  split
  · exact hs.setLine _ _
  · split
    · exact ((hs.setLine _ _).lineFiltered _ _).settled
    · exact hs.setLine _ _

theorem State.Guarded.blankEnd (hs : s.Guarded false) {k : Nat} (hk : s.power.state = .rising k) (b : Nat) :
    (s.blankEnd k b).Guarded false := by
  have hoff : s.power.state ≠ .on := by simp [hk]
  have hblank : (s.setPower { s.power with blankTimer := none }).Guarded false := hs.aside rfl
  unfold State.blankEnd
  simp only
  split
  · exact (hblank.conditionMet hoff _ _).settled
  · exact hblank

theorem State.Guarded.stageTimedOut (hs : s.Guarded false) {k : Nat} (hk : s.power.state = .rising k) :
    (s.stageTimedOut k).Guarded false := by
  unfold State.stageTimedOut
  split
  · exact hs
  · exact (hs.enterFault k .timeout).settled
  · exact (hs.endStage (by simp [hk]) k).settled

theorem State.Guarded.fallDelayOver (hs : s.Guarded false) {k : Nat} (hk : s.power.state = .falling k) :
    (s.fallDelayOver k).Guarded false := by
  have hoff : s.power.state ≠ .on := by simp [hk]
  unfold State.fallDelayOver
  split
  · exact hs.setPower_of_off hoff (.inl rfl) false
  · exact (hs.setPower_of_off hoff (.inl rfl) false).testRise.settled

/-- The idle hold runs beside no active lane, so its expiry may leave ON. -/
theorem State.Guarded.idleHoldExpiry (hs : s.Guarded false) (ht : s.power.idleTimer ≠ none) (k : Nat) :
    (s.enterFalling k).Guarded false := by
  rcases hs.lanes.idle with ⟨h, -⟩ | h | h
  · cases h
  · exact absurd h ht
  · exact hs.setPower (.inr (.inr h)) (.inr (.inl rfl))

/-! ### The thermal unit and the flash interface -/

theorem State.setBand_guards (s : State) (b : Band) (w : BandBasis) (v : Option Int) :
    (s.setBand b w v).guards = s.guards := by
  unfold State.setBand
  split <;> rfl

theorem State.thermalMiss_guards (s : State) (code : Nat) : (s.thermalMiss code).guards = s.guards := by
  unfold State.thermalMiss
  simp only
  split
  · rfl
  · split
    · rfl
    · split
      · exact State.setBand_guards _ _ _ _
      · rfl

theorem State.thermalSample_guards (s : State) (code : Nat) : (s.thermalSample code).guards = s.guards := by
  unfold State.thermalSample
  simp only
  split <;> split
  · exact State.setBand_guards _ _ _ _
  · exact State.setBand_guards _ _ _ _
  · rfl
  · rfl

theorem State.thermalCode_guards (s : State) (code : Nat) : (s.thermalCode code).guards = s.guards := by
  unfold State.thermalCode
  split
  · exact s.thermalMiss_guards code
  · exact s.thermalSample_guards code

theorem State.clearOverride_guards (s : State) : s.clearOverride.guards = s.guards := by
  unfold State.clearOverride
  split
  · rfl
  · simp only
    split <;> exact State.setBand_guards _ _ _ _

theorem State.Guarded.handBand (hs : s.Guarded mid) (before : State) : (s.handBand before).Guarded true := by
  unfold State.handBand
  split
  · exact hs.inEvent
  · exact hs.triggerReady

theorem State.Guarded.conversion (hs : s.Guarded mid) (code : Nat) : (s.conversion code).Guarded false := by
  have hcode : ((s.setThermal { s.thermal with converting := false }).thermalCode code).Guarded mid :=
    hs.aside (State.thermalCode_guards _ code)
  exact (hcode.handBand s).settled

theorem State.headerDelivery_guards (s : State) (r : FlashResult) : (s.headerDelivery r).guards = s.guards := by
  unfold State.headerDelivery
  split
  · rfl
  · simp only
    split
    · rfl
    · unfold State.checkHeader
      split <;> rfl

theorem State.recheck_guards (s : State) (r : Reload) (k : SeqKind) : (s.recheck r k).guards = s.guards := by
  obtain ⟨c, f, h⟩ := s.recheck_frame r k
  rw [h]
  rfl

theorem State.reloadTimeout_guards (s : State) (r : Reload) (b : Band) : (s.reloadTimeout r b).guards = s.guards := by
  unfold State.reloadTimeout
  split
  · exact s.recheck_guards _ _
  · exact State.evalTrigger_guards _

theorem State.Guarded.reloadNext (hs : s.Guarded mid) (r : Reload) (b : Band) : (s.reloadNext r b).Guarded true := by
  unfold State.reloadNext
  split
  · exact hs.inEvent.aside rfl
  · split
    · exact hs.inEvent.aside (s.recheck_guards r _)
    · exact State.Guarded.triggerReady (hs.aside (t := s.slotReady r b) rfl)

theorem State.Guarded.reloadDelivery (hs : s.Guarded mid) (r : Reload) (res : FlashResult) :
    (s.reloadDelivery r res).Guarded true := by
  unfold State.reloadDelivery
  cases res with
  | word w => exact State.Guarded.reloadNext (hs.aside (t := s.storeWord r w) rfl) r _
  | timeout =>
    have h := hs.aside (s.reloadTimeout_guards r (((s.cache.slot r.slot).band).getD 0))
    simp only
    split
    · exact h.inEvent
    · exact h.testReady

theorem State.Guarded.flashDelivery (hs : s.Guarded mid) (r : FlashResult) : (s.flashDelivery r).Guarded true := by
  have hidle : s.flashIdle.Guarded mid := hs.aside rfl
  unfold State.flashDelivery
  simp only
  split
  · exact hidle.inEvent.aside (State.headerDelivery_guards _ r)
  · split
    · exact hidle.reloadDelivery _ r
    · exact hidle.inEvent

/-! ### The scan engine -/

/-- A frame that is not cut is at a line or a blank line. -/
theorem State.ScanGuarded.run (hs : s.ScanGuarded) {y : Nat} {ph : LinePhase} (hpos : s.scan.pos = .line y ph)
    (hcut : s.scan.cut = false) : s.power.state = .on ∧ s.lanesInFlight = true :=
  hs.frame (by simp [hpos]) (by simp [hpos]) hcut

theorem State.Guarded.periodOver (hs : s.Guarded mid) : s.periodOver.Guarded mid := by
  unfold State.periodOver
  split
  · rename_i hpos
    have hcut := hs.scan.uncut (by simp [hpos])
    exact hs.lanes.nextPeriod (hs.scan.soe_off (by simp [hpos])) hcut (hs.scan.run hpos hcut) _
  · exact hs.aside rfl
  · rename_i hpos
    have hcut := hs.scan.uncut (by simp [hpos])
    have hsoe := hs.scan.soe_off (by simp [hpos])
    have hrun := hs.scan.frame (by simp [hpos]) (by simp [hpos]) hcut
    split
    · refine ⟨hs.lanes.aside rfl rfl rfl rfl, fun h => ?_, fun _ _ _ => hrun, fun h => ?_⟩
      · rw [show s.panel.soe = true from h] at hsoe
        cases hsoe
      · rw [show s.scan.cut = true from h] at hcut
        cases hcut
    · exact hs
  · exact hs
  · exact hs

/-- A line between its first read and its window stays in the frame. -/
theorem State.Guarded.onLine (hs : s.Guarded mid) {y : Nat} {ph ph' : LinePhase} (hpos : s.scan.pos = .line y ph)
    (hc : ph ≠ .commit) (hl : t.lanes = s.lanes) (hn : t.notices = s.notices)
    (hp : t.power = s.power) (hm : t.adm = s.adm) (hpos' : t.scan.pos = .line y ph') (hcut : t.scan.cut = s.scan.cut)
    (hsoe : t.panel.soe = true → ph' = .window) : t.Guarded mid := by
  have huncut : s.scan.cut = false := hs.scan.uncut (by simpa [hpos] using hc)
  refine ⟨hs.lanes.aside hl hn hp (by rw [hm]), fun h => ⟨⟨y, by rw [hpos', hsoe h]⟩, hcut.trans huncut⟩,
    fun _ _ _ => ?_, fun h => ?_⟩
  · obtain ⟨hon, hf⟩ := hs.scan.run hpos huncut
    exact ⟨by rw [hp, hon], (State.lanesInFlight_congr hl).trans hf⟩
  · rw [hcut, huncut] at h
    cases h

theorem State.capture_cut (s : State) (y : Nat) (a : LineAccess) : (s.capture y a).cut = s.scan.cut := by
  cases a <;> rfl

theorem State.capture_pos (s : State) (y : Nat) (a : LineAccess) : (s.capture y a).pos = s.scan.pos := by
  cases a <;> rfl

theorem State.Guarded.lineRead (hs : s.Guarded mid) {y : Nat} (hpos : s.scan.pos = .line y .reading) (a : LineAccess)
    (rest : List LineAccess) : (s.lineRead y a rest).Guarded mid := by
  have hsoe := hs.scan.soe_off (by simp [hpos])
  have hoff : ∀ {ph : LinePhase}, s.panel.soe = true → ph = .window := fun h => by
    rw [hsoe] at h
    cases h
  unfold State.lineRead
  simp only
  split
  · exact hs.onLine hpos (by decide) rfl rfl rfl rfl (ph' := .shifting) rfl (s.capture_cut y a) hoff
  · exact hs.onLine hpos (by decide) rfl rfl rfl rfl ((s.capture_pos y a).trans hpos) (s.capture_cut y a) hoff

theorem State.Guarded.openWindow (hs : s.Guarded mid) {y : Nat} (hpos : s.scan.pos = .line y .shifting) :
    (s.openWindow y).Guarded mid :=
  hs.onLine hpos (by decide) rfl rfl rfl rfl (ph' := .window) rfl rfl fun _ => rfl

theorem State.discardedRead_guards (s : State) : s.discardedRead.guards = s.guards := by
  obtain ⟨a, h⟩ := s.discardedRead_frame
  rw [h]
  rfl

theorem Lane.hear_state (i : LaneId) (l : Lane) (r : Report) : (l.hear i r).state = l.state := by
  unfold Lane.hear
  split
  · cases r <;> rfl
  · rfl

/-- Reports leave the lanes' states. -/
theorem State.takeReports_state (rs : List Report) (s : State) (i : LaneId) :
    ((s.takeReports rs).lane i).state = (s.lane i).state := by
  rw [State.takeReports_lane]
  generalize s.lane i = l
  induction rs generalizing l with
  | nil => rfl
  | cons r rs ih => exact (ih (l.hear i r)).trans (Lane.hear_state i l r)

theorem State.takeReports_guards (s : State) (rs : List Report) : (s.takeReports rs).guards = s.guards := by
  have hstate := State.takeReports_state rs s
  obtain ⟨l, h⟩ := State.takeReports_frame rs s
  rw [h] at hstate ⊢
  simp only [State.guards, hstate]

theorem State.writeBack_guards (s : State) (y g : Nat) : (s.writeBack y g).guards = s.guards :=
  State.takeReports_guards _ _

theorem State.Guarded.commitWrite (hs : s.Guarded mid) {y : Nat} (hpos : s.scan.pos = .line y .commit) (g : Nat)
    (rest : List LineAccess) : (s.commitWrite y g rest).Guarded mid := by
  have hwrite : ((s.writeBack y g).setScan { s.scan with todo := rest }).Guarded mid := by
    refine hs.aside (Eq.trans ?_ (s.writeBack_guards y g))
    have hscan : (s.writeBack y g).scan = s.scan := State.takeReports_scan _ _
    simp only [State.guards, State.setScan_scan, hscan]
    rfl
  have hpos' : ((s.writeBack y g).setScan { s.scan with todo := rest }).scan.pos = .line y .commit := hpos
  have hcut : ((s.writeBack y g).setScan { s.scan with todo := rest }).scan.cut = s.scan.cut := rfl
  unfold State.commitWrite
  simp only
  generalize (s.writeBack y g).setScan { s.scan with todo := rest } = u at hwrite hpos' hcut
  have hsoe := hwrite.scan.soe_off (by simp [hpos'])
  split
  · exact hwrite.lanes.lineCommitted hsoe (hwrite.scan.run hpos') y
  · have hlanes := hwrite.lanes.leaveAll (u.justSwept_nodup s)
    have hflight := State.leaveAll_inFlight (u.justSwept_nodup s) (fun i hi => (State.mem_justSwept.1 hi).1.1)
    obtain ⟨c, l, f, h⟩ := u.leaveAll_frame (u.justSwept s)
    rw [h] at hlanes hflight ⊢
    exact ⟨hlanes.aside rfl rfl rfl rfl, hwrite.scan.aside rfl rfl rfl hflight⟩

theorem State.blank_of_atLastBlank (h : s.atLastBlank = true) : ∃ k, s.scan.pos = .blank k := by
  unfold State.atLastBlank at h
  split at h
  · exact ⟨_, ‹_›⟩
  · cases h

/-! ### The sweep -/

theorem State.Guarded.endSweep (hs : s.LanesGuarded mid) (hsoe : s.panel.soe = false) {left : List LaneId}
    (hd : left.Nodup) : (s.endSweep left).Guarded true := by
  have hstop : ((left.foldl State.leaveAbandoning s).setScan .stopped).Guarded mid := by
    have hlanes := hs.leaveAbandonings hd
    obtain ⟨c, l, h⟩ := s.leaveAbandonings_frame left
    rw [h] at hlanes ⊢
    refine State.LanesGuarded.offFrame ?_ hsoe (.inl rfl) rfl
    exact hlanes.aside rfl rfl rfl rfl
  unfold State.endSweep
  simp only
  split
  · exact hstop.flushEnds.testReady
  · exact hstop.flushEnds.triggerReady

theorem State.Guarded.sweepOn (hs : s.LanesGuarded mid) (hsoe : s.panel.soe = false) {y : Nat}
    (hpos : s.scan.pos = .sweep y) (hcut : s.scan.cut = false) {left : List LaneId} (hd : left.Nodup)
    (rest : List LineAccess) : (s.sweepOn left y rest).Guarded true := by
  have hleft := hs.leaveAll hd
  have hgo : ∀ c : Scan, (∃ z, c.pos = .sweep z) → c.cut = false →
      (((s.leaveAll left).setScan c).askScan .sweep).Guarded true := fun c hp hc => by
    obtain ⟨k, l, f, h⟩ := s.leaveAll_frame left
    rw [h] at hleft ⊢
    refine State.Guarded.inEvent (State.LanesGuarded.offFrame (mid := mid) ?_ hsoe (.inr hp) hc)
    exact hleft.aside rfl rfl rfl rfl
  unfold State.sweepOn
  split
  · exact hgo _ ⟨y, hpos⟩ hcut
  · split
    · exact hgo _ ⟨y + 1, rfl⟩ rfl
    · exact .endSweep hs hsoe hd

theorem State.sweepWrite_guards (s : State) (y g : Nat) : (s.sweepWrite y g).guards = s.guards :=
  State.takeReports_guards _ _

theorem State.Guarded.sweepAccess (hs : s.Guarded mid) {y : Nat} (hpos : s.scan.pos = .sweep y) (a : LineAccess)
    (rest : List LineAccess) : (s.sweepAccess y a rest).Guarded true := by
  have hread : ∀ todo, (s.freeMemory.sweepOn [] y todo).Guarded true := fun todo =>
    .sweepOn (s := s.freeMemory) (hs.lanes.aside rfl rfl rfl rfl) (hs.scan.soe_off (by simp [hpos])) hpos
      (hs.scan.uncut (by simp [hpos])) .nil todo
  unfold State.sweepAccess
  split
  · rename_i g
    have hwrite : (s.freeMemory.sweepWrite y g).Guarded mid := hs.aside (State.sweepWrite_guards s.freeMemory y g)
    have hpos' : (s.freeMemory.sweepWrite y g).scan.pos = .sweep y :=
      (congrArg Scan.pos (State.takeReports_scan _ _)).trans hpos
    exact .sweepOn hwrite.lanes (hwrite.scan.soe_off (by simp [hpos'])) hpos' (hwrite.scan.uncut (by simp [hpos']))
      (State.justSwept_nodup _ _) rest
  · exact hread _
  · exact hread _

/-! ### The pixel memory -/

theorem State.nextDrain_guards (s : State) : s.nextDrain.guards = s.guards := by
  obtain ⟨a, h⟩ := s.nextDrain_frame
  rw [h]
  rfl

theorem State.Guarded.drainAccess (hs : s.Guarded false) (e : WriteEntry) : (s.drainAccess e).Guarded false := by
  unfold State.drainAccess
  simp only
  split
  · exact hs.aside rfl
  · have hfall : ((s.freeMemory.setMem (s.mem.drainWrite e s.wb.done)).setWb
        { entries := s.wb.entries.tail, done := 0 }).nextDrain.lowerFences.Guarded false :=
      hs.aside (State.nextDrain_guards _)
    exact hfall.testReady.settle

theorem State.probeReady_guards (s : State) (x y : Nat) : (s.probeReady x y).guards = s.guards := by
  unfold State.probeReady
  split <;> rfl

theorem State.initWrite_guards (s : State) (i : Nat) : (s.initWrite i).guards = s.guards := by
  unfold State.initWrite
  simp only
  split <;> rfl

theorem State.Guarded.initAccess (hs : s.Guarded mid) : s.initAccess.Guarded mid := by
  unfold State.initAccess
  simp only
  split
  · exact hs.aside (s.initWrite_guards _)
  · exact hs.aside ((State.evalTrigger_guards _).trans (s.initWrite_guards _))

/-! ### The owners' answers -/

theorem State.acceptWrite_guards (s : State) (e : WriteEntry) : (s.acceptWrite e).1.guards = s.guards := by
  unfold State.acceptWrite
  split
  · rfl
  · dsimp only [State.doneWith]
    rw [State.joinWrites_eq]
    rfl

theorem handleDraw_guards (p : List Byte) (s : State) : (handleDraw p s).1.guards = s.guards := by
  unfold handleDraw
  simp only
  split
  · rfl
  · exact s.acceptWrite_guards _

theorem handleFill_guards (p : List Byte) (s : State) : (handleFill p s).1.guards = s.guards := by
  unfold handleFill
  split
  · rfl
  · exact s.acceptWrite_guards _

theorem State.accept_guards (s : State) (p : Pending) : (s.accept p).guards = s.guards := by
  unfold State.accept Admission.setFifo
  cases p.cls <;> rfl

theorem State.Guarded.handleUpdate (hs : s.Guarded false) (p : List Byte) : (handleUpdate p s).1.Guarded false := by
  unfold Machine.handleUpdate
  split
  · exact hs
  · simp only
    split
    · exact hs
    · split
      · exact hs
      · exact (hs.aside (s.accept_guards _)).testRise.testReady.settle

/-- A WAITING lane that ends goes to REPORTING. -/
theorem Lane.endWaiting_state (l : Lane) (o : UpdateOutcome) :
    (l.endWaiting o).state = if l.state = .waiting then .reporting else l.state := by
  unfold Lane.endWaiting
  split <;> rfl

/-- WAITING lanes may have ended their updates; the other lanes are as they were. -/
theorem State.Guarded.endWaiting (hs : s.Guarded mid) (o : UpdateOutcome)
    (h : ∀ i, t.lane i = (s.lane i).endWaiting o ∨ t.lane i = s.lane i) (hn : t.notices = s.notices)
    (hp : t.power = s.power) (hpanel : t.panel = s.panel) (hc : t.scan = s.scan)
    (hm : ∀ i, (t.lane i).state = .waiting → t.adm.mode = s.adm.mode) : t.Guarded mid := by
  have hstate : ∀ i, (t.lane i).state = (s.lane i).state ∨ (t.lane i).state = .reporting := fun i => by
    rcases h i with h | h
    · rw [h, Lane.endWaiting_state]
      split
      · exact .inr rfl
      · exact .inl rfl
    · exact .inl (by rw [h])
  have hkept : ∀ i, (s.lane i).state ≠ .waiting → (t.lane i).state = (s.lane i).state := fun i hw => by
    rcases h i with h | h
    · rw [h, Lane.endWaiting_state, if_neg hw]
    · rw [h]
  refine ⟨hs.lanes.reporting hstate hn hp hm, hs.scan.aside hc hpanel (by rw [hp]) fun hf => ?_⟩
  rw [State.lanesInFlight_iff] at hf ⊢
  obtain ⟨i, hi⟩ := hf
  refine ⟨i, ?_⟩
  rw [hkept i (by rcases hi with hi | hi <;> simp [hi])]
  exact hi

theorem State.Guarded.cancelLane (hs : s.Guarded false) (i : LaneId) : (cancelLane s i).1.Guarded false := by
  have hmark : (s.updateLane i (fun l => { l with cancel := true })).Guarded false := by
    refine hs.aside ?_
    have hstate : ∀ j, ((s.updateLane i (fun l => { l with cancel := true })).lane j).state =
        (s.lane j).state := fun j => by
      rw [State.updateLane, State.setLane_lane]
      split
      · rename_i h
        rw [h]
      · rfl
    simp only [State.guards, hstate]
    rfl
  unfold Machine.cancelLane
  split
  · exact hmark
  · exact hmark
  · rename_i hw
    have hend : (s.updateLane i (fun l => l.endWaiting .cancelled)).Guarded false := by
      refine hs.endWaiting .cancelled (fun j => ?_) rfl rfl rfl rfl fun _ _ => rfl
      rw [State.updateLane, State.setLane_lane]
      split
      · rename_i h
        exact .inl (by rw [h])
      · exact .inr rfl
    dsimp only [State.doneWith]
    exact (hend.flushEnds.testReadyIfFreed s).settle
  all_goals exact hs

theorem State.Guarded.handleCancel (hs : s.Guarded false) (p : List Byte) : (handleCancel p s).1.Guarded false := by
  unfold Machine.handleCancel
  simp only
  split
  · dsimp only [State.doneWith]
    refine State.Guarded.settle (mid := false) ?_
    exact hs.aside rfl
  · split
    · exact hs.cancelLane _
    · exact hs

/-- A SHUTDOWN leaves no lane WAITING (R86). -/
theorem State.Guarded.handleShutdown (hs : s.Guarded false) : (handleShutdown s).1.Guarded false := by
  unfold Machine.handleShutdown
  split
  · exact hs
  · have hlane := State.mapLanes_lane
      (s.setAdm { s.adm with mode := .draining }).markAll (fun l => l.endWaiting .partially)
    have hnone : ∀ l : Lane, (l.endWaiting .partially).state ≠ .waiting := fun l => by
      rw [Lane.endWaiting_state]
      split <;> simp_all
    dsimp only
    refine State.Guarded.settle (mid := false) (hs.endWaiting .partially (fun i => .inl (hlane i)) rfl rfl rfl rfl ?_)
    exact fun i hi => absurd hi (hlane i ▸ hnone _)

theorem State.Guarded.handleProbe (hs : s.Guarded false) (p : List Byte) : (handleProbe p s).1.Guarded false := by
  unfold Machine.handleProbe
  simp only
  split
  · exact hs
  · exact hs.aside rfl

theorem State.Guarded.handleTemp (hs : s.Guarded false) (p : List Byte) : (handleTemp p s).1.Guarded false := by
  have h : ∀ {u : State}, u.guards = s.guards → (u.handBand s).settle.Guarded false :=
    fun hu => ((hs.aside hu).handBand s).settle
  unfold Machine.handleTemp State.doneWith
  simp only
  split
  · exact h (State.setBand_guards _ _ _ _)
  · exact h s.clearOverride_guards

theorem State.haltPower_blocks (s : State) : ∃ p, s.haltPower = s.setPower p := by
  unfold State.haltPower
  split <;> exact ⟨_, rfl⟩

theorem State.Guarded.handleHalt (hs : s.Guarded false) : (handleHalt s).1.Guarded false := by
  obtain ⟨p, h⟩ := s.haltPower_blocks
  unfold Machine.handleHalt
  rw [h]
  dsimp only [State.doneWith]
  exact (State.Guarded.abandonLanes (t := (s.setPower p).markAll) hs rfl rfl rfl rfl).settle

theorem State.Guarded.handleClearFault (hs : s.Guarded false) : (handleClearFault s).1.Guarded false := by
  unfold Machine.handleClearFault
  split
  · rename_i hfault
    have hoff : s.enterOff.Guarded false := hs.setPower_of_off (by simp [hfault]) (.inl rfl) false
    obtain ⟨c, f, h⟩ := s.enterOff.clearFailed_frame
    have hclear : s.enterOff.clearFailed.Guarded false := by
      rw [h]
      exact hoff.aside rfl
    exact hclear.testRise.settle
  · exact hs

theorem State.Guarded.handleFetch (hs : s.Guarded false) : (handleFetch s).1.Guarded false := by
  unfold Machine.handleFetch
  split
  · exact hs
  · rename_i n rest h
    have hq : (s.setNotices { s.notices with queue := rest }).Guarded false := hs.aside rfl
    dsimp only [State.doneWith]
    exact ((hq.takeWaiting 64).testReadyIfFreed s).settle

theorem State.Guarded.ownerAnswer (hs : s.Guarded false) (k : RequestKind) (p : List Byte) :
    (ownerAnswer k p s).1.Guarded false := by
  cases k with
  | draw => exact hs.aside (handleDraw_guards p s)
  | fill => exact hs.aside (handleFill_guards p s)
  | update => exact hs.handleUpdate p
  | cancel => exact hs.handleCancel p
  | probe => exact hs.handleProbe p
  | temp => exact hs.handleTemp p
  | setLimits => exact hs.aside rfl
  | setThermal => exact hs.aside rfl
  | setPower => exact hs.aside rfl
  | shutdown => exact hs.handleShutdown
  | halt => exact hs.handleHalt
  | clearFault => exact hs.handleClearFault
  | fetch => exact hs.handleFetch
  | status => exact hs

/-! ### The link -/

theorem State.Guarded.takeWhole (hs : s.Guarded false) (kind tag : Byte) (p : List Byte) (check : Word) :
    (s.takeWhole kind tag p check).Guarded false := by
  unfold State.takeWhole
  split
  · exact hs.aside rfl
  · unfold State.dispatch
    split
    · exact hs.aside rfl
    · exact (hs.ownerAnswer _ p).aside rfl

theorem State.Guarded.takeRequest (hs : s.Guarded false) (k : RequestKind) (tag : Byte) (p : List Byte) (check : Word) :
    (s.takeRequest k tag p check).Guarded false := by
  unfold State.takeRequest
  split
  · split
    · exact hs.aside rfl
    · exact (hs.takeWhole _ tag p check).arbitrate
  · exact hs

theorem State.malformed_guards (s : State) (frame : List Byte) :
    (((s.malformedAnswer frame).map State.arbitrate).getD s).guards = s.guards := by
  cases h : s.malformedAnswer frame with
  | none => rfl
  | some t =>
    obtain ⟨kind, tag, c, rfl⟩ := State.malformedAnswer_cases h
    rfl

theorem State.Guarded.takeByte (hs : s.Guarded false) (b : Byte) : (s.takeByte b).Guarded false := by
  unfold State.takeByte
  split
  · unfold State.receiveByte
    simp only
    split
    · exact hs.aside rfl
    · exact hs.aside rfl
    · exact (hs.takeWhole _ _ _ _).arbitrate
    · exact hs.aside rfl
    · exact hs.aside rfl
  · split
    · exact hs.aside rfl
    · exact hs
  · exact hs.aside rfl
  all_goals exact hs

theorem State.select_guards (s : State) : s.select.guards = s.guards := by
  unfold State.select
  split <;> rfl

theorem State.deselect_guards (s : State) : s.deselect.guards = s.guards := by
  unfold State.deselect
  split <;> rfl

/-! ### Every command -/

/-- A reset leaves no lane, no frame and no output. -/
theorem State.assertReset_guarded (s : State) : s.assertReset.Guarded false :=
  State.Guarded.aside (s := State.reset) (State.railsGuarded_iff.1 (by decide)) rfl

theorem exec_guarded {c : Instr} (hs : s.Guarded false) (h : exec c s = .next t) : t.Guarded false := by
  cases c
  case reset => cases h; exact s.assertReset_guarded
  case resetRelease => cases h; split; exacts [hs.aside rfl, hs]
  case select => cases h; exact hs.aside s.select_guards
  case deselect => cases h; exact hs.aside s.deselect_guards
  case malformedRequest frame => cases h; split; exacts [hs.aside (s.malformed_guards frame), hs]
  case byteBoundary b => cases h; exact hs.takeByte b
  case drainAccessComplete => cases h; split; exacts [(hs.drainAccess _).arbitrateAfter _, hs]
  case probeAccessComplete =>
    cases h; split
    · refine State.Guarded.arbitrateAfter (hs.aside ?_) _
      split
      · exact s.probeReady_guards _ _
      · rfl
    · exact hs
  case initWriteComplete => cases h; split; exacts [hs.initAccess, hs]
  case flashAccessComplete => cases h; split; exacts [(hs.flashDelivery _).settled, hs]
  case linePeriodExpiry => cases h; split; exacts [hs.periodOver.arbitrate, hs]
  case scanReadComplete =>
    cases h; split
    · exact (hs.aside s.discardedRead_guards).arbitrateAfter _
    · split
      · rename_i hpos _
        exact (hs.lineRead hpos _ _).arbitrateAfter _
      · exact hs
    · exact hs
  case outputWindowEnd =>
    cases h; split
    · rename_i y hpos
      have hrun := hs.scan.run hpos
      refine State.Guarded.arbitrate (State.LanesGuarded.beginCommit ?_ rfl (by exact hrun) y)
      exact hs.lanes.aside rfl rfl rfl rfl
    · exact hs
  case commitWriteComplete =>
    cases h; split
    · rename_i hpos _
      exact (hs.commitWrite hpos _ _).settle.arbitrateAfter _
    · exact hs
  case frameBoundary =>
    cases h; split
    · rename_i hlast
      obtain ⟨k, hpos⟩ := State.blank_of_atLastBlank hlast
      have hsoe := hs.scan.soe_off (by simp [hpos])
      obtain ⟨hon, -⟩ := hs.scan.frame (by simp [hpos]) (by simp [hpos]) (hs.scan.uncut (by simp [hpos]))
      exact ((hs.lanes.boundaryWork hon).continueFrames (s.boundaryWork_kept.panel ▸ hsoe)).settled
    · exact hs
  case sweepAccessComplete =>
    cases h; split
    · rename_i hpos _
      exact (hs.sweepAccess hpos _ _).settle.arbitrateAfter _
    · exact hs
  case sampleTimerExpiry => cases h; split; exacts [hs.aside rfl, hs]
  case conversionComplete => cases h; split; exacts [hs.conversion _, hs]
  case railGoodChange => cases h; split; exacts [hs, hs.railChange _ _ _]
  case glitchFilterExpiry => cases h; split; exacts [(hs.lineFiltered _ _).settled, hs]
  case blankIntervalEnd =>
    cases h; split
    · rename_i hk _
      exact hs.blankEnd hk _
    · exact hs
  case stageDelayExpiry =>
    cases h; split
    · rename_i hk
      split
      · exact (hs.endStage (by simp [hk]) _).settled
      · exact hs
    · exact hs
  case stageTimeout =>
    cases h; split
    · rename_i hk _
      exact hs.stageTimedOut hk
    · exact hs
  case fallDelayExpiry =>
    cases h; split
    · rename_i hk
      exact hs.fallDelayOver hk
    · exact hs
  case idleHoldExpiry =>
    cases h; split
    · rename_i hidle
      exact hs.idleHoldExpiry (Option.isSome_iff_ne_none.1 (Bool.and_eq_true_iff.1 hidle).2) _
    · exact hs
  case flashSetupEnd => cases h; split; exacts [hs.aside rfl, hs]
  case flashStrobeEnd =>
    cases h; split
    · split <;> exact hs.aside rfl
    · exact hs
  case fwaitInactive => cases h; split; exacts [hs.aside rfl, hs]
  case flashWaitTimeout => cases h; split; exacts [hs.aside rfl, hs]
  case shiftEnd =>
    cases h; split
    · rename_i hpos
      exact hs.openWindow hpos
    · exact hs
  all_goals cases h; exact hs.takeRequest _ _ _ _

end Commands

/-! ### The obligation -/

/-- Settles O58: every command keeps the two halves of the law, and by the second the outputs are enabled only in the
output window of a frame with the rails ON. -/
theorem noDriveWithoutRails : Obligations.NoDriveWithoutRails := by
  unfold Obligations.NoDriveWithoutRails
  refine ⟨fun s t hs h => ?_, fun s x hs hx => ?_⟩
  · rw [State.railsGuarded_iff] at hs ⊢
    unfold step at h
    split at h
    · cases h
      exact hs
    · rename_i rest _
      exact exec_guarded (s := s.setPending rest) (hs.aside rfl) h
  · have hsoe : s.panel.soe = true := by
      by_contra hno
      exact hx (if_neg hno)
    obtain ⟨-, hscan⟩ := State.railsGuarded_iff.1 hs
    obtain ⟨⟨y, hpos⟩, hcut⟩ := hscan.window hsoe
    exact (hscan.run hpos hcut).1

end Sys2Proof.Machine
end

