-- ==== Sys2Proof/Proofs/LinePeriods.lean ====
section
/-! The periods of a frame (chapter 6): what begins at the end of a line's period, which segments a line reads and
writes, and the output window (O37, O39). -/

namespace Sys2Proof.Machine

section Segments

variable {columns y g : Nat} {vs : List ArmingView}

theorem lt_segments : g < segments columns ↔ g * 256 < columns := by
  unfold segments ceilDiv Config.segment
  omega

/-- A segment is read for its drafts, or written, when an ARMING lane's region holds one of its pixels (R101, R104). -/
theorem regionCovers_iff (hr : ∀ v ∈ vs, v.region.x0 ≤ v.region.x1) (hg : g < segments columns) :
    regionCovers columns y g vs = true ↔ ∃ v ∈ vs, ∃ x, x < columns ∧ x / 256 = g ∧ v.region.holds x y = true := by
  rw [lt_segments] at hg
  simp only [regionCovers, List.any_eq_true, Bool.and_eq_true, decide_eq_true_eq, Rect.holds]
  simp only [Config.segment]
  constructor
  · rintro ⟨v, hv, ⟨⟨hy0, hy1⟩, hx0⟩, hx1⟩
    have hwide := hr v hv
    exact ⟨v, hv, max v.region.x0 (g * 256), by omega, by omega, ⟨⟨by omega, by omega⟩, hy0⟩, hy1⟩
  · rintro ⟨v, hv, x, hx, hxg, ⟨⟨hx0, hx1⟩, hy0⟩, hy1⟩
    exact ⟨v, hv, ⟨⟨hy0, hy1⟩, by omega⟩, by omega⟩

/-- A pixel of the panel lies in a segment of it. -/
theorem segment_lt {x : Nat} (hx : x < columns) (hg : x / 256 = g) : g < segments columns := by
  rw [lt_segments]
  omega

theorem pairwise_filter_range (n : Nat) (p : Nat → Bool) : ((List.range n).filter p).Pairwise (· < ·) :=
  List.pairwise_lt_range.filter _

/-- The change of a segment's cells is the change of one of them (R104). -/
theorem Scan.changed_iff {c : Scan} : c.changed g = true ↔
    ∃ x o w, x / 256 = g ∧ c.cells[x]? = some o ∧ c.work[x]? = some w ∧ w.cell ≠ o := by
  simp only [Scan.changed, Config.segment, List.any_eq_true, List.mem_iff_getElem?, List.getElem?_take,
    List.getElem?_drop, Prod.exists, ne_eq, decide_eq_true_eq]
  constructor
  · rintro ⟨o, w, ⟨i, hi⟩, hne⟩
    split at hi
    · obtain ⟨ho, hw⟩ := List.getElem?_zip_eq_some.1 hi
      exact ⟨g * 256 + i, o, w, by omega, ho, hw, fun h => hne h.symm⟩
    · cases hi
  · rintro ⟨x, o, w, hx, ho, hw, hne⟩
    refine ⟨o, w, ⟨x - g * 256, ?_⟩, fun h => hne h.symm⟩
    rw [if_pos (by omega), show g * 256 + (x - g * 256) = x by omega]
    exact List.getElem?_zip_eq_some.2 ⟨ho, hw⟩

end Segments

section Periods

variable {s : State} {y k : Nat}

/-- The next line's period begins (R100, R106). -/
theorem State.nextPeriod_line (h : y + 1 < s.panelLines) : s.nextPeriod y = { s with
    panel := { s.panel with gstart := false, gate := .line (y + 1) }
    scan := { s.scan with
      pos := .line (y + 1) .reading, todo := lineReads s.columns (y + 1) s.scan.arming, cells := []
      drafts := [], work := [], lineTimer := some (linePeriod s.hdr), windowTimer := none }
    arb := { s.arb with scan := some (.scanRead false) } } := by
  rw [State.nextPeriod, if_pos h, State.beginLine]
  rfl

/-- The first blank line's period begins (R106). -/
theorem State.nextPeriod_blank (h : s.panelLines ≤ y + 1) : s.nextPeriod y = { s with
    panel := { s.panel with gstart := false, gate := .beyond }
    scan := { s.scan with
      pos := .blank 0, todo := [], cells := [], drafts := [], work := []
      lineTimer := some (linePeriod s.hdr), windowTimer := none } } := by
  rw [State.nextPeriod, if_neg (Nat.not_lt.2 h)]
  rfl

theorem exec_linePeriodExpiry (h : s.scan.lineTimer ≠ none) :
    exec .linePeriodExpiry s = .next s.periodOver.arbitrate := by
  have hsome : s.scan.lineTimer.isSome = true := Option.isSome_iff_ne_none.2 h
  rw [show exec .linePeriodExpiry s = execLinePeriodExpiry s from rfl, execLinePeriodExpiry, if_pos hsome]

theorem State.periodOver_committed (h : s.scan.pos = .line y .committed) : s.periodOver = s.nextPeriod y := by
  unfold State.periodOver
  rw [h]

theorem State.periodOver_working {ph : LinePhase} (h : s.scan.pos = .line y ph) (hc : ph ≠ .committed) :
    s.periodOver = s.setScan { s.scan with lineTimer := none } := by
  unfold State.periodOver
  rw [h]
  cases ph with
  | committed => exact absurd rfl hc
  | _ => rfl

theorem State.periodOver_blank (h : s.scan.pos = .blank k) (hk : k + 1 < s.hdr.blankLines) :
    s.periodOver = s.beginBlank (k + 1) := by
  unfold State.periodOver
  rw [h]
  exact if_pos hk

end Periods

/-- Settles O37, by the three positions of the scan engine in a frame, and by the segments an ARMING lane's region
touches. -/
theorem linePeriodsFollow : Obligations.LinePeriodsFollow := by
  unfold Obligations.LinePeriodsFollow
  refine ⟨fun s y hpos ht => ⟨fun hy => ?_, fun hy => ?_⟩, fun s y ph hpos hc ht => ?_, fun s k hpos ht hk => ?_,
    fun columns y vs hr => ?_⟩
  · rw [exec_linePeriodExpiry ht, State.periodOver_committed hpos, State.nextPeriod_line hy]
    rfl
  · rw [exec_linePeriodExpiry ht, State.periodOver_committed hpos, State.nextPeriod_blank hy.ge]
    rfl
  · rw [exec_linePeriodExpiry ht, State.periodOver_working hpos hc]
    rfl
  · rw [exec_linePeriodExpiry ht, State.periodOver_blank hpos hk]
    rfl
  · refine ⟨(List.range (segments columns)).filter (fun g => regionCovers columns y g vs), rfl,
      pairwise_filter_range _ _, fun g => ?_⟩
    rw [List.mem_filter, List.mem_range]
    constructor
    · exact fun ⟨hg, hcov⟩ => (regionCovers_iff hr hg).1 hcov
    · rintro ⟨v, hv, x, hx, hxg, hh⟩
      have hg := segment_lt hx hxg
      exact ⟨hg, (regionCovers_iff hr hg).2 ⟨v, hv, x, hx, hxg, hh⟩⟩

section Window

variable {s : State} {y : Nat}

/-- A commit that is not cut and whose line period is over gives way to the next period (R100). -/
theorem State.lineCommitted_late (hcut : s.scan.cut = false) (ht : s.scan.lineTimer = none) :
    s.lineCommitted y = s.nextPeriod y := by
  rw [State.lineCommitted, hcut, ht]
  rfl

/-- A commit that is not cut and complete in time waits for its line period's end (R104). -/
theorem State.lineCommitted_inTime (hcut : s.scan.cut = false) (ht : s.scan.lineTimer ≠ none) :
    s.lineCommitted y = s.setScan { s.scan with pos := .line y .committed, todo := [] } := by
  rw [State.lineCommitted, hcut, Option.isNone_eq_false_iff.2 (Option.isSome_iff_ne_none.2 ht)]
  rfl

/-- A commit with no segment to write is complete at once (R104). -/
theorem State.beginCommit_none (h : commitWrites s.columns y s.scan = []) : s.beginCommit y =
    (s.setScan { s.scan with pos := .line y .commit, todo := [], windowTimer := none }).lineCommitted y := by
  simp only [State.beginCommit, h, List.isEmpty_nil, if_true]

theorem State.beginCommit_some (h : commitWrites s.columns y s.scan ≠ []) : s.beginCommit y =
    (s.setScan { s.scan with
      pos := .line y .commit, todo := commitWrites s.columns y s.scan, windowTimer := none }).askScan .commit := by
  simp only [State.beginCommit, List.isEmpty_eq_false_iff.2 h, Bool.false_eq_true, if_false]

theorem exec_shiftEnd (h : s.scan.pos = .line y .shifting) : exec .shiftEnd s = .next (s.openWindow y) := by
  rw [show exec .shiftEnd s = execShiftEnd s from rfl, execShiftEnd, h]

/-- The outputs are disabled (R96). -/
def State.closeWindow (s : State) : State := s.setPanel { s.panel with soe := false, goe := false }

theorem exec_outputWindowEnd (h : s.scan.pos = .line y .window) : exec .outputWindowEnd s =
    .next (s.closeWindow.beginCommit y).arbitrate := by
  rw [show exec .outputWindowEnd s = execOutputWindowEnd s from rfl, execOutputWindowEnd, h]
  rfl

end Window

/-- Settles O39, by the commit that the window's end begins: empty and late, with segments to write, or empty and in
time; and by the segments it writes. -/
theorem windowOpensAndCloses : Obligations.WindowOpensAndCloses := by
  unfold Obligations.WindowOpensAndCloses
  refine ⟨fun s y hpos => exec_shiftEnd hpos, fun s y hpos => ?_, fun columns y c hlen hr => ?_⟩
  · rw [exec_outputWindowEnd hpos]
    refine ⟨fun hnone hcut ht => ?_, fun hsome => ?_, fun hnone hcut ht => ?_⟩
    · rw [State.beginCommit_none (s := s.closeWindow) hnone, State.lineCommitted_late (by exact hcut) (by exact ht)]
      refine ⟨fun hy => ?_, fun hy => ?_⟩
      · rw [State.nextPeriod_line (by exact hy)]
        rfl
      · rw [State.nextPeriod_blank (by exact hy.ge)]
        rfl
    · rw [State.beginCommit_some (s := s.closeWindow) hsome]
      rfl
    · rw [State.beginCommit_none (s := s.closeWindow) hnone, State.lineCommitted_inTime (by exact hcut) (by exact ht)]
      rfl
  · refine ⟨(List.range (segments columns)).filter (fun g => c.changed g || regionCovers columns y g c.arming), rfl,
      pairwise_filter_range _ _, fun g => ?_⟩
    rw [List.mem_filter, List.mem_range, Bool.or_eq_true, Scan.changed_iff]
    constructor
    · rintro ⟨hg, h | h⟩
      · exact .inl h
      · exact .inr ((regionCovers_iff hr hg).1 h)
    · rintro (⟨x, o, w, hx, ho, hw⟩ | ⟨v, hv, x, hx, hxg, hh⟩)
      · obtain ⟨hlt, -⟩ := List.getElem?_eq_some_iff.1 ho
        exact ⟨segment_lt (hlt.trans_le hlen) hx, .inl ⟨x, o, w, hx, ho, hw⟩⟩
      · have hg := segment_lt hx hxg
        exact ⟨hg, .inr ((regionCovers_iff hr hg).2 ⟨v, hv, x, hx, hxg, hh⟩)⟩

end Sys2Proof.Machine
end

