-- ==== Sys2Proof/Proofs/LinePreparation.lean ====
section
/-! The reads of a line and the computation of its cells (chapter 6): drive, completion, and the arming tests in the
lane set's order (O38). -/

namespace Sys2Proof.Machine

/-! ### The drive step (R20, R45, R46) -/

theorem State.driveStep_unowned (s : State) {c : Cell} (h : c.owner = none) :
    s.driveStep c = { cell := c, drive := .none, reports := [] } := by
  unfold State.driveStep
  rw [h]

theorem driveBalance_eq (b : Int) (d : Drive) : driveBalance b d = max (-511) (min 511 (b + d.value)) := rfl

/-- A cell of a DRIVING lane before the last step of its kind. -/
theorem State.driveStep_driven {s : State} {c : Cell} {o : LaneId} {v : DrivingView} (ho : c.owner = some o)
    (hv : s.scan.driving.find? (fun v => v.lane = o) = some v)
    (hlast : v.step + 1 ≠ (s.cache.slot v.slot).frameCount c.kind) :
    s.driveStep c = {
      cell := { c with
        balance := driveBalance c.balance ((s.cache.slot v.slot).lookup c.kind c.level c.goal v.step) }
      drive := (s.cache.slot v.slot).lookup c.kind c.level c.goal v.step, reports := [] } := by
  simp only [State.driveStep, ho, hv, driveCell, if_neg hlast, Bool.false_eq_true, if_false]

/-- A cell of a DRIVING lane at the last step of its kind. -/
theorem State.driveStep_completed {s : State} {c : Cell} {o : LaneId} {v : DrivingView} (ho : c.owner = some o)
    (hv : s.scan.driving.find? (fun v => v.lane = o) = some v)
    (hlast : v.step + 1 = (s.cache.slot v.slot).frameCount c.kind) :
    s.driveStep c = {
      cell := completeCell s.hdr { c with
        balance := driveBalance c.balance ((s.cache.slot v.slot).lookup c.kind c.level c.goal v.step) }
      drive := (s.cache.slot v.slot).lookup c.kind c.level c.goal v.step, reports := [.completed o] } := by
  simp only [State.driveStep, ho, hv, driveCell, if_pos hlast, if_true]

/-! ### The arming tests of a cell (R103) -/

/-- The arming tests of one lane that covers the cell at (x, y). -/
def State.armTest (s : State) (x y : Nat) (d : Level) (w : CellWork) (v : ArmingView) : CellWork :=
  let (c, r) := armCell v (s.scan.limits.getD { residue := 1, balance := 1 }) (s.cache.slot v.slot) x y d w.cell
  { w with cell := c, reports := w.reports ++ r.toList }

/-- A cell is tested for the ARMING lanes that cover it, in the lane set's order. -/
theorem State.computeCell_eq (s : State) (x y : Nat) (d : Level) (c : Cell) : s.computeCell x y d c =
    (s.scan.arming.filter (fun v => v.region.holds x y)).foldl (s.armTest x y d) (s.driveStep c) := by
  rw [List.foldl_filter]
  rfl

theorem armCell_owner {v : ArmingView} {lim : Limits} {sl : Slot} {x y : Nat} {d : Level} {c cell : Cell} {r : Report}
    (ho : c.owner = none) (h : armCell v lim sl x y d c = (cell, some r)) : cell.owner = some v.lane := by
  cases ha : armsCell v.mode (effectiveGoal v.mode d) c with
  | false =>
    rw [armCell_unarmed ho ha] at h
    cases (Prod.mk.inj h).2
  | true =>
    rw [armCell_armed ho ha] at h
    rw [← (Prod.mk.inj h).1]

section Tests

variable {s : State} {x y : Nat} {d : Level} {w : CellWork} {lim : Limits}

/-- A cell still owned is a leftover for every lane that covers it. -/
theorem State.armTests_owned {o : LaneId} (vs : List ArmingView) : ∀ {w : CellWork}, w.cell.owner = some o →
    vs.foldl (s.armTest x y d) w =
      { w with reports := w.reports ++ vs.map (fun v => .leftover v.lane x y o) } := by
  induction vs with
  | nil => exact fun _ => by simp
  | cons v vs ih =>
    intro w ho
    have hone : s.armTest x y d w v = { w with reports := w.reports ++ [.leftover v.lane x y o] } := by
      simp only [State.armTest, armCell_owned ho, Option.toList]
    rw [List.foldl_cons, hone, ih (by exact ho)]
    simp

/-- Lanes that do not arm the cell leave it. -/
theorem State.armTests_unarmed (hl : s.scan.limits = some lim) (vs : List ArmingView)
    (h : ∀ v ∈ vs, armCell v lim (s.cache.slot v.slot) x y d w.cell = (w.cell, none)) :
    vs.foldl (s.armTest x y d) w = w := by
  induction vs with
  | nil => rfl
  | cons v vs ih =>
    obtain ⟨hv, h⟩ := List.forall_mem_cons.1 h
    have hone : s.armTest x y d w v = w := by
      simp only [State.armTest, hl, Option.getD_some, hv, Option.toList, List.append_nil]
    rw [List.foldl_cons, hone, ih h]

/-- The first lane that arms the cell owns it, and is the blocker of every later one. -/
theorem State.armTests_armed (hl : s.scan.limits = some lim) (ho : w.cell.owner = none) {before after : List ArmingView}
    {v : ArmingView} {cell : Cell} {report : Report}
    (hb : ∀ u ∈ before, armCell u lim (s.cache.slot u.slot) x y d w.cell = (w.cell, none))
    (hv : armCell v lim (s.cache.slot v.slot) x y d w.cell = (cell, some report)) :
    (before ++ v :: after).foldl (s.armTest x y d) w =
      { cell := cell, drive := w.drive
        reports := w.reports ++ report :: after.map (fun u => .leftover u.lane x y v.lane) } := by
  have hone : s.armTest x y d w v = { cell := cell, drive := w.drive, reports := w.reports ++ [report] } := by
    simp only [State.armTest, hl, Option.getD_some, hv, Option.toList]
  rw [List.foldl_append, State.armTests_unarmed hl before hb, List.foldl_cons, hone,
    State.armTests_owned after (armCell_owner ho hv)]
  simp

end Tests

/-! ### The line (R101, R102) -/

theorem State.computeFrom_length (s : State) (y : Nat) : ∀ (x : Nat) (cs : List Cell),
    (s.computeFrom y x cs).length = cs.length
  | _, [] => rfl
  | x, _ :: cs => congrArg (· + 1) (State.computeFrom_length s y (x + 1) cs)

/-- Column `x0 + i` holds the computation of the `i`-th cell. -/
theorem State.computeFrom_getElem (s : State) (y : Nat) {c : Cell} : ∀ (x0 i : Nat) (cs : List Cell), cs[i]? = some c →
    (s.computeFrom y x0 cs)[i]? = some (s.computeCell (x0 + i) y (draftRead s.scan.drafts (x0 + i)) c)
  | _, _, [], h => by simp at h
  | x0, 0, _ :: _, h => by
    rw [List.getElem?_cons_zero] at h
    rw [State.computeFrom, List.getElem?_cons_zero, Option.some.inj h]
    rfl
  | x0, i + 1, _ :: cs, h => by
    rw [List.getElem?_cons_succ] at h
    rw [State.computeFrom, List.getElem?_cons_succ, State.computeFrom_getElem s y (x0 + 1) i cs h, Nat.add_assoc,
      Nat.add_comm 1 i]

/-- A read keeps the frame's lane set and limits. -/
theorem State.capture_laneSet (s : State) (y : Nat) (a : LineAccess) : (s.capture y a).arming = s.scan.arming ∧
    (s.capture y a).driving = s.scan.driving ∧ (s.capture y a).limits = s.scan.limits := by
  cases a <;> exact ⟨rfl, rfl, rfl⟩

section Reads

variable {s : State} {y : Nat} {a : LineAccess} {rest : List LineAccess}

theorem exec_scanReadComplete (hr : s.arb.running = some (.scanRead false)) (hp : s.scan.pos = .line y .reading)
    (ht : s.scan.todo = a :: rest) : exec .scanReadComplete s = .next ((s.lineRead y a rest).arbitrateAfter s.arb) := by
  rw [show exec .scanReadComplete s = execScanReadComplete s from rfl, execScanReadComplete, hr, hp, ht]

/-- The read is kept and the next is asked for (R101). -/
theorem State.lineRead_more (h : rest ≠ []) : s.lineRead y a rest =
    (s.freeMemory.setScan { s.capture y a with todo := rest }).askScan (.scanRead false) := by
  simp only [State.lineRead, List.isEmpty_eq_false_iff.2 h, Bool.false_eq_true, if_false]

/-- The computation of a cell reads the cache, the header and the frame's lane set and limits. -/
theorem State.computeCell_congr {t : State} (hc : t.cache = s.cache) (hh : t.hdr = s.hdr)
    (ha : t.scan.arming = s.scan.arming) (hd : t.scan.driving = s.scan.driving) (hl : t.scan.limits = s.scan.limits)
    (x y : Nat) (d : Level) (c : Cell) : t.computeCell x y d c = s.computeCell x y d c := by
  have harm : t.armStep x y d = s.armStep x y d := by
    funext w v
    simp only [State.armStep, hc, hl]
  have hdrive : t.driveStep c = s.driveStep c := by
    simp only [State.driveStep, hc, hh, hd]
  rw [State.computeCell, State.computeCell, harm, hdrive, ha]

/-- What the computation of the line holds for column `x`, in terms of the part before its last read. -/
theorem State.prepared_work {x : Nat} {c : Cell} (h : (s.capture y a).cells[x]? = some c) :
    (s.lineRead y a []).scan.work[x]? = some (s.computeCell x y (draftRead (s.capture y a).drafts x) c) := by
  have hwork := State.computeFrom_getElem (s.freeMemory.setScan { s.capture y a with todo := [] }) y 0 x _ h
  obtain ⟨harm, hdriving, hlim⟩ := s.capture_laneSet y a
  have hcell := State.computeCell_congr (s := s) (t := s.freeMemory.setScan { s.capture y a with todo := [] }) rfl rfl
    harm hdriving hlim
  rw [Nat.zero_add, hcell] at hwork
  exact hwork

end Reads

/-- Settles O38: a read before the last is kept; after the last one each cell is driven, and then tested for the lanes
that cover it, owned, or unowned until one arms it. -/
theorem lineIsPrepared : Obligations.LineIsPrepared := by
  unfold Obligations.LineIsPrepared
  refine ⟨fun s y g a rest hr hp ht hmore => ?_, fun s y a h hr hp ht hh => ?_⟩
  · have hexec := exec_scanReadComplete hr hp ht
    rw [State.lineRead_more hmore] at hexec
    have hask := State.arbitrateAfter_scan (x := .scanRead false)
      (s := (s.freeMemory.setScan { s.capture y a with todo := rest }).askScan (.scanRead false)) rfl s.arb
    obtain ⟨b, n, hframe⟩ := ((s.freeMemory.setScan { s.capture y a with todo := rest }).askScan
      (.scanRead false)).arbitrateAfter_frame s.arb
    refine ⟨_, hexec, ?_, hask, fun ha => ?_, fun ha => ?_⟩
    · rw [hframe]
      rfl
    · rw [hframe, ha]
      rfl
    · rw [hframe, ha]
      rfl
  · obtain ⟨b, n, hframe⟩ := (s.lineRead y a []).arbitrateAfter_frame s.arb
    have hscan : ((s.lineRead y a []).arbitrateAfter s.arb).scan = (s.lineRead y a []).scan := by rw [hframe]
    refine ⟨_, exec_scanReadComplete hr hp ht, ?_, ?_, ?_, ?_, fun c ho => s.driveStep_unowned ho, ?_, ?_⟩
    · rw [hframe]
      rfl
    · rw [hscan]
      rfl
    · rw [hscan]
      rfl
    · rw [hscan]
      exact State.computeFrom_length _ y 0 _
    · intro c o v sl d bal ho hv hsl hd hbal
      subst hsl hd hbal
      refine ⟨fun hlast => ?_, fun hlast => ?_⟩
      · rw [State.driveStep_driven ho hv hlast, driveBalance_eq]
      · rw [State.driveStep_completed ho hv hlast, driveBalance_eq, hh]
        cases c with
        | mk level goal owner kind balance residue => cases kind <;> rfl
    · intro x c d w covering hc hd hw hcov
      have hwork := State.prepared_work (s := s) (y := y) (a := a) hc
      rw [State.computeCell_eq, ← hd, ← hw, ← hcov] at hwork
      rw [hscan, hwork]
      refine ⟨fun hnone => by rw [hnone]; rfl, fun o ho => by rw [State.armTests_owned _ ho], fun lim ho hl =>
        ⟨fun hall => by rw [State.armTests_unarmed hl _ hall], ?_⟩⟩
      intro before v after cell report hsplit hb hv
      rw [hsplit, State.armTests_armed hl ho hb hv]

end Sys2Proof.Machine
end

