-- ==== Sys2Proof/Proofs/LeavingEvents.lean ====
section
/-! SUPPORT. The end of an event in which lanes have left ABANDONING (R89) or reports have reached the lanes (R4): which
submissions it makes, and that nothing else is left over in it. -/

namespace Sys2Proof.Machine

theorem State.lane_of_lanes {s t : State} (h : t.lanes = s.lanes) {i : LaneId} : t.lane i = s.lane i := by
  rw [State.lane, State.lane, h]

theorem Lane.left_state (l : Lane) : l.left.state = .reporting := rfl

theorem Lane.without_state (l : Lane) (is : List LaneId) : (l.without is).state = l.state := rfl

theorem Lane.without_unblocked (l : Lane) (is : List LaneId) :
    { l.without is with blockers := [] } = { l with blockers := [] } := rfl

/-! ### Reports and what an event leaves over -/

/-- Reports change the lanes and read the lanes alone. -/
theorem State.takeReports_lanes (rs : List Report) : ∀ {s t : State}, t.lanes = s.lanes →
    (t.takeReports rs).lanes = (s.takeReports rs).lanes := by
  induction rs with
  | nil => exact fun h => h
  | cons r rs ih =>
    intro s t h
    refine ih (s := s.takeReport r) (t := t.takeReport r) ?_
    simp only [State.takeReport, State.updateLane, State.setLane, State.setLanes, State.lane, h]

/-- An event leaves as much over as before when no lane changes its state. -/
theorem State.quiet_of_states {s t : State} (hl : ∀ i, (t.lane i).state = (s.lane i).state) (ha : t.adm = s.adm)
    (hn : t.notices = s.notices) (hp : t.power = s.power) (hq : s.quiet = true) : t.quiet = true := by
  have hrise : t.riseRequest = s.riseRequest := by simp only [State.riseRequest, ha]
  have hidle : t.idle = s.idle := by simp only [State.idle, State.laneActivity, hl, hrise]
  have hdue : t.submissionsDue = [] ↔ s.submissionsDue = [] := by
    simp only [State.submissionsDue_eq_nil, hl, hn, ha]
  have hpower : t.powerQuiet = s.powerQuiet := by
    simp only [State.powerQuiet, hp, ha, hidle, State.lanesInFlight, hl]
  have hfree : t.allFree = s.allFree := by simp only [State.allFree, hl]
  unfold State.quiet at hq ⊢
  rw [hpower, hfree, hp, ha]
  simpa only [Bool.and_eq_true, List.isEmpty_iff, hdue] using hq

/-- Panel, scan engine and arbiter have no part in it. -/
theorem State.quiet_aside {s : State} (hq : s.quiet = true) (p : Panel) (c : Scan) (a : Arbiter) :
    State.quiet { s with panel := p, scan := c, arb := a } = true := hq

/-! ### Lanes that have left ABANDONING -/

/-- An event has led from `s` to `c`: the lanes `is` have left ABANDONING, the others are in the states they were in,
and the event's submissions are still to be made. -/
structure State.LanesLeft (s c : State) (is : List LaneId) : Prop where
  notices : c.notices = s.notices
  adm : c.adm = s.adm
  power : c.power = s.power
  kept : ∀ i, i ∉ is → (c.lane i).state = (s.lane i).state
  gone : ∀ i ∈ is, (s.lane i).state = .abandoning ∧ (c.lane i).state = .reporting

section Leaving

variable {s c : State} {is : List LaneId} (hq : s.quiet = true) (h : s.LanesLeft c is)

include hq h

theorem State.LanesLeft.silent : c.admissionSilent := by
  rw [State.admissionSilent, h.notices, h.adm]
  exact State.quiet_admissionSilent hq

/-- The lanes that have left have their submissions due, unless they wait already. -/
theorem State.LanesLeft.mem_due {i : LaneId} : i ∈ c.lanesDue ↔ i ∈ is ∧ Submitter.lane i ∉ s.notices.waiting := by
  rw [State.mem_lanesDue, h.notices]
  refine and_congr_left fun hw => ⟨fun hr => ?_, fun hi => (h.gone i hi).2⟩
  by_contra hi
  rw [h.kept i hi] at hr
  exact hw ((s.submissionsDue_eq_nil.1 (State.quiet_due hq)).1 i hr)

/-- A lane that has not left stays as it is. -/
theorem State.LanesLeft.lane_kept {i : LaneId} (hi : i ∉ is) : c.flushEnds.lane i = c.lane i := by
  obtain ⟨ds, ws, hended⟩ := State.flushEnds_ended (h.silent hq)
  exact hended.lane_of_not_due fun hdue => hi ((h.mem_due hq).1 hdue).1

/-- A lane that has left is FREE with its notice queued, or it waits. -/
theorem State.LanesLeft.lane_left {i : LaneId} (hi : i ∈ is) :
    (c.flushEnds.lane i = Lane.free ∧ (c.lane i).endNotice ∈ c.flushEnds.notices.queue) ∨
      (c.flushEnds.lane i = c.lane i ∧ Submitter.lane i ∈ c.flushEnds.notices.waiting) := by
  obtain ⟨ds, ws, hended⟩ := State.flushEnds_ended (h.silent hq)
  by_cases hw : Submitter.lane i ∈ s.notices.waiting
  · have hnot : i ∉ c.lanesDue := fun hdue => ((h.mem_due hq).1 hdue).2 hw
    refine .inr ⟨hended.lane_of_not_due hnot, ?_⟩
    rw [hended.frame, h.notices]
    exact List.mem_append_left _ hw
  · exact hended.lane_of_due ((h.mem_due hq).2 ⟨hi, hw⟩)

/-- With nobody waiting and room for all of them, every lane that has left is FREE. -/
theorem State.LanesLeft.lane_free (hd : is.Nodup) {i : LaneId} (hi : i ∈ is) (hw : s.notices.waiting = [])
    (hroom : s.notices.updateEnds + is.length ≤ 31) : c.flushEnds.lane i = Lane.free := by
  obtain ⟨ds, ws, hended⟩ := State.flushEnds_ended (h.silent hq)
  have hdue : ∀ j, j ∈ c.lanesDue ↔ j ∈ is := fun j => by simp [h.mem_due hq, hw]
  have hlength : c.lanesDue.length = is.length :=
    ((List.perm_ext_iff_of_nodup c.lanesDue_nodup hd).2 hdue).length_eq
  exact hended.lane_free ((hdue i).2 hi) (by rw [h.notices, hw]) (by rw [h.notices, hlength]; exact hroom)

/-- No lane has come into or gone out of a state other than ABANDONING, REPORTING and FREE. -/
theorem State.LanesLeft.state_iff (i : LaneId) {v : LaneState} (ha : v ≠ .abandoning) (hr : v ≠ .reporting)
    (hf : v ≠ .free) : (c.flushEnds.lane i).state = v ↔ (s.lane i).state = v := by
  by_cases hi : i ∈ is
  · obtain ⟨hs, hc⟩ := h.gone i hi
    rw [hs]
    refine iff_of_false ?_ ha.symm
    rcases h.lane_left hq hi with ⟨hl, -⟩ | ⟨hl, -⟩ <;> rw [hl]
    · exact hf.symm
    · rw [hc]
      exact hr.symm
  · rw [h.lane_kept hq hi, h.kept i hi]

theorem State.LanesLeft.flush_frame : ∃ n l, c.flushEnds = { c with notices := n, lanes := l } := by
  obtain ⟨ds, ws, hended⟩ := State.flushEnds_ended (h.silent hq)
  exact ⟨_, _, hended.frame⟩

/-- The power sequencer has nothing to act on. -/
theorem State.LanesLeft.powerQuiet : c.flushEnds.powerQuiet = true := by
  have hstate := h.state_iff hq
  have hflight : c.flushEnds.lanesInFlight = s.lanesInFlight := by
    rw [Bool.eq_iff_iff, State.lanesInFlight_iff, State.lanesInFlight_iff]
    simp only [hstate _ (v := .arming) (by decide) (by decide) (by decide),
      hstate _ (v := .driving) (by decide) (by decide) (by decide)]
  have hactive : c.flushEnds.laneActivity = s.laneActivity := by
    rw [← Bool.not_inj_iff, Bool.eq_iff_iff, Bool.not_eq_true', Bool.not_eq_true', State.laneActivity_eq_false,
      State.laneActivity_eq_false]
    simp only [hstate _ (v := .arming) (by decide) (by decide) (by decide), ne_eq,
      hstate _ (v := .driving) (by decide) (by decide) (by decide),
      hstate _ (v := .waiting) (by decide) (by decide) (by decide)]
  obtain ⟨n, l, hf⟩ := h.flush_frame hq
  have hadm : c.flushEnds.adm = s.adm := by rw [hf, h.adm]
  have hpower : c.flushEnds.power = s.power := by rw [hf, h.power]
  have hsame : c.flushEnds.powerQuiet = s.powerQuiet := by
    simp only [State.powerQuiet, State.idle, State.riseRequest, hflight, hactive, hadm, hpower]
  simp only [State.quiet, Bool.and_eq_true] at hq
  obtain ⟨⟨-, hquiet⟩, -⟩ := hq
  rw [hsame, hquiet]

/-- After the submissions only draining that is over is left. -/
theorem State.LanesLeft.settle_eq : c.settle = c.flushEnds.testDrained := by
  rw [State.settle, State.settlePower_of_quiet (h.powerQuiet hq)]

/-- With the rails ON nothing is left. -/
theorem State.LanesLeft.quiet (hon : s.power.state = .on) : c.flushEnds.quiet = true := by
  obtain ⟨ds, ws, hended⟩ := State.flushEnds_ended (h.silent hq)
  obtain ⟨n, l, hf⟩ := h.flush_frame hq
  have hpower : c.flushEnds.power.state ≠ .off := by rw [hf, h.power, hon]; decide
  simp [State.quiet, hended.dueNil (h.silent hq), h.powerQuiet hq, hpower]

end Leaving

theorem State.testDrained_lane (s : State) (i : LaneId) : s.testDrained.lane i = s.lane i := by
  obtain ⟨n, m, h⟩ := s.testDrained_frame
  rw [h]
  rfl

end Sys2Proof.Machine
end

