-- ==== Sys2Proof/Proofs/CommitWrites.lean ====
section
/-! The commit of a line (R104, R110): the records a write puts into the cell plane, the reports that go with it, and
what follows the write (O40). -/

namespace Sys2Proof.Machine

/-! ### One write -/

/-- The reports of the cells of segment `g` as the line's computation has them. -/
def State.segmentReports (s : State) (g : Nat) : List Report :=
  (segmentColumns s.columns g).flatMap (fun x => (s.scan.workAt x).reports)

/-- The part after the write of segment `g` of line `y`, with the accesses `rest` left. -/
def State.written (s : State) (y g : Nat) (rest : List LineAccess) : State :=
  (s.writeBack y g).setScan { s.scan with todo := rest }

section Write

variable {s : State} {y g : Nat} {rest : List LineAccess}

theorem State.written_eq : s.written y g rest = { s with
    mem := s.mem.writeCells (segmentColumns s.columns g) y (fun x => (s.scan.workAt x).cell)
    arb := { s.arb with running := none }
    lanes := (s.takeReports (s.segmentReports g)).lanes
    scan := { s.scan with todo := rest } } := by
  obtain ⟨l, h⟩ := State.takeReports_frame (s.segmentReports g) (s.freeMemory.setMem
    (s.mem.writeCells (segmentColumns s.columns g) y (fun x => (s.scan.workAt x).cell)))
  have hlanes := State.takeReports_lanes (s.segmentReports g) (s := s) (t := s.freeMemory.setMem
    (s.mem.writeCells (segmentColumns s.columns g) y (fun x => (s.scan.workAt x).cell))) rfl
  have hback : s.writeBack y g = (s.freeMemory.setMem
    (s.mem.writeCells (segmentColumns s.columns g) y (fun x => (s.scan.workAt x).cell))).takeReports
      (s.segmentReports g) := rfl
  rw [State.written, hback, ← hlanes, h]
  rfl

/-- The computed records go into the written segment's cells and nowhere else (R104). -/
theorem State.written_cell (hwf : s.mem.wf = true) (hc : s.columns ≤ 2048) {x : Nat} (hx : x < 2048) (y' : Nat) :
    (s.written y g rest).mem.cell x y' =
      if y' = y ∧ x ∈ segmentColumns s.columns g then (s.scan.workAt x).cell else s.mem.cell x y' := by
  rw [State.written_eq]
  exact PixelMem.cell_writeCells y _ _ s.mem hwf (fun _ hz => segmentColumns_lt hc hz) x y' hx

theorem State.written_drafts : (s.written y g rest).mem.drafts = s.mem.drafts := by
  rw [State.written_eq]
  exact (PixelMem.writeCells_frame _ y _ s.mem).1

theorem State.written_lane (i : LaneId) :
    (s.written y g rest).lane i = (s.takeReports (s.segmentReports g)).lane i := by
  rw [State.written_eq]
  rfl

theorem State.written_state (i : LaneId) : ((s.written y g rest).lane i).state = (s.lane i).state := by
  rw [State.written_lane, State.takeReports_state]

/-- A write leaves nothing over that was not left over before. -/
theorem State.written_quiet (hq : s.quiet = true) : (s.written y g rest).quiet = true := by
  refine State.quiet_of_states (s := s) State.written_state ?_ ?_ ?_ hq
  all_goals rw [State.written_eq]

theorem State.written_panel : (s.written y g rest).panel = s.panel := by rw [State.written_eq]

theorem State.written_lanes : (s.written y g rest).lanes = (s.takeReports (s.segmentReports g)).lanes := by
  rw [State.written_eq]

/-- The end of a write's event in a frame adds the arbiter's grant alone. -/
theorem State.written_end (hq : s.quiet = true) (p : Panel) (c : Scan) (a old : Arbiter) {t : State}
    (ht : t = State.arbitrateAfter (State.settle { s.written y g rest with panel := p, scan := c, arb := a }) old) :
    t.mem = (s.written y g rest).mem ∧ t.lanes = (s.takeReports (s.segmentReports g)).lanes ∧ t.panel = p ∧
      t.scan = c ∧ (∀ x, a.scan = some x → t.arb.running = some x ∨ t.arb.scan = some x) ∧
      { t with mem := s.mem, lanes := s.lanes, panel := s.panel, scan := s.scan, arb := s.arb
               choices := s.choices } = s := by
  have hquiet := State.quiet_aside (State.written_quiet (y := y) (g := g) (rest := rest) hq) p c a
  obtain ⟨b, n, hframe⟩ := State.arbitrateAfter_frame { s.written y g rest with panel := p, scan := c, arb := a } old
  have hask := fun x (hx : a.scan = some x) =>
    State.arbitrateAfter_scan (s := { s.written y g rest with panel := p, scan := c, arb := a }) hx old
  rw [State.settle_of_quiet hquiet] at ht
  rw [← ht] at hframe hask
  refine ⟨?_, ?_, ?_, ?_, hask, ?_⟩
  · rw [hframe]
  · rw [hframe, State.written_lanes]
  · rw [hframe]
  · rw [hframe]
  · rw [hframe, State.written_eq]

theorem exec_commitWriteComplete (hr : s.arb.running = some .commit) (hp : s.scan.pos = .line y .commit)
    (ht : s.scan.todo = .write g :: rest) :
    exec .commitWriteComplete s = .next ((s.commitWrite y g rest).settle.arbitrateAfter s.arb) := by
  rw [show exec .commitWriteComplete s = execCommitWriteComplete s from rfl, execCommitWriteComplete, hr, hp, ht]

/-- Before the commit's last write the next one is asked for. -/
theorem State.commitWrite_more (h : rest ≠ []) : s.commitWrite y g rest =
    ((s.written y g rest).leaveAll ((s.written y g rest).justSwept s)).askScan .commit := by
  simp only [State.commitWrite, List.isEmpty_eq_false_iff.2 h, Bool.false_eq_true, if_false]
  rfl

theorem State.commitWrite_last : s.commitWrite y g [] = (s.written y g []).lineCommitted y := rfl

/-- With no lane ABANDONING none leaves. -/
theorem State.written_justSwept (hno : ∀ i, (s.lane i).state ≠ .abandoning) :
    (s.written y g rest).justSwept s = [] := by
  refine List.eq_nil_iff_forall_not_mem.2 fun i hi => hno i ?_
  rw [← State.written_state (y := y) (g := g) (rest := rest) i]
  exact (State.mem_justSwept.1 hi).1.1

end Write

/-! ### The commit goes on in a frame (R100, R104) -/

section Frame

variable {s : State} {y g : Nat} {rest : List LineAccess}

/-- The next write is asked for, or the commit is complete and waits for the period's end. -/
theorem State.commitWrite_inTime (hcut : s.scan.cut = false) (ht : s.scan.lineTimer ≠ none)
    (hno : ∀ i, (s.lane i).state ≠ .abandoning) : ∃ c a,
    s.commitWrite y g rest = { s.written y g rest with scan := c, arb := a } ∧
      (rest ≠ [] → c = { s.scan with todo := rest } ∧ a.scan = some .commit) ∧
      (rest = [] → c = { s.scan with todo := [], pos := .line y .committed }) := by
  by_cases h : rest = []
  · subst h
    rw [State.commitWrite_last, State.lineCommitted_inTime (by exact hcut) (by exact ht)]
    exact ⟨_, _, rfl, fun h => absurd rfl h, fun _ => rfl⟩
  · rw [State.commitWrite_more h, State.written_justSwept hno]
    exact ⟨_, _, rfl, fun _ => ⟨rfl, rfl⟩, fun hnil => absurd hnil h⟩

/-- The line period is over already: the next period begins. -/
theorem State.commitWrite_late (hcut : s.scan.cut = false) (ht : s.scan.lineTimer = none) : ∃ p c a,
    s.commitWrite y g [] = { s.written y g [] with panel := p, scan := c, arb := a } ∧
      (y + 1 < s.panelLines →
        p = { s.panel with gstart := false, gate := .line (y + 1) } ∧
        c = { s.scan with
          pos := .line (y + 1) .reading, todo := lineReads s.columns (y + 1) s.scan.arming, cells := []
          drafts := [], work := [], lineTimer := some (linePeriod s.hdr), windowTimer := none } ∧
        a.scan = some (.scanRead false)) ∧
      (y + 1 = s.panelLines →
        p = { s.panel with gstart := false, gate := .beyond } ∧
        c = { s.scan with
          pos := .blank 0, todo := [], cells := [], drafts := [], work := []
          lineTimer := some (linePeriod s.hdr), windowTimer := none }) := by
  rw [State.commitWrite_last, State.lineCommitted_late (by exact hcut) (by exact ht)]
  by_cases h : y + 1 < s.panelLines
  · rw [State.nextPeriod_line (by rw [State.written_eq]; exact h), State.written_panel]
    refine ⟨_, _, _, rfl, fun _ => ⟨rfl, ?_, rfl⟩, fun he => by omega⟩
    rw [State.written_eq]
    rfl
  · rw [State.nextPeriod_blank (by rw [State.written_eq]; exact Nat.not_lt.1 h), State.written_panel]
    refine ⟨_, _, _, rfl, fun hlt => absurd hlt h, fun _ => ⟨rfl, ?_⟩⟩
    rw [State.written_eq]
    rfl

end Frame

/-! ### The commit of a cut (R110, R89) -/

section Cut

variable {s : State} {y g : Nat} {rest : List LineAccess}

/-- The lanes that leave with a write of a cut's commit. -/
def State.commitLeaves (s : State) (y g : Nat) (rest : List LineAccess) : List LaneId :=
  if rest = [] then (s.written y g rest).sweptLanes else (s.written y g rest).justSwept s

theorem State.commitLeaves_nodup : (s.commitLeaves y g rest).Nodup := by
  unfold State.commitLeaves
  split
  · exact State.sweptLanes_nodup _
  · exact State.justSwept_nodup _ _

theorem State.mem_commitLeaves {i : LaneId} : i ∈ s.commitLeaves y g rest ↔
    ((s.takeReports (s.segmentReports g)).lane i).state = .abandoning ∧
      ((s.takeReports (s.segmentReports g)).lane i).live = 0 ∧ (rest = [] ∨ 0 < (s.lane i).live) := by
  unfold State.commitLeaves
  split
  · rename_i h
    rw [State.mem_sweptLanes, State.written_lane]
    simp [h]
  · rename_i h
    rw [State.mem_justSwept, State.written_lane]
    simp [h, and_assoc]

/-- With no discarded read on the way the sweep's first read is asked for at once (R109). -/
theorem State.enterSweep_eq (h : s.arb.discarding = false) : s.enterSweep =
    ((s.setScan { Scan.stopped with pos := .sweep 0, todo := sweepReads s.columns }).askScan .sweep).leaveAll
      s.sweptLanes := by
  unfold State.enterSweep
  simp only
  rw [h]
  rfl

theorem State.enterSweep_lane (h : s.arb.discarding = false) (i : LaneId) : s.enterSweep.lane i =
    if i ∈ s.sweptLanes then (s.lane i).left.without s.sweptLanes else (s.lane i).without s.sweptLanes := by
  rw [State.enterSweep_eq h, State.leaveAll_lane s.sweptLanes_nodup]
  rfl

theorem State.enterSweep_asks (h : s.arb.discarding = false) : ∃ k l f, s.enterSweep = { s with
    scan := { Scan.stopped with pos := .sweep 0, todo := sweepReads s.columns }
    arb := { s.arb with scan := some .sweep }, cache := k, lanes := l, flash := f } := by
  rw [State.enterSweep_eq h]
  exact State.leaveAll_frame _ _

/-- The lanes leave, and the scan engine asks for the next write or, after the last, for the sweep's first read. -/
theorem State.commitWrite_cut (hcut : s.scan.cut = true) :
    (∀ i, (s.commitWrite y g rest).lane i =
      if i ∈ s.commitLeaves y g rest then
        ((s.takeReports (s.segmentReports g)).lane i).left.without (s.commitLeaves y g rest)
      else ((s.takeReports (s.segmentReports g)).lane i).without (s.commitLeaves y g rest)) ∧
    ∃ c a k l f,
      s.commitWrite y g rest = { s.written y g rest with scan := c, arb := a, cache := k, lanes := l, flash := f } ∧
      (rest ≠ [] → c = { s.scan with todo := rest } ∧ a.scan = some .commit) ∧
      (rest = [] →
        c = { Scan.stopped with pos := .sweep 0, todo := (List.range (segments s.columns)).map .readCells } ∧
        a.scan = some .sweep) := by
  by_cases h : rest = []
  · subst h
    have hdiscard : (s.written y g []).arb.discarding = false := by
      rw [State.written_eq]
      rfl
    have hleaves : s.commitLeaves y g [] = (s.written y g []).sweptLanes := if_pos rfl
    rw [State.commitWrite_last, State.lineCommitted, if_pos (by exact hcut), hleaves]
    refine ⟨fun i => ?_, ?_⟩
    · rw [State.enterSweep_lane hdiscard, State.written_lane]
    · obtain ⟨k, l, f, hframe⟩ := State.enterSweep_asks hdiscard
      refine ⟨_, _, k, l, f, hframe, fun h => absurd rfl h, fun _ => ⟨?_, rfl⟩⟩
      rw [State.written_eq]
      rfl
  · rw [State.commitWrite_more h]
    have hleaves : s.commitLeaves y g rest = (s.written y g rest).justSwept s := if_neg h
    rw [← hleaves]
    refine ⟨fun i => ?_, ?_⟩
    · rw [← State.written_lane (y := y) (rest := rest), ← State.leaveAll_lane State.commitLeaves_nodup]
      rfl
    · obtain ⟨k, l, f, hframe⟩ := (s.written y g rest).leaveAll_frame (s.commitLeaves y g rest)
      rw [hframe]
      have hscan : (s.written y g rest).scan = { s.scan with todo := rest } := rfl
      generalize s.written y g rest = w at hscan
      exact ⟨_, _, k, l, f, rfl, fun _ => ⟨hscan, rfl⟩, fun hnil => absurd hnil h⟩

/-- Lanes have left ABANDONING in the event, and no other lane has changed its state. -/
theorem State.commitWrite_left (hcut : s.scan.cut = true) :
    s.LanesLeft (s.commitWrite y g rest) (s.commitLeaves y g rest) := by
  obtain ⟨hlane, c, a, k, l, f, hframe, -⟩ := State.commitWrite_cut (s := s) (y := y) (g := g) (rest := rest) hcut
  refine ⟨?_, ?_, ?_, fun i hi => ?_, fun i hi => ⟨?_, ?_⟩⟩
  · rw [hframe, State.written_eq]
  · rw [hframe, State.written_eq]
  · rw [hframe, State.written_eq]
  · rw [hlane, if_neg hi, Lane.without_state, State.takeReports_state]
  · rw [← State.takeReports_state (s.segmentReports g) s i]
    exact (State.mem_commitLeaves.1 hi).1
  · rw [hlane, if_pos hi, Lane.without_state, Lane.left_state]

/-- What the end of the event adds: the submissions of the lanes that leave, and draining that is over. -/
theorem State.commitWrite_cut_end (hcut : s.scan.cut = true) (hq : s.quiet = true) (old : Arbiter) {t : State}
    (ht : t = (s.commitWrite y g rest).settle.arbitrateAfter old) :
    (∀ i, t.lane i = (s.commitWrite y g rest).flushEnds.lane i) ∧ t.scan = (s.commitWrite y g rest).scan ∧
      t.mem = (s.commitWrite y g rest).mem ∧ t.wb = (s.commitWrite y g rest).wb ∧
      t.thermal = (s.commitWrite y g rest).thermal ∧ t.limits = (s.commitWrite y g rest).limits ∧
      ∀ x, (s.commitWrite y g rest).arb.scan = some x → t.arb.running = some x ∨ t.arb.scan = some x := by
  obtain ⟨n, l, a, p, hsettle⟩ := (s.commitWrite y g rest).settle_frame
  obtain ⟨b, k, hframe⟩ := (s.commitWrite y g rest).settle.arbitrateAfter_frame old
  have hlane : ∀ i, t.lane i = (s.commitWrite y g rest).settle.lane i := fun i =>
    State.lane_of_lanes (by rw [ht, hframe])
  refine ⟨fun i => ?_, ?_, ?_, ?_, ?_, ?_, fun x hx => ?_⟩
  · rw [hlane, (State.commitWrite_left hcut).settle_eq hq, State.testDrained_lane]
  · rw [ht, hframe, hsettle]
  · rw [ht, hframe, hsettle]
  · rw [ht, hframe, hsettle]
  · rw [ht, hframe, hsettle]
  · rw [ht, hframe, hsettle]
  · rw [ht]
    exact State.arbitrateAfter_scan (by rw [hsettle]; exact hx) old

end Cut

/-! ### The obligation -/

/-- Settles O40, by what follows the write: in a frame the next write, the period's end, or the next period at once;
after a cut the next write or the sweep, with the lanes that leave in the event. -/
theorem commitWritesSegment : Obligations.CommitWritesSegment := by
  unfold Obligations.CommitWritesSegment
  refine ⟨fun s y g rest hr hp ht hwf hc hq hcut htimer hno => ?_, fun s y g hr hp ht hwf hc hq hcut htimer => ?_,
    fun s y g rest u hr hp ht hwf hc hq hcut hu => ?_⟩
  · obtain ⟨c, a, hwrite, hmore, hlast⟩ := State.commitWrite_inTime (y := y) (g := g) (rest := rest) hcut htimer hno
    have hexec := exec_commitWriteComplete hr hp ht
    obtain ⟨t, ht⟩ : ∃ t, t = (s.commitWrite y g rest).settle.arbitrateAfter s.arb := ⟨_, rfl⟩
    rw [← ht] at hexec
    rw [hwrite] at ht
    obtain ⟨hmem, hlanes, hpanel, hscan, hask, hrest⟩ :=
      State.written_end hq (s.written y g rest).panel c a s.arb ht
    refine ⟨t, hexec, ?_, fun x y' hx => ?_, hlanes, fun h => ?_, fun h => hscan.trans (hlast h), ?_⟩
    · rw [hmem, State.written_drafts]
    · rw [hmem, State.written_cell hwf hc hx]
    · obtain ⟨hc, ha⟩ := hmore h
      exact ⟨hscan.trans hc, hask _ ha⟩
    · rw [State.written_panel] at hpanel
      rw [← hpanel] at hrest
      exact hrest
  · obtain ⟨p, c, a, hwrite, hline, hblank⟩ := State.commitWrite_late (y := y) (g := g) hcut htimer
    have hexec := exec_commitWriteComplete hr hp ht
    obtain ⟨t, ht⟩ : ∃ t, t = (s.commitWrite y g []).settle.arbitrateAfter s.arb := ⟨_, rfl⟩
    rw [← ht] at hexec
    rw [hwrite] at ht
    obtain ⟨hmem, hlanes, hpanel, hscan, hask, hrest⟩ := State.written_end hq p c a s.arb ht
    refine ⟨t, hexec, ?_, fun x y' hx => ?_, hlanes, fun hy => ?_, fun hy => ?_, hrest⟩
    · rw [hmem, State.written_drafts]
    · rw [hmem, State.written_cell hwf hc hx]
    · obtain ⟨hp, hc, ha⟩ := hline hy
      exact ⟨hpanel.trans hp, hscan.trans hc, hask _ ha⟩
    · obtain ⟨hp, hc⟩ := hblank hy
      exact ⟨hpanel.trans hp, hscan.trans hc⟩
  · obtain ⟨hlane, c, a, k, l, f, hwrite, hmore, hlast⟩ :=
      State.commitWrite_cut (y := y) (g := g) (rest := rest) hcut
    have hleft := State.commitWrite_left (y := y) (g := g) (rest := rest) hcut
    have hexec := exec_commitWriteComplete hr hp ht
    obtain ⟨t, ht⟩ : ∃ t, t = (s.commitWrite y g rest).settle.arbitrateAfter s.arb := ⟨_, rfl⟩
    rw [← ht] at hexec
    obtain ⟨hflush, hscan, hmem, hwb, hthermal, hlimits, hask⟩ := State.commitWrite_cut_end hcut hq s.arb ht
    have hmem' : (s.commitWrite y g rest).mem = (s.written y g rest).mem := by rw [hwrite]
    have hscan' : (s.commitWrite y g rest).scan = c := by rw [hwrite]
    have harb' : (s.commitWrite y g rest).arb = a := by rw [hwrite]
    refine ⟨t, hexec, ?_, fun x y' hx => ?_, fun i leaves hleaves => ?_, fun h => ?_,
      fun h => ?_, ?_, ?_, ?_⟩
    · rw [hmem, hmem']
      exact State.written_drafts (rest := rest)
    · rw [hmem, hmem']
      exact State.written_cell (rest := rest) hwf hc hx y'
    · have hu : u = s.takeReports (s.segmentReports g) := hu
      rw [hu] at hleaves ⊢
      rw [hflush]
      have hmem : i ∈ s.commitLeaves y g rest ↔ leaves := State.mem_commitLeaves.trans hleaves.symm
      refine ⟨fun h => ?_, fun h => ?_⟩
      · have hi := hmem.2 h
        rcases hleft.lane_left hq hi with ⟨hfree, -⟩ | ⟨hsame, -⟩
        · exact .inl hfree
        · rw [hsame, hlane, if_pos hi]
          exact .inr ⟨rfl, rfl⟩
      · have hi := mt hmem.1 h
        rw [hleft.lane_kept hq hi, hlane, if_neg hi]
        exact Lane.without_unblocked _ _
    · rw [hscan, hscan']
      exact ⟨(hmore h).1, hask _ (by rw [harb', (hmore h).2])⟩
    · rw [hscan, hscan']
      exact ⟨(hlast h).1, hask _ (by rw [harb', (hlast h).2])⟩
    · rw [hwb, hwrite, State.written_eq]
    · rw [hthermal, hwrite, State.written_eq]
    · rw [hlimits, hwrite, State.written_eq]

end Sys2Proof.Machine
end

