-- ==== Sys2Proof/Proofs/FrameBoundary.lean ====
section
/-! A frame boundary as a whole (R69, R107): the pass ends, the limits, the arming and the next frame, and what they
leave of each lane (O42). -/

namespace Sys2Proof.Machine

/-! ### What the stages of a boundary leave of a lane -/

section Lanes

variable {s t : State}

/-- Only DRIVING lanes were DRIVING before lanes armed. -/
theorem State.OnlyArmed.driving_iff (h : s.OnlyArmed t) (i : LaneId) :
    (t.lane i).state = .driving ↔ (s.lane i).state = .driving := by
  rcases h i with hi | ⟨hs, hi⟩
  · rw [hi]
  · rw [hi]
    rcases hs with hs | hs <;> simp [hs]

/-- The submissions of an event leave the lane set as it is. -/
theorem State.OnlyFreed.armingViews (h : s.OnlyFreed t) : t.armingViews = s.armingViews := by
  have hfilter : allLanes.filter (fun i => (t.lane i).state = .arming) =
      allLanes.filter (fun i => (s.lane i).state = .arming) := List.filter_congr fun i _ =>
    decide_eq_decide.2 (h.state_iff i (by decide) (by decide))
  rw [State.armingViews, State.armingViews, hfilter]
  refine List.map_congr_left fun i hi => ?_
  have harming : (s.lane i).state = .arming := by simpa using (List.mem_filter.1 hi).2
  rw [h.lane (by simp [harming])]

theorem State.OnlyFreed.drivingViews (h : s.OnlyFreed t) : t.drivingViews = s.drivingViews := by
  have hfilter : allLanes.filter (fun i => (t.lane i).state = .driving) =
      allLanes.filter (fun i => (s.lane i).state = .driving) := List.filter_congr fun i _ =>
    decide_eq_decide.2 (h.state_iff i (by decide) (by decide))
  rw [State.drivingViews, State.drivingViews, hfilter]
  refine List.map_congr_left fun i hi => ?_
  have hdriving : (s.lane i).state = .driving := by simpa using (List.mem_filter.1 hi).2
  rw [h.lane (by simp [hdriving])]

theorem State.evalTrigger_lanes (s : State) : s.evalTrigger.lanes = s.lanes := by
  obtain ⟨c, f, h⟩ := s.evalTrigger_frame
  rw [h]

theorem State.OnlyArmed.of_lanes (h : t.lanes = s.lanes) : s.OnlyArmed t := fun _ => .inl (State.lane_of_lanes h)

theorem State.OnlyFreed.of_lanes (h : t.lanes = s.lanes) : s.OnlyFreed t := fun _ => .inl (State.lane_of_lanes h)

theorem State.limitsInForce_onlyArmed (s : State) : s.OnlyArmed s.limitsInForce := .of_lanes rfl

/-- After the pass ends a boundary only arms. -/
theorem State.boundaryWork_onlyArmed (s : State) : s.advanceLanes.OnlyArmed s.boundaryWork := by
  have harm : ∀ u : State, u.OnlyArmed u.armBoundary := fun u => u.armBoundary_onlyArmed.1
  have hforce := s.advanceLanes.limitsInForce_onlyArmed
  unfold State.boundaryWork
  simp only
  split
  · refine hforce.trans ?_
    generalize s.advanceLanes.limitsInForce = u
    obtain ⟨n, h | h⟩ := u.triggerWith_cases State.armBoundary <;> rw [h]
    · exact (State.OnlyArmed.of_lanes (State.evalTrigger_lanes (u.setChoices n))).trans (harm _)
    · exact (harm (u.setChoices n)).trans (.of_lanes (State.evalTrigger_lanes _))
  · exact hforce.trans (harm _)

theorem State.continueFrames_writes (s : State) :
    ∃ p c a, s.continueFrames = { s with panel := p, scan := c, arb := a } := by
  unfold State.continueFrames
  split
  · exact s.beginFrame_frame
  · exact ⟨_, _, _, rfl⟩

theorem State.settle_onlyFreed (s : State) : s.OnlyFreed s.settle := by
  obtain ⟨p, hp⟩ := s.flushEnds.settlePower_frame
  obtain ⟨n, m, hm⟩ := s.flushEnds.settlePower.testDrained_frame
  refine s.flushEnds_onlyFreed.trans (.of_lanes ?_)
  rw [State.settle, hm, hp]

theorem State.arbitrate_onlyFreed (s : State) : s.OnlyFreed s.arbitrate := .of_lanes rfl

end Lanes

/-! ### The part after a boundary -/

/-- The part after FRAME_BOUNDARY (R107). -/
def State.atBoundary (s : State) : State := s.boundaryWork.continueFrames.settle.arbitrate

section Boundary

variable {s : State} {i : LaneId}

theorem State.continueFrames_onlyFreed (s : State) : s.OnlyFreed s.continueFrames.settle.arbitrate := by
  obtain ⟨p, c, a, h⟩ := s.continueFrames_writes
  have hlanes : s.OnlyFreed s.continueFrames := .of_lanes (by rw [h])
  exact (hlanes.trans s.continueFrames.settle_onlyFreed).trans (State.arbitrate_onlyFreed _)

theorem State.atBoundary_onlyFreed (s : State) : s.boundaryWork.OnlyFreed s.atBoundary :=
  s.boundaryWork.continueFrames_onlyFreed

/-- A lane in ARMING, DRIVING or ABANDONING after the pass ends is so after the boundary. -/
theorem State.atBoundary_lane (hr : (s.passesEnded.lane i).state ≠ .reporting)
    (hw : (s.passesEnded.lane i).state ≠ .waiting) (hf : (s.passesEnded.lane i).state ≠ .free) :
    s.atBoundary.lane i = s.passesEnded.lane i := by
  have hadvance : s.advanceLanes.lane i = s.passesEnded.lane i := s.passesEnded.flushEnds_onlyFreed.lane hr
  have hwork : s.boundaryWork.lane i = s.passesEnded.lane i := by
    rw [s.boundaryWork_onlyArmed.lane (by rwa [hadvance]) (by rwa [hadvance]), hadvance]
  rw [s.atBoundary_onlyFreed.lane (by rwa [hwork]), hwork]

/-- The lanes DRIVING are those the pass ends leave so. -/
theorem State.atBoundary_driving :
    (s.atBoundary.lane i).state = .driving ↔ (s.passesEnded.lane i).state = .driving := by
  rw [s.atBoundary_onlyFreed.state_iff i (by decide) (by decide), s.boundaryWork_onlyArmed.driving_iff i]
  exact s.passesEnded.flushEnds_onlyFreed.state_iff i (by decide) (by decide)

/-- A DRIVING lane before its last step is a step on (R75). -/
theorem State.atBoundary_step (hs : (s.lane i).state = .driving) (hlast : (s.lane i).step + 1 ≠ (s.lane i).span) :
    s.atBoundary.lane i = { s.pastPass i with
      slot := (s.lane i).slot, band := (s.lane i).band, state := .driving, step := (s.lane i).step + 1 } := by
  have hdue : (s.lane i).passDue = false := by simp [Lane.passDue, hs, hlast]
  have hon := State.passesEnded_on hdue
  simp only [hs, reduceCtorEq, if_false, if_true] at hon
  rw [State.atBoundary_lane (by simp [hon]) (by simp [hon]) (by simp [hon]), hon]

/-- An ARMING lane that armed a cell goes to DRIVING at step 0 (R76). -/
theorem State.atBoundary_drives (hs : (s.lane i).state = .arming) (hspan : (s.lane i).span ≠ 0) :
    s.atBoundary.lane i = { s.pastPass i with
      slot := (s.lane i).slot, band := (s.lane i).band, state := .driving, step := 0 } := by
  have hdue : (s.lane i).passDue = false := by simp [Lane.passDue, hs, hspan]
  have hon := State.passesEnded_on hdue
  simp only [hs, reduceCtorEq, if_false, if_true] at hon
  rw [State.atBoundary_lane (by simp [hon]) (by simp [hon]) (by simp [hon]), hon]

/-- A lane whose pass ends is DRIVING no more (R79). -/
theorem State.atBoundary_not_driving (hdue : (s.lane i).passDue = true) : (s.atBoundary.lane i).state ≠ .driving := by
  rw [ne_eq, State.atBoundary_driving]
  by_cases h : (s.lane i).passesAgain s.adm.mode
  · simp [State.passesEnded_waiting hdue h]
  · simp [State.passesEnded_reporting hdue h]

theorem State.atBoundary_abandoning (hs : (s.lane i).state = .abandoning) :
    (s.atBoundary.lane i).state = .abandoning := by
  have hdue : (s.lane i).passDue = false := by simp [Lane.passDue, hs]
  have hstate : (s.passesEnded.lane i).state = .abandoning :=
    (State.passesEnded_state_on hdue (by decide) (by decide)).2 hs
  rw [State.atBoundary_lane (by simp [hstate]) (by simp [hstate]) (by simp [hstate]), hstate]

/-! ### The blocks a boundary leaves, and the next frame -/

/-- Whichever way the boundary goes on, memory, write buffer, thermal unit and cache are those after its work. -/
theorem State.atBoundary_frame (s : State) : ∃ p c a n l d q, s.atBoundary = { s.boundaryWork with
    panel := p, scan := c, arb := a, notices := n, lanes := l, adm := d, power := q } := by
  obtain ⟨p, c, a, hgo⟩ := s.boundaryWork.continueFrames_writes
  obtain ⟨n, l, d, q, hsettle⟩ := s.boundaryWork.continueFrames.settle_frame
  exact ⟨p, c, _, n, l, d, q, by rw [State.atBoundary, hsettle, hgo]; rfl⟩

theorem State.atBoundary_scan (s : State) : s.atBoundary.scan = s.boundaryWork.continueFrames.scan ∧
    s.atBoundary.panel = s.boundaryWork.continueFrames.panel := by
  obtain ⟨n, l, d, q, hsettle⟩ := s.boundaryWork.continueFrames.settle_frame
  rw [State.atBoundary, hsettle]
  exact ⟨rfl, rfl⟩

theorem State.atBoundary_limits (s : State) :
    s.atBoundary.limits = { taken := s.limits.taken, inForce := s.limits.taken } := by
  rw [State.atBoundary, State.arbitrate_limits, State.settle_limits, State.continueFrames_limits,
    State.boundaryWork_limits]

/-- With a lane in flight the next frame begins at line 0 with the lanes then in flight as its lane set (R98, R99). -/
theorem State.atBoundary_frameBegins (hon : s.power.state = .on) (hf : s.atBoundary.lanesInFlight = true) :
    s.atBoundary.scan.pos = .line 0 .reading ∧ s.atBoundary.scan.limits = s.limits.taken ∧
      s.atBoundary.holdsLaneSet ∧ s.atBoundary.panel.gstart = true ∧ s.atBoundary.panel.gate = .line 0 := by
  have hfreed := s.atBoundary_onlyFreed
  have hpower : s.boundaryWork.power.state = .on := by rw [s.boundaryWork_kept.power, hon]
  have hbegin : s.boundaryWork.continueFrames = s.boundaryWork.beginFrame := by
    rw [State.continueFrames, hpower, ← hfreed.lanesInFlight, hf]
    rfl
  obtain ⟨hscan, hpanel⟩ := s.atBoundary_scan
  rw [hbegin, State.beginFrame_eq] at hscan hpanel
  have hlimits : s.boundaryWork.limits.inForce = s.limits.taken := by rw [State.boundaryWork_limits]
  refine ⟨by rw [hscan], by rw [hscan]; exact hlimits, ?_, by rw [hpanel], by rw [hpanel]⟩
  exact State.holdsLaneSet_of_views (s := s.atBoundary) (by rw [hscan, hfreed.armingViews])
    (by rw [hscan, hfreed.drivingViews]) rfl

/-- With none in flight the scan engine stops and its outputs idle (R107). -/
theorem State.atBoundary_stops (hf : s.atBoundary.lanesInFlight = false) :
    s.atBoundary.scan.pos = .stopped ∧ s.atBoundary.panel.soe = false ∧ s.atBoundary.panel.goe = false := by
  have hstop : s.boundaryWork.continueFrames =
      (s.boundaryWork.setScan .stopped).setPanel s.boundaryWork.panel.idle := by
    rw [State.continueFrames, ← s.atBoundary_onlyFreed.lanesInFlight, hf, Bool.and_false]
    rfl
  obtain ⟨hscan, hpanel⟩ := s.atBoundary_scan
  rw [hstop] at hscan hpanel
  rw [hscan, hpanel]
  exact ⟨rfl, rfl, rfl⟩

/-! ### Where nothing was left over before the boundary -/

/-- The power sequencer's acting on idleness and draining does not lead to OFF. -/
theorem State.settlePower_not_off {u : State} (hon : u.power.state = .on) : u.settlePower.power.state ≠ .off := by
  unfold State.settlePower
  rw [hon]
  simp only
  split
  · split
    · simp [hon]
    · simp [State.enterFalling]
  · split
    · split
      · simp [hon]
      · split
        · simp [State.enterFalling]
        · simp [hon]
    · simp [hon]

/-- With nothing due and the rails ON the end of the event is the power sequencer's alone. -/
theorem State.settle_of_on {u : State} (hd : u.submissionsDue = []) (hon : u.power.state = .on) :
    ∃ p, u.settle = u.setPower p := by
  obtain ⟨p, hp⟩ := u.settlePower_frame
  have hoff := State.settlePower_not_off hon
  refine ⟨p, ?_⟩
  rw [State.settle, State.flushEnds_of_none hd, State.testDrained, if_neg (by simp [hoff]), hp]
  rfl

theorem State.passesEnded_silent (hq : s.quiet = true) : s.passesEnded.admissionSilent := by
  obtain ⟨c, l, h⟩ := s.passesEnded_frame
  rw [State.admissionSilent, show s.passesEnded.notices = s.notices by rw [h], show s.passesEnded.adm = s.adm by rw [h]]
  exact State.quiet_admissionSilent hq

/-- The pass ends of the boundary have made their submissions. -/
theorem State.advanceLanes_dueNil (hq : s.quiet = true) : s.advanceLanes.submissionsDue = [] := by
  obtain ⟨ds, ws, hended⟩ := State.flushEnds_ended (State.passesEnded_silent hq)
  exact hended.dueNil (State.passesEnded_silent hq)

theorem State.evalTrigger_dueNil {u : State} (h : u.submissionsDue = []) : u.evalTrigger.submissionsDue = [] := by
  obtain ⟨c, f, he⟩ := u.evalTrigger_frame
  rw [he]
  exact h

theorem State.limitsInForce_dueNil {u : State} (h : u.submissionsDue = []) : u.limitsInForce.submissionsDue = [] := h

theorem State.boundaryWork_dueNil (hq : s.quiet = true) : s.boundaryWork.submissionsDue = [] := by
  have hforce := State.limitsInForce_dueNil (State.advanceLanes_dueNil hq)
  unfold State.boundaryWork
  simp only
  split
  · generalize s.advanceLanes.limitsInForce = u at hforce
    obtain ⟨n, h | h⟩ := u.triggerWith_cases State.armBoundary <;> rw [h]
    · exact State.armBoundary_dueNil (State.evalTrigger_dueNil (u := u.setChoices n) hforce)
    · exact State.evalTrigger_dueNil (State.armBoundary_dueNil (s := u.setChoices n) hforce)
  · exact State.armBoundary_dueNil hforce

/-- Lanes and admission unit are then those after the boundary's work. -/
theorem State.atBoundary_books (hq : s.quiet = true) (hon : s.power.state = .on) :
    s.atBoundary.lanes = s.boundaryWork.lanes ∧ s.atBoundary.adm = s.boundaryWork.adm := by
  have hpower : s.boundaryWork.power.state = .on := by rw [s.boundaryWork_kept.power, hon]
  have hdue := State.boundaryWork_dueNil hq
  obtain ⟨p, c, a, hgo⟩ := s.boundaryWork.continueFrames_writes
  rw [State.atBoundary, hgo]
  generalize s.boundaryWork = b at hpower hdue
  obtain ⟨q, hsettle⟩ := State.settle_of_on (u := { b with panel := p, scan := c, arb := a }) hdue hpower
  rw [hsettle]
  exact ⟨rfl, rfl⟩

/-- The arming and the trigger of a boundary in their order (R33; log entries 1 and 13): `v` is the part that the arming
sees. -/
theorem State.boundaryWork_order {u : State} (hu : u = s.advanceLanes.limitsInForce) : ∃ v,
    { v with cache := u.cache, flash := u.flash, choices := u.choices } = u ∧
      s.boundaryWork.lanes = v.armBoundary.lanes ∧ s.boundaryWork.adm = v.armBoundary.adm ∧
      ((∀ i, (s.lane i).passDue = false) →
        v = u ∧ s.boundaryWork.cache = v.armBoundary.cache ∧ s.boundaryWork.flash = u.flash) ∧
      ((∃ i, (s.lane i).passDue = true) →
        (v.cache = u.evalTrigger.cache ∧ v.flash = u.evalTrigger.flash ∧
          s.boundaryWork.cache = v.armBoundary.cache ∧ s.boundaryWork.flash = v.flash) ∨
        (v.cache = u.cache ∧ v.flash = u.flash ∧ s.boundaryWork.cache = v.armBoundary.evalTrigger.cache ∧
          s.boundaryWork.flash = v.armBoundary.evalTrigger.flash)) := by
  have hflash : ∀ w : State, w.armBoundary.flash = w.flash := fun w => by
    obtain ⟨c, l, a, h⟩ := w.armBoundary_frame
    rw [h]
  have hbooks : ∀ w : State, w.evalTrigger.lanes = w.lanes ∧ w.evalTrigger.adm = w.adm := fun w => by
    obtain ⟨c, f, h⟩ := w.evalTrigger_frame
    rw [h]
    exact ⟨rfl, rfl⟩
  have hwork : s.boundaryWork = if allLanes.any (fun i => (s.lane i).passDue) = true then
      u.triggerWith State.armBoundary else u.armBoundary := by rw [hu]; rfl
  by_cases hdue : ∃ i, (s.lane i).passDue = true
  · obtain ⟨i, hi⟩ := hdue
    have hno : ¬ ∀ j, (s.lane j).passDue = false := fun h => by simp [h i] at hi
    rw [if_pos (List.any_eq_true.2 ⟨i, mem_allLanes i, hi⟩)] at hwork
    obtain ⟨n, h | h⟩ := u.triggerWith_cases State.armBoundary
    · have htrigger := u.evalTrigger_setChoices n
      obtain ⟨c, f, he⟩ := u.evalTrigger_frame
      rw [he] at htrigger ⊢
      refine ⟨(u.setChoices n).evalTrigger, by rw [htrigger]; rfl, by rw [hwork, h], by rw [hwork, h],
        fun hall => absurd hall hno, fun _ => .inl ⟨by rw [htrigger]; rfl, by rw [htrigger]; rfl, by rw [hwork, h], ?_⟩⟩
      rw [hwork, h, hflash]
    · obtain ⟨hl, ha⟩ := hbooks (u.setChoices n).armBoundary
      exact ⟨u.setChoices n, rfl, by rw [hwork, h, hl], by rw [hwork, h, ha], fun hall => absurd hall hno, fun _ =>
        .inr ⟨rfl, rfl, by rw [hwork, h], by rw [hwork, h]⟩⟩
  · rw [if_neg (by simpa [mem_allLanes] using hdue)] at hwork
    exact ⟨u, rfl, by rw [hwork], by rw [hwork], fun _ => ⟨rfl, by rw [hwork], by rw [hwork, hflash]⟩, fun h =>
      absurd h hdue⟩

end Boundary

/-! ### The obligation -/

/-- Settles O42: the boundary's stages each leave the lanes they have no part in, and where nothing was left over before
it the end of its event changes no lane. -/
theorem boundaryMovesLanes : Obligations.BoundaryMovesLanes := by
  unfold Obligations.BoundaryMovesLanes
  intro s k hp ht hk hon
  have hkept := s.boundaryWork_kept
  obtain ⟨p, c, a, n, l, d, q, hframe⟩ := s.atBoundary_frame
  have hcache : s.atBoundary.cache = s.boundaryWork.cache := by rw [hframe]
  have hflash : s.atBoundary.flash = s.boundaryWork.flash := by rw [hframe]
  have hmem : s.atBoundary.mem = s.mem := by rw [hframe, hkept.mem]
  have hwb : s.atBoundary.wb = s.wb := by rw [hframe, hkept.wb]
  have hthermal : s.atBoundary.thermal = s.thermal := by rw [hframe, hkept.thermal]
  refine ⟨s.atBoundary, exec_frameBoundary (State.atLastBlank_of_blank hp ht hk), fun i hs hlast => ?_,
    fun i hs hspan => ?_, fun i hs hlast => ?_, fun i hs => State.atBoundary_abandoning hs, s.atBoundary_limits, hmem,
    hwb, hthermal, fun hq => ?_, State.atBoundary_frameBegins hon, State.atBoundary_stops⟩
  · rw [State.atBoundary_step hs hlast]
    exact ⟨rfl, rfl, rfl, rfl, rfl, rfl⟩
  · rw [State.atBoundary_drives hs hspan]
    exact ⟨rfl, rfl, rfl, rfl, rfl, rfl⟩
  · exact State.atBoundary_not_driving ((s.lane i).passDue_iff.2 (.inl ⟨hs, hlast⟩))
  · obtain ⟨v, hv, hlanes, hadm, hnone, hsome⟩ := State.boundaryWork_order (s := s) rfl
    obtain ⟨hlanes', hadm'⟩ := State.atBoundary_books hq hon
    have hadvance : s.advanceLanes.limitsInForce.flash = s.flash := by
      obtain ⟨c, n, l, a, h⟩ := s.advanceLanes_frame
      rw [h]
      rfl
    rw [hlanes', hadm', hcache, hflash]
    exact ⟨_, v, rfl, hv, hlanes, hadm, fun h => hadvance ▸ hnone h, hsome⟩

end Sys2Proof.Machine
end

