-- ==== Sys2Proof/Proofs/SweepWrites.lean ====
section
/-! SUPPORT. One access of the sweep (R111): the cells a write releases (R48), the reports that go with it, the lanes
that leave, and which parts of the state these read. -/

namespace Sys2Proof.Machine

/-! ### What the release, the submissions and the trigger do not read -/

section Beside

variable (s : State) (a : Arbiter) (c : Scan) (k : Cache) (f : Flash)

theorem State.deliver_beside (w : Submitter) :
    State.deliver { s with arb := a, scan := c, cache := k, flash := f } w =
      { s.deliver w with arb := a, scan := c, cache := k, flash := f } := by
  cases w with
  | lane i => rfl
  | admission =>
    unfold State.deliver
    dsimp only
    split <;> rfl

theorem State.submit_beside (w : Submitter) :
    State.submit { s with arb := a, scan := c, cache := k, flash := f } w =
      { s.submit w with arb := a, scan := c, cache := k, flash := f } := by
  unfold State.submit
  dsimp only
  split
  · exact s.deliver_beside a c k f w
  · rfl

theorem State.submitDue_beside (n : Nat) : ∀ s : State,
    State.submitDue n { s with arb := a, scan := c, cache := k, flash := f } =
      { State.submitDue n s with arb := a, scan := c, cache := k, flash := f } := by
  induction n with
  | zero => exact fun s => rfl
  | succ n ih =>
    intro s
    have hdue : State.submissionsDue { s with arb := a, scan := c, cache := k, flash := f } = s.submissionsDue := rfl
    rw [State.submitDue, State.submitDue, hdue]
    cases earliestBy (·.1) s.submissionsDue with
    | none => rfl
    | some w => exact (congrArg (State.submitDue n) (s.submit_beside a c k f w.2)).trans (ih _)

/-- The submissions of an event neither read nor change arbiter, scan engine, cache and flash interface. -/
theorem State.flushEnds_beside : State.flushEnds { s with arb := a, scan := c, cache := k, flash := f } =
    { s.flushEnds with arb := a, scan := c, cache := k, flash := f } := State.submitDue_beside a c k f 64 s

theorem State.leaveAbandoning_arb (i : LaneId) :
    State.leaveAbandoning { s with arb := a } i = { s.leaveAbandoning i with arb := a } := by
  have hlane : State.lane { s with arb := a } i = s.lane i := rfl
  have hrelease : State.releaseLane { s with arb := a } i = { s.releaseLane i with arb := a } := by
    unfold State.releaseLane
    rw [hlane]
    cases (s.lane i).slot <;> rfl
  rw [State.leaveAbandoning, hrelease]
  rfl

theorem State.leaveAbandonings_arb (is : List LaneId) : ∀ s : State,
    is.foldl State.leaveAbandoning { s with arb := a } = { is.foldl State.leaveAbandoning s with arb := a } := by
  induction is with
  | nil => exact fun s => rfl
  | cons i is ih =>
    intro s
    rw [List.foldl_cons, List.foldl_cons, s.leaveAbandoning_arb a i, ih]

theorem State.arbitrateAfter_beside (old : Arbiter) :
    State.arbitrateAfter { s with cache := k, flash := f } old =
      { s.arbitrateAfter old with cache := k, flash := f } := by
  unfold State.arbitrateAfter
  dsimp only
  split
  · split
    · rfl
    · split <;> rfl
  · rfl

end Beside

/-- Accesses, scan engine, cache and flash interface have no part in which lanes have left. -/
theorem State.LanesLeft.beside {s c : State} {is : List LaneId} (h : s.LanesLeft c is) (a : Arbiter) (v : Scan)
    (k : Cache) (f : Flash) : s.LanesLeft { c with arb := a, scan := v, cache := k, flash := f } is :=
  ⟨h.notices, h.adm, h.power, h.kept, h.gone⟩

/-- What the trigger makes of the cache depends on cache, thermal unit and image alone. -/
theorem State.evalTrigger_cache_congr {s t : State} (hc : t.cache = s.cache) (hth : t.thermal = s.thermal)
    (hl : t.loader = s.loader) : t.evalTrigger.cache = s.evalTrigger.cache := by
  have hhdr : t.hdr = s.hdr := by rw [State.hdr, State.hdr, hl]
  have htarget : t.reloadTarget = s.reloadTarget := by
    unfold State.reloadTarget State.trigger
    rw [hc, hth, hl]
  unfold State.evalTrigger
  rw [htarget]
  cases s.reloadTarget with
  | none => exact hc
  | some i =>
    show (t.startReload i).cache = (s.startReload i).cache
    simp only [State.startReload, hc, hth]
    rfl

/-- An evaluation of the trigger after the end of an event is one before it. -/
theorem State.evalTrigger_arbitrateAfter (s : State) (old : Arbiter) :
    s.evalTrigger.arbitrateAfter old = (s.arbitrateAfter old).evalTrigger := by
  obtain ⟨a, n, h⟩ := s.arbitrateAfter_frame old
  have hb := s.evalTrigger_beside s.power a n
  obtain ⟨k, f, he⟩ := s.evalTrigger_frame
  rw [he] at hb ⊢
  rw [s.arbitrateAfter_beside k f old, h]
  exact hb.symm

/-! ### The cells of ABANDONING lanes (R48, R111) -/

section Cells

variable {s : State} {y g : Nat}

theorem State.releases_iff (s : State) (c : Cell) :
    s.releases c = true ↔ ∃ o, c.owner = some o ∧ (s.lane o).state = .abandoning := by
  unfold State.releases
  cases c.owner <;> simp

theorem releaseCell_eq (c : Cell) : releaseCell c =
    { level := c.goal, goal := 0, owner := none, kind := .swift, residue := 63, balance := c.balance } := rfl

/-- The columns of segment `g` whose cells a write of the sweep releases. -/
def State.releasedColumns (s : State) (y g : Nat) : List Nat :=
  (segmentColumns s.columns g).filter (fun x => s.releases (s.mem.cell x y))

/-- The ownership changes that the write reports (R4). -/
def State.releaseReports (s : State) (y g : Nat) : List Report :=
  (s.releasedColumns y g).filterMap (fun x => (s.mem.cell x y).owner.map Report.completed)

theorem State.sweepWrite_eq : s.sweepWrite y g = { s with
    mem := s.mem.writeCells (s.releasedColumns y g) y (fun x => releaseCell (s.mem.cell x y))
    lanes := (s.takeReports (s.releaseReports y g)).lanes } := by
  obtain ⟨l, h⟩ := State.takeReports_frame (s.releaseReports y g)
    (s.setMem (s.mem.writeCells (s.releasedColumns y g) y (fun x => releaseCell (s.mem.cell x y))))
  have hlanes := State.takeReports_lanes (s.releaseReports y g) (s := s)
    (t := s.setMem (s.mem.writeCells (s.releasedColumns y g) y (fun x => releaseCell (s.mem.cell x y)))) rfl
  have hwrite : s.sweepWrite y g = (s.setMem (s.mem.writeCells (s.releasedColumns y g) y
    (fun x => releaseCell (s.mem.cell x y)))).takeReports (s.releaseReports y g) := rfl
  rw [hwrite, ← hlanes, h]
  rfl

/-- The write does not read the arbiter. -/
theorem State.freeMemory_sweepWrite :
    s.freeMemory.sweepWrite y g = { s.sweepWrite y g with arb := { s.arb with running := none } } := by
  have hlanes := State.takeReports_lanes (s.releaseReports y g) (s := s) (t := s.freeMemory) rfl
  have hreports : s.freeMemory.releaseReports y g = s.releaseReports y g := rfl
  rw [State.sweepWrite_eq, State.sweepWrite_eq, hreports, hlanes]
  rfl

theorem State.sweepWrite_drafts : (s.sweepWrite y g).mem.drafts = s.mem.drafts := by
  rw [State.sweepWrite_eq]
  exact (PixelMem.writeCells_frame _ y _ s.mem).1

/-- Exactly the cells of ABANDONING lanes in the segment are released (R48). -/
theorem State.sweepWrite_cell (hwf : s.mem.wf = true) (hc : s.columns ≤ 2048) {x : Nat} (hx : x < 2048) (y' : Nat) :
    (s.sweepWrite y g).mem.cell x y' =
      if y' = y ∧ x ∈ segmentColumns s.columns g ∧
          ∃ o, (s.mem.cell x y').owner = some o ∧ (s.lane o).state = .abandoning
        then releaseCell (s.mem.cell x y') else s.mem.cell x y' := by
  have hcell := PixelMem.cell_writeCells y (fun x => releaseCell (s.mem.cell x y)) (s.releasedColumns y g) s.mem hwf
    (fun _ hz => segmentColumns_lt hc (List.mem_filter.1 hz).1) x y' hx
  rw [State.sweepWrite_eq, hcell]
  by_cases hy : y' = y
  · simp only [hy, State.releasedColumns, List.mem_filter, State.releases_iff]
  · simp only [hy, false_and, if_false]

/-! ### The lanes that hear of it (R4, R89) -/

/-- Completions alone lower the live count (R4). -/
theorem Lane.hearAll_completed (i : LaneId) (rs : List Report) (h : ∀ r ∈ rs, ∃ j, r = .completed j) : ∀ l : Lane,
    rs.foldl (Lane.hear i) l = { l with live := l.live - rs.countP (Report.completes i) } := by
  induction rs with
  | nil => exact fun l => rfl
  | cons r rs ih =>
    intro l
    obtain ⟨⟨j, rfl⟩, hrs⟩ := List.forall_mem_cons.1 h
    rw [List.foldl_cons, ih hrs, Lane.hear_completed, List.countP_cons]
    by_cases hj : j = i <;> simp [hj, Report.completes, Nat.sub_sub, Nat.add_comm]

theorem State.releaseReports_completed : ∀ r ∈ s.releaseReports y g, ∃ j, r = Report.completed j := by
  intro r hr
  obtain ⟨x, -, hx⟩ := List.mem_filterMap.1 hr
  obtain ⟨j, -, rfl⟩ := Option.map_eq_some_iff.1 hx
  exact ⟨j, rfl⟩

/-- The cells of lane `i` in segment `g` of line `y`. -/
def State.cellsOf (s : State) (y g : Nat) (i : LaneId) : Nat :=
  (segmentColumns s.columns g).countP (fun x => (s.mem.cell x y).owner = some i)

/-- An ABANDONING lane hears of each of its cells there, and no other lane of any. -/
theorem State.releaseReports_count (i : LaneId) : (s.releaseReports y g).countP (Report.completes i) =
    if (s.lane i).state = .abandoning then s.cellsOf y g i else 0 := by
  rw [State.releaseReports, State.releasedColumns, List.countP_filterMap, List.countP_filter]
  have hone : ∀ x, ((((s.mem.cell x y).owner.map Report.completed).map (Report.completes i)).getD false &&
      s.releases (s.mem.cell x y)) = true ↔ (s.mem.cell x y).owner = some i ∧ (s.lane i).state = .abandoning := by
    intro x
    rw [Bool.and_eq_true, State.releases_iff]
    cases ho : (s.mem.cell x y).owner with
    | none => simp
    | some o =>
      by_cases hi : o = i
      · simp [hi, Report.completes]
      · simp [hi, Report.completes]
  split
  · rename_i hs
    refine List.countP_congr fun x _ => ?_
    rw [hone, decide_eq_true_eq]
    exact and_iff_left hs
  · rename_i hs
    refine List.countP_eq_zero.2 fun x _ => ?_
    rw [hone]
    exact fun h => hs h.2

theorem State.sweepWrite_lane (i : LaneId) : (s.sweepWrite y g).lane i = { s.lane i with
    live := if (s.lane i).state = .abandoning then (s.lane i).live - s.cellsOf y g i else (s.lane i).live } := by
  have hlane : (s.sweepWrite y g).lane i = (s.takeReports (s.releaseReports y g)).lane i :=
    State.lane_of_lanes (by rw [State.sweepWrite_eq])
  rw [hlane, State.takeReports_lane, Lane.hearAll_completed i _ State.releaseReports_completed,
    State.releaseReports_count]
  split <;> rfl

/-- The lanes whose last cells the write releases (R89). -/
def State.sweepLeaves (s : State) (y g : Nat) : List LaneId := (s.sweepWrite y g).justSwept s

theorem State.sweepLeaves_nodup : (s.sweepLeaves y g).Nodup := State.justSwept_nodup _ _

theorem State.mem_sweepLeaves {i : LaneId} : i ∈ s.sweepLeaves y g ↔
    (s.lane i).state = .abandoning ∧ 0 < (s.lane i).live ∧ (s.lane i).live ≤ s.cellsOf y g i := by
  rw [State.sweepLeaves, State.mem_justSwept, State.sweepWrite_lane]
  by_cases hs : (s.lane i).state = .abandoning
  · simp only [hs, if_true, true_and, Nat.sub_eq_zero_iff_le, and_comm]
  · simp [hs]

/-- The part after the write and the lanes that leave with it, but for trigger, submissions and the next access. -/
def State.sweepLeft (s : State) (y g : Nat) : State :=
  (s.sweepLeaves y g).foldl State.leaveAbandoning (s.sweepWrite y g)

theorem State.sweepLeft_frame : ∃ m k l, s.sweepLeft y g = { s with mem := m, cache := k, lanes := l } ∧
    m = (s.sweepWrite y g).mem := by
  obtain ⟨k, l, h⟩ := (s.sweepWrite y g).leaveAbandonings_frame (s.sweepLeaves y g)
  rw [State.sweepLeft, h, State.sweepWrite_eq]
  exact ⟨_, _, _, rfl, rfl⟩

theorem State.sweepLeft_lane (i : LaneId) : (s.sweepLeft y g).lane i =
    if i ∈ s.sweepLeaves y g then ((s.sweepWrite y g).lane i).left.without (s.sweepLeaves y g)
    else ((s.sweepWrite y g).lane i).without (s.sweepLeaves y g) :=
  State.leaveAbandonings_lane State.sweepLeaves_nodup i _

/-- Each lane that leaves releases its reference (R23). -/
theorem State.sweepLeft_slot (sl : SlotId) : (s.sweepLeft y g).cache.slot sl = s.released (s.sweepLeaves y g) sl := by
  have hslots : (s.sweepLeaves y g).countP (fun i => ((s.sweepWrite y g).lane i).slot = some sl) =
      (s.sweepLeaves y g).countP (fun i => (s.lane i).slot = some sl) := List.countP_congr fun i _ => by
    rw [State.sweepWrite_lane]
  have hcache : (s.sweepWrite y g).cache = s.cache := by rw [State.sweepWrite_eq]
  rw [State.sweepLeft, State.leaveAbandonings_slot State.sweepLeaves_nodup, State.released, State.released, hslots,
    hcache]

theorem State.sweepLeft_cache : { (s.sweepLeft y g).cache with a := s.cache.a, b := s.cache.b } = s.cache := by
  have hcache : (s.sweepWrite y g).cache = s.cache := by rw [State.sweepWrite_eq]
  have hothers := State.leaveAbandonings_cache (s.sweepLeaves y g) (s.sweepWrite y g)
  rw [hcache] at hothers
  rw [State.sweepLeft]
  exact hothers

/-- Lanes have left ABANDONING with the write. -/
theorem State.sweepLeft_left : s.LanesLeft (s.sweepLeft y g) (s.sweepLeaves y g) := by
  have hstate : ∀ i, ((s.sweepWrite y g).lane i).state = (s.lane i).state := fun i => by rw [State.sweepWrite_lane]
  obtain ⟨m, k', l, hframe, -⟩ := State.sweepLeft_frame (s := s) (y := y) (g := g)
  refine ⟨?_, ?_, ?_, fun i hi => ?_, fun i hi => ⟨(State.mem_sweepLeaves.1 hi).1, ?_⟩⟩
  · rw [hframe]
  · rw [hframe]
  · rw [hframe]
  · rw [State.sweepLeft_lane, if_neg hi, Lane.without_state, hstate]
  · rw [State.sweepLeft_lane, if_pos hi, Lane.without_state, Lane.left_state]

end Cells

end Sys2Proof.Machine
end

