-- ==== Sys2Proof/Proofs/SweepEnds.lean ====
section
/-! SUPPORT. How an event of the sweep ends: with the next access asked for, or with the sweep over, the test for ready
work beside the trigger (R33, R59), and draining that is over (R63). -/

namespace Sys2Proof.Machine

/-! ### Draining that is over (R63) -/

/-- Draining is over: nothing is pending or in a lane, and the rails are OFF. -/
def State.drainOver (s : State) : Prop :=
  s.adm.mode = .draining ∧ s.power.state = .off ∧ (∀ i, (s.lane i).state = .free) ∧ s.adm.urgent = [] ∧
    s.adm.normal = []

/-- What the test for the end of draining makes of notices and admission unit. -/
structure State.DrainTested (s t : State) : Prop where
  ended : s.drainOver → t.notices = { s.notices with queue := coalesceInto (.drainDone 1) s.notices.queue } ∧
    t.adm = { s.adm with mode := .normal }
  goesOn : ¬ s.drainOver → t.notices = s.notices

theorem State.testDrained_over {s : State} (h : s.drainOver) : s.testDrained = { s with
    notices := { s.notices with queue := coalesceInto (.drainDone 1) s.notices.queue }
    adm := { s.adm with mode := .normal } } := by
  obtain ⟨hmode, hoff, hfree, hu, hn⟩ := h
  rw [State.testDrained, if_pos (by simp [hmode, hoff, State.allFree, hfree, hu, hn])]
  rfl

theorem State.testDrained_not_over {s : State} (h : ¬ s.drainOver) : s.testDrained = s := by
  refine if_neg fun hc => h ?_
  simp only [Bool.and_eq_true, decide_eq_true_eq, State.allFree, List.all_eq_true, List.isEmpty_iff, mem_allLanes,
    true_imp_iff] at hc
  obtain ⟨⟨⟨⟨hmode, hoff⟩, hfree⟩, hu⟩, hn⟩ := hc
  exact ⟨hmode, hoff, hfree, hu, hn⟩

theorem State.testDrained_tested (s : State) : s.DrainTested s.testDrained where
  ended h := by
    rw [State.testDrained_over h]
    exact ⟨rfl, rfl⟩
  goesOn h := by rw [State.testDrained_not_over h]

theorem State.DrainTested.congr {s t t' : State} (h : s.DrainTested t) (hn : t'.notices = t.notices)
    (ha : t'.adm = t.adm) : s.DrainTested t' :=
  ⟨fun ho => ⟨hn.trans (h.ended ho).1, ha.trans (h.ended ho).2⟩, fun ho => hn.trans (h.goesOn ho)⟩

/-- With the rails ON draining is not over. -/
theorem State.drainTested_of_on {s t : State} (hon : s.power.state = .on) (hn : t.notices = s.notices) :
    s.DrainTested t :=
  ⟨fun ⟨_, hoff, _⟩ => (by rw [hon] at hoff; cases hoff), fun _ => hn⟩

/-! ### The next access is asked for -/

section Asked

variable {s u t : State} {a : Arbiter} {c : Scan} {k : Cache} {f : Flash} {old : Arbiter}

/-- The end of an event that is settled but for draining, with another access asked for. -/
theorem State.asked_end {x : Access} (ha : a.scan = some x)
    (ht : t = (State.testDrained { u with arb := a, scan := c, cache := k, flash := f }).arbitrateAfter old) :
    u.DrainTested t ∧ t.mem = u.mem ∧ t.lanes = u.lanes ∧ t.limits = u.limits ∧ t.cache = k ∧ t.scan = c ∧
      t.wb = u.wb ∧ t.thermal = u.thermal ∧ (t.arb.running = some x ∨ t.arb.scan = some x) := by
  have htested := State.testDrained_tested { u with arb := a, scan := c, cache := k, flash := f }
  obtain ⟨n, m, hdrain⟩ := State.testDrained_frame { u with arb := a, scan := c, cache := k, flash := f }
  obtain ⟨b, j, hframe⟩ :=
    (State.testDrained { u with arb := a, scan := c, cache := k, flash := f }).arbitrateAfter_frame old
  have hask := State.arbitrateAfter_scan (x := x)
    (s := State.testDrained { u with arb := a, scan := c, cache := k, flash := f }) (by rw [hdrain]; exact ha) old
  rw [← ht] at hframe hask
  have hnotices : t.notices = (State.testDrained { u with arb := a, scan := c, cache := k, flash := f }).notices := by
    rw [hframe]
  have hadm : t.adm = (State.testDrained { u with arb := a, scan := c, cache := k, flash := f }).adm := by rw [hframe]
  refine ⟨⟨fun h => ?_, fun h => ?_⟩, ?_, ?_, ?_, ?_, ?_, ?_, ?_, hask⟩
  · rw [hnotices, hadm]
    exact htested.ended h
  · rw [hnotices]
    exact htested.goesOn h
  all_goals rw [hframe, hdrain]

/-- The end of such an event that has left nothing else over. -/
theorem State.asked_end_of_quiet {x : Access} (hq : s.quiet = true) (ha : a.scan = some x)
    (ht : t = (State.settle { s with arb := a, scan := c }).arbitrateAfter old) :
    t.scan = c ∧ { t with scan := s.scan, arb := s.arb, choices := s.choices } = s ∧
      (t.arb.running = some x ∨ t.arb.scan = some x) := by
  have hquiet : State.quiet { s with arb := a, scan := c } = true := State.quiet_aside hq s.panel c a
  rw [State.settle_of_quiet hquiet] at ht
  obtain ⟨b, n, hframe⟩ := State.arbitrateAfter_frame { s with arb := a, scan := c } old
  have hask := State.arbitrateAfter_scan (s := { s with arb := a, scan := c }) ha old
  rw [← ht] at hframe hask
  refine ⟨by rw [hframe], by rw [hframe], hask⟩

end Asked

/-! ### The sweep is over (R59) -/

/-- With the rails not ON the power sequencer has nothing to act on. -/
theorem State.settle_of_off {s : State} (hd : s.submissionsDue = []) (hoff : s.power.state ≠ .on) :
    s.settle = s.testDrained := by
  have hpower : s.settlePower = s := by
    unfold State.settlePower
    split
    · rename_i hon
      exact absurd hon hoff
    · rfl
  rw [State.settle, State.flushEnds_of_none hd, hpower]

theorem State.evalTrigger_setArb (s : State) (a : Arbiter) : (s.setArb a).evalTrigger = s.evalTrigger.setArb a := by
  have hb := s.evalTrigger_beside s.power a s.choices
  obtain ⟨k, f, h⟩ := s.evalTrigger_frame
  rw [h] at hb ⊢
  exact hb

section Over

variable {v t : State} {a old : Arbiter}

/-- With the rails ON: the test for ready work, and maybe a reload that starts beside it. -/
theorem State.sweepOver_on (hq : v.quiet = true)
    (ht : t = (v.setArb a).testReady.settle.arbitrateAfter old ∨
      t = (v.setArb a).testReady.evalTrigger.settle.arbitrateAfter old) :
    ∃ w k f, v.readyTested w ∧ t = { w with cache := k, flash := f } := by
  have htested := State.readyTested_of_quiet hq a old
  have hq' : (v.setArb a).quiet = true := hq
  rcases ht with ht | ht
  · rw [← ht] at htested
    exact ⟨t, t.cache, t.flash, htested, rfl⟩
  · rw [State.testReady_evalTrigger_settle hq', State.evalTrigger_arbitrateAfter] at ht
    generalize (v.setArb a).testReady.settle.arbitrateAfter old = w at htested ht
    obtain ⟨k, f, h⟩ := w.evalTrigger_frame
    exact ⟨w, k, f, htested, ht.trans h⟩

/-- With the rails not ON: draining may be over. -/
theorem State.sweepOver_off (hd : v.submissionsDue = []) (hoff : v.power.state ≠ .on)
    (ht : t = (v.setArb a).testReady.settle.arbitrateAfter old ∨
      t = (v.setArb a).testReady.evalTrigger.settle.arbitrateAfter old) :
    ∃ b k f n, t = { v.testDrained with arb := b, cache := k, flash := f, choices := n } := by
  rw [State.testReady_neg (s := v.setArb a) fun h => hoff h.1] at ht
  have hend : ∀ k f, (State.settle { v with arb := a, cache := k, flash := f }) =
      { v.testDrained with arb := a, cache := k, flash := f } := fun k f => by
    rw [State.settle_of_off (by exact hd) (by exact hoff)]
    by_cases h : v.drainOver
    · rw [State.testDrained_over h, State.testDrained_over (by exact h)]
    · rw [State.testDrained_not_over h, State.testDrained_not_over (by exact h)]
  have hany : ∃ k f, t = (State.settle { v with arb := a, cache := k, flash := f }).arbitrateAfter old := by
    rcases ht with ht | ht
    · exact ⟨v.cache, v.flash, ht⟩
    · obtain ⟨k, f, h⟩ := (v.setArb a).evalTrigger_frame
      rw [h] at ht
      exact ⟨k, f, ht⟩
  obtain ⟨k, f, ht⟩ := hany
  obtain ⟨b, n, hframe⟩ := State.arbitrateAfter_frame { v.testDrained with arb := a, cache := k, flash := f } old
  exact ⟨b, k, f, n, by rw [ht, hend, hframe]⟩

/-- The end of the event in which the sweep is over, `v` being the part that the test for ready work sees. -/
theorem State.sweepOver_end (hd : v.submissionsDue = []) (hq : v.power.state = .on → v.quiet = true)
    (hstop : v.scan.pos = .stopped)
    (ht : t = (v.setArb a).testReady.settle.arbitrateAfter old ∨
      t = (v.setArb a).testReady.evalTrigger.settle.arbitrateAfter old) :
    (v.power.state = .on ∧ v.readyWork = true → v.frameBegun t) ∧
      (¬ (v.power.state = .on ∧ v.readyWork = true) →
        t.scan = v.scan ∧ t.mem = v.mem ∧ t.lanes = v.lanes ∧ t.limits = v.limits) ∧
      v.DrainTested t ∧ t.wb = v.wb ∧ t.thermal = v.thermal := by
  by_cases hon : v.power.state = .on
  · obtain ⟨w, k, f, ⟨hframe, hno⟩, rfl⟩ := State.sweepOver_on (hq hon) ht
    by_cases hready : v.readyWork = true
    · obtain ⟨hbegun, -, -, hrest⟩ := hframe ⟨hon, hstop, hready⟩
      refine ⟨fun _ => hbegun, fun h => absurd ⟨hon, hready⟩ h, State.drainTested_of_on hon ?_, ?_, ?_⟩
      · exact (congrArg State.notices hrest :)
      · exact (congrArg State.wb hrest :)
      · exact (congrArg State.thermal hrest :)
    · have hrest := hno fun h => hready h.2.2
      refine ⟨fun h => absurd h.2 hready, fun _ => ⟨?_, ?_, ?_, ?_⟩, State.drainTested_of_on hon ?_, ?_, ?_⟩
      · exact (congrArg State.scan hrest :)
      · exact (congrArg State.mem hrest :)
      · exact (congrArg State.lanes hrest :)
      · exact (congrArg State.limits hrest :)
      · exact (congrArg State.notices hrest :)
      · exact (congrArg State.wb hrest :)
      · exact (congrArg State.thermal hrest :)
  · obtain ⟨b, k, f, n, ht⟩ := State.sweepOver_off hd hon ht
    have htested := v.testDrained_tested.congr (t' := t) (by rw [ht]) (by rw [ht])
    obtain ⟨m, d, hdrain⟩ := v.testDrained_frame
    refine ⟨fun h => absurd h.1 hon, fun _ => ⟨?_, ?_, ?_, ?_⟩, htested, ?_, ?_⟩
    all_goals rw [ht, hdrain]

end Over

end Sys2Proof.Machine
end

