-- ==== Sys2Proof/Proofs/Sweep.lean ====
section
/-! The sweep (R111): its reads, the writes that a line's cells ask for, what a write makes of cells and lanes, and its
end (O45). -/

namespace Sys2Proof.Machine

/-! ### How the sweep goes on -/

section Goes

variable {s : State} {y g : Nat} {rest : List LineAccess} {left : List LaneId}

theorem exec_discardedRead (hr : s.arb.running = some (.scanRead true)) :
    exec .scanReadComplete s = .next (s.discardedRead.arbitrateAfter s.arb) := by
  rw [show exec .scanReadComplete s = execScanReadComplete s from rfl, execScanReadComplete, hr]

/-- In the sweep its first read is asked for after a discarded one (R13). -/
theorem State.discardedRead_sweep (hp : s.scan.pos = .sweep y) : s.discardedRead = s.freeMemory.askScan .sweep := by
  unfold State.discardedRead
  rw [hp]

theorem exec_sweepAccessComplete {a : LineAccess} (hr : s.arb.running = some .sweep) (hp : s.scan.pos = .sweep y)
    (ht : s.scan.todo = a :: rest) :
    exec .sweepAccessComplete s = .next ((s.sweepAccess y a rest).settle.arbitrateAfter s.arb) := by
  rw [show exec .sweepAccessComplete s = execSweepAccessComplete s from rfl, execSweepAccessComplete, hr, hp, ht]

/-- The line's next access is asked for. -/
theorem State.sweepOn_more (h : rest ≠ []) : s.sweepOn left y rest =
    ((s.leaveAll left).setScan { s.scan with todo := rest }).askScan .sweep := by
  simp only [State.sweepOn, List.isEmpty_eq_false_iff.2 h, Bool.not_false, if_true]

/-- The next line's first read is asked for. -/
theorem State.sweepOn_line (h : y + 1 < s.panelLines) : s.sweepOn left y [] =
    ((s.leaveAll left).setScan
      { Scan.stopped with pos := .sweep (y + 1), todo := sweepReads s.columns }).askScan .sweep := by
  simp only [State.sweepOn, List.isEmpty_nil, Bool.not_true, Bool.false_eq_true, if_false, if_pos h]

theorem State.sweepOn_end (h : s.panelLines ≤ y + 1) : s.sweepOn left y [] = s.endSweep left := by
  simp only [State.sweepOn, List.isEmpty_nil, Bool.not_true, Bool.false_eq_true, if_false, if_neg (Nat.not_lt.2 h)]

/-- What the scan engine holds when the sweep of line `y` goes on with the accesses `rest`. -/
def State.sweepNext (s : State) (y : Nat) (rest : List LineAccess) : Scan :=
  if rest ≠ [] then { s.scan with todo := rest }
  else { Scan.stopped with pos := .sweep (y + 1), todo := (List.range ((s.columns + 255) / 256)).map .readCells }

/-- Before its last access the sweep goes on with the lanes that leave, the trigger, and the next access asked for. -/
theorem State.sweepOn_asks (h : rest ≠ [] ∨ y + 1 < s.panelLines) : s.sweepOn left y rest =
    ((s.leaveAll left).setScan (s.sweepNext y rest)).askScan .sweep := by
  by_cases hr : rest = []
  · subst hr
    rw [State.sweepOn_line (h.resolve_left fun h => h rfl), State.sweepNext, if_neg (by simp)]
    rfl
  · rw [State.sweepOn_more hr, State.sweepNext, if_pos hr]

/-! ### Reads -/

theorem State.sweepAccess_read : s.sweepAccess y (.readCells g) rest =
    s.freeMemory.sweepOn [] y (if rest.isEmpty then s.releaseWrites y else rest) := rfl

/-- A read leaves the lanes; where another access follows it is asked for. -/
theorem State.sweepRead_asks {todo : List LineAccess} (h : todo ≠ [] ∨ y + 1 < s.panelLines) :
    s.freeMemory.sweepOn [] y todo =
      { s with arb := { s.arb with running := none, scan := some .sweep }, scan := s.sweepNext y todo } := by
  rw [State.sweepOn_asks (by exact h)]
  rfl

theorem State.sweepRead_asks_end (hq : s.quiet = true) {todo : List LineAccess} (h : todo ≠ [] ∨ y + 1 < s.panelLines)
    {t : State} {old : Arbiter} (ht : t = (s.freeMemory.sweepOn [] y todo).settle.arbitrateAfter old) :
    t.scan = s.sweepNext y todo ∧ { t with scan := s.scan, arb := s.arb, choices := s.choices } = s ∧
      (t.arb.running = some .sweep ∨ t.arb.scan = some .sweep) := by
  rw [State.sweepRead_asks h] at ht
  exact State.asked_end_of_quiet hq rfl ht

/-- With nothing to release on the last line a read is the sweep's last access. -/
theorem State.sweepRead_end (hq : s.quiet = true) (h : s.panelLines ≤ y + 1) : s.freeMemory.sweepOn [] y [] =
    (State.setArb { s with scan := Scan.stopped } { s.arb with running := none }).testReady := by
  have hdue : State.submissionsDue (s.freeMemory.setScan .stopped) = [] := State.quiet_due (s := s) hq
  rw [State.sweepOn_end (by exact h), State.endSweep]
  simp only [List.foldl_nil, State.flushEnds_of_none hdue, List.isEmpty_nil, if_true]
  rfl

/-- The writes of a line are those of the segments with a cell to release, in increasing column order. -/
theorem State.releaseWrites_eq (s : State) (y : Nat) : ∃ gs : List Nat, s.releaseWrites y = gs.map .write ∧
    gs.Pairwise (· < ·) ∧ ∀ j, j ∈ gs ↔ ∃ x, (x < s.columns ∧ ∃ o, (s.mem.cell x y).owner = some o ∧
      (s.lane o).state = .abandoning) ∧ x / 256 = j := by
  refine ⟨_, rfl, pairwise_filter_range _ _, fun j => ?_⟩
  simp only [List.mem_filter, List.mem_range, List.any_eq_true, State.releases_iff, mem_segmentColumns]
  constructor
  · rintro ⟨-, x, ⟨hlo, hhi, hx⟩, ho⟩
    exact ⟨x, ⟨hx, ho⟩, by omega⟩
  · rintro ⟨x, ⟨hx, ho⟩, hj⟩
    exact ⟨segment_lt hx hj, x, ⟨by omega, by omega, hx⟩, ho⟩

theorem State.releaseWrites_nil (s : State) (y : Nat) : s.releaseWrites y = [] ↔ ∀ x, ¬ (x < s.columns ∧
    ∃ o, (s.mem.cell x y).owner = some o ∧ (s.lane o).state = .abandoning) := by
  obtain ⟨gs, hgs, -, hmem⟩ := s.releaseWrites_eq y
  rw [hgs, List.map_eq_nil_iff, List.eq_nil_iff_forall_not_mem]
  constructor
  · exact fun h x hx => h (x / 256) ((hmem _).2 ⟨x, hx, rfl⟩)
  · intro h j hj
    obtain ⟨x, hx, -⟩ := (hmem j).1 hj
    exact h x hx

end Goes

/-! ### Writes -/

section Writes

variable {s : State} {y g : Nat} {rest : List LineAccess}

theorem State.sweepAccess_write : s.sweepAccess y (.write g) rest =
    (s.freeMemory.sweepWrite y g).sweepOn ((s.freeMemory.sweepWrite y g).justSwept s) y rest := rfl

theorem State.justSwept_setArb (w before : State) (a : Arbiter) :
    State.justSwept { w with arb := a } before = w.justSwept before := rfl

/-- The lanes that leave, and the trigger once after them all (log entry 13). -/
theorem State.sweepWrite_leaveAll (a : Arbiter) : ∃ k f,
    State.leaveAll { s.sweepWrite y g with arb := a } (s.sweepLeaves y g) =
      { s.sweepLeft y g with arb := a, cache := k, flash := f } ∧
    k = if s.sweepLeaves y g ≠ [] then (s.sweepLeft y g).evalTrigger.cache else (s.sweepLeft y g).cache := by
  have hleft : (s.sweepLeaves y g).foldl State.leaveAbandoning { s.sweepWrite y g with arb := a } =
      { s.sweepLeft y g with arb := a } :=
    State.leaveAbandonings_arb a (s.sweepLeaves y g) (s.sweepWrite y g)
  by_cases h : s.sweepLeaves y g = []
  · have hnone : s.sweepLeft y g = s.sweepWrite y g := by rw [State.sweepLeft, h, List.foldl_nil]
    rw [h, hnone, State.leaveAll, if_pos List.isEmpty_nil, if_neg (by simp)]
    generalize s.sweepWrite y g = x
    exact ⟨_, _, rfl, rfl⟩
  · rw [State.leaveAll, if_neg (by simpa using h), if_pos h, hleft]
    generalize s.sweepLeft y g = x
    obtain ⟨k, f, he⟩ := x.evalTrigger_frame
    have hb := x.evalTrigger_beside x.power a x.choices
    rw [he] at hb ⊢
    exact ⟨k, f, hb, rfl⟩

/-- A write before the sweep's last access, at the end of its event. -/
theorem State.sweepWrite_asks (h : rest ≠ [] ∨ y + 1 < s.panelLines) : ∃ k f,
    s.sweepAccess y (.write g) rest = { s.sweepLeft y g with
      arb := { s.arb with running := none, scan := some .sweep }, scan := s.sweepNext y rest, cache := k, flash := f } ∧
    k = if s.sweepLeaves y g ≠ [] then (s.sweepLeft y g).evalTrigger.cache else (s.sweepLeft y g).cache := by
  obtain ⟨k, f, hleave, hk⟩ := State.sweepWrite_leaveAll (s := s) (y := y) (g := g) { s.arb with running := none }
  refine ⟨k, f, ?_, hk⟩
  have hnext : State.sweepNext { s.sweepWrite y g with arb := { s.arb with running := none } } y rest =
      s.sweepNext y rest := by rw [State.sweepWrite_eq]; rfl
  have hlines : State.panelLines { s.sweepWrite y g with arb := { s.arb with running := none } } = s.panelLines := by
    rw [State.sweepWrite_eq]
    rfl
  rw [State.sweepAccess_write, State.freeMemory_sweepWrite, State.justSwept_setArb, ← State.sweepLeaves,
    State.sweepOn_asks (by rw [hlines]; exact h), hleave, hnext]
  generalize s.sweepLeft y g = x
  rfl

/-- A write that is the sweep's last access: the sweep is over. -/
theorem State.sweepWrite_over (h : s.panelLines ≤ y + 1) : s.sweepAccess y (.write g) [] =
    if s.sweepLeaves y g = [] then
      (State.setArb { (s.sweepLeft y g).flushEnds with scan := Scan.stopped } { s.arb with running := none }).testReady
    else (State.setArb { (s.sweepLeft y g).flushEnds with scan := Scan.stopped }
      { s.arb with running := none }).triggerWith State.testReady := by
  have hlines : State.panelLines { s.sweepWrite y g with arb := { s.arb with running := none } } = s.panelLines := by
    rw [State.sweepWrite_eq]
    rfl
  have hleft : (s.sweepLeaves y g).foldl State.leaveAbandoning
      { s.sweepWrite y g with arb := { s.arb with running := none } } =
      { s.sweepLeft y g with arb := { s.arb with running := none } } :=
    State.leaveAbandonings_arb _ (s.sweepLeaves y g) (s.sweepWrite y g)
  rw [State.sweepAccess_write, State.freeMemory_sweepWrite, State.justSwept_setArb, ← State.sweepLeaves,
    State.sweepOn_end (by rw [hlines]; exact h), State.endSweep, hleft]
  have hflush := (s.sweepLeft y g).flushEnds_beside { s.arb with running := none } .stopped (s.sweepLeft y g).cache
    (s.sweepLeft y g).flash
  generalize s.sweepLeft y g = x at hflush ⊢
  have hflush' : State.flushEnds (State.setScan { x with arb := { s.arb with running := none } } .stopped) =
      State.setArb { x.flushEnds with scan := Scan.stopped } { s.arb with running := none } := by
    obtain ⟨n, l, a, hf⟩ := x.flushEnds_frame
    rw [hf] at hflush ⊢
    exact hflush
  simp only [hflush', List.isEmpty_iff]

/-- The part `v` that the test for ready work sees when the sweep is over: the trigger may have been evaluated before
(log entry 1). -/
theorem State.sweepOver_sees {u : State} {left : List LaneId} (a : Arbiter) {r : State}
    (hr : r = if left = [] then (State.setArb { u with scan := Scan.stopped } a).testReady
      else (State.setArb { u with scan := Scan.stopped } a).triggerWith State.testReady) :
    ∃ k f n, (k = u.cache ∨ (left ≠ [] ∧ k = u.evalTrigger.cache)) ∧
      (r = (State.setArb { u with scan := Scan.stopped, cache := k, flash := f, choices := n } a).testReady ∨
        r = (State.setArb { u with
          scan := Scan.stopped, cache := k, flash := f, choices := n } a).testReady.evalTrigger) := by
  by_cases h : left = []
  · rw [if_pos h] at hr
    exact ⟨u.cache, u.flash, u.choices, .inl rfl, .inl hr⟩
  · rw [if_neg h] at hr
    obtain ⟨n, hn | hn⟩ := (State.setArb { u with scan := Scan.stopped } a).triggerWith_cases State.testReady
    · obtain ⟨k, f, he⟩ := State.evalTrigger_frame { u with scan := Scan.stopped, choices := n }
      have hk : k = u.evalTrigger.cache := by
        have hsame := State.evalTrigger_cache_congr (s := u) (t := { u with scan := Scan.stopped, choices := n })
          rfl rfl rfl
        rw [← hsame, he]
      have harb := State.evalTrigger_setArb { u with scan := Scan.stopped, choices := n } a
      rw [he] at harb
      exact ⟨k, f, n, .inr ⟨h, hk⟩, .inl (hr.trans (hn.trans (congrArg State.testReady harb)))⟩
    · exact ⟨u.cache, u.flash, n, .inl rfl, .inr (hr.trans hn)⟩

/-- The part that the write leaves with the submissions made, but for the trigger and the next access. -/
def State.sweepEnded (s : State) (y g : Nat) : State := (s.sweepLeft y g).flushEnds

section Ended

variable (hq : s.quiet = true)

include hq

theorem State.sweepEnded_frame : ∃ m k n l,
    s.sweepEnded y g = { s with mem := m, cache := k, notices := n, lanes := l } ∧
      m = (s.sweepWrite y g).mem ∧ k = (s.sweepLeft y g).cache := by
  obtain ⟨n, l, hflush⟩ := (State.sweepLeft_left (y := y) (g := g)).flush_frame hq
  obtain ⟨m, k, l', hleft, hm⟩ := State.sweepLeft_frame (s := s) (y := y) (g := g)
  have hcache : (s.sweepLeft y g).cache = k := by rw [hleft]
  rw [State.sweepEnded, hflush, hcache, hleft]
  exact ⟨_, _, _, _, rfl, hm, rfl⟩

/-- The end of the event before the sweep's last access. -/
theorem State.sweepWrite_asks_end (h : rest ≠ [] ∨ y + 1 < s.panelLines) {t : State} {old : Arbiter}
    (ht : t = (s.sweepAccess y (.write g) rest).settle.arbitrateAfter old) :
    (s.sweepEnded y g).DrainTested t ∧ t.mem = (s.sweepEnded y g).mem ∧ t.lanes = (s.sweepEnded y g).lanes ∧
      t.limits = s.limits ∧
      t.cache = (if s.sweepLeaves y g ≠ [] then (s.sweepEnded y g).evalTrigger.cache else (s.sweepEnded y g).cache) ∧
      t.scan = s.sweepNext y rest ∧ t.wb = s.wb ∧ t.thermal = s.thermal ∧
      (t.arb.running = some .sweep ∨ t.arb.scan = some .sweep) := by
  obtain ⟨k, f, haccess, hk⟩ := State.sweepWrite_asks (g := g) h
  obtain ⟨m, k', n, l, hended, -, hk'⟩ := State.sweepEnded_frame (y := y) (g := g) hq
  obtain ⟨m', k'', l', hleft, -⟩ := State.sweepLeft_frame (s := s) (y := y) (g := g)
  have hcache : (s.sweepEnded y g).cache = (s.sweepLeft y g).cache := by rw [hended, hk']
  have htrigger : (s.sweepEnded y g).evalTrigger.cache = (s.sweepLeft y g).evalTrigger.cache :=
    State.evalTrigger_cache_congr hcache (by rw [hended, hleft]) (by rw [hended, hleft])
  rw [haccess, (State.sweepLeft_left.beside _ _ _ _).settle_eq hq, State.flushEnds_beside, ← State.sweepEnded] at ht
  obtain ⟨hdrain, hmem, hlanes, hlimits, hcache', hscan, hwb, hthermal, hask⟩ := State.asked_end rfl ht
  refine ⟨hdrain, hmem, hlanes, ?_, ?_, hscan, ?_, ?_, hask⟩
  · rw [hlimits, hended]
  · rw [hcache', hk, hcache, htrigger]
  · rw [hwb, hended]
  · rw [hthermal, hended]

theorem State.sweepEnded_dueNil : (s.sweepEnded y g).submissionsDue = [] := by
  have hsilent := (State.sweepLeft_left (y := y) (g := g)).silent hq
  obtain ⟨ds, ws, hended⟩ := State.flushEnds_ended hsilent
  exact hended.dueNil hsilent

/-- The end of the event with the sweep's last access. -/
theorem State.sweepWrite_over_end (h : s.panelLines ≤ y + 1) {t : State} {old : Arbiter}
    (ht : t = (s.sweepAccess y (.write g) []).settle.arbitrateAfter old) : ∃ v : State,
    { v with scan := (s.sweepEnded y g).scan, cache := (s.sweepEnded y g).cache, flash := (s.sweepEnded y g).flash
             choices := (s.sweepEnded y g).choices } = s.sweepEnded y g ∧
      v.scan = Scan.stopped ∧
      (v.cache = (s.sweepEnded y g).cache ∨ (s.sweepLeaves y g ≠ [] ∧ v.cache = (s.sweepEnded y g).evalTrigger.cache)) ∧
      (s.power.state = .on ∧ v.readyWork = true → v.frameBegun t) ∧
      (¬ (s.power.state = .on ∧ v.readyWork = true) →
        t.scan = Scan.stopped ∧ t.mem = (s.sweepEnded y g).mem ∧ t.lanes = (s.sweepEnded y g).lanes ∧
          t.limits = s.limits) ∧
      (s.sweepEnded y g).DrainTested t ∧ t.wb = s.wb ∧ t.thermal = s.thermal := by
  obtain ⟨k, f, n, hk, hr⟩ := State.sweepOver_sees _ (State.sweepWrite_over (g := g) h)
  have hdue := State.sweepEnded_dueNil (y := y) (g := g) hq
  have hon := fun hon => (State.sweepLeft_left (y := y) (g := g)).quiet hq hon
  obtain ⟨m, k', n', l, hended, -⟩ := State.sweepEnded_frame (y := y) (g := g) hq
  have hpower : (s.sweepEnded y g).power = s.power := by rw [hended]
  have hlimits : (s.sweepEnded y g).limits = s.limits := by rw [hended]
  have hwb : (s.sweepEnded y g).wb = s.wb := by rw [hended]
  have hthermal : (s.sweepEnded y g).thermal = s.thermal := by rw [hended]
  rw [← State.sweepEnded] at hk hr hon
  rw [← hpower, ← hlimits, ← hwb, ← hthermal]
  rw [← hpower] at hon
  clear hended
  generalize s.sweepEnded y g = u at hk hr hdue hon ⊢
  have hr' := hr.imp (fun e => ht.trans (congrArg (fun r => State.arbitrateAfter (State.settle r) old) e))
    (fun e => ht.trans (congrArg (fun r => State.arbitrateAfter (State.settle r) old) e))
  obtain ⟨hbegun, hstop, hdrain, hwb, hthermal⟩ := State.sweepOver_end
    (v := { u with scan := Scan.stopped, cache := k, flash := f, choices := n }) hdue hon rfl hr'
  exact ⟨{ u with scan := Scan.stopped, cache := k, flash := f, choices := n }, rfl, rfl, hk, hbegun, hstop,
    ⟨hdrain.ended, hdrain.goesOn⟩, hwb, hthermal⟩

/-- Either way the event ends with the test for the end of draining, and write buffer and thermal unit stay. -/
theorem State.sweepWrite_tail {t : State} {old : Arbiter}
    (ht : t = (s.sweepAccess y (.write g) rest).settle.arbitrateAfter old) :
    (s.sweepEnded y g).DrainTested t ∧ t.wb = s.wb ∧ t.thermal = s.thermal := by
  by_cases h : rest ≠ [] ∨ y + 1 < s.panelLines
  · obtain ⟨hdrain, -, -, -, -, -, hwb, hthermal, -⟩ := State.sweepWrite_asks_end hq h ht
    exact ⟨hdrain, hwb, hthermal⟩
  · rw [not_or, not_not, Nat.not_lt] at h
    obtain ⟨rfl, hy⟩ := h
    obtain ⟨v, -, -, -, -, -, hdrain, hwb, hthermal⟩ := State.sweepWrite_over_end hq hy ht
    exact ⟨hdrain, hwb, hthermal⟩

/-- Lanes that do not leave. -/
theorem State.sweepEnded_kept {i : LaneId} (hi : i ∉ s.sweepLeaves y g) :
    (s.sweepEnded y g).lane i = ((s.sweepWrite y g).lane i).without (s.sweepLeaves y g) := by
  rw [State.sweepEnded, State.sweepLeft_left.lane_kept hq hi, State.sweepLeft_lane, if_neg hi]

/-- Lanes that leave. -/
theorem State.sweepEnded_left {i : LaneId} (hi : i ∈ s.sweepLeaves y g) :
    ((s.sweepEnded y g).lane i = Lane.free ∧
        (s.lane i).noticeWith .abandoned ∈ (s.sweepEnded y g).notices.queue) ∨
      ((s.sweepEnded y g).lane i = ((s.sweepWrite y g).lane i).left.without (s.sweepLeaves y g) ∧
        Submitter.lane i ∈ (s.sweepEnded y g).notices.waiting) := by
  have hlane : (s.sweepLeft y g).lane i = ((s.sweepWrite y g).lane i).left.without (s.sweepLeaves y g) := by
    rw [State.sweepLeft_lane, if_pos hi]
  have hnotice : ((s.sweepLeft y g).lane i).endNotice = (s.lane i).noticeWith .abandoned := by
    rw [hlane, State.sweepWrite_lane]
    rfl
  rw [← hlane, ← hnotice, State.sweepEnded]
  exact State.sweepLeft_left.lane_left hq hi

theorem State.sweepEnded_free {i : LaneId} (hi : i ∈ s.sweepLeaves y g) (hw : s.notices.waiting = [])
    (hroom : s.notices.updateEnds + (s.sweepLeaves y g).length ≤ 31) : (s.sweepEnded y g).lane i = Lane.free :=
  State.sweepLeft_left.lane_free hq State.sweepLeaves_nodup hi hw hroom

end Ended

end Writes

/-! ### Lanes that leave, as a test on lanes -/

section Tests

variable {is : List LaneId} {left : LaneId → Bool} (h : ∀ i, left i = true ↔ i ∈ is)

include h

theorem Lane.without_left (l : Lane) : l.without is = { l with blockers := l.blockers.filter (fun j => !left j) } := by
  have hfilter : ∀ j, decide (j ∉ is) = !left j := fun j => by
    rw [Bool.eq_iff_iff]
    simp [← h j]
  simp only [Lane.without, hfilter]

theorem countP_left (hd : is.Nodup) (p : LaneId → Bool) : is.countP p = allLanes.countP (fun i => left i && p i) := by
  rw [List.countP_eq_length_filter, ← countP_allLanes_mem (hd.filter p)]
  refine List.countP_congr fun i _ => ?_
  simp only [decide_eq_true_eq, List.mem_filter, Bool.and_eq_true, h i]

theorem length_left (hd : is.Nodup) : is.length = allLanes.countP left := by
  rw [← countP_allLanes_mem hd]
  refine List.countP_congr fun i _ => ?_
  rw [decide_eq_true_eq, h i]

theorem any_left : allLanes.any left = true ↔ is ≠ [] := by
  rw [List.any_eq_true, ne_eq, List.eq_nil_iff_forall_not_mem]
  simp only [mem_allLanes, true_and, h]
  exact not_forall_not.symm

end Tests

/-! ### The obligation -/

/-- Settles O45: a discarded read, a read with another access to follow, a line's last read, and a write with what it
makes of cells and lanes and, after the sweep's last access, of the admission unit. -/
theorem sweepReleasesCells : Obligations.SweepReleasesCells := by
  unfold Obligations.SweepReleasesCells
  refine ⟨fun s y hr hp => ?_, fun s y g rest hr hp ht hmore hq => ?_, fun s u y g released hr hp ht hq hu hrel => ?_,
    fun s y g rest n left hr hp ht hwf hc hq hn hleft => ?_⟩
  · have hexec := exec_discardedRead (s := s) hr
    have hask := State.arbitrateAfter_scan (s := s.discardedRead) (x := .sweep)
      (by rw [State.discardedRead_sweep hp]; rfl) s.arb
    obtain ⟨b, n, hframe⟩ := s.discardedRead.arbitrateAfter_frame s.arb
    refine ⟨_, hexec, ?_, hask⟩
    rw [hframe, State.discardedRead_sweep hp]
    rfl
  · have hexec := exec_sweepAccessComplete hr hp ht
    rw [State.sweepAccess_read, List.isEmpty_eq_false_iff.2 hmore, if_neg Bool.false_ne_true] at hexec
    obtain ⟨t, htt⟩ : ∃ t, t = (s.freeMemory.sweepOn [] y rest).settle.arbitrateAfter s.arb := ⟨_, rfl⟩
    rw [← htt] at hexec
    obtain ⟨hscan, hrest, hask⟩ := State.sweepRead_asks_end hq (.inl hmore) htt
    refine ⟨t, hexec, ?_, hrest, hask⟩
    rw [hscan, State.sweepNext, if_pos hmore]
  · have hexec := exec_sweepAccessComplete hr hp ht
    rw [State.sweepAccess_read, List.isEmpty_nil, if_pos rfl] at hexec
    obtain ⟨t, htt⟩ : ∃ t, t = (s.freeMemory.sweepOn [] y (s.releaseWrites y)).settle.arbitrateAfter s.arb := ⟨_, rfl⟩
    rw [← htt] at hexec
    obtain ⟨gs, hgs, hsorted, hmem⟩ := s.releaseWrites_eq y
    have hnil : s.releaseWrites y = [] ↔ ∀ x, ¬ released x := by
      rw [s.releaseWrites_nil y]
      exact forall_congr' fun x => not_congr (hrel x).symm
    have hsome : (∃ x, released x) ↔ s.releaseWrites y ≠ [] := by rw [ne_eq, hnil, not_forall_not]
    have hasks := fun h => State.sweepRead_asks_end hq (todo := s.releaseWrites y) (y := y) h htt
    refine ⟨t, hexec, fun h => (hasks (h.imp_left hsome.1)).2, fun h => ?_, fun hno hy => ?_, fun hno hy => ?_⟩
    · refine ⟨gs, ?_, hsorted, fun j => ?_⟩
      · rw [(hasks (.inl (hsome.1 h))).1, State.sweepNext, if_pos (hsome.1 h), hgs]
      · rw [hmem]
        exact exists_congr fun x => and_congr_left' (hrel x).symm
    · rw [(hasks (.inr hy)).1, State.sweepNext, if_neg (not_not.2 (hnil.2 hno))]
    · rw [hnil.2 hno, State.sweepRead_end hq hy, ← hu] at htt
      have htested := State.readyTested_of_quiet (u := u) (by rw [hu]; exact hq) { s.arb with running := none } s.arb
      rw [← htt] at htested
      obtain ⟨hframe, hno⟩ := htested
      rw [hu] at hframe hno ⊢
      refine ⟨fun ⟨hon, hready⟩ => ?_, fun h => hno fun ⟨hon, _, hready⟩ => h ⟨hon, hready⟩⟩
      obtain ⟨hbegun, hcache, -⟩ := hframe ⟨hon, rfl, hready⟩
      exact ⟨hbegun, hcache⟩
  · have hexec := exec_sweepAccessComplete hr hp ht
    obtain ⟨t, htt⟩ : ∃ t, t = (s.sweepAccess y (.write g) rest).settle.arbitrateAfter s.arb := ⟨_, rfl⟩
    rw [← htt] at hexec
    have hn : ∀ i, n i = s.cellsOf y g i := hn
    have hmem : ∀ i, left i = true ↔ i ∈ s.sweepLeaves y g := fun i => by
      rw [hleft, State.mem_sweepLeaves, hn]
    have hnodup := State.sweepLeaves_nodup (s := s) (y := y) (g := g)
    obtain ⟨hdrain, hwb, hthermal⟩ := State.sweepWrite_tail hq htt
    obtain ⟨m, k, q, l, hframe, hm, hk⟩ := State.sweepEnded_frame (y := y) (g := g) hq
    have humem : (s.sweepEnded y g).mem = (s.sweepWrite y g).mem := by rw [hframe, hm]
    have hucache : (s.sweepEnded y g).cache = (s.sweepLeft y g).cache := by rw [hframe, hk]
    refine ⟨t, s.sweepEnded y g, hexec, ?_, ?_, ?_, ?_, fun sl => ?_, ?_, fun h => ?_, fun hrest hy => ?_, ?_, hwb,
      hthermal⟩
    · rw [hframe]
    · rw [humem, State.sweepWrite_drafts]
    · rintro x y' c hx rfl
      rw [humem, State.sweepWrite_cell hwf hc hx]
      exact ⟨fun h => by rw [if_pos h, releaseCell_eq], fun h => if_neg h⟩
    · rintro i l m rfl rfl
      refine ⟨fun hi => ?_, fun hi => ⟨?_, fun hw hroom => ?_⟩⟩
      · rw [State.sweepEnded_kept hq (by simp [← hmem, hi]), Lane.without_left hmem, State.sweepWrite_lane, hn]
      · rcases State.sweepEnded_left hq ((hmem i).1 hi) with ⟨hfree, hnotice⟩ | ⟨hlane, hwaits⟩
        · exact .inl ⟨hfree, hnotice⟩
        · refine .inr ⟨?_, hwaits⟩
          rw [hlane, Lane.without_left hmem, State.sweepWrite_lane, hn]
          rfl
      · exact State.sweepEnded_free hq ((hmem i).1 hi) hw (by rw [length_left hmem hnodup]; exact hroom)
    · rw [hucache, State.sweepLeft_slot, State.released, countP_left hmem hnodup]
    · rw [hucache]
      exact State.sweepLeft_cache
    · obtain ⟨-, hmem', hlanes, hlimits, hcache, hscan, -, -, hask⟩ := State.sweepWrite_asks_end hq h htt
      refine ⟨hmem', hlanes, hlimits, ?_, hscan, hask⟩
      rw [hcache]
      exact if_congr (any_left hmem).symm rfl rfl
    · subst hrest
      obtain ⟨v, hv, hstop, hcache, hbegun, hrests, -⟩ := State.sweepWrite_over_end hq hy htt
      exact ⟨v, hv, hstop, hcache.imp_right (And.imp_left (any_left hmem).2), hbegun, hrests⟩
    · intro drained hdrained
      have hadm : (s.sweepEnded y g).adm = s.adm := by rw [hframe]
      have hpower : (s.sweepEnded y g).power = s.power := by rw [hframe]
      have hover : (s.sweepEnded y g).drainOver ↔ drained := by rw [hdrained, State.drainOver, hadm, hpower]
      rw [← hover, ← hadm]
      exact ⟨hdrain.ended, hdrain.goesOn⟩

end Sys2Proof.Machine
end

