-- ==== Sys2Proof/Proofs/BandEvaluation.lean ====
section
/-! SUPPORT. The thermistor ladder (R116) as a search by halves, and the evaluation of the band (R122) by its two counts
of boundaries. -/

namespace Sys2Proof.Machine

/-! ### The ladder (R116) -/

/-- One comparison of the ladder: the voltage of its moment, and the weight of the digit under test. -/
def ladderTest (code : Nat) (c : Nat × Nat) : Nat := if code + c.2 ≤ c.1 then code + c.2 else code

theorem ladderCode_eq (thm : Vector Nat 6) :
    ladderCode thm = (thm.toList.zip [32, 16, 8, 4, 2, 1]).foldl ladderTest 0 := rfl

/-- A digit adds its weight at most, whatever voltages are compared. -/
theorem foldl_ladderTest_le (cs : List (Nat × Nat)) (code : Nat) :
    cs.foldl ladderTest code ≤ code + (cs.map Prod.snd).sum := by
  induction cs generalizing code with
  | nil => exact Nat.le_refl code
  | cons c cs ih =>
    have hdigit : ladderTest code c ≤ code + c.2 := by
      unfold ladderTest
      split <;> omega
    have hrest := ih (ladderTest code c)
    rw [List.foldl_cons, List.map_cons, List.sum_cons]
    omega

/-- On a voltage that stands still the last `k` digits reach the largest step at or below it that they can. -/
theorem foldl_ladderTest_steady (v k : Nat) : ∀ {code : Nat}, code ≤ v →
    ((List.range k).reverse.map (fun i => (v, 2 ^ i))).foldl ladderTest code = min (code + (2 ^ k - 1)) v := by
  induction k with
  | zero => exact fun h => (Nat.min_eq_left h).symm
  | succ k ih =>
    intro code h
    have hpos : 0 < 2 ^ k := Nat.two_pow_pos k
    rw [List.range_succ, List.reverse_append, List.reverse_singleton, List.singleton_append, List.map_cons,
      List.foldl_cons, Nat.pow_succ]
    by_cases hstep : code + 2 ^ k ≤ v
    · rw [ladderTest, if_pos hstep, ih hstep]
      omega
    · rw [ladderTest, if_neg hstep, ih h]
      omega

theorem ladderCode_replicate (v : Nat) : ladderCode (Vector.replicate 6 v) = min 63 v := by
  have hweights : (Vector.replicate 6 v).toList.zip [32, 16, 8, 4, 2, 1] =
      (List.range 6).reverse.map (fun i => (v, 2 ^ i)) := rfl
  rw [ladderCode_eq, hweights, foldl_ladderTest_steady v 6 (Nat.zero_le v)]
  rfl

theorem ladderCode_le (thm : Vector Nat 6) : ladderCode thm ≤ 63 := by
  have hweights : (thm.toList.zip [32, 16, 8, 4, 2, 1]).map Prod.snd = [32, 16, 8, 4, 2, 1] :=
    List.map_snd_zip (by simp)
  have h := foldl_ladderTest_le (thm.toList.zip [32, 16, 8, 4, 2, 1]) 0
  rw [hweights] at h
  exact h

/-! ### The evaluation of the band (R122) -/

section

variable {bounds : List Int} {a h h' : Int} {c : Band}

/-- The more the hysteresis asks for, the fewer boundaries are passed. -/
theorem boundsPassed_anti (hle : h ≤ h') : boundsPassed bounds a h' ≤ boundsPassed bounds a h :=
  List.countP_mono_left fun b _ hb => by
    simp only [decide_eq_true_eq] at hb ⊢
    omega

theorem boundsPassed_le_length : boundsPassed bounds a h ≤ bounds.length := List.countP_le_length

/-- The band that an evaluation moves up to, down to, or leaves. -/
theorem evalBand_val (hb : bounds.length ≤ 7) : (evalBand bounds h a c).val =
    if c.val < boundsPassed bounds a h then boundsPassed bounds a h
    else if boundsPassed bounds a (-h) < c.val then boundsPassed bounds a (-h) else c.val := by
  have hfits : ∀ g, (Fin.ofNat 8 (boundsPassed bounds a g)).val = boundsPassed bounds a g := fun g =>
    Nat.mod_eq_of_lt (Nat.lt_succ_of_le (boundsPassed_le_length.trans hb))
  unfold evalBand
  simp only
  split
  · exact hfits h
  · split
    · exact hfits (-h)
    · rfl

/-- After an evaluation the band lies between the two counts, and there an evaluation leaves it. -/
theorem evalBand_evalBand (h0 : 0 ≤ h) (hb : bounds.length ≤ 7) :
    evalBand bounds h a (evalBand bounds h a c) = evalBand bounds h a c := by
  have hcounts : boundsPassed bounds a h ≤ boundsPassed bounds a (-h) := boundsPassed_anti (by omega)
  have hup : ¬ (evalBand bounds h a c).val < boundsPassed bounds a h := by
    rw [evalBand_val hb]
    split_ifs <;> omega
  have hdown : ¬ boundsPassed bounds a (-h) < (evalBand bounds h a c).val := by
    rw [evalBand_val hb]
    split_ifs <;> omega
  refine Fin.ext ?_
  rw [evalBand_val hb, if_neg hup, if_neg hdown]

/-- Without hysteresis the two counts are one, and the band is it. -/
theorem evalBand_zero (hb : bounds.length ≤ 7) :
    (evalBand bounds 0 a c).val = bounds.countP (fun b => b ≤ a) := by
  have hcount : boundsPassed bounds a 0 = bounds.countP (fun b => b ≤ a) := by simp [boundsPassed]
  rw [evalBand_val hb, neg_zero, hcount]
  split_ifs <;> omega

end

/-- Settles O47: the ladder by induction over its digits, the band by the two counts of boundaries. -/
theorem ladderAndBandEvaluation : Obligations.LadderAndBandEvaluation := by
  unfold Obligations.LadderAndBandEvaluation
  refine ⟨ladderCode_replicate, ladderCode_le, fun bounds h a c h0 hb => ⟨evalBand_evalBand h0 hb, ?_⟩⟩
  rintro rfl
  exact evalBand_zero hb

end Sys2Proof.Machine
end

