-- ==== Sys2Proof/Proofs/BandChanges.lean ====
section
/-! SUPPORT. What the thermal unit's operations make of a state (R118 to R125), and how an event that sets the band
ends: nothing left over where the band stays, and a hand-on as `State.handedOn` says where it changes (R24, R59,
R124). -/

namespace Sys2Proof.Machine

/-! ### The thermal unit's operations (R118 to R125) -/

/-- A state with another thermal unit and another notice queue. -/
def State.withThermal (s : State) (th : Thermal) (q : List Notice) : State :=
  { s with thermal := th, notices := { s.notices with queue := q } }

theorem State.withThermal_self (s : State) : s.withThermal s.thermal s.notices.queue = s := rfl

/-- The queue `q` after the band of `s` has become `b` (R124). -/
def State.bandNoticed (s : State) (b : Band) (basis : BandBasis) (temp : Option Int) (q : List Notice) : List Notice :=
  if b = s.thermal.band then q else coalesceInto (.band 1 b basis temp) q

theorem State.bandNoticed_kept {s : State} {b : Band} (h : b = s.thermal.band) (w : BandBasis) (v : Option Int)
    (q : List Notice) : s.bandNoticed b w v q = q := if_pos h

theorem State.bandNoticed_moved {s : State} {b : Band} (h : b ≠ s.thermal.band) (w : BandBasis) (v : Option Int)
    (q : List Notice) : s.bandNoticed b w v q = coalesceInto (.band 1 b w v) q := if_neg h

theorem State.setBand_eq (s : State) (b : Band) (w : BandBasis) (v : Option Int) :
    s.setBand b w v = s.withThermal { s.thermal with band := b } (s.bandNoticed b w v s.notices.queue) := by
  unfold State.setBand State.bandNoticed
  split
  · rename_i h
    rw [h]
    rfl
  · rfl

section Codes

variable {s : State} {code : Nat}

/-- A miss before the fourth counts (R118). -/
theorem State.thermalMiss_counted (hs : s.thermal.sensor ≠ .faulty) (hm : s.thermal.misses < 3) :
    s.thermalMiss code = s.withThermal { s.thermal with misses := s.thermal.misses + 1 } s.notices.queue := by
  simp only [State.thermalMiss, if_neg hs, if_pos hm]
  rfl

/-- A miss of a sensor known to be FAULTY counts no further (R118). -/
theorem State.thermalMiss_faulty (hs : s.thermal.sensor = .faulty) (hm : s.thermal.misses = 4) :
    s.thermalMiss code = s := by
  have hcount : min 4 (s.thermal.misses + 1) = s.thermal.misses := by omega
  simp only [State.thermalMiss, if_pos hs, hcount]
  rfl

/-- With an override the fourth miss leaves the band as it is (R119). -/
theorem State.thermalMiss_overridden (hs : s.thermal.sensor ≠ .faulty) (hm : s.thermal.misses = 3)
    (ho : s.thermal.override ≠ none) : s.thermalMiss code =
      s.withThermal { s.thermal with misses := 4, sensor := .faulty, history := [] }
        (coalesceInto (.sensor 1 .faulty code) s.notices.queue) := by
  have hlast : ¬ s.thermal.misses < 3 := by omega
  simp only [State.thermalMiss, if_neg hs, if_neg hlast, if_neg (mt Option.isNone_iff_eq_none.1 ho)]
  rfl

/-- Without one the band falls back (R119, R123), and its notice comes after the sensor's (R188). -/
theorem State.thermalMiss_fallsBack (hs : s.thermal.sensor ≠ .faulty) (hm : s.thermal.misses = 3)
    (ho : s.thermal.override = none) : s.thermalMiss code =
      s.withThermal { s.thermal with misses := 4, sensor := .faulty, history := [], band := s.hdr.fallback }
        (s.bandNoticed s.hdr.fallback .fallback none (coalesceInto (.sensor 1 .faulty code) s.notices.queue)) := by
  have hlast : ¬ s.thermal.misses < 3 := by omega
  simp only [State.thermalMiss, if_neg hs, if_neg hlast, if_pos (Option.isNone_iff_eq_none.2 ho), State.fallBack,
    State.setBand_eq]
  rfl

/-- The band that the history `h` gives without an override (R121, R122). -/
def State.sampledBand (s : State) (h : List Int) : Band :=
  if s.thermal.override = none then
    evalBand s.hdr.bounds s.hdr.hysteresis (average (s.thermal.depth.getD 1) h) s.thermal.band
  else s.thermal.band

/-- A valid sample (R120): the sensor's notice, where it was FAULTY, comes before the band's (R188). -/
theorem State.thermalSample_eq {h : List Int}
    (hh : h = pushHistory 8 s.thermal.history (s.hdr.thermistor.getD code 0)) : s.thermalSample code =
      s.withThermal { s.thermal with history := h, misses := 0, sensor := .good, band := s.sampledBand h }
        (s.bandNoticed (s.sampledBand h) .sensor (some (average (s.thermal.depth.getD 1) h))
          (if s.thermal.sensor = .faulty then coalesceInto (.sensor 1 .good code) s.notices.queue
            else s.notices.queue)) := by
  subst hh
  have hnoticed : ∀ u : State, (if s.thermal.sensor = .faulty then u.coalesce (.sensor 1 .good code) else u) =
      u.withThermal u.thermal (if s.thermal.sensor = .faulty then coalesceInto (.sensor 1 .good code) u.notices.queue
        else u.notices.queue) := by
    intro u
    split <;> rfl
  simp only [State.thermalSample, hnoticed]
  by_cases ho : s.thermal.override = none
  · rw [if_pos (Option.isNone_iff_eq_none.2 ho), State.evaluateBand, State.setBand_eq, State.sampledBand, if_pos ho]
    rfl
  · rw [if_neg (mt Option.isNone_iff_eq_none.1 ho), State.sampledBand, if_neg ho, State.bandNoticed, if_pos rfl]
    rfl

end Codes

/-! ### The end of an event that sets the band (R24, R59, R124) -/

/-- `t` is what an event has made of `s` that gave it the thermal unit `th` and the notice queue `q`: with the band kept
nothing else changes but the arbiter's grant, and a change of it is handed on. -/
structure State.BandHandedOn (s : State) (th : Thermal) (q : List Notice) (t : State) : Prop where
  thermal : t.thermal = th
  notices : t.notices = { s.notices with queue := q }
  kept : th.band = s.thermal.band → t = { s.withThermal th q with arb := s.arb.grant }
  moved : th.band ≠ s.thermal.band → (s.withThermal th q).handedOn t ∧ (t.scan = s.scan → t.arb = s.arb.grant)

/-- Thermal unit and notice unit have no part in the test for ready work. -/
theorem State.readyTested_keeps {u t : State} (h : u.readyTested t) :
    t.thermal = u.thermal ∧ t.notices = u.notices := by
  obtain ⟨hpos, hneg⟩ := h
  by_cases hc : u.power.state = .on ∧ u.scan.pos = .stopped ∧ u.readyWork = true
  · obtain ⟨-, -, -, hrest⟩ := hpos hc
    exact ⟨(congrArg State.thermal hrest :), (congrArg State.notices hrest :)⟩
  · have hrest := hneg hc
    exact ⟨(congrArg State.thermal hrest :), (congrArg State.notices hrest :)⟩

theorem State.evalTrigger_keeps (s : State) :
    s.evalTrigger.thermal = s.thermal ∧ s.evalTrigger.notices = s.notices := by
  obtain ⟨c, f, h⟩ := s.evalTrigger_frame
  rw [h]
  exact ⟨rfl, rfl⟩

theorem State.handedOn_keeps {u t : State} (h : u.handedOn t) :
    t.thermal = u.thermal ∧ t.notices = u.notices := by
  obtain ⟨hthermal, hnotices⟩ := u.evalTrigger_keeps
  rcases h with h | ⟨w, h, rfl⟩
  · rw [← hthermal, ← hnotices]
    exact State.readyTested_keeps h
  · obtain ⟨hw, hw'⟩ := w.evalTrigger_keeps
    rw [hw, hw']
    exact State.readyTested_keeps h

/-- The end of an event that left nothing over but what it made of thermal unit and notice queue. -/
theorem State.handBand_end {s : State} (hq : s.quiet = true) (th : Thermal) (q : List Notice) :
    s.BandHandedOn th q (((s.withThermal th q).handBand s).settle.arbitrate) := by
  have hquiet : (s.withThermal th q).quiet = true := hq
  by_cases hb : th.band = s.thermal.band
  · rw [State.handBand, if_pos (by exact hb), State.end_of_quiet hquiet]
    exact ⟨rfl, rfl, fun _ => rfl, fun hne => absurd hb hne⟩
  · obtain ⟨hhanded, harb⟩ := State.triggerReady_end hquiet rfl
    obtain ⟨hthermal, hnotices⟩ := State.handedOn_keeps hhanded
    rw [State.handBand, if_neg (by exact hb)]
    exact ⟨hthermal, hnotices, fun h => absurd h hb, fun _ => ⟨hhanded, harb⟩⟩

/-- An event that submits no notice but that of the band's change. -/
theorem State.BandHandedOn.noticed {s t : State} {th : Thermal} {w : BandBasis} {v : Option Int}
    (h : s.BandHandedOn th (s.bandNoticed th.band w v s.notices.queue) t) :
    t.thermal = th ∧
    (th.band = s.thermal.band → t = { s with thermal := t.thermal, arb := s.arb.grant }) ∧
    (th.band ≠ s.thermal.band →
      t.notices = { s.notices with queue := coalesceInto (.band 1 th.band w v) s.notices.queue } ∧
      ({ s with thermal := t.thermal, notices := t.notices }).handedOn t ∧
      (t.scan = s.scan → t.arb = s.arb.grant)) := by
  obtain ⟨hthermal, hnotices, hkept, hmoved⟩ := h
  rw [hthermal, hnotices]
  refine ⟨rfl, fun hb => ?_, fun hb => ⟨?_, hmoved hb⟩⟩
  · rw [State.bandNoticed_kept hb] at hkept
    exact hkept hb
  · rw [State.bandNoticed_moved hb]

/-! ### A hand-on beside the link -/

theorem State.evalTrigger_setLink (s : State) (k : Link) : (s.setLink k).evalTrigger = s.evalTrigger.setLink k := by
  have ht : (s.setLink k).reloadTarget = s.reloadTarget := rfl
  unfold State.evalTrigger
  rw [ht]
  cases s.reloadTarget <;> rfl

theorem State.handedOn_setLink {u t : State} (h : u.handedOn t) (k : Link) :
    (u.setLink k).handedOn (t.setLink k) := by
  rcases h with h | ⟨w, h, rfl⟩
  · refine .inl ?_
    rw [State.evalTrigger_setLink]
    exact State.readyTested_setLink h k
  · exact .inr ⟨w.setLink k, State.readyTested_setLink h k, (w.evalTrigger_setLink k).symm⟩

/-- A reply given in the event changes nothing of how it ends. -/
theorem State.BandHandedOn.setLink {s t : State} {th : Thermal} {q : List Notice} (h : s.BandHandedOn th q t)
    (k : Link) : (s.setLink k).BandHandedOn th q (t.setLink k) where
  thermal := h.thermal
  notices := h.notices
  kept hb := congrArg (State.setLink · k) (h.kept hb)
  moved hb := ⟨State.handedOn_setLink (h.moved hb).1 k, (h.moved hb).2⟩

end Sys2Proof.Machine
end

