-- ==== Sys2Proof/Proofs/Sampling.lean ====
section
/-! SUPPORT. The sample timer and the conversions (R115 to R124). -/

namespace Sys2Proof.Machine

section Conversions

variable {s : State} {thm : Vector Nat 6}

/-- The state at a conversion's end, before its code is classified. -/
def State.converted (s : State) : State := s.setThermal { s.thermal with converting := false }

/-- A conversion whose code makes thermal unit and notice queue these. -/
theorem exec_conversionComplete (hc : s.thermal.converting = true) (hq : s.quiet = true) {th : Thermal}
    {q : List Notice} (hcode : s.converted.thermalCode (ladderCode thm) = s.withThermal th q) :
    ∃ t, exec (.conversionComplete thm) s = .next t ∧ s.BandHandedOn th q t := by
  refine ⟨_, ?_, State.handBand_end hq th q⟩
  rw [← hcode]
  show execConversionComplete thm s = _
  rw [execConversionComplete, if_pos hc]
  rfl

/-- One that keeps the band. -/
theorem exec_conversionComplete_kept (hc : s.thermal.converting = true) (hq : s.quiet = true) {th : Thermal}
    {q : List Notice} (hcode : s.converted.thermalCode (ladderCode thm) = s.withThermal th q)
    (hb : th.band = s.thermal.band) :
    exec (.conversionComplete thm) s = .next { s.withThermal th q with arb := s.arb.grant } := by
  obtain ⟨t, hexec, hend⟩ := exec_conversionComplete hc hq hcode
  rw [hexec, hend.kept hb]

theorem State.thermalCode_miss {code : Nat} (h : code = 0 ∨ code = 63) (s : State) :
    s.thermalCode code = s.thermalMiss code := if_pos (by simpa using h)

theorem State.thermalCode_sample {code : Nat} (h1 : 1 ≤ code) (h62 : code ≤ 62) (s : State) :
    s.thermalCode code = s.thermalSample code := if_neg (by simp only [Bool.or_eq_true, decide_eq_true_eq]; omega)

end Conversions

/-- Settles O46: each code by the branch of the thermal unit it takes; the end of the event hands a change of the band
on. -/
theorem samplingRuns : Obligations.SamplingRuns := by
  unfold Obligations.SamplingRuns
  constructor
  · intro s ht
    show execSampleTimerExpiry s = _
    rw [execSampleTimerExpiry, if_pos (Option.isSome_iff_ne_none.2 ht)]
    rfl
  · rintro s thm code hc hq rfl
    refine ⟨fun hmiss => ?_, fun h1 h62 hs => ?_, fun h1 h62 hs => ?_⟩
    · have hcode := State.thermalCode_miss hmiss s.converted
      refine ⟨fun hs hm => ?_, fun hs hm ho => ?_, fun hs hm ho => ?_, fun hs hm => ?_⟩
      · exact exec_conversionComplete_kept hc hq (hcode.trans (State.thermalMiss_counted hs hm)) rfl
      · exact exec_conversionComplete_kept hc hq (hcode.trans (State.thermalMiss_overridden hs hm ho)) rfl
      · obtain ⟨t, hexec, hthermal, hnotices, hkept, hmoved⟩ :=
          exec_conversionComplete hc hq (hcode.trans (State.thermalMiss_fallsBack hs hm ho))
        refine ⟨t, hexec, hthermal, hnotices, ?_⟩
        rw [hthermal, hnotices]
        exact ⟨hkept, hmoved⟩
      · exact exec_conversionComplete_kept hc hq (hcode.trans (State.thermalMiss_faulty hs hm)) rfl
    · have hcode := (State.thermalCode_sample h1 h62 s.converted).trans (State.thermalSample_eq rfl)
      obtain ⟨t, hexec, hthermal, hnotices, hkept, hmoved⟩ := exec_conversionComplete hc hq hcode
      rw [if_pos (by exact hs)] at hnotices hkept hmoved
      refine ⟨t, _, _, hexec, rfl, hthermal, rfl, ?_⟩
      rw [hthermal, hnotices]
      exact ⟨rfl, hkept, hmoved⟩
    · have hcode := (State.thermalCode_sample h1 h62 s.converted).trans (State.thermalSample_eq rfl)
      obtain ⟨t, hexec, hend⟩ := exec_conversionComplete hc hq hcode
      rw [if_neg (by exact hs)] at hend
      obtain ⟨hthermal, hkept, hmoved⟩ := State.BandHandedOn.noticed (by exact hend)
      refine ⟨t, _, hexec, rfl, hthermal, ?_⟩
      rw [hthermal] at hkept hmoved ⊢
      exact ⟨hkept, hmoved⟩

end Sys2Proof.Machine
end

