-- ==== Sys2Proof/Proofs/ThermalRequests.lean ====
section
/-! SUPPORT. SET-THERMAL and TEMP (R125, R126) at the link and their owner. -/

namespace Sys2Proof.Machine

/-! ### SET-THERMAL (R126) -/

theorem clampDepth_eq (n : Nat) :
    clampDepth n = if n ≤ 1 then 1 else if n ≤ 3 then 2 else if n ≤ 7 then 4 else 8 := by
  unfold clampDepth
  split_ifs <;> omega

/-- What SET-THERMAL's owner reads from its payload, clamps and answers. -/
theorem handleSetThermal_le16 (s : State) {period : Nat} (h : fits16 period) (depth : Byte) :
    handleSetThermal (le16 period ++ [depth]) s =
      (s.setThermal { s.thermal with
          period := some (max 1 (min 600 period)), depth := some (clampDepth depth.toNat)
          timer := some (max 1 (min 600 period)) },
        some (.done (le16 (max 1 (min 600 period)) ++ [byte (clampDepth depth.toNat)]))) := by
  have hperiod : u16At (le16 period ++ [depth]) 0 = period := u16At_le16 h _
  have hdepth : byteAt (le16 period ++ [depth]) 2 = depth.toNat := rfl
  simp only [handleSetThermal, hperiod, hdepth, clampNat, State.doneWith]

/-- Settles O22: the owner clamps what it reads, and sets period, depth and timer alone. -/
theorem setThermalStored : Obligations.SetThermalStored := by
  unfold Obligations.SetThermalStored
  rintro s tag period depth d hv hr hp rfl
  rw [← clampDepth_eq]
  exact exec_answered hv hr (by simp) (linkTests_sent rfl rfl rfl) (handleSetThermal_le16 s hp depth)

/-! ### TEMP (R125) -/

/-- A signed field is read back from the payload of a TEMP with a temperature (R183). -/
theorem tempValue_leInt16 {v : Int} (hlo : -32768 ≤ v) (hhi : v ≤ 32767) : tempValue (0 :: leInt16 v) = some v := by
  have hfield : u16At (0 :: leInt16 v) 1 = (BitVec.ofInt 16 v).toNat :=
    u16At_le16 (BitVec.ofInt 16 v).isLt []
  have hsigned : signed16 (BitVec.ofInt 16 v).toNat = v := by
    rw [signed16, BitVec.ofNat_toNat, BitVec.setWidth_eq, BitVec.toInt_ofInt]
    exact Int.bmod_eq_of_le (by omega) (by omega)
  rw [tempValue, hfield, hsigned]
  rfl

/-- The state a TEMP makes of the thermal unit and the notice queue, before its hand-on. -/
def State.tempTaken (s : State) (p : List Byte) : State := (tempValue p).elim s.clearOverride s.setOverride

/-- A TEMP's reply: the override and the band as they stand. -/
def Thermal.tempReply (th : Thermal) : Reply :=
  .done ([byte (if th.override.isSome then 1 else 0)] ++ leInt16 (th.override.getD 0) ++ [byte th.band.val])

theorem handleTemp_eq (p : List Byte) (s : State) : handleTemp p s =
    (((s.tempTaken p).handBand s).settle, some (((s.tempTaken p).handBand s).settle.thermal.tempReply)) := by
  cases h : tempValue p with
  | none => simp only [handleTemp, State.tempTaken, h, Option.elim_none, State.doneWith, Thermal.tempReply]
  | some v => simp only [handleTemp, State.tempTaken, h, Option.elim_some, State.doneWith, Thermal.tempReply]

/-- TEMP with a temperature: the override is its clamped value, and the band is evaluated from it. -/
theorem State.setOverride_eq {s : State} {v o : Int} (ho : o = max (-160) (min 340 v)) {b : Band}
    (hb : b = evalBand s.hdr.bounds s.hdr.hysteresis o s.thermal.band) : s.setOverride v =
      s.withThermal { s.thermal with override := some o, band := b }
        (s.bandNoticed b .override (some o) s.notices.queue) := by
  have hclamp : clampInt (-160) 340 v = o := ho.symm
  subst hb
  simp only [State.setOverride, hclamp, State.evaluateBand, State.setBand_eq]
  rfl

section Owner

variable {s : State}

/-- TEMP auto without an override. -/
theorem State.clearOverride_none (ho : s.thermal.override = none) : s.clearOverride = s :=
  if_pos (Option.isNone_iff_eq_none.2 ho)

/-- TEMP auto with no sample held. -/
theorem State.clearOverride_fallsBack (ho : s.thermal.override ≠ none) (hh : s.thermal.history = []) :
    s.clearOverride = s.withThermal { s.thermal with override := none, band := s.hdr.fallback }
      (s.bandNoticed s.hdr.fallback .fallback none s.notices.queue) := by
  have haverage : s.thermal.average = none := if_pos (List.isEmpty_iff.2 hh)
  simp only [State.clearOverride, if_neg (mt Option.isNone_iff_eq_none.1 ho), haverage, State.fallBack,
    State.setBand_eq]
  rfl

/-- TEMP auto with samples held. -/
theorem State.clearOverride_samples (ho : s.thermal.override ≠ none) (hh : s.thermal.history ≠ []) {a : Int}
    (ha : a = average (s.thermal.depth.getD 1) s.thermal.history) {b : Band}
    (hb : b = evalBand s.hdr.bounds s.hdr.hysteresis a s.thermal.band) :
    s.clearOverride = s.withThermal { s.thermal with override := none, band := b }
      (s.bandNoticed b .sensor (some a) s.notices.queue) := by
  subst ha hb
  have haverage : s.thermal.average = some (average (s.thermal.depth.getD 1) s.thermal.history) :=
    if_neg (mt List.isEmpty_iff.1 hh)
  simp only [State.clearOverride, if_neg (mt Option.isNone_iff_eq_none.1 ho), haverage, State.evaluateBand,
    State.setBand_eq]
  rfl

/-- A TEMP that makes thermal unit and notice queue these. -/
theorem exec_temp {tag : Byte} {p : List Byte} (hv : s.loader.image = .valid) (hr : s.receives .temp tag p)
    (hq : s.quiet = true) (hl : p.length = 3) (hf : fieldsDefined .temp p = true) {th : Thermal} {q : List Notice}
    (ht : s.tempTaken p = s.withThermal th q) :
    ∃ t, exec (RequestKind.temp.sent tag p) s = .next t ∧ t.link = Link.answered 0x06 tag th.tempReply ∧
      (s.setLink t.link).BandHandedOn th q t := by
  have htests : linkTests RequestKind.temp.code tag p (frameCheck RequestKind.temp.code tag p) = .ok .temp :=
    linkTests_sent (by rw [hl]; rfl) hf rfl
  have hend := State.handBand_end hq th q
  have hexec := exec_answered hv hr (by omega) htests (handleTemp_eq p s)
  rw [ht] at hexec
  generalize ((s.withThermal th q).handBand s).settle = u at hend hexec
  have hreply : u.thermal.tempReply = th.tempReply := congrArg Thermal.tempReply hend.thermal
  rw [hreply] at hexec
  exact ⟨_, hexec, rfl, hend.setLink (Link.answered 0x06 tag th.tempReply)⟩

end Owner

/-- Settles O24: a temperature and each case of auto by what it makes of the thermal unit; the end of the event hands a
change of the band on. -/
theorem tempMovesOverride : Obligations.TempMovesOverride := by
  unfold Obligations.TempMovesOverride
  constructor
  · intro s tag v o b hv hr hlo hhi hq ho hb
    have htaken : s.tempTaken (0 :: leInt16 v) = s.setOverride v := by
      rw [State.tempTaken, tempValue_leInt16 hlo hhi]
      rfl
    obtain ⟨t, hexec, hlink, hend⟩ :=
      exec_temp hv hr hq rfl rfl (htaken.trans (State.setOverride_eq ho hb))
    obtain ⟨hthermal, hkept, hmoved⟩ := State.BandHandedOn.noticed (by exact hend)
    exact ⟨t, hexec, hthermal, hlink, hkept, hmoved⟩
  · intro s tag lo hi hv hr hq
    have htaken : s.tempTaken [1, lo, hi] = s.clearOverride := rfl
    refine ⟨fun ho => ?_, fun ho hh => ?_, fun h a b ho hh hne ha hb => ?_⟩
    · obtain ⟨t, hexec, hlink, hend⟩ := exec_temp hv hr hq rfl rfl
        ((htaken.trans (State.clearOverride_none ho)).trans s.withThermal_self.symm)
      have hreply : s.thermal.tempReply = .done ([0] ++ leInt16 0 ++ [byte s.thermal.band.val]) := by
        rw [Thermal.tempReply, ho]
        rfl
      rw [hexec, hend.kept rfl, hlink, hreply]
      rfl
    · obtain ⟨t, hexec, hlink, hend⟩ := exec_temp hv hr hq rfl rfl
        (htaken.trans (State.clearOverride_fallsBack ho hh))
      obtain ⟨hthermal, hkept, hmoved⟩ := State.BandHandedOn.noticed (by exact hend)
      exact ⟨t, hexec, hthermal, hlink, hkept, hmoved⟩
    · subst hh
      obtain ⟨t, hexec, hlink, hend⟩ := exec_temp hv hr hq rfl rfl
        (htaken.trans (State.clearOverride_samples ho hne ha hb))
      obtain ⟨hthermal, hkept, hmoved⟩ := State.BandHandedOn.noticed (by exact hend)
      exact ⟨t, hexec, hthermal, hlink, hkept, hmoved⟩

end Sys2Proof.Machine
end

