-- ==== Sys2Proof/Proofs/PowerRequests.lean ====
section
/-! SUPPORT. The enable lines (R131), the good lines' filter as SET-POWER sets it (R132, R146), and the requests
SET-POWER and CLEAR-FAULT (R145, R146) at the link and their owner. -/

namespace Sys2Proof.Machine

/-! ### The enable lines (R131) -/

/-- The stages are numbered from 1 (R130). -/
theorem State.stage_succ {s : State} {n : Nat} (h : n < s.hdr.stages.length) : s.stage (n + 1) = s.hdr.stages[n] := by
  simp [State.stage, h]

/-- An enable line is asserted when it is that of a stage up to the last that is up. -/
theorem State.railEnable_iff (s : State) (line : Nat) : s.railEnable line = true ↔
    ∃ j, 1 ≤ j ∧ j ≤ s.stageCount ∧ (s.stage j).enable = line ∧ j ≤ s.stagesUp := by
  simp only [State.railEnable, State.stageCount, List.any_eq_true, decide_eq_true_eq, List.mem_take_iff_getElem]
  constructor
  · rintro ⟨g, ⟨n, hn, rfl⟩, hline⟩
    obtain ⟨hup, hcount⟩ := lt_min_iff.1 hn
    exact ⟨n + 1, by omega, hcount, by rw [State.stage_succ hcount]; exact hline, hup⟩
  · rintro ⟨j, hj, hcount, hline, hup⟩
    obtain ⟨n, rfl⟩ := Nat.exists_eq_succ_of_ne_zero (Nat.one_le_iff_ne_zero.1 hj)
    rw [State.stage_succ hcount] at hline
    exact ⟨_, ⟨n, lt_min hup hcount, rfl⟩, hline⟩

/-- Settles O52: in each power state the stages that are up are those the state names. -/
theorem enableLinesFollowState : Obligations.EnableLinesFollowState := by
  unfold Obligations.EnableLinesFollowState
  intro s line
  rw [State.railEnable_iff]
  refine exists_congr fun j => and_congr_right fun hj => and_congr_right fun hcount => and_congr_right fun _ => ?_
  cases hp : s.power.state with
  | off | fault =>
    simp only [State.stagesUp, hp, iff_false]
    omega
  | on => simp only [State.stagesUp, hp, hcount]
  | rising k | falling k => simp only [State.stagesUp, hp]

/-! ### The end of an event for the power sequencer (R140, R141) -/

/-- In ON and NORMAL with no work in hand, a running idle hold goes on (R140). -/
theorem State.settlePower_holding {s : State} {v : Nat} (hon : s.power.state = .on) (hm : s.adm.mode = .normal)
    (hi : s.idle = true) (ht : s.power.idleTimer = some v) : s.settlePower = s := by
  simp only [State.settlePower, hon, hm, hi, ht, Option.isSome_some, if_true]

/-- With none running the idle hold starts with the value held (R140, R146). -/
theorem State.settlePower_startsHold {s : State} (hon : s.power.state = .on) (hm : s.adm.mode = .normal)
    (hi : s.idle = true) (ht : s.power.idleTimer = none) (hh : s.power.idleHold ≠ 0) :
    s.settlePower = s.setPower { s.power with idleTimer := some s.power.idleHold } := by
  simp only [State.settlePower, hon, hm, hi, ht, Option.isSome_none, Bool.false_eq_true, if_true, if_false, hh]

/-! ### The good lines (R132) -/

theorem State.setLine_goodLine (s : State) (line : Fin 4) (g : GoodLine) : (s.setLine line g).goodLine line = g := by
  show (s.power.lines.set line.val g line.isLt)[line.val] = g
  simp

/-- The record written last is the one that stands. -/
theorem State.setLine_setLine (s : State) (line : Fin 4) (g g' : GoodLine) :
    (s.setLine line g).setLine line g' = s.setLine line g' := by
  simp only [State.setLine, State.setPower, Vector.set_set]

theorem exec_railGoodChange {s : State} {line : Fin 4} {high : Bool} (hr : s.resetHeld = false)
    (hraw : (s.goodLine line).raw ≠ high) (elapsed : Nat) :
    exec (.railGoodChange line high elapsed) s = .next (s.railChange line high elapsed) := by
  show execRailGoodChange line high elapsed s = _
  rw [execRailGoodChange, if_neg (by simp [hr, hraw])]

/-- A raw level that departs from the filtered one is timed with the filter time held. -/
theorem State.railChange_timed {s : State} {line : Fin 4} {high : Bool} (hf : (s.goodLine line).filtered ≠ high)
    (h0 : s.power.filter ≠ 0) (elapsed : Nat) : s.railChange line high elapsed = s.setLine line
      { raw := high, filtered := (s.goodLine line).filtered, timing := some s.power.filter } := by
  simp only [State.railChange]
  rw [if_neg hf.symm, if_neg h0]

/-! ### SET-POWER (R146) -/

theorem clampFilter_eq (n : Nat) :
    clampFilter n = if n ≤ 19 then 0 else if n ≤ 39 then 20 else if n ≤ 79 then 40 else 80 := by
  unfold clampFilter
  split_ifs <;> omega

/-- Every value of the two fields passes the link's tests (R166, R183). -/
theorem linkTests_setPower (tag : Byte) {p : List Byte} (h : p.length = 4) :
    linkTests 0x09 tag p (frameCheck 0x09 tag p) = .ok .setPower :=
  linkTests_sent (k := .setPower) (by rw [h]; rfl) rfl rfl

/-- What SET-POWER's owner reads from its payload, clamps and answers. -/
theorem handleSetPower_le16 (s : State) {hold filter : Nat} (hh : fits16 hold) (hf : fits16 filter) :
    handleSetPower (le16 hold ++ le16 filter) s =
      (s.setPower { s.power with idleHold := min 60000 hold, filter := clampFilter filter },
        some (.done (le16 (min 60000 hold) ++ le16 (clampFilter filter)))) := by
  have h0 : u16At (le16 hold ++ le16 filter) 0 = hold := u16At_le16 hh _
  have h2 : u16At (le16 hold ++ le16 filter) 2 = filter := u16At_le16 (p := []) hf
  simp only [handleSetPower, h0, h2, State.doneWith]

/-- Settles O23: the owner clamps and stores, the gate answers in its place outside VALID, and the two values are read
where a timer starts. -/
theorem setPowerStored : Obligations.SetPowerStored := by
  unfold Obligations.SetPowerStored
  refine ⟨fun tag p h => linkTests_setPower tag h, fun s hon hm hi => ⟨fun v => State.settlePower_holding hon hm hi,
    fun ht hh => State.settlePower_startsHold hon hm hi ht hh⟩, fun s line high elapsed hr hraw hf h0 => ?_, ?_, ?_⟩
  · rw [exec_railGoodChange hr hraw, State.railChange_timed hf h0]
  · rintro s tag hold filter f hr hh hf rfl
    rw [← clampFilter_eq]
    have hlen : (le16 hold ++ le16 filter).length ≤ 272 := by simp
    have htests := linkTests_setPower tag (p := le16 hold ++ le16 filter) (by simp)
    refine ⟨fun hv => ?_, fun hl => ?_, fun ⟨r, hi⟩ => ?_⟩
    · exact exec_answered hv hr hlen htests (handleSetPower_le16 s hh hf)
    · exact exec_gated (by rcases hl with h | h <;> rw [h] <;> rfl) hr hlen htests
    · exact exec_gated (by rw [hi]; rfl) hr hlen htests
  · rintro s t h
    cases h
    exact ⟨rfl, rfl⟩

/-! ### CLEAR-FAULT (R145) -/

/-- A request without payload that its owner answers. -/
theorem exec_clearFault {s u : State} {tag : Byte} {r : Reply} (hv : s.loader.image = .valid)
    (hr : s.receives .clearFault tag []) (ho : handleClearFault s = (u, some r)) :
    exec (RequestKind.clearFault.sent tag []) s =
      .next { u with link := Link.answered 0x0C tag r, arb := u.arb.grant } :=
  exec_answered hv hr (by simp) (linkTests_sent rfl rfl rfl) ho

/-- In OFF a rise starts with a rise request (R133). -/
theorem State.testRise_of_off {s : State} (hoff : s.power.state = .off) :
    s.testRise = if s.riseRequest = true then s.beginStage 1 else s := by
  simp only [State.testRise, hoff, decide_true, Bool.true_and]

/-- The part in OFF with the failed set emptied and the trigger evaluated (R145 steps 1 and 2). -/
theorem State.faultCleared_frame (s : State) : ∃ k f, k.failed = [] ∧
    s.enterOff.clearFailed = { s.enterOff with cache := k, flash := f } := by
  have hfailed : s.enterOff.clearFailed.cache.failed = [] := State.evalTrigger_failed _
  obtain ⟨k, f, h⟩ := s.enterOff.clearFailed_frame
  rw [h] at hfailed
  exact ⟨k, f, hfailed, h⟩

/-- Settles O27: the failed set is emptied in OFF, a rise may start, and of the end of the event only the end of
draining is left. -/
theorem clearFaultLeavesFault : Obligations.ClearFaultLeavesFault := by
  unfold Obligations.ClearFaultLeavesFault
  intro s tag hv hr
  refine ⟨fun hno => exec_clearFault hv hr (if_neg hno), fun hfault hq => ?_⟩
  obtain ⟨k, f, hfailed, hclear⟩ := s.faultCleared_frame
  have hexec := exec_clearFault hv hr (if_pos hfault)
  rw [hclear, State.testRise_of_off (by rfl)] at hexec
  have hrise : State.riseRequest { s.enterOff with cache := k, flash := f } = s.riseRequest := rfl
  rw [hrise] at hexec
  obtain ⟨p, hp, hfault', hrisen⟩ : ∃ p : Power, p.state = (if s.riseRequest then .rising 1 else .off) ∧
      p.lastFault = s.power.lastFault ∧
      (if s.riseRequest = true then State.beginStage { s.enterOff with cache := k, flash := f } 1
        else { s.enterOff with cache := k, flash := f }) = { s with power := p, cache := k, flash := f } := by
    split
    · exact ⟨(s.enterOff.beginStage 1).power, rfl, rfl, rfl⟩
    · exact ⟨s.enterOff.power, rfl, rfl, rfl⟩
  have hoff : p.state ≠ .on := by
    rw [hp]
    split <;> simp
  rw [hrisen, State.settle_of_off (s := { s with power := p, cache := k, flash := f })
    (by exact State.quiet_due (s := s) hq) hoff] at hexec
  obtain ⟨n, m, hdrain⟩ := State.testDrained_frame { s with power := p, cache := k, flash := f }
  rw [hdrain] at hexec
  exact ⟨_, hexec, rfl, hfailed, hp, hfault', rfl, rfl, rfl, rfl, rfl, rfl⟩

end Sys2Proof.Machine
end

