-- ==== Sys2Proof/Proofs/RailStages.lean ====
section
/-! SUPPORT. The power sequencer's own commands: what a filtered change of a good line does (R132, R136, R139), how a
stage of the rise ends and what follows it (R134 to R138), and the fall (R142). -/

namespace Sys2Proof.Machine

/-! ### Filtered changes (R132) -/

/-- The part with a line's raw level taken as its filtered one. -/
def State.levelTaken (s : State) (line : Fin 4) : State :=
  s.setLine line { raw := (s.goodLine line).raw, filtered := (s.goodLine line).raw, timing := none }

theorem exec_glitchFilterExpiry {s : State} {line : Fin 4} (ht : (s.goodLine line).timing ≠ none) (elapsed : Nat) :
    exec (.glitchFilterExpiry line elapsed) s =
      .next ((s.levelTaken line).filteredChange line (s.goodLine line).raw elapsed).settle.arbitrate := by
  show execGlitchFilterExpiry line elapsed s = _
  rw [execGlitchFilterExpiry, if_pos (Option.isSome_iff_ne_none.2 ht)]
  rfl

/-- A raw level that returns to the filtered one is timed no longer. -/
theorem State.railChange_returned {s : State} {line : Fin 4} {high : Bool} (hf : (s.goodLine line).filtered = high)
    (elapsed : Nat) :
    s.railChange line high elapsed = s.setLine line { raw := high, filtered := high, timing := none } := by
  simp only [State.railChange]
  rw [if_pos hf.symm, hf]

/-- With the filter at 0 µs the filtered level follows at once. -/
theorem State.railChange_unfiltered {s : State} {line : Fin 4} {high : Bool} (hf : (s.goodLine line).filtered ≠ high)
    (h0 : s.power.filter = 0) (elapsed : Nat) : s.railChange line high elapsed =
      ((s.setLine line { raw := high, filtered := high, timing := none }).filteredChange line high
        elapsed).settle.arbitrate := by
  simp only [State.railChange]
  rw [if_neg hf.symm, if_pos h0, State.lineFiltered, State.setLine_goodLine, State.setLine_setLine]

/-- In OFF, FALLING and FAULT the sequencer does nothing with a filtered change. -/
theorem State.filteredChange_ignored {s : State}
    (h : s.power.state = .off ∨ (∃ k, s.power.state = .falling k) ∨ s.power.state = .fault) (line : Fin 4) (high : Bool)
    (clocks : Nat) : s.filteredChange line high clocks = s := by
  rcases h with h | ⟨k, h⟩ | h <;> simp only [State.filteredChange, h]

/-- A change loses no stage when every monitored stage on the line is active after it (R139). -/
theorem State.lossStage_none {s : State} {line : Fin 4} {high : Bool}
    (h : ∀ j ∈ s.power.monitored, s.stageOnLine j line = true → (s.stage j).activeHigh = high) :
    s.lossStage line high = none :=
  List.find?_eq_none.2 fun j hj => by
    rw [Bool.and_eq_true, decide_eq_true_eq]
    exact fun ⟨hline, hne⟩ => hne (h j hj hline)

/-- A change that loses none and meets no condition changes nothing but the line. -/
theorem State.filteredChange_unmet {s : State} {line : Fin 4} {high : Bool} (hloss : s.lossStage line high = none)
    (h : s.power.state = .on ∨ ∃ k, s.power.state = .rising k ∧
      ¬ ((s.stage k).condition ≠ .delay ∧ (s.stage k).goodLine = line.val ∧ s.power.blankTimer = none ∧
        (s.stage k).activeHigh = high)) (clocks : Nat) : s.filteredChange line high clocks = s := by
  rcases h with h | ⟨k, h, hno⟩
  · simp only [State.filteredChange, h, hloss]
  · simp only [State.filteredChange, h, hloss]
    rw [if_neg]
    simpa [State.stageOnLine, and_assoc] using hno

/-- A change to active after the blank interval meets the condition of the stage (R136). -/
theorem State.filteredChange_met {s : State} {line : Fin 4} {high : Bool} {k : Nat}
    (hloss : s.lossStage line high = none) (hk : s.power.state = .rising k) (hc : (s.stage k).condition ≠ .delay)
    (hg : (s.stage k).goodLine = line.val) (hb : s.power.blankTimer = none) (ha : (s.stage k).activeHigh = high)
    (clocks : Nat) :
    s.filteredChange line high clocks = s.conditionMet k (measurement clocks ((s.stage k).t * 10)) := by
  simp only [State.filteredChange, hk, hloss]
  rw [if_pos]
  simp [State.stageOnLine, hc, hg, hb, ha]

/-- Settles O48: each outcome of a raw change, and the filter's expiry in the states in which nothing follows it. -/
theorem goodLinesAreFiltered : Obligations.GoodLinesAreFiltered := by
  unfold Obligations.GoodLinesAreFiltered
  refine fun s line high elapsed => ⟨fun hr hraw => ⟨fun hf => ?_, fun hf h0 => ?_, fun hf h0 hq hs => ?_,
    fun hf h0 => ?_⟩, fun ht hq hs => ?_⟩
  · rw [exec_railGoodChange hr hraw, State.railChange_returned hf]
  · rw [exec_railGoodChange hr hraw, State.railChange_timed hf h0]
  · rw [exec_railGoodChange hr hraw, State.railChange_unfiltered hf h0, State.filteredChange_ignored (by exact hs),
      State.end_of_quiet (by exact hq)]
    rfl
  · have htiming : ∀ f,
        ((s.setLine line { raw := high, filtered := f, timing := some 0 }).goodLine line).timing ≠ none :=
      fun f => by simp [State.setLine_goodLine]
    rw [exec_railGoodChange hr hraw, State.railChange_unfiltered hf h0, exec_glitchFilterExpiry (htiming _),
      State.levelTaken, State.setLine_goodLine, State.setLine_setLine]
  · rw [exec_glitchFilterExpiry ht, State.filteredChange_ignored (by exact hs), State.end_of_quiet (by exact hq)]
    rfl

/-! ### The end of a stage (R134, R136, R137) -/

/-- The power record with a stage's condition met: the measurement in its history, the stage monitored (R136). -/
def Power.met (p : Power) (k m : Nat) : Power :=
  { p.setRiseHistory k (pushHistory 8 (p.riseHistory k) m) with monitored := insertStage k p.monitored }

/-- The command `c` ends stage `k` of the rise, and `p` is what it makes of the power record before the next stage
begins: the delay has passed, the timeout is a forced one, the line is active at the end of the blank interval, or it
becomes active after it. -/
inductive State.StageEnds (s : State) (k : Nat) : Instr → Power → Prop
  | delay : (s.stage k).condition = .delay → StageEnds s k .stageDelayExpiry s.power
  | forced : (s.stage k).condition = .goodOrTimeout → s.power.blankTimer = none → StageEnds s k .stageTimeout s.power
  | blank (b : Nat) : s.power.blankTimer = some b → s.stageActive k = true → b < (s.stage k).t * 10 →
      StageEnds s k .blankIntervalEnd (s.power.met k (max 1 b))
  | active (line : Fin 4) (elapsed : Nat) : (s.goodLine line).timing ≠ none →
      (∀ j ∈ s.power.monitored, s.stageOnLine j line = true → (s.stage j).activeHigh = (s.goodLine line).raw) →
      (s.stage k).condition ≠ .delay → (s.stage k).goodLine = line.val → s.power.blankTimer = none →
      (s.stage k).activeHigh = (s.goodLine line).raw →
      StageEnds s k (.glitchFilterExpiry line elapsed)
        ((s.levelTaken line).power.met k (min ((s.stage k).t * 10) (max 1 ((elapsed + 239) / 240))))

/-- A count of whole units below the timeout is measured as it is, and at least as 1 (R136; log entry 12). -/
theorem measurement_units {b timeout : Nat} (h : b < timeout) : measurement (b * 240) timeout = max 1 b := by
  simp only [measurement, ceilDiv, Config.clocksPerUnit]
  omega

/-- However a stage ends, what follows it is the same (R134). -/
theorem exec_stageEnds {s : State} {k : Nat} {c : Instr} {p : Power} (hk : s.power.state = .rising k)
    (h : s.StageEnds k c p) : exec c s = .next ((s.setPower p).endStage k).settle.arbitrate := by
  cases h with
  | delay hc =>
    show execStageDelayExpiry s = _
    rw [execStageDelayExpiry, hk]
    exact congrArg Host.Outcome.next (if_pos hc)
  | forced hc hb =>
    show execStageTimeout s = _
    rw [execStageTimeout, hk, hb]
    simp only [State.stageTimedOut, hc]
    rfl
  | blank b hb ha hlt =>
    have hactive : (s.setPower { s.power with blankTimer := none }).stageActive k = true := ha
    show execBlankIntervalEnd s = _
    rw [execBlankIntervalEnd, hk, hb]
    simp only [State.blankEnd]
    rw [if_pos hactive]
    exact congrArg (fun m => Host.Outcome.next
      ((s.setPower { s.power.met k m with blankTimer := none }).endStage k).settle.arbitrate) (measurement_units hlt)
  | active line elapsed ht hloss hc hg hb ha =>
    rw [exec_glitchFilterExpiry ht, State.filteredChange_met (State.lossStage_none (by exact hloss)) (by exact hk)
      (by exact hc) (by exact hg) (by exact hb) (by exact ha)]
    rfl

/-! ### The next stage (R134, R135) -/

/-- The power record when stage `k` begins (R134, R135). -/
def State.stageBegun (s : State) (k : Nat) (p : Power) : Power :=
  { p with
    state := .rising k, stageTimer := some ((s.stage k).t * 10)
    blankTimer := if (s.stage k).condition = .delay then none else some (s.blankInterval k) }

theorem State.beginStage_eq {s : State} {p : Power} {k : Nat} (h : p.riseHistory k = s.power.riseHistory k) :
    (s.setPower p).beginStage k = s.setPower (s.stageBegun k p) := by
  have hblank : (s.setPower p).blankInterval k = s.blankInterval k := by
    show _ * blankBase _ _ (p.riseHistory k) / _ = _
    rw [h]
    rfl
  rw [State.beginStage, hblank]
  rfl

/-- A measurement of one stage leaves the history of the next as it is (R136). -/
theorem Power.met_riseHistory_succ (p : Power) {k : Nat} (hk : 1 ≤ k) (m : Nat) :
    (p.met k m).riseHistory (k + 1) = p.riseHistory (k + 1) := by
  have hne : k - 1 ≠ k := by omega
  simp [Power.met, Power.riseHistory, Power.setRiseHistory, List.getD, List.getElem?_set_ne hne]

/-- The end of an event with the rails neither ON nor OFF is its submissions alone. -/
theorem State.settle_of_between {s : State} (hd : s.submissionsDue = []) (hon : s.power.state ≠ .on)
    (hoff : s.power.state ≠ .off) : s.settle = s := by
  rw [State.settle_of_off hd hon, State.testDrained_not_over fun ⟨_, h, _⟩ => hoff h]

/-- Below stage S the next stage begins. -/
theorem exec_nextStage {s : State} {k : Nat} {c : Instr} {p : Power} (hk : s.power.state = .rising k)
    (hlt : k < s.stageCount) (hq : s.quiet = true) (h : s.StageEnds k c p)
    (hnext : p.riseHistory (k + 1) = s.power.riseHistory (k + 1)) :
    exec c s = .next { s with power := s.stageBegun (k + 1) p, arb := s.arb.grant } := by
  have hend : (s.setPower p).endStage k = s.setPower (s.stageBegun (k + 1) p) :=
    (if_pos (by exact hlt)).trans (State.beginStage_eq hnext)
  rw [exec_stageEnds hk h, hend, State.settle_of_between (by exact State.quiet_due (s := s) hq)
    (by simp [State.stageBegun]) (by simp [State.stageBegun])]
  rfl

/-! ### The fall (R142) -/

theorem exec_fallDelayExpiry {s : State} {k : Nat} (hk : s.power.state = .falling k) :
    exec .fallDelayExpiry s = .next (s.fallDelayOver k) := by
  show execFallDelayExpiry s = _
  rw [execFallDelayExpiry, hk]

/-- From stage 1 the fall leads to OFF, and a rise may start at once (R133). -/
theorem State.fallDelayOver_last {s : State} {k : Nat} (h : k ≤ 1) : s.fallDelayOver k =
    (if s.riseRequest = true then s.enterOff.beginStage 1 else s.enterOff).settle.arbitrate := by
  rw [State.fallDelayOver, if_neg (Nat.not_lt.2 h), State.testRise_of_off (by rfl)]
  rfl

/-- With nothing pending there is no rise request (R55). -/
theorem State.riseRequest_of_nil {s : State} (hu : s.adm.urgent = []) (hn : s.adm.normal = []) :
    s.riseRequest = false := by simp [State.riseRequest, hu, hn]

/-- Settles O49: the four ways in which a stage below S ends, the changes that end none, and the steps of the fall. -/
theorem stagesAdvance : Obligations.StagesAdvance := by
  unfold Obligations.StagesAdvance
  refine ⟨?_, fun s k b hk hb ha => ?_, fun s line elapsed ht hq hloss hs => ?_, fun s k drained hk hdrained => ?_⟩
  · rintro s k next hk hlt hq rfl
    have hmet := fun m => s.power.met_riseHistory_succ (k := k) (m := m)
    refine ⟨fun hc => exec_nextStage hk hlt hq (.delay hc) rfl,
      fun hc hb => exec_nextStage hk hlt hq (.forced hc hb) rfl,
      fun b hb ha h1 _ hlt' => exec_nextStage hk hlt hq (.blank b hb ha hlt') (hmet _ h1),
      fun line elapsed ht hloss hc hg hb ha h1 _ => ?_⟩
    exact exec_nextStage hk hlt hq (.active line elapsed ht hloss hc hg hb ha)
      ((s.levelTaken line).power.met_riseHistory_succ h1 _)
  · have hactive : ¬ (s.setPower { s.power with blankTimer := none }).stageActive k = true :=
      Bool.not_eq_true _ ▸ ha
    show execBlankIntervalEnd s = _
    rw [execBlankIntervalEnd, hk, hb]
    exact congrArg Host.Outcome.next (if_neg hactive)
  · rw [exec_glitchFilterExpiry ht, State.filteredChange_unmet (State.lossStage_none (by exact hloss)) (by exact hs),
      State.end_of_quiet (by exact hq)]
    rfl
  · have hover : s.enterOff.drainOver ↔ drained := Iff.trans
      ⟨fun ⟨hm, _, hrest⟩ => ⟨hm, hrest⟩, fun ⟨hm, hrest⟩ => ⟨hm, rfl, hrest⟩⟩ hdrained.symm
    have hsettle : s.quiet = true → s.enterOff.settle = s.enterOff.testDrained := fun hq =>
      State.settle_of_off (State.quiet_due (s := s) hq) (by simp [State.enterOff])
    refine ⟨fun h1 => ?_, fun h1 hd hq => ?_, fun h1 hd hq hr => ?_, fun h1 hq hr => ?_⟩
    · rw [exec_fallDelayExpiry hk, State.fallDelayOver, if_pos h1]
      rfl
    · obtain ⟨-, -, hu, hn⟩ := hdrained.1 hd
      rw [exec_fallDelayExpiry hk, State.fallDelayOver_last h1, State.riseRequest_of_nil hu hn, if_neg (by simp),
        hsettle hq, State.testDrained_over (hover.2 hd)]
      rfl
    · rw [exec_fallDelayExpiry hk, State.fallDelayOver_last h1, hr, if_neg (by simp), hsettle hq,
        State.testDrained_not_over (mt hover.1 hd)]
      rfl
    · rw [exec_fallDelayExpiry hk, State.fallDelayOver_last h1, if_pos hr,
        State.settle_of_between (by exact State.quiet_due (s := s) hq) (by simp [State.beginStage])
          (by simp [State.beginStage])]
      rfl

/-! ### ON (R138, R140, R141) -/

/-- A stage's end leaves the idle hold, its timer, and the power state as they are. -/
theorem State.StageEnds.keeps {s : State} {k : Nat} {c : Instr} {p : Power} (h : s.StageEnds k c p) :
    p.idleHold = s.power.idleHold ∧ p.idleTimer = s.power.idleTimer := by
  cases h <;> exact ⟨rfl, rfl⟩

/-- At stage S the sequencer enters ON, with the test for ready work (R138). -/
theorem exec_lastStage {s : State} {k : Nat} {c : Instr} {p : Power} (hk : s.power.state = .rising k)
    (hlast : k = s.stageCount) (h : s.StageEnds k c p) : exec c s = .next
      (s.setPower { p with state := .on, stageTimer := none, blankTimer := none }).testReady.settle.arbitrate := by
  have hend : (s.setPower p).endStage k = (s.setPower p).enterOn := if_neg (by rw [hlast]; exact lt_irrefl _)
  rw [exec_stageEnds hk h, hend]
  rfl

/-- In DRAINING with no lane in flight the fall starts at the end of the event (R141). -/
theorem State.settle_drains {s : State} (hd : s.submissionsDue = []) (hon : s.power.state = .on)
    (hm : s.adm.mode = .draining) (hf : s.lanesInFlight = false) : s.settle = s.enterFalling s.stageCount := by
  have hpower : s.settlePower = s.enterFalling s.stageCount := by
    simp only [State.settlePower, hon, hm, hf, Bool.false_eq_true, if_false]
  rw [State.settle, State.flushEnds_of_none hd, hpower]
  exact State.testDrained_not_over fun ⟨_, hoff, _⟩ => by cases hoff

section Entered

variable {u : State} (hd : u.submissionsDue = []) (hon : u.power.state = .on) (ht : u.power.idleTimer = none)

include hd hon ht

/-- ON is entered with no work in hand: the idle hold starts, or the fall (R140, R141). -/
theorem State.onEntered_idle (ha : u.laneActivity = false) (hr : u.riseRequest = false) :
    (u.adm.mode = .normal → u.power.idleHold ≠ 0 → u.testReady.settle.arbitrate =
      { u with power := { u.power with idleTimer := some u.power.idleHold }, arb := u.arb.grant }) ∧
    (u.adm.mode = .draining ∨ u.power.idleHold = 0 → u.testReady.settle.arbitrate =
      { u with power := (u.enterFalling u.stageCount).power, arb := u.arb.grant }) := by
  have hidle : u.idle = true := by simp [State.idle, ha, hr]
  have htest : u.testReady = u := State.testReady_neg fun ⟨_, _, hready⟩ => by
    simp [State.not_idle_of_readyWork hready] at hidle
  rw [htest]
  refine ⟨fun hm hh => ?_, fun h => ?_⟩
  · rw [State.settle_idle hd hon hm ht, if_pos hidle, if_neg hh]
    rfl
  · cases hm : u.adm.mode with
    | draining =>
      rw [State.settle_drains hd hon hm (State.not_inFlight_of_inactive ha)]
      rfl
    | normal =>
      have hh : u.power.idleHold = 0 := h.resolve_left (by simp [hm])
      rw [State.settle_idle hd hon hm ht, if_pos hidle, if_pos hh]
      rfl

/-- ON is entered in NORMAL with work in hand: nothing is left over but the test for ready work (R59, R140). -/
theorem State.onEntered_quiet (hm : u.adm.mode = .normal) (hi : u.idle = false) : u.quiet = true := by
  simp [State.quiet, hd, State.powerQuiet, hon, hm, hi, ht]

/-- ON is entered with ready work: a frame begins in the same event (R59). -/
theorem State.onEntered_ready (hm : u.adm.mode = .normal) (hs : u.scan.pos = .stopped) (hr : u.readyWork = true)
    {t : State} (htest : t = u.testReady.settle.arbitrate) :
    u.frameBegun t ∧ t.power = u.power ∧ t.cache = u.limitsInForce.armBoundary.cache ∧ t.notices = u.notices ∧
      t.wb = u.wb ∧ t.thermal = u.thermal := by
  have hquiet := State.onEntered_quiet hd hon ht hm (State.not_idle_of_readyWork hr)
  obtain ⟨hbegun, hcache, hpower, hrest⟩ := (State.testReady_end hquiet htest).1.1 ⟨hon, hs, hr⟩
  refine ⟨hbegun, ?_, hcache, ?_, ?_, ?_⟩
  · rw [hpower, ← ht]
  · exact (congrArg State.notices hrest :)
  · exact (congrArg State.wb hrest :)
  · exact (congrArg State.thermal hrest :)

/-- ON is entered with work in hand that cannot start a frame yet. -/
theorem State.onEntered_busy (hm : u.adm.mode = .normal) (hs : u.scan.pos ≠ .stopped ∨ u.readyWork = false)
    (hw : u.laneActivity = true ∨ u.riseRequest = true) :
    u.testReady.settle.arbitrate = { u with arb := u.arb.grant } := by
  have hidle : u.idle = false := by rcases hw with h | h <;> simp [State.idle, h]
  have htest : u.testReady = u := State.testReady_neg fun ⟨_, hstop, hready⟩ => by
    rcases hs with h | h
    · exact h hstop
    · rw [hready] at h
      cases h
  rw [htest, State.end_of_quiet (State.onEntered_quiet hd hon ht hm hidle)]

end Entered

theorem exec_idleHoldExpiry {s : State} (hon : s.power.state = .on) (ht : s.power.idleTimer ≠ none) :
    exec .idleHoldExpiry s = .next (s.enterFalling s.stageCount) := by
  show execIdleHoldExpiry s = _
  rw [execIdleHoldExpiry, if_pos (by simp [hon, Option.isSome_iff_ne_none.2 ht])]

/-- Settles O50: the four ways in which stage S ends lead to one state, whose end of event is that of ON with no idle
hold running yet. -/
theorem onAndIdleHold : Obligations.OnAndIdleHold := by
  unfold Obligations.OnAndIdleHold
  refine ⟨fun s u k c p hk hlast hq htimer hends hu => ?_, fun s hon ht => exec_idleHoldExpiry hon ht⟩
  replace hends : s.StageEnds k c p := by
    rcases hends with ⟨rfl, hc, rfl⟩ | ⟨rfl, hc, hb, rfl⟩ | ⟨b, rfl, hb, ha, hlt, rfl⟩ |
      ⟨line, elapsed, rfl, ht, hloss, hc, hg, hb, ha, rfl⟩
    · exact .delay hc
    · exact .forced hc hb
    · exact .blank b hb ha hlt
    · exact .active line elapsed ht hloss hc hg hb ha
  obtain ⟨hhold, hkept⟩ := hends.keeps
  have hexec : exec c s = .next u.testReady.settle.arbitrate := by
    rw [hu]
    exact exec_lastStage hk hlast hends
  have hdue : u.submissionsDue = [] := by
    rw [hu]
    exact State.quiet_due (s := s) hq
  have hon : u.power.state = .on := by rw [hu]
  have ht : u.power.idleTimer = none := by
    rw [hu]
    exact hkept.trans htimer
  rw [← hhold, hexec]
  clear hexec hends hkept hhold
  subst hu
  refine ⟨fun ha hr => ?_, fun hm => ⟨fun hs hready => ?_, fun hs hw => ?_⟩⟩
  · obtain ⟨hstarts, hfalls⟩ := State.onEntered_idle hdue hon ht ha hr
    exact ⟨fun hm hh => congrArg _ (hstarts hm hh), fun h => congrArg _ (hfalls h)⟩
  · exact ⟨_, rfl, State.onEntered_ready hdue hon ht hm hs hready rfl⟩
  · exact congrArg _ (State.onEntered_busy hdue hon ht hm hs hw)

end Sys2Proof.Machine
end

