-- ==== Sys2Proof/Proofs/Submissions.lean ====
section
/-! SUPPORT. The UPDATE_END submissions of any event (R61, R91, R175, R176): those of lanes and those of the admission
unit, one after another in admission order. -/

namespace Sys2Proof.Machine

/-! ### The updates whose notices are due (R61, R91) -/

/-- An update that ends: a lane's, or that of a cancel-marked entry. -/
inductive Ending
  | lane (i : LaneId)
  | entry (p : Pending)

/-- Who submits its notice. -/
def Ending.submitter : Ending → Submitter
  | .lane i => .lane i
  | .entry _ => .admission

/-- There is room for an UPDATE_END notice, and nobody waits for it (R175). -/
def State.takesEnds (s : State) : Prop := s.notices.updateEnds < 31 ∧ s.notices.waiting = []

/-- The notice is to be submitted: the lane is in REPORTING, or the entry is the earliest marked one, and the submitter
does not wait already. -/
def State.EndDue (s : State) : Ending → Prop
  | .lane i => i ∈ s.lanesDue
  | .entry p => s.adm.earliestMarked = some p ∧ Submitter.admission ∉ s.notices.waiting

def State.endOrder (s : State) : Ending → BitVec 32
  | .lane i => s.laneOrder i
  | .entry p => p.order

def State.noticeOf (s : State) : Ending → Notice
  | .lane i => (s.lane i).endNotice
  | .entry p => p.endNotice

/-- The submission finds room: the lane becomes FREE (R91), or the entry leaves its FIFO (R61). -/
def State.endTaken (s : State) : Ending → State
  | .lane i => (s.queueNotice (s.lane i).endNotice).setLane i Lane.free
  | .entry p => (s.queueNotice p.endNotice).setAdm (s.adm.remove p)

/-- The submission finds none (R175). -/
def State.joinsWaiting (s : State) (w : Submitter) : State :=
  s.setNotices { s.notices with waiting := s.notices.waiting ++ [w] }

/-- The admission orders of the updates whose notices are still to be submitted: those of the lanes due, and of all
marked entries unless the admission unit waits already. -/
def State.ordersDue (s : State) : List (BitVec 32) :=
  s.lanesDue.map s.laneOrder ++ if Submitter.admission ∈ s.notices.waiting then [] else s.adm.marked.map (·.order)

/-- No update whose notice is still to be submitted is earlier than `o` (R176). -/
def State.NoneEarlier (s : State) (o : BitVec 32) : Prop :=
  ∀ base : BitVec 32, (∀ q ∈ s.ordersDue, (q - base).toNat < 2147483648) → ∀ q ∈ s.ordersDue, earlier q o = false

/-- The submissions of an event, from `s` to `t`: `ps` are the notices that join the queue and `ws` the submitters that
wait from now on, each with its admission order. -/
inductive State.Flushed : State → State → List (BitVec 32 × Notice) → List (BitVec 32 × Submitter) → Prop
  | done {s : State} : s.submissionsDue = [] → State.Flushed s s [] []
  | joins {s t : State} {ps ws} (e : Ending) : s.takesEnds → s.EndDue e → s.NoneEarlier (s.endOrder e) →
      State.Flushed (s.endTaken e) t ps ws → State.Flushed s t ((s.endOrder e, s.noticeOf e) :: ps) ws
  | waits {s t : State} {ws} (e : Ending) : ¬ s.takesEnds → s.EndDue e → s.NoneEarlier (s.endOrder e) →
      State.Flushed (s.joinsWaiting e.submitter) t [] ws → State.Flushed s t [] ((s.endOrder e, e.submitter) :: ws)

section Orders

variable {s : State} {e : Ending} {o : BitVec 32}

theorem State.mem_ordersDue : o ∈ s.ordersDue ↔
    (∃ i ∈ s.lanesDue, s.laneOrder i = o) ∨
      (Submitter.admission ∉ s.notices.waiting ∧ ∃ p ∈ s.adm.marked, p.order = o) := by
  unfold State.ordersDue
  split <;> rename_i h <;> simp [h]

theorem Admission.earliestMarked_mem {a : Admission} {p : Pending} (h : a.earliestMarked = some p) : p ∈ a.marked :=
  (earliestBy_spec h).1

theorem State.EndDue.mem_ordersDue (h : s.EndDue e) : s.endOrder e ∈ s.ordersDue := by
  rw [State.mem_ordersDue]
  cases e with
  | lane i => exact .inl ⟨i, h, rfl⟩
  | entry p => exact .inr ⟨h.2, p, Admission.earliestMarked_mem h.1, rfl⟩

/-- A submission is due when the notice of an update is. -/
theorem State.mem_submissionsDue_iff {w : Submitter} :
    (o, w) ∈ s.submissionsDue ↔ ∃ e, s.EndDue e ∧ o = s.endOrder e ∧ w = e.submitter := by
  have hends : (∃ e, s.EndDue e ∧ o = s.endOrder e ∧ w = e.submitter) ↔
      (∃ i ∈ s.lanesDue, o = s.laneOrder i ∧ w = .lane i) ∨
        ∃ p, (s.adm.earliestMarked = some p ∧ Submitter.admission ∉ s.notices.waiting) ∧ o = p.order ∧ w = .admission :=
    ⟨fun ⟨e, h⟩ => by
      cases e with
      | lane i => exact .inl ⟨i, h⟩
      | entry p => exact .inr ⟨p, h⟩, fun h => h.elim (fun ⟨i, h⟩ => ⟨.lane i, h⟩) (fun ⟨p, h⟩ => ⟨.entry p, h⟩)⟩
  unfold State.submissionsDue
  rw [hends, List.mem_append, ← State.lanesDue]
  refine or_congr ?_ ?_
  · simp [State.laneOrder, eq_comm]
  · cases s.adm.earliestMarked <;> simp

/-- The first submission: none due is earlier, and the admission unit's stands for all its marked entries. -/
theorem State.noneEarlier_of_first {x : BitVec 32 × Submitter} (h : earliestBy (·.1) s.submissionsDue = some x) :
    s.NoneEarlier x.1 := by
  obtain ⟨hmem, hfirst⟩ := earliestBy_spec h
  intro base hbase o ho
  have hdue : ∀ y ∈ s.submissionsDue, (y.1 - base).toNat < 2147483648 := fun y hy => by
    obtain ⟨e, he, hy, -⟩ := State.mem_submissionsDue_iff.1 (show (y.1, y.2) ∈ _ from hy)
    exact hbase _ (hy ▸ he.mem_ordersDue)
  have hends := fun e he => hfirst base hdue _ (State.mem_submissionsDue_iff.2 ⟨e, he, rfl, rfl⟩)
  rcases State.mem_ordersDue.1 ho with ⟨i, hi, rfl⟩ | ⟨hw, q, hq, rfl⟩
  · exact hends (.lane i) hi
  · obtain ⟨p, hp⟩ : ∃ p, s.adm.earliestMarked = some p := by
      cases hp : s.adm.earliestMarked with
      | none => rw [earliestBy_eq_none.1 hp] at hq; cases hq
      | some p => exact ⟨p, rfl⟩
    have hmarked : ∀ q ∈ s.adm.marked, (q.order - base).toNat < 2147483648 := fun q hq =>
      hbase _ (State.mem_ordersDue.2 (.inr ⟨hw, q, hq, rfl⟩))
    have hpq := (earliestBy_spec hp).2 base hmarked q hq
    have hxp : earlier p.order x.1 = false := hends (.entry p) ⟨hp, hw⟩
    rw [← Bool.not_eq_true, earlier_iff_of_base (hmarked q hq) (hmarked p (Admission.earliestMarked_mem hp))] at hpq
    rw [← Bool.not_eq_true, earlier_iff_of_base (hmarked p (Admission.earliestMarked_mem hp)) (hdue x hmem)] at hxp
    rw [← Bool.not_eq_true, earlier_iff_of_base (hmarked q hq) (hdue x hmem)]
    omega

end Orders

/-! ### One submission -/

section One

variable {s : State} {e : Ending}

theorem State.submit_takes (h : s.takesEnds) (he : s.EndDue e) : s.submit e.submitter = s.endTaken e := by
  have hdeliver : s.submit e.submitter = s.deliver e.submitter :=
    if_pos (by rw [Bool.and_eq_true, Notices.room_iff, List.isEmpty_iff]; exact h)
  rw [hdeliver]
  cases e with
  | lane i => rfl
  | entry p => simp only [State.deliver, Ending.submitter, he.1, State.endTaken]

theorem State.submit_waits (h : ¬ s.takesEnds) (w : Submitter) : s.submit w = s.joinsWaiting w := State.submit_full h

theorem State.endTaken_queue (e : Ending) :
    (s.endTaken e).notices = { s.notices with queue := s.notices.queue ++ [s.noticeOf e] } := by cases e <;> rfl

theorem State.endTaken_updateEnds (e : Ending) : (s.endTaken e).notices.updateEnds = s.notices.updateEnds + 1 := by
  have hkind : (s.noticeOf e).isUpdateEnd = true := by cases e <;> rfl
  simp [State.endTaken_queue, Notices.updateEnds, hkind]

/-- Where somebody waits there is no room for others. -/
theorem State.joinsWaiting_full (s : State) (w : Submitter) : ¬ (s.joinsWaiting w).takesEnds := fun ⟨_, h⟩ => by
  simp [State.joinsWaiting] at h

theorem State.endTaken_lane_lanesDue (h : s.takesEnds) {i : LaneId} (hi : i ∈ s.lanesDue) :
    (s.endTaken (.lane i)).lanesDue = s.lanesDue.erase i := by
  rw [← s.submit_lanesDue i, ← State.submit_takes (e := .lane i) h hi]
  rfl

theorem State.laneWaits_lanesDue (h : ¬ s.takesEnds) (i : LaneId) :
    (s.joinsWaiting (.lane i)).lanesDue = s.lanesDue.erase i := by rw [← s.submit_lanesDue i, State.submit_waits h]

theorem State.admissionWaits_lanesDue (s : State) : (s.joinsWaiting .admission).lanesDue = s.lanesDue := by
  simp [State.lanesDue, State.joinsWaiting, State.lane]
  rfl

theorem State.joinsWaiting_lanesDue (h : ¬ s.takesEnds) (e : Ending) :
    (s.joinsWaiting e.submitter).lanesDue ⊆ s.lanesDue := by
  cases e with
  | lane i => exact State.laneWaits_lanesDue h i ▸ List.erase_subset
  | entry p => exact s.admissionWaits_lanesDue ▸ List.Subset.refl _

/-- The lanes still due after a submission were due before it, with the same records. -/
theorem State.endTaken_lane_of_due (h : s.takesEnds) (he : s.EndDue e) {j : LaneId} (hj : j ∈ (s.endTaken e).lanesDue) :
    j ∈ s.lanesDue ∧ (s.endTaken e).lane j = s.lane j := by
  cases e with
  | entry p => exact ⟨hj, rfl⟩
  | lane i =>
    rw [State.endTaken_lane_lanesDue h he] at hj
    obtain ⟨hji, hj⟩ := s.lanesDue_nodup.mem_erase_iff.1 hj
    exact ⟨hj, State.setLane_lane_other _ _ hji⟩

/-- Marked entries that are left were marked before. -/
theorem Admission.marked_remove_subset (a : Admission) (p : Pending) : (a.remove p).marked ⊆ a.marked :=
  ((List.erase_sublist.append List.erase_sublist).filter _).subset

theorem State.endTaken_marked (e : Ending) : (s.endTaken e).adm.marked ⊆ s.adm.marked := by
  cases e with
  | lane i => exact List.Subset.refl s.adm.marked
  | entry p => exact Admission.marked_remove_subset _ _

/-- A submission makes no other due. -/
theorem State.endTaken_ordersDue (h : s.takesEnds) (he : s.EndDue e) : (s.endTaken e).ordersDue ⊆ s.ordersDue := by
  intro o ho
  rw [State.mem_ordersDue, State.endTaken_queue] at ho
  rw [State.mem_ordersDue]
  refine ho.imp (fun ⟨j, hj, ho⟩ => ?_) (And.imp_right fun ⟨q, hq, ho⟩ => ⟨q, State.endTaken_marked e hq, ho⟩)
  obtain ⟨hdue, hlane⟩ := State.endTaken_lane_of_due h he hj
  exact ⟨j, hdue, by rw [← ho, State.laneOrder, State.laneOrder, hlane]⟩

theorem State.joinsWaiting_ordersDue (h : ¬ s.takesEnds) (e : Ending) :
    (s.joinsWaiting e.submitter).ordersDue ⊆ s.ordersDue := by
  intro o ho
  rw [State.mem_ordersDue] at ho ⊢
  exact ho.imp (fun ⟨i, hi, ho⟩ => ⟨i, State.joinsWaiting_lanesDue h e hi, ho⟩)
    (And.imp_left fun hw hin => hw (List.mem_append_left _ hin))

/-- The updates in lanes and FIFOs. -/
def State.updatesHeld (s : State) : Nat :=
  allLanes.countP (fun i => (s.lane i).state ≠ .free) + (s.adm.urgent ++ s.adm.normal).length

/-- A lane that becomes FREE is one fewer that is not. -/
theorem countP_allLanes_erase {q r : LaneId → Bool} {i : LaneId} (hi : q i = true) (hr : ∀ j, r j = (j != i && q j)) :
    allLanes.countP r + 1 = allLanes.countP q := by
  have hnodup : (allLanes.filter q).Nodup := List.Nodup.filter _ (by decide)
  have hmem : i ∈ allLanes.filter q := List.mem_filter.2 ⟨mem_allLanes i, hi⟩
  have herase : allLanes.filter r = (allLanes.filter q).erase i := by
    rw [hnodup.erase_eq_filter, List.filter_filter, funext hr]
  rw [List.countP_eq_length_filter, List.countP_eq_length_filter, herase, List.length_erase_of_mem hmem]
  have hpos := List.length_pos_of_mem hmem
  omega

/-- An entry that is in one FIFO alone leaves it (R61). -/
theorem Admission.length_remove {a : Admission} {p : Pending} (hp : p ∈ a.urgent ++ a.normal)
    (hone : p ∈ a.urgent → p ∉ a.normal) :
    ((a.remove p).urgent ++ (a.remove p).normal).length + 1 = (a.urgent ++ a.normal).length := by
  simp only [Admission.remove, List.length_append]
  by_cases hu : p ∈ a.urgent
  · have hpos := List.length_pos_of_mem hu
    rw [List.length_erase_of_mem hu, List.erase_of_not_mem (hone hu)]
    omega
  · have hn : p ∈ a.normal := (List.mem_append.1 hp).resolve_left hu
    have hpos := List.length_pos_of_mem hn
    rw [List.erase_of_not_mem hu, List.length_erase_of_mem hn]
    omega

/-- A submission that finds room ends one update. -/
theorem State.endTaken_updatesHeld (he : s.EndDue e) (hone : ∀ p ∈ s.adm.marked, p ∈ s.adm.urgent → p ∉ s.adm.normal) :
    (s.endTaken e).updatesHeld + 1 = s.updatesHeld := by
  cases e with
  | lane i =>
    have hreports : (s.lane i).state = .reporting := (State.mem_lanesDue.1 he).1
    have hcount := countP_allLanes_erase (q := fun j => (s.lane j).state ≠ .free)
      (r := fun j => ((s.endTaken (.lane i)).lane j).state ≠ .free) (i := i) (by simp [hreports]) fun j => by
        have hlane : (s.endTaken (.lane i)).lane j = if j = i then Lane.free else s.lane j := State.setLane_lane _ i j _
        rw [hlane]
        by_cases hj : j = i <;> simp [hj, Lane.free]
    have hadm : (s.endTaken (.lane i)).adm = s.adm := rfl
    rw [State.updatesHeld, State.updatesHeld, hadm, ← hcount]
    omega
  | entry p =>
    have hp := Admission.earliestMarked_mem he.1
    have hlength := Admission.length_remove (List.mem_of_mem_filter hp) (hone p hp)
    have hadm : (s.endTaken (.entry p)).adm = s.adm.remove p := rfl
    have hlane : (s.endTaken (.entry p)).lane = s.lane := rfl
    rw [State.updatesHeld, State.updatesHeld, hadm, hlane, ← hlength]
    omega

end One

/-! ### The rounds of an event's submissions -/

section Rounds

variable {s : State} {e : Ending}

/-- A bound for the submissions that are still to be made: those that there is room for, and those that then wait. -/
def State.endsLeft (s : State) : Nat :=
  (if s.notices.waiting = [] then 31 - s.notices.updateEnds else 0) + s.lanesDue.length +
    if Submitter.admission ∈ s.notices.waiting then 0 else 1

/-- Sixty-four rounds are enough for every event. -/
theorem State.endsLeft_le (s : State) : s.endsLeft ≤ 64 := by
  have hlanes := s.lanesDue_length
  unfold State.endsLeft
  split <;> split <;> omega

theorem State.endTaken_endsLeft (h : s.takesEnds) (he : s.EndDue e) : (s.endTaken e).endsLeft < s.endsLeft := by
  have hlanes : (s.endTaken e).lanesDue.length ≤ s.lanesDue.length := by
    cases e with
    | lane i =>
      rw [State.endTaken_lane_lanesDue h he]
      exact List.length_erase_le
    | entry p => exact le_refl s.lanesDue.length
  obtain ⟨hroom, hnone⟩ := h
  have hwaiting : (s.endTaken e).notices.waiting = [] := by rw [State.endTaken_queue, hnone]
  simp only [State.endsLeft, State.endTaken_updateEnds, hwaiting, hnone, if_true]
  omega

theorem State.joinsWaiting_endsLeft (h : ¬ s.takesEnds) (he : s.EndDue e) :
    (s.joinsWaiting e.submitter).endsLeft < s.endsLeft := by
  have hwaiting : ∀ w, (s.joinsWaiting w).notices.waiting = s.notices.waiting ++ [w] := fun _ => rfl
  cases e with
  | lane i =>
    have hpos := List.length_pos_of_mem he
    simp only [State.endsLeft, Ending.submitter, State.laneWaits_lanesDue h, List.length_erase_of_mem he, hwaiting,
      List.append_eq_nil_iff, List.cons_ne_nil, and_false, if_false, List.mem_append, List.mem_singleton, reduceCtorEq,
      or_false]
    omega
  | entry p =>
    simp only [State.endsLeft, Ending.submitter, State.admissionWaits_lanesDue, if_neg he.2, hwaiting]
    simp

end Rounds

/-- The submissions that an event's rounds make, as long as there are rounds for them (R176). -/
theorem State.submitDue_flushed (n : Nat) : ∀ s : State, s.endsLeft ≤ n →
    ∃ ps ws, s.Flushed (State.submitDue n s) ps ws ∧ (¬ s.takesEnds → ps = []) := by
  induction n with
  | zero =>
    intro s h
    unfold State.endsLeft at h
    have hlanes : s.lanesDue = [] := List.length_eq_zero_iff.1 (by omega)
    have hsilent : s.admissionSilent := .inr (by by_contra hw; rw [if_neg hw] at h; omega)
    exact ⟨[], [], .done (by rw [State.submissionsDue_lanes hsilent, hlanes, List.map_nil]), fun _ => rfl⟩
  | succ n ih =>
    intro s h
    rw [State.submitDue]
    split
    · rename_i hnone
      exact ⟨[], [], .done (earliestBy_eq_none.1 hnone), fun _ => rfl⟩
    · rename_i hsome
      have hnone := State.noneEarlier_of_first hsome
      obtain ⟨e, he, rfl, rfl⟩ := State.mem_submissionsDue_iff.1 (earliestBy_spec hsome).1
      by_cases hr : s.takesEnds
      · obtain ⟨ps, ws, hend, -⟩ := ih (s.endTaken e) (by have := State.endTaken_endsLeft hr he; omega)
        rw [State.submit_takes hr he]
        exact ⟨_, _, .joins e hr he hnone hend, fun hno => absurd hr hno⟩
      · obtain ⟨ps, ws, hend, hnil⟩ := ih (s.joinsWaiting e.submitter)
          (by have := State.joinsWaiting_endsLeft hr he; omega)
        obtain rfl := hnil (s.joinsWaiting_full _)
        rw [State.submit_waits hr]
        exact ⟨_, _, .waits e hr he hnone hend, fun _ => rfl⟩

/-- The submissions of an event. -/
theorem State.flushEnds_flushed (s : State) : ∃ ps ws, s.Flushed s.flushEnds ps ws := by
  obtain ⟨ps, ws, h, -⟩ := State.submitDue_flushed 64 s s.endsLeft_le
  exact ⟨ps, ws, h⟩

/-! ### What an event's submissions make of the part -/

section Flushed

variable {s t : State} {ps : List (BitVec 32 × Notice)} {ws : List (BitVec 32 × Submitter)}

/-- Notices join the queue and submitters the waiting list; lanes and FIFOs aside, nothing else changes. -/
theorem State.Flushed.frame (h : s.Flushed t ps ws) : t = { s with
    lanes := t.lanes
    adm := { s.adm with urgent := t.adm.urgent, normal := t.adm.normal }
    notices := {
      queue := s.notices.queue ++ ps.map (fun x => x.2), waiting := s.notices.waiting ++ ws.map (fun x => x.2) } } := by
  induction h with
  | done => simp
  | joins e _ _ _ _ ih =>
    refine ih.trans ?_
    rw [State.endTaken_queue]
    cases e <;> simp [State.endTaken, State.queueNotice, State.setNotices, State.setAdm, State.setLane, State.setLanes,
      Admission.remove]
  | waits _ _ _ _ _ ih =>
    refine ih.trans ?_
    simp [State.joinsWaiting, State.setNotices]

theorem State.Flushed.dueNil (h : s.Flushed t ps ws) : t.submissionsDue = [] := by
  induction h with
  | done h => exact h
  | joins _ _ _ _ _ ih | waits _ _ _ _ _ ih => exact ih

/-- Notices join where nobody waits, and up to 31 of them (R175). -/
theorem State.Flushed.room (h : s.Flushed t ps ws) :
    ps ≠ [] → s.notices.waiting = [] ∧ s.notices.updateEnds + ps.length ≤ 31 := by
  induction h with
  | done => exact fun h => absurd rfl h
  | waits => exact fun h => absurd rfl h
  | @joins s _ ps _ e hr _ _ _ ih =>
    refine fun _ => ⟨hr.2, ?_⟩
    rw [State.endTaken_updateEnds] at ih
    cases ps with
    | nil => exact hr.1
    | cons x ps =>
      have hlength := (ih (by simp)).2
      simp only [List.length_cons] at hlength ⊢
      omega

/-- Submitters wait where others do, or with 31 notices queued (R175). -/
theorem State.Flushed.full (h : s.Flushed t ps ws) :
    ws ≠ [] → s.notices.waiting ≠ [] ∨ 31 ≤ s.notices.updateEnds + ps.length := by
  induction h with
  | done => exact fun h => absurd rfl h
  | waits e hr =>
    intro _
    by_contra hno
    rw [not_or, not_not, List.length_nil] at hno
    exact hr ⟨by omega, hno.1⟩
  | joins e hr _ _ _ ih =>
    intro hne
    rw [State.endTaken_updateEnds, State.endTaken_queue] at ih
    refine (ih hne).imp id fun h => ?_
    rw [List.length_cons]
    omega

/-- Who finds no room leaves lanes and admission unit as they are. -/
theorem State.Flushed.of_full (h : s.Flushed t ps ws) (hfull : ¬ s.takesEnds) : t.lanes = s.lanes ∧ t.adm = s.adm := by
  induction h with
  | done => exact ⟨rfl, rfl⟩
  | joins _ hr => exact absurd hr hfull
  | waits e _ _ _ _ ih => exact ih (State.joinsWaiting_full _ _)

/-- Where the admission unit has nothing to submit, it submits nothing. -/
theorem State.Flushed.adm_of_silent (h : s.Flushed t ps ws) (hs : s.admissionSilent) : t.adm = s.adm := by
  induction h with
  | done => rfl
  | @joins s _ _ _ e _ he _ _ ih =>
    cases e with
    | lane i => exact ih hs
    | entry p =>
      rcases hs with hs | hs
      · exact absurd (Admission.earliestMarked_mem he.1) (by simp [hs])
      · exact absurd hs he.2
  | waits _ hr _ _ hend => exact (hend.of_full (State.joinsWaiting_full _ _)).2

/-- A lane stays as it is, or it was due and is FREE with its notice queued. -/
theorem State.Flushed.lane_cases (h : s.Flushed t ps ws) (i : LaneId) : t.lane i = s.lane i ∨
    (i ∈ s.lanesDue ∧ t.lane i = Lane.free ∧ (s.laneOrder i, (s.lane i).endNotice) ∈ ps) := by
  induction h with
  | done => exact .inl rfl
  | waits _ _ _ _ hend => exact .inl (State.lane_of_lanes (hend.of_full (State.joinsWaiting_full _ _)).1)
  | @joins s t _ _ e hr he _ _ ih =>
    cases e with
    | entry p => exact ih.imp_right fun ⟨hi, hfree, hmem⟩ => ⟨hi, hfree, List.mem_cons_of_mem _ hmem⟩
    | lane j =>
      have hlane : (s.endTaken (.lane j)).lane i = if i = j then Lane.free else s.lane i := State.setLane_lane _ j i _
      rw [State.endTaken_lane_lanesDue hr he, s.lanesDue_nodup.mem_erase_iff, State.laneOrder, hlane] at ih
      by_cases hj : i = j
      · subst hj
        simp only [if_true, ne_eq, not_true_eq_false, false_and, or_false] at ih
        exact .inr ⟨he, ih, List.mem_cons_self⟩
      · rw [if_neg hj] at ih
        exact ih.imp_right fun ⟨hi, hfree, hmem⟩ => ⟨hi.2, hfree, List.mem_cons_of_mem _ hmem⟩

/-- A lane in REPORTING becomes FREE with its notice queued, or it waits (R91, R175). -/
theorem State.Flushed.lane_reports (h : s.Flushed t ps ws) {i : LaneId} (hi : (s.lane i).state = .reporting) :
    (t.lane i = Lane.free ∧ (s.lane i).endNotice ∈ t.notices.queue) ∨
      (t.lane i = s.lane i ∧ Submitter.lane i ∈ t.notices.waiting) := by
  rcases h.lane_cases i with hlane | ⟨-, hfree, hmem⟩
  · exact .inr ⟨hlane, (t.submissionsDue_eq_nil.1 h.dueNil).1 i (by rw [hlane, hi])⟩
  · refine .inl ⟨hfree, ?_⟩
    rw [h.frame]
    exact List.mem_append_right _ (List.mem_map.2 ⟨_, hmem, rfl⟩)

/-- A lane in another state stays as it is. -/
theorem State.Flushed.lane_silent (h : s.Flushed t ps ws) {i : LaneId} (hi : (s.lane i).state ≠ .reporting) :
    t.lane i = s.lane i := (h.lane_cases i).resolve_right fun ⟨hdue, _⟩ => hi (State.mem_lanesDue.1 hdue).1

/-- Entries leave their FIFOs, and the others keep their order (R61). -/
theorem State.Flushed.sublist (h : s.Flushed t ps ws) :
    t.adm.urgent.Sublist s.adm.urgent ∧ t.adm.normal.Sublist s.adm.normal := by
  induction h with
  | done => exact ⟨.refl _, .refl _⟩
  | waits _ _ _ _ _ ih => exact ih
  | joins e _ _ _ _ ih =>
    cases e with
    | lane i => exact ih
    | entry p => exact ⟨ih.1.trans List.erase_sublist, ih.2.trans List.erase_sublist⟩

/-- An entry stays, or its notice is queued (R61). -/
theorem State.Flushed.entry_cases (h : s.Flushed t ps ws) {p : Pending} (hp : p ∈ s.adm.urgent ++ s.adm.normal) :
    p ∈ t.adm.urgent ++ t.adm.normal ∨ (p.order, p.endNotice) ∈ ps := by
  induction h with
  | done => exact .inl hp
  | waits _ _ _ _ _ ih => exact ih hp
  | @joins s t _ _ e _ _ _ _ ih =>
    cases e with
    | lane i => exact (ih hp).imp_right (List.mem_cons_of_mem _)
    | entry q =>
      by_cases hq : p = q
      · subst hq
        exact .inr List.mem_cons_self
      · have hleft : p ∈ (s.adm.remove q).urgent ++ (s.adm.remove q).normal := by
          simpa [Admission.remove, List.mem_erase_of_ne hq] using hp
        exact (ih hleft).imp_right (List.mem_cons_of_mem _)

/-- Each notice is that of a lane due or of a marked entry. -/
theorem State.Flushed.notice_cases (h : s.Flushed t ps ws) : ∀ x ∈ ps,
    (∃ i ∈ s.lanesDue, x = (s.laneOrder i, (s.lane i).endNotice)) ∨ ∃ p ∈ s.adm.marked, x = (p.order, p.endNotice) := by
  induction h with
  | done => simp
  | waits => simp
  | @joins s t _ _ e hr he _ _ ih =>
    refine List.forall_mem_cons.2 ⟨?_, fun x hx => ?_⟩
    · cases e with
      | lane i => exact .inl ⟨i, he, rfl⟩
      | entry p => exact .inr ⟨p, Admission.earliestMarked_mem he.1, rfl⟩
    · refine (ih x hx).imp (fun ⟨j, hj, hx⟩ => ?_) (fun ⟨q, hq, hx⟩ => ⟨q, State.endTaken_marked e hq, hx⟩)
      obtain ⟨hdue, hlane⟩ := State.endTaken_lane_of_due hr he hj
      exact ⟨j, hdue, by rw [hx, State.laneOrder, State.laneOrder, hlane]⟩

/-- Who waits is a lane due, or the admission unit by its earliest marked entry. -/
theorem State.Flushed.waiter_cases (h : s.Flushed t ps ws) : ∀ x ∈ ws,
    (∃ i ∈ s.lanesDue, x = (s.laneOrder i, .lane i)) ∨
      ∃ p, t.adm.earliestMarked = some p ∧ x = (p.order, .admission) := by
  induction h with
  | done => simp
  | @joins s t _ _ e hr he _ _ ih =>
    refine fun x hx => (ih x hx).imp_left fun ⟨j, hj, hx⟩ => ?_
    obtain ⟨hdue, hlane⟩ := State.endTaken_lane_of_due hr he hj
    exact ⟨j, hdue, by rw [hx, State.laneOrder, State.laneOrder, hlane]⟩
  | @waits s t _ e hr he _ hend ih =>
    have hadm : t.adm = s.adm := (hend.of_full (State.joinsWaiting_full _ _)).2
    refine List.forall_mem_cons.2 ⟨?_, fun x hx => (ih x hx).imp_left fun ⟨j, hj, hx⟩ =>
      ⟨j, State.joinsWaiting_lanesDue hr e hj, hx⟩⟩
    cases e with
    | lane i => exact .inl ⟨i, he, rfl⟩
    | entry p => exact .inr ⟨p, by rw [hadm]; exact he.1, rfl⟩

/-- Every order is one of those due. -/
theorem State.Flushed.orders_mem (h : s.Flushed t ps ws) :
    ∀ o ∈ ps.map (fun x => x.1) ++ ws.map (fun x => x.1), o ∈ s.ordersDue := by
  induction h with
  | done => simp
  | joins e hr he _ _ ih =>
    exact List.forall_mem_cons.2 ⟨he.mem_ordersDue, fun o ho => State.endTaken_ordersDue hr he (ih o ho)⟩
  | waits e hr he _ _ ih =>
    exact List.forall_mem_cons.2 ⟨he.mem_ordersDue, fun o ho => State.joinsWaiting_ordersDue hr e (ih o ho)⟩

/-- The notices join, and behind them the submitters wait, in increasing admission order (R176). -/
theorem State.Flushed.sorted (h : s.Flushed t ps ws) (base : BitVec 32) :
    (∀ o ∈ s.ordersDue, (o - base).toNat < 2147483648) →
      (ps.map (fun x => x.1) ++ ws.map (fun x => x.1)).Pairwise (fun a b => earlier b a = false) := by
  induction h with
  | done => exact fun _ => .nil
  | joins e hr he hfirst hend ih =>
    exact fun hbase => List.pairwise_cons.2
      ⟨fun o ho => hfirst base hbase o (State.endTaken_ordersDue hr he (hend.orders_mem o ho)),
        ih fun o ho => hbase o (State.endTaken_ordersDue hr he ho)⟩
  | waits e hr he hfirst hend ih =>
    exact fun hbase => List.pairwise_cons.2
      ⟨fun o ho => hfirst base hbase o (State.joinsWaiting_ordersDue hr e (hend.orders_mem o ho)),
        ih fun o ho => hbase o (State.joinsWaiting_ordersDue hr e ho)⟩

/-- As many notices join as updates leave lanes and FIFOs. -/
theorem State.Flushed.count (h : s.Flushed t ps ws)
    (hone : s.admissionSilent ∨ ∀ p ∈ s.adm.urgent, p ∉ s.adm.normal) : ps.length + t.updatesHeld = s.updatesHeld := by
  induction h with
  | done => simp
  | @waits s t _ e _ _ _ hend =>
    obtain ⟨hlanes, hadm⟩ := hend.of_full (State.joinsWaiting_full _ _)
    have hlane : t.lane = s.lane := funext fun i => State.lane_of_lanes hlanes
    have hadm : t.adm = s.adm := hadm
    rw [State.updatesHeld, State.updatesHeld, hlane, hadm, List.length_nil, Nat.zero_add]
  | @joins s t ps _ e hr he _ _ ih =>
    have hone' : ∀ p ∈ s.adm.marked, p ∈ s.adm.urgent → p ∉ s.adm.normal := fun p hp hu => by
      rcases hone with (h | h) | h
      · exact absurd hp (by simp [h])
      · exact absurd h (by simp [hr.2])
      · exact h p hu
    have hleft : (s.endTaken e).admissionSilent ∨ ∀ p ∈ (s.endTaken e).adm.urgent, p ∉ (s.endTaken e).adm.normal := by
      cases e with
      | lane i => exact hone
      | entry p =>
        rcases hone with (h | h) | h
        · exact absurd (Admission.earliestMarked_mem he.1) (by simp [h])
        · exact absurd h he.2
        · exact .inr fun q hq hn => h q (List.mem_of_mem_erase hq) (List.mem_of_mem_erase hn)
    have hheld := State.endTaken_updatesHeld he hone'
    have hrest := ih hleft
    rw [List.length_cons]
    omega

/-- The updates that leave the lanes are those of the lanes that become FREE. -/
theorem State.Flushed.countP_freed (h : s.Flushed t ps ws) :
    allLanes.countP (fun i => (s.lane i).state ≠ .free) =
      allLanes.countP (fun i => (s.lane i).state ≠ .free && (t.lane i).state = .free) +
        allLanes.countP (fun i => (t.lane i).state ≠ .free) := by
  rw [List.countP_eq_countP_filter_add allLanes _ (fun i => (t.lane i).state = .free), List.countP_filter,
    List.countP_filter]
  congr 1
  refine List.countP_congr fun i _ => ?_
  rcases h.lane_cases i with hlane | ⟨-, hfree, -⟩
  · simp [hlane]
  · simp [hfree, Lane.free]

/-- An event that leads from `s` to `u`, with its submissions still to make, then to `t` and on to `t'`: its notices in
admission order (R176). -/
theorem State.Flushed.endsInOrder {u t' : State} (h : u.Flushed t ps ws)
    (hwaiting : u.notices.waiting = s.notices.waiting) (hends : u.notices.updateEnds = s.notices.updateEnds)
    (hfree : ∀ i, (u.lane i).state = .free ↔ (s.lane i).state = .free)
    (hkept : ∀ i ∈ u.lanesDue, u.laneOrder i = s.laneOrder i ∧ ∃ o, (u.lane i).endNotice = (s.lane i).noticeWith o)
    (hmarked : ∀ p ∈ u.adm.marked, ∃ q ∈ s.adm.urgent ++ s.adm.normal, q.order = p.order ∧ q.id = p.id)
    (hentries : (u.adm.urgent ++ u.adm.normal).length = (s.adm.urgent ++ s.adm.normal).length)
    (hone : u.admissionSilent ∨ ∀ p ∈ u.adm.urgent, p ∉ u.adm.normal)
    (hlanes : t'.lanes = t.lanes) (hwaits : t'.notices.waiting = t.notices.waiting)
    (hurgent : t'.adm.urgent = t.adm.urgent) (hnormal : t'.adm.normal = t.adm.normal) :
    s.endsInOrder t' (ps.map (fun x => x.2)) := by
  have hlane : ∀ i, t'.lane i = t.lane i := fun i => State.lane_of_lanes hlanes
  have hlive : ∀ i ∈ u.lanesDue, (s.lane i).state ≠ .free := fun i hi => by
    rw [ne_eq, ← hfree i, (State.mem_lanesDue.1 hi).1]
    decide
  refine ⟨ps, ws, rfl, ?_, fun base hbase hlanes => h.sorted base fun o ho => ?_, fun x hx => ?_, fun x hx => ?_,
    ?_, ?_, ?_⟩
  · rw [hwaits, h.frame, ← hwaiting]
  · rcases State.mem_ordersDue.1 ho with ⟨i, hi, rfl⟩ | ⟨-, p, hp, rfl⟩
    · rw [(hkept i hi).1]
      exact hlanes i (hlive i hi)
    · obtain ⟨q, hq, horder, -⟩ := hmarked p hp
      exact horder ▸ hbase q hq
  · rcases h.notice_cases x hx with ⟨i, hi, rfl⟩ | ⟨p, hp, rfl⟩
    · obtain ⟨horder, o, hnotice⟩ := hkept i hi
      exact .inl ⟨i, _, o, rfl, Prod.ext horder hnotice⟩
    · obtain ⟨q, hq, horder, hid⟩ := hmarked p hp
      exact .inr ⟨q, hq, by rw [horder, hid]; rfl⟩
  · rcases h.waiter_cases x hx with ⟨i, hi, rfl⟩ | ⟨p, hp, rfl⟩
    · exact .inl ⟨i, Prod.ext (hkept i hi).1 rfl⟩
    · refine .inr ⟨p, ?_, rfl⟩
      simpa only [Admission.earliestMarked, Admission.marked, hurgent, hnormal] using hp
  · rw [← hwaiting, ← hends]
    exact h.room
  · rw [← hwaiting, ← hends]
    exact h.full
  · have hcount := h.count hone
    have hfreed := h.countP_freed
    simp only [State.updatesHeld, hentries] at hcount
    have hstart : allLanes.countP (fun i => (s.lane i).state ≠ .free && (t.lane i).state = .free) =
        allLanes.countP (fun i => (u.lane i).state ≠ .free && (t.lane i).state = .free) :=
      List.countP_congr fun i _ => by simp [hfree]
    simp only [List.length_map, hlane, hurgent, hnormal, hstart]
    omega

end Flushed

end Sys2Proof.Machine
end

