-- ==== Sys2Proof/Proofs/FrameCuts.lean ====
section
/-! SUPPORT. HALT, rail fault and rise timeout at the lanes and at the scan engine (R88, R89, R109): which lanes leave
ABANDONING at once, what the cache makes of it, and what becomes of scan engine, panel and arbiter. -/

namespace Sys2Proof.Machine

/-! ### Blocks that leaving lanes have no part in -/

/-- `s` with power sequencer, admission unit, notices, panel, scan engine and arbiter as they are in `b`. -/
def State.beside (s b : State) : State :=
  { s with power := b.power, adm := b.adm, notices := b.notices, panel := b.panel, scan := b.scan, arb := b.arb }

theorem State.leaveAbandoning_beside (s b : State) (i : LaneId) :
    (s.beside b).leaveAbandoning i = (s.leaveAbandoning i).beside b := by
  have hlane : (s.beside b).lane i = s.lane i := rfl
  have hrelease : (s.beside b).releaseLane i = (s.releaseLane i).beside b := by
    unfold State.releaseLane
    rw [hlane]
    cases (s.lane i).slot <;> rfl
  rw [State.leaveAbandoning, hrelease]
  rfl

theorem State.leaveAbandonings_beside (b : State) (is : List LaneId) : ∀ s : State,
    is.foldl State.leaveAbandoning (s.beside b) = (is.foldl State.leaveAbandoning s).beside b := by
  induction is with
  | nil => exact fun s => rfl
  | cons i is ih =>
    intro s
    rw [List.foldl_cons, List.foldl_cons, s.leaveAbandoning_beside b i, ih]

theorem State.evalTrigger_besideOf (s b : State) : (s.beside b).evalTrigger = s.evalTrigger.beside b := by
  have htarget : (s.beside b).reloadTarget = s.reloadTarget := rfl
  unfold State.evalTrigger
  rw [htarget]
  cases s.reloadTarget <;> rfl

theorem State.leaveAll_beside (s b : State) (is : List LaneId) :
    (s.beside b).leaveAll is = (s.leaveAll is).beside b := by
  unfold State.leaveAll
  rw [State.leaveAbandonings_beside, State.evalTrigger_besideOf]
  cases is.isEmpty <;> rfl

/-! ### The cut of a frame (R109) -/

/-- The lanes that leave ABANDONING in the event itself (R89). -/
def State.abandonLeaves (s : State) : List LaneId :=
  if s.sweepsAtOnce = true then (s.mapLanes Lane.abandon).sweptLanes else []

/-- The lanes and the cache after the notification. -/
def State.lanesCut (s : State) : State := (s.mapLanes Lane.abandon).leaveAll s.abandonLeaves

/-- What the notification makes of the scan engine, the panel and the arbiter's books of `s` in `v`; the arbiter's grant
is still to come. -/
structure State.CutTo (s v : State) : Prop where
  noFrame : s.lanesInFlight = false ∨ (∃ y, s.scan.pos = .sweep y) →
    v.scan = s.scan ∧ v.panel = s.panel ∧ v.arb = s.arb
  outputs : s.lanesInFlight = true → s.scan.pos ≠ .stopped → (∀ y, s.scan.pos ≠ .sweep y) →
    v.panel = { s.panel with gstart := false, soe := false, goe := false, gate := .none }
  sweeps : s.sweepsAtOnce = true →
    v.scan = { Scan.stopped with pos := .sweep 0, todo := sweepReads s.columns } ∧
    ((∀ d, s.arb.running ≠ some (.scanRead d)) → v.arb.scan = some .sweep) ∧
    (∀ y, s.scan.pos = .line y .reading → s.arb.running = some (.scanRead false) →
      v.arb = { s.arb with running := some (.scanRead true), scan := none })
  commits : ∀ y, s.lanesInFlight = true → s.scan.pos = .line y .window → commitWrites s.columns y s.scan ≠ [] →
    v.scan = { s.scan with
      pos := .line y .commit, todo := commitWrites s.columns y s.scan, cut := true, lineTimer := none
      windowTimer := none, arming := [], driving := [], limits := none } ∧
    v.arb.scan = some .commit
  goesOn : ∀ y, s.lanesInFlight = true → s.scan.pos = .line y .commit →
    v.scan = { s.scan with cut := true, lineTimer := none, arming := [], driving := [], limits := none } ∧
    v.arb = s.arb

/-- The sweep's first read is asked for, unless a discarded read still has the memory (R109, R13). -/
def Arbiter.asksSweep (a : Arbiter) : Arbiter := if a.discarding = true then a else { a with scan := some .sweep }

theorem Arbiter.asksSweep_scan {a : Arbiter} (h : ∀ d, a.running ≠ some (.scanRead d)) :
    a.asksSweep.scan = some .sweep := by
  have hfree : a.discarding = false := by simpa [Arbiter.discarding] using h true
  simp [Arbiter.asksSweep, hfree]

/-- A read of the line in preparation goes on for nothing (R109). -/
theorem Arbiter.discardRead_asksSweep {a : Arbiter} (h : a.running = some (.scanRead false)) :
    a.discardRead.asksSweep = { a with running := some (.scanRead true), scan := none } := by
  simp [Arbiter.discardRead, Arbiter.asksSweep, Arbiter.discarding, h]

/-- Where no read has the memory, the preparation's is withdrawn. -/
theorem Arbiter.discardRead_running {a : Arbiter} (h : ∀ d, a.running ≠ some (.scanRead d)) :
    a.discardRead.running = a.running := by
  unfold Arbiter.discardRead
  split
  · rename_i d hd
    exact absurd hd (h d)
  · rfl

section Cut

variable {s v : State}

/-- The sweep begins (R109): the lanes leave beside what the scan engine asks for. -/
theorem State.enterSweep_cut (h : s.sweepsAtOnce = true) (b : State) :
    ((s.mapLanes Lane.abandon).beside b).enterSweep = s.lanesCut.beside { b with
      scan := { Scan.stopped with pos := .sweep 0, todo := sweepReads s.columns }, arb := b.arb.asksSweep } := by
  have hleaves : s.abandonLeaves = ((s.mapLanes Lane.abandon).beside b).sweptLanes := if_pos h
  have harb : ((s.mapLanes Lane.abandon).beside b).arb = b.arb := rfl
  have hbeside : ∀ c a, s.lanesCut.beside { b with scan := c, arb := a } =
      (((s.mapLanes Lane.abandon).beside { b with scan := c, arb := a }).leaveAll s.abandonLeaves) :=
    fun c a => (State.leaveAll_beside _ _ _).symm
  rw [hbeside, hleaves, State.enterSweep, harb, Arbiter.asksSweep]
  cases b.arb.discarding <;> rfl

/-- In it the lane set is lost already. -/
theorem State.enterSweep_loses (h : s.sweepsAtOnce = true) (b : State) :
    ((s.mapLanes Lane.abandon).beside b).enterSweep.loseLaneSet = ((s.mapLanes Lane.abandon).beside b).enterSweep := by
  rw [State.enterSweep_cut h]
  rfl

/-- The cut that leads to the sweep at once. -/
theorem State.cutTo_of_sweep (h : s.sweepsAtOnce = true)
    (hscan : v.scan = { Scan.stopped with pos := .sweep 0, todo := sweepReads s.columns })
    (hpanel : s.scan.pos ≠ .stopped →
      v.panel = { s.panel with gstart := false, soe := false, goe := false, gate := .none })
    (hasks : (∀ d, s.arb.running ≠ some (.scanRead d)) → v.arb.scan = some .sweep)
    (hread : ∀ y, s.scan.pos = .line y .reading → s.arb.running = some (.scanRead false) →
      v.arb = { s.arb with running := some (.scanRead true), scan := none }) : s.CutTo v where
  noFrame hno := by
    obtain ⟨hflight, hpos⟩ := Bool.and_eq_true_iff.1 h
    rcases hno with hno | ⟨y, hy⟩
    · simp [hno] at hflight
    · simp [hy] at hpos
  outputs _ hstop _ := hpanel hstop
  sweeps _ := ⟨hscan, hasks, hread⟩
  commits y _ hy hne := by simp [State.sweepsAtOnce, hy, hne] at h
  goesOn y _ hy := by simp [State.sweepsAtOnce, hy] at h

/-- The sweep that begins at once, with the panel and the accesses as the cut has them. -/
theorem State.enterSweep_cutTo (h : s.sweepsAtOnce = true) (b : State)
    (hpanel : s.scan.pos ≠ .stopped →
      b.panel = { s.panel with gstart := false, soe := false, goe := false, gate := .none })
    (harb : b.arb = s.arb ∧ (∀ y, s.scan.pos ≠ .line y .reading) ∨ b.arb = s.arb.discardRead)
    (hv : v = ((s.mapLanes Lane.abandon).beside b).enterSweep) : v = s.lanesCut.beside v ∧ s.CutTo v := by
  rw [State.enterSweep_cut h b] at hv
  subst hv
  refine ⟨rfl, State.cutTo_of_sweep h rfl hpanel (fun hfree => ?_) fun y hy hread => ?_⟩
  · refine Arbiter.asksSweep_scan fun d => ?_
    rcases harb with ⟨harb, -⟩ | harb <;> rw [harb]
    · exact hfree d
    · rw [Arbiter.discardRead_running hfree]
      exact hfree d
  · rcases harb with ⟨-, hno⟩ | harb
    · exact absurd hy (hno y)
    · exact (congrArg Arbiter.asksSweep harb).trans (Arbiter.discardRead_asksSweep hread)

/-- Without a sweep at once no lane leaves. -/
theorem State.lanesCut_of_no_sweep (h : s.sweepsAtOnce = false) : s.lanesCut = s.mapLanes Lane.abandon := by
  rw [State.lanesCut, State.abandonLeaves, h]
  rfl

/-- The panel of a cut frame, and its scan engine in a window that the cut ends (R109). -/
def State.cutInWindow (s : State) : State :=
  (s.setPanel { s.panel.idle with gate := .none }).setScan
    { s.scan with cut := true, lineTimer := none, windowTimer := none }

/-- After a cut a commit with no segment to write is over at once (R104, R109). -/
theorem State.cutInWindow_sweeps {y : Nat} (h : commitWrites s.columns y s.scan = []) :
    s.cutInWindow.beginCommit y =
      (s.cutInWindow.setScan { s.cutInWindow.scan with
        pos := .line y .commit, todo := [], windowTimer := none }).enterSweep := by
  rw [State.beginCommit_none (s := s.cutInWindow) h]
  exact if_pos rfl

/-- A window ends, and its line's commit begins or, with no segment to write, the sweep (R109, R104). -/
theorem State.cutWindow {y : Nat} (hflight : s.lanesInFlight = true) (hpos : s.scan.pos = .line y .window)
    (hv : v = ((s.mapLanes Lane.abandon).cutInWindow.beginCommit y).loseLaneSet) :
    v = s.lanesCut.beside v ∧ s.CutTo v := by
  by_cases hnone : commitWrites s.columns y s.scan = []
  · have hs : s.sweepsAtOnce = true := by simp [State.sweepsAtOnce, hflight, hpos, hnone]
    rw [State.cutInWindow_sweeps (s := s.mapLanes Lane.abandon) hnone] at hv
    exact State.enterSweep_cutTo hs (s.cutInWindow.setScan { s.cutInWindow.scan with
      pos := .line y .commit, todo := [], windowTimer := none }) (fun _ => rfl) (.inl ⟨rfl, by simp [hpos]⟩)
      (hv.trans (State.enterSweep_loses hs _))
  · have hs : s.sweepsAtOnce = false := by simp [State.sweepsAtOnce, hpos, hnone]
    rw [State.beginCommit_some (s := (s.mapLanes Lane.abandon).cutInWindow) hnone] at hv
    rw [State.lanesCut_of_no_sweep hs]
    subst hv
    refine ⟨rfl, ⟨by simp [hflight, hpos], fun _ _ _ => rfl, by simp [hs], fun z _ hz _ => ?_, by simp [hpos]⟩⟩
    obtain rfl : y = z := by simpa [hpos] using hz
    exact ⟨rfl, rfl⟩

/-- HALT, rail fault and rise timeout at the lanes and at the scan engine (R88, R109). -/
theorem State.abandonLanes_cut (s : State) :
    s.abandonLanes = s.lanesCut.beside s.abandonLanes ∧ s.CutTo s.abandonLanes := by
  cases hflight : s.lanesInFlight with
  | false =>
    have hno : s.sweepsAtOnce = false := by simp [State.sweepsAtOnce, hflight]
    have heq : s.abandonLanes = s.mapLanes Lane.abandon := if_neg (by simp [hflight])
    rw [heq, State.lanesCut_of_no_sweep hno]
    exact ⟨rfl, ⟨fun _ => ⟨rfl, rfl, rfl⟩, by simp [hflight], by simp [hno], by simp [hflight], by simp [hflight]⟩⟩
  | true =>
    have heq : s.abandonLanes = (s.mapLanes Lane.abandon).cutFrame := if_pos hflight
    have hsame : (s.mapLanes Lane.abandon).scan = s.scan := rfl
    rw [heq, State.cutFrame, hsame]
    cases hpos : s.scan.pos with
    | sweep y =>
      have hno : s.sweepsAtOnce = false := by simp [State.sweepsAtOnce, hpos]
      rw [State.lanesCut_of_no_sweep hno]
      exact ⟨rfl, ⟨fun _ => ⟨rfl, rfl, rfl⟩, by simp [hpos], by simp [hno], by simp [hpos], by simp [hpos]⟩⟩
    | stopped =>
      exact State.enterSweep_cutTo (by simp [State.sweepsAtOnce, hflight, hpos]) s (fun h => absurd hpos h)
        (.inl ⟨rfl, by simp [hpos]⟩) rfl
    | blank k =>
      exact State.enterSweep_cutTo (by simp [State.sweepsAtOnce, hflight, hpos])
        (s.setPanel { s.panel.idle with gate := .none }) (fun _ => rfl) (.inl ⟨rfl, by simp [hpos]⟩) rfl
    | line y ph =>
      cases ph with
      | reading | shifting =>
        exact State.enterSweep_cutTo (by simp [State.sweepsAtOnce, hflight, hpos])
          ((s.setPanel { s.panel.idle with gate := .none }).setArb s.arb.discardRead) (fun _ => rfl) (.inr rfl) rfl
      | committed =>
        exact State.enterSweep_cutTo (by simp [State.sweepsAtOnce, hflight, hpos])
          (s.setPanel { s.panel.idle with gate := .none }) (fun _ => rfl) (.inl ⟨rfl, by simp [hpos]⟩) rfl
      | window => exact State.cutWindow hflight hpos rfl
      | commit =>
        have hno : s.sweepsAtOnce = false := by simp [State.sweepsAtOnce, hpos]
        rw [State.lanesCut_of_no_sweep hno]
        exact ⟨rfl, ⟨by simp [hflight, hpos], fun _ _ _ => rfl, by simp [hno], by simp [hpos],
          fun z _ hz => ⟨rfl, rfl⟩⟩⟩

/-- Which lanes leave at once, as a test on lanes (R89). -/
theorem State.mem_abandonLeaves {i : LaneId} : i ∈ s.abandonLeaves ↔ s.sweepsAtOnce = true ∧ (s.lane i).live = 0 ∧
    ((s.lane i).state = .arming ∨ (s.lane i).state = .driving ∨ (s.lane i).state = .abandoning) := by
  have hlive : (s.lane i).abandon.live = (s.lane i).live := by
    cases h : (s.lane i).state <;> simp [Lane.abandon, Lane.endWaiting, h]
  have hstate : (s.lane i).abandon.state = .abandoning ↔
      (s.lane i).state = .arming ∨ (s.lane i).state = .driving ∨ (s.lane i).state = .abandoning := by
    rw [Lane.abandon_state]
    cases (s.lane i).state <;> simp
  unfold State.abandonLeaves
  split
  · rename_i h
    rw [State.mem_sweptLanes, State.mapLanes_lane, hstate, hlive]
    simp [h, and_comm]
  · rename_i h
    simp [h]

/-- A lane that leaves was in flight or in ABANDONING. -/
theorem State.abandonLeaves_state {i : LaneId} (h : i ∈ s.abandonLeaves) :
    (s.lane i).state = .arming ∨ (s.lane i).state = .driving ∨ (s.lane i).state = .abandoning := by
  obtain ⟨-, -, hstate⟩ := State.mem_abandonLeaves.1 h
  exact hstate

theorem State.abandonLeaves_nodup (s : State) : s.abandonLeaves.Nodup := by
  unfold State.abandonLeaves
  split
  · exact State.sweptLanes_nodup _
  · exact .nil

theorem State.lanesCut_lane (s : State) (i : LaneId) : s.lanesCut.lane i =
    if i ∈ s.abandonLeaves then (s.lane i).abandon.left.without s.abandonLeaves
    else (s.lane i).abandon.without s.abandonLeaves := by
  rw [State.lanesCut, State.leaveAll_lane s.abandonLeaves_nodup, State.mapLanes_lane]

/-- The grant serves or keeps what the scan engine has asked for (R13). -/
theorem Arbiter.grant_asked {a : Arbiter} {x : Access} (h : a.scan = some x) :
    a.grant.running = some x ∨ a.grant.scan = some x := by
  rcases a.grant_cases with hg | ⟨z, hz, hg⟩ <;> rw [hg]
  · exact .inr h
  · obtain rfl : x = z := by simpa [Arbiter.first, h] using hz
    exact .inl (Arbiter.give_running _ _)

/-- The cut with the arbiter's grant at the end of the event. -/
theorem State.CutTo.frameCut {t : State} (h : s.CutTo v) (hscan : t.scan = v.scan) (hpanel : t.panel = v.panel)
    (harb : t.arb = v.arb.grant) : s.frameCut t := by
  unfold State.frameCut
  rw [hscan, hpanel, harb]
  refine ⟨fun hno => ?_, h.outputs, fun hs => ?_, fun y hflight hpos hne => ?_, fun y hflight hpos => ?_⟩
  · obtain ⟨hc, hp, ha⟩ := h.noFrame hno
    exact ⟨hc, hp, by rw [ha]⟩
  · obtain ⟨hc, hasks, hread⟩ := h.sweeps hs
    refine ⟨hc, fun hfree => Arbiter.grant_asked (hasks hfree), fun y hy hr => ?_⟩
    rw [hread y hy hr]
    exact Arbiter.grant_of_running rfl
  · exact (h.commits y hflight hpos hne).imp_right Arbiter.grant_asked
  · obtain ⟨hc, ha⟩ := h.goesOn y hflight hpos
    exact ⟨hc, by rw [ha]⟩

end Cut

end Sys2Proof.Machine
end

