-- ==== Sys2Proof/Proofs/LanesAbandoned.lean ====
section
/-! SUPPORT. The lanes and the cache after HALT, rail fault and rise timeout (R88, R89, R23, R91), with the event's
UPDATE_END submissions made. -/

namespace Sys2Proof.Machine

/-! ### One lane (R88) -/

theorem Lane.abandon_waiting {l : Lane} (h : l.state = .waiting) :
    l.abandon = { l with state := .reporting, outcome := some .abandoned } := by
  simp [Lane.abandon, Lane.endWaiting, h]

theorem Lane.abandon_inFlight {l : Lane} (h : l.state = .arming ∨ l.state = .driving) :
    l.abandon = { l with state := .abandoning } := by
  rcases h with h | h <;> simp [Lane.abandon, h]

theorem Lane.abandon_kept {l : Lane} (h : l.state = .free ∨ l.state = .abandoning ∨ l.state = .reporting) :
    l.abandon = l := by
  rcases h with h | h | h <;> simp [Lane.abandon, Lane.endWaiting, h]

theorem Lane.abandon_left {l : Lane} (h : l.state = .arming ∨ l.state = .driving ∨ l.state = .abandoning) :
    l.abandon.left = l.left := by
  rcases h with h | h | h <;> simp [Lane.abandon, Lane.endWaiting, Lane.left, h]

/-- A lane keeps its slot until it leaves. -/
theorem Lane.abandon_slot (l : Lane) : l.abandon.slot = l.slot := by
  cases h : l.state <;> simp [Lane.abandon, Lane.endWaiting, h]

/-! ### The cache (R23, R24) -/

/-- The trigger's evaluation reads cache, thermal unit and image, and writes cache and flash interface. -/
theorem State.evalTrigger_congr {s t : State} (hc : t.cache = s.cache) (hth : t.thermal = s.thermal)
    (hl : t.loader = s.loader) (hf : t.flash = s.flash) :
    t.evalTrigger.cache = s.evalTrigger.cache ∧ t.evalTrigger.flash = s.evalTrigger.flash := by
  refine ⟨State.evalTrigger_cache_congr hc hth hl, ?_⟩
  have hhdr : t.hdr = s.hdr := by rw [State.hdr, State.hdr, hl]
  have htarget : t.reloadTarget = s.reloadTarget := by
    unfold State.reloadTarget State.trigger
    rw [hc, hth, hl]
  unfold State.evalTrigger
  rw [htarget]
  cases s.reloadTarget with
  | none => exact hf
  | some i =>
    show (t.startReload i).flash = (s.startReload i).flash
    simp only [State.startReload, State.flashRead, State.setFlash, State.setCache, hth, hhdr, hf]

/-- A cache is its two slots and the rest. -/
theorem Cache.eq_of_slots {c k : Cache} {r : Cache} (ha : c.a = k.a) (hb : c.b = k.b)
    (hc : { c with a := r.a, b := r.b } = r) (hk : { k with a := r.a, b := r.b } = r) : c = k := by
  cases c
  cases k
  cases r
  simp_all

theorem State.lanesCut_cache {s u : State} {left : LaneId → Bool} (h : ∀ i, left i = true ↔ i ∈ s.abandonLeaves)
    (hu : u = { s with cache := { s.cache with
      a := { s.cache.a with
        refs := s.cache.a.refs - allLanes.countP (fun i => left i && (s.lane i).slot = some .a) }
      b := { s.cache.b with
        refs := s.cache.b.refs - allLanes.countP (fun i => left i && (s.lane i).slot = some .b) } } }) :
    (allLanes.any left = true → s.lanesCut.cache = u.evalTrigger.cache ∧ s.lanesCut.flash = u.evalTrigger.flash) ∧
    (allLanes.any left = false → s.lanesCut.cache = s.cache ∧ s.lanesCut.flash = s.flash) := by
  rw [← Bool.not_eq_true, any_left h]
  refine ⟨fun hne => ?_, fun hnil => ?_⟩
  · obtain ⟨c, l, hleft⟩ := (s.mapLanes Lane.abandon).leaveAbandonings_frame s.abandonLeaves
    have hslot : ∀ sl, c.slot sl = { s.cache.slot sl with
        refs := (s.cache.slot sl).refs - allLanes.countP (fun i => left i && (s.lane i).slot = some sl) } := by
      intro sl
      have hreleased := State.leaveAbandonings_slot s.abandonLeaves_nodup sl (s.mapLanes Lane.abandon)
      rw [hleft, State.released] at hreleased
      simp only [State.mapLanes_lane, Lane.abandon_slot] at hreleased
      rw [← countP_left h s.abandonLeaves_nodup]
      exact hreleased
    have hrest := State.leaveAbandonings_cache s.abandonLeaves (s.mapLanes Lane.abandon)
    rw [hleft] at hrest
    have hc : c = u.cache := by
      rw [hu]
      exact Cache.eq_of_slots (hslot .a) (hslot .b) hrest rfl
    have hcut : s.lanesCut = (s.abandonLeaves.foldl State.leaveAbandoning (s.mapLanes Lane.abandon)).evalTrigger :=
      if_neg (by simpa using hne)
    rw [hcut, hleft]
    exact State.evalTrigger_congr hc (by rw [hu]; rfl) (by rw [hu]; rfl) (by rw [hu]; rfl)
  · have hcut : s.lanesCut = s.mapLanes Lane.abandon := by rw [State.lanesCut, not_not.1 hnil]; rfl
    rw [hcut]
    exact ⟨rfl, rfl⟩

/-! ### The event before its submissions -/

/-- An event has led from `s` to `v` by abandoning at the lanes, whatever it has done to power sequencer, admission unit
and notices; its submissions are still to be made. -/
structure State.Abandons (s v : State) : Prop where
  lanes : v = s.lanesCut.beside v
  cut : s.CutTo v
  waiting : v.notices.waiting = s.notices.waiting

/-- The event with the power record `p`, the admission unit `a` and the notices `n` that it has made first. -/
def State.abandonedWith (s : State) (p : Power) (a : Admission) (n : Notices) : State :=
  State.abandonLanes { s with power := p, adm := a, notices := n }

theorem State.abandonedWith_frame (s : State) (p : Power) (a : Admission) (n : Notices) :
    ∃ d c b k l f, s.abandonedWith p a n = { s with
      power := p, adm := a, notices := n, panel := d, scan := c, arb := b, cache := k, lanes := l, flash := f } :=
  State.abandonLanes_frame _

theorem State.abandonedWith_abandons (s : State) (p : Power) (a : Admission) {n : Notices}
    (hn : n.waiting = s.notices.waiting) : s.Abandons (s.abandonedWith p a n) := by
  obtain ⟨hlanes, hcut⟩ := State.abandonLanes_cut { s with power := p, adm := a, notices := n }
  obtain ⟨d, c, b, k, l, f, hframe⟩ := s.abandonedWith_frame p a n
  have hbeside : State.lanesCut { s with power := p, adm := a, notices := n } =
      s.lanesCut.beside { s with power := p, adm := a, notices := n } :=
    State.leaveAll_beside (s.mapLanes Lane.abandon) { s with power := p, adm := a, notices := n } s.abandonLeaves
  rw [hbeside] at hlanes
  exact ⟨hlanes, ⟨hcut.noFrame, hcut.outputs, hcut.sweeps, hcut.commits, hcut.goesOn⟩, by rw [hframe, ← hn]⟩

/-- The law of R108 holds after it. -/
theorem State.abandonedWith_guarded {s : State} (hg : s.railsGuarded = true) (p : Power) (a : Admission) {n : Notices}
    (hn : n.waiting = s.notices.waiting) : (s.abandonedWith p a n).Guarded false :=
  (State.railsGuarded_iff.1 hg).abandonLanes hn rfl rfl rfl

section Event

variable {s v : State} (h : s.Abandons v)

include h

theorem State.Abandons.lane_eq (i : LaneId) : v.lane i = s.lanesCut.lane i := by
  rw [h.lanes]
  rfl

theorem State.Abandons.lane_left {i : LaneId} (hi : i ∈ s.abandonLeaves) :
    v.lane i = (s.lane i).left.without s.abandonLeaves := by
  rw [h.lane_eq, State.lanesCut_lane, if_pos hi, Lane.abandon_left (State.abandonLeaves_state hi)]

theorem State.Abandons.lane_stays {i : LaneId} (hi : i ∉ s.abandonLeaves) :
    v.lane i = (s.lane i).abandon.without s.abandonLeaves := by
  rw [h.lane_eq, State.lanesCut_lane, if_neg hi]

/-- No lane is in flight or WAITING afterwards. -/
theorem State.Abandons.state_cases (i : LaneId) :
    (v.lane i).state = .free ∨ (v.lane i).state = .abandoning ∨ (v.lane i).state = .reporting := by
  by_cases hi : i ∈ s.abandonLeaves
  · exact .inr (.inr (by rw [h.lane_left hi]; rfl))
  · rw [h.lane_stays hi, Lane.without_state, Lane.abandon_state]
    cases (s.lane i).state <;> simp

theorem State.Abandons.free_iff (i : LaneId) : (v.lane i).state = .free ↔ (s.lane i).state = .free := by
  by_cases hi : i ∈ s.abandonLeaves
  · rw [h.lane_left hi, Lane.without_state, Lane.left_state]
    rcases State.abandonLeaves_state hi with hs | hs | hs <;> simp [hs]
  · rw [h.lane_stays hi, Lane.without_state, Lane.abandon_state]
    cases (s.lane i).state <;> simp

/-- Submissions are due of lanes that leave ABANDONING at once, and of lanes that were WAITING (R91). -/
theorem State.Abandons.due_cases (hq : s.quiet = true) {i : LaneId} (hi : i ∈ v.lanesDue) :
    i ∈ s.abandonLeaves ∨ (i ∉ s.abandonLeaves ∧ (s.lane i).state = .waiting) := by
  by_cases hl : i ∈ s.abandonLeaves
  · exact .inl hl
  · obtain ⟨hs, hw⟩ := State.mem_lanesDue.1 hi
    refine .inr ⟨hl, ?_⟩
    rw [h.lane_stays hl, Lane.without_state, Lane.abandon_state] at hs
    cases hv : (s.lane i).state with
    | waiting => rfl
    | reporting => exact absurd ((s.submissionsDue_eq_nil.1 (State.quiet_due hq)).1 i hv) (h.waiting ▸ hw)
    | free | arming | driving | abandoning => simp [hv] at hs

/-- The record of a lane that ends its update with the event (R88, R89). -/
theorem State.Abandons.lane_ends {i : LaneId}
    (hi : i ∈ s.abandonLeaves ∨ (i ∉ s.abandonLeaves ∧ (s.lane i).state = .waiting)) :
    v.lane i = { (s.lane i).without s.abandonLeaves with
      state := .reporting, outcome := some .abandoned
      slot := if i ∈ s.abandonLeaves then none else (s.lane i).slot
      band := if i ∈ s.abandonLeaves then none else (s.lane i).band } := by
  rcases hi with hi | ⟨hi, hw⟩
  · rw [h.lane_left hi, if_pos hi, if_pos hi]
    rfl
  · rw [h.lane_stays hi, Lane.abandon_waiting hw, if_neg hi, if_neg hi]
    rfl

/-- The notice of such a lane. -/
theorem State.Abandons.lane_notice (hq : s.quiet = true) {i : LaneId} (hi : i ∈ v.lanesDue) :
    v.laneOrder i = s.laneOrder i ∧ (v.lane i).endNotice = (s.lane i).noticeWith .abandoned := by
  rw [State.laneOrder, h.lane_ends (h.due_cases hq hi)]
  exact ⟨rfl, rfl⟩

end Event

/-! ### The event with its submissions -/

/-- An UPDATE_END that the event has queued in `w` is still queued in `t`, and who waits in `w` waits in `t`. -/
structure State.Reports (w t : State) : Prop where
  lanes : t.lanes = w.lanes
  queued : ∀ n ∈ w.notices.queue, n.isUpdateEnd = true → n ∈ t.notices.queue
  waiting : t.notices.waiting = w.notices.waiting

theorem State.Abandons.lanesAbandoned {s v w t : State} {ps ws} (h : s.Abandons v) (hq : s.quiet = true)
    (hflush : v.Flushed w ps ws) (ht : w.Reports t) (hcache : t.cache = w.cache) (hflash : t.flash = w.flash) :
    s.lanesAbandoned t := by
  intro left hleft
  have hmem : ∀ i, left i = true ↔ i ∈ s.abandonLeaves := fun i => by rw [hleft, State.mem_abandonLeaves]
  have hlane : ∀ i, t.lane i = w.lane i := fun i => State.lane_of_lanes ht.lanes
  refine ⟨?_, fun u hu => ?_⟩
  · rintro i l m rfl rfl
    rw [hlane, ← Lane.without_left hmem]
    refine ⟨fun hi => ?_, fun hno hi => ?_, fun hno hi => ?_⟩
    · have hends : i ∈ s.abandonLeaves ∨ (i ∉ s.abandonLeaves ∧ (s.lane i).state = .waiting) := by
        rw [← hmem]
        cases hl : left i
        · exact .inr ⟨Bool.false_ne_true, hi.resolve_left (by simp [hl])⟩
        · exact .inl rfl
      have hrecord := h.lane_ends hends
      simp only [← hmem] at hrecord
      rw [← hrecord, ht.waiting]
      refine (hflush.lane_reports (by rw [hrecord])).imp_left (And.imp_right fun hqueue => ht.queued _ ?_ rfl)
      rw [hrecord] at hqueue
      exact hqueue
    · have hrecord := h.lane_stays (i := i) (by simp [← hmem, hno])
      rw [Lane.abandon_inFlight hi] at hrecord
      rw [hflush.lane_silent (by rw [hrecord]; exact nofun), hrecord]
      rfl
    · have hrecord := h.lane_stays (i := i) (by simp [← hmem, hno])
      rw [Lane.abandon_kept hi] at hrecord
      rw [← hrecord]
      refine (hflush.lane_cases i).resolve_right fun ⟨hdue, _⟩ => ?_
      rcases h.due_cases hq hdue with hl | ⟨-, hw⟩
      · simp [(hmem i).2 hl] at hno
      · simp [hw] at hi
  · have hcut := State.lanesCut_cache hmem hu
    rw [hcache, hflash, hflush.frame, h.lanes]
    exact hcut

end Sys2Proof.Machine
end

