-- ==== Sys2Proof/Proofs/RailFaults.lean ====
section
/-! The rail faults (R137, R139, R144): the end of the event in which lanes are abandoned, and what FAULT makes of the
part (O51). -/

namespace Sys2Proof.Machine

/-! ### The end of the event -/

/-- With the rails not ON the end of an event is its submissions and the test for the end of draining. -/
theorem State.settle_of_not_on {v : State} (h : v.power.state ≠ .on) : v.settle = v.flushEnds.testDrained := by
  obtain ⟨n, l, a, hframe⟩ := v.flushEnds_frame
  have hpower : v.flushEnds.power = v.power := by rw [hframe]
  have hquiet : v.flushEnds.powerQuiet = true := by
    unfold State.powerQuiet
    rw [hpower]
    split
    · contradiction
    · rfl
  rw [State.settle, State.settlePower_of_quiet hquiet]

/-- With the rails not ON the source outputs are disabled (R108). -/
theorem State.ScanGuarded.soe_of_not_on {s : State} (hs : s.ScanGuarded) (hoff : s.power.state ≠ .on) :
    s.panel.soe = false := by
  refine Bool.eq_false_of_not_eq_true fun h => ?_
  obtain ⟨⟨y, hy⟩, hcut⟩ := hs.window h
  exact hoff (hs.frame (by simp [hy]) (by simp [hy]) hcut).1

/-- Every notice of an event's submissions is an UPDATE_END. -/
theorem State.Flushed.isUpdateEnd {s t : State} {ps ws} (h : s.Flushed t ps ws) :
    ∀ n ∈ ps.map (fun x => x.2), n.isUpdateEnd = true := by
  intro n hn
  obtain ⟨x, hx, rfl⟩ := List.mem_map.1 hn
  rcases h.notice_cases x hx with ⟨i, -, rfl⟩ | ⟨p, -, rfl⟩ <;> rfl

/-- The lanes after the event (R88, R89, R91). -/
theorem State.Abandons.flushed_state {s v w : State} {ps ws} (h : s.Abandons v) (hflush : v.Flushed w ps ws)
    (i : LaneId) :
    (w.lane i).state = .free ∨ (w.lane i).state = .abandoning ∨ (w.lane i).state = .reporting := by
  rcases hflush.lane_cases i with hlane | ⟨-, hfree, -⟩
  · rw [hlane]
    exact h.state_cases i
  · exact .inl (by rw [hfree]; rfl)

/-! ### FAULT (R144) -/

/-- A notice of another kind takes no room from the UPDATE_ENDs (R175). -/
theorem Notices.updateEnds_coalesce (n : Notices) {m : Notice} (h : m.kind ≠ 1) :
    Notices.updateEnds { n with queue := coalesceInto m n.queue } = n.updateEnds := by
  rw [Notices.updateEnds_eq, Notices.updateEnds_eq, countP_coalesceInto, if_neg h]

/-- The part with FAULT entered and the lanes abandoned; the UPDATE_END submissions are still to be made. -/
def State.faulted (s : State) (p : Power) (k : Nat) (cause : FaultCause) : State :=
  s.abandonedWith p s.adm { s.notices with queue := coalesceInto (.powerFault 1 k cause) s.notices.queue }

/-- What becomes of the part when FAULT is entered with the power record `p`. -/
theorem State.fault_stops {s t : State} {k : Nat} {cause : FaultCause} {p : Power} (hp : p.state = .fault)
    (hg : s.railsGuarded = true) (hq : s.quiet = true) (ht : t = (s.faulted p k cause).settle.arbitrate) :
    t.power = p ∧
      (∃ es, t.notices.queue = coalesceInto (.powerFault 1 k cause) s.notices.queue ++ es ∧
        (∀ e ∈ es, Notice.isUpdateEnd e = true) ∧ s.endsInOrder t es) ∧
      s.lanesAbandoned t ∧ s.frameCut t ∧
      (∀ line, t.railEnable line = false) ∧ t.panel.soe = false ∧
      (∀ i, (t.lane i).state = .free ∨ (t.lane i).state = .abandoning ∨ (t.lane i).state = .reporting) ∧
      t.adm = s.adm ∧ t.wb = s.wb ∧ t.mem = s.mem ∧ t.thermal = s.thermal ∧
      { t with lanes := s.lanes, cache := s.cache, flash := s.flash, notices := s.notices, power := s.power
               scan := s.scan, panel := s.panel, arb := s.arb } = s := by
  obtain ⟨v, hv⟩ : ∃ v, v = s.faulted p k cause := ⟨_, rfl⟩
  obtain ⟨d, c, b, j, l, f, hframe⟩ := s.abandonedWith_frame p s.adm
    { s.notices with queue := coalesceInto (.powerFault 1 k cause) s.notices.queue }
  have habandons : s.Abandons v := hv ▸ s.abandonedWith_abandons p s.adm rfl
  have hguarded : v.Guarded false := hv ▸ State.abandonedWith_guarded hg p s.adm rfl
  rw [← hv] at ht
  rw [← State.faulted, ← hv] at hframe
  have hpower : v.power = p := by rw [hframe]
  have hadm : v.adm = s.adm := by rw [hframe]
  have hqueue : v.notices.queue = coalesceInto (.powerFault 1 k cause) s.notices.queue := by rw [hframe]
  have hends : v.notices.updateEnds = s.notices.updateEnds := by
    rw [hframe]
    exact s.notices.updateEnds_coalesce (m := .powerFault 1 k cause) (show (5 : Nat) ≠ 1 by decide)
  have hsilent : v.admissionSilent := by
    rw [State.admissionSilent, hadm, habandons.waiting]
    exact State.quiet_admissionSilent hq
  obtain ⟨ps, ws, hflush⟩ := v.flushEnds_flushed
  have hwadm : v.flushEnds.adm = s.adm := (hflush.adm_of_silent hsilent).trans hadm
  have hwpower : v.flushEnds.power = v.power := by rw [hflush.frame]
  have hdrain : v.flushEnds.testDrained = v.flushEnds := State.testDrained_not_over fun ⟨_, hoff, _⟩ => by
    rw [hwpower, hpower, hp] at hoff
    cases hoff
  rw [State.settle_of_not_on (by rw [hpower, hp]; decide), hdrain] at ht
  have hlanes : t.lanes = v.flushEnds.lanes := by rw [ht]; rfl
  have hnotices : t.notices = v.flushEnds.notices := by rw [ht]; rfl
  have htadm : t.adm = s.adm := by rw [ht]; exact hwadm
  have htpower : t.power = p := by
    rw [ht, ← hpower]
    exact hwpower
  refine ⟨htpower, ⟨_, ?_, hflush.isUpdateEnd, ?_⟩, ?_, ?_, fun line => ?_, ?_, fun i => ?_, htadm, ?_⟩
  · rw [hnotices, hflush.frame, hqueue]
  · exact hflush.endsInOrder habandons.waiting hends habandons.free_iff
      (fun i hi => (habandons.lane_notice hq hi).imp_right fun h => ⟨_, h⟩)
      (fun q hq => ⟨q, List.mem_of_mem_filter (hadm ▸ hq), rfl, rfl⟩)
      (by rw [hadm]) (.inl hsilent)
      hlanes (by rw [hnotices]) (by rw [htadm, hwadm]) (by rw [htadm, hwadm])
  · exact habandons.lanesAbandoned hq hflush ⟨hlanes, fun n hn _ => hnotices ▸ hn, by rw [hnotices]⟩ (by rw [ht]; rfl)
      (by rw [ht]; rfl)
  · refine habandons.cut.frameCut ?_ ?_ ?_ <;> rw [ht, hflush.frame] <;> rfl
  · have hdown : t.stagesUp = 0 := by rw [State.stagesUp, htpower, hp]
    rw [← Bool.not_eq_true, State.railEnable_iff, hdown]
    rintro ⟨j, hj, -, -, hup⟩
    omega
  · have hsoe := hguarded.scan.soe_of_not_on (by rw [hpower, hp]; decide)
    rw [ht, hflush.frame]
    exact hsoe
  · rw [State.lane_of_lanes hlanes]
    exact habandons.flushed_state hflush i
  · have hrest : { t with lanes := s.lanes, cache := s.cache, flash := s.flash, notices := s.notices, power := s.power
                          scan := s.scan, panel := s.panel, arb := s.arb, adm := s.adm } = s := by
      rw [ht, hflush.frame, hframe]
      rfl
    rw [← htadm] at hrest
    exact ⟨(congrArg State.wb hrest :), (congrArg State.mem hrest :), (congrArg State.thermal hrest :), hrest⟩

/-! ### The two causes (R137, R139) -/

/-- In an increasing list the first that a test finds is the lowest. -/
theorem find?_lowest {l : List Nat} {test : Nat → Bool} {k : Nat} (hl : l.Pairwise (· < ·))
    (h : l.find? test = some k) : ∀ j ∈ l, test j = true → k ≤ j := by
  obtain ⟨-, before, after, rfl, hnone⟩ := List.find?_eq_some_iff_append.1 h
  intro j hj htest
  rcases List.mem_append.1 hj with hj | hj
  · exact absurd htest (by simpa using hnone j hj)
  · obtain ⟨-, hafter, -⟩ := List.pairwise_append.1 hl
    rcases List.mem_cons.1 hj with rfl | hj
    · exact le_refl j
    · exact Nat.le_of_lt (List.rel_of_pairwise_cons hafter hj)

/-- Settles O51: the timeout of a GOOD stage, and the loss of a monitored stage. -/
theorem faultStopsTheRails : Obligations.FaultStopsTheRails := by
  unfold Obligations.FaultStopsTheRails
  refine ⟨fun s k hk hgood hb hg hq => ?_, fun s line elapsed k hs ht hg hq hloss => ?_⟩
  · have hexec : exec .stageTimeout s = .next (s.faulted { s.power with
        state := .fault, stageTimer := none, blankTimer := none, monitored := [], idleTimer := none
        lastFault := some (k, .timeout) } k .timeout).settle.arbitrate := by
      show execStageTimeout s = _
      simp only [execStageTimeout, hk, hb, State.stageTimedOut, hgood]
      rfl
    exact ⟨_, hexec, State.fault_stops rfl hg hq rfl⟩
  · have hloss' : (s.levelTaken line).lossStage line (s.goodLine line).raw = some k := hloss
    have hfault : (s.levelTaken line).filteredChange line (s.goodLine line).raw elapsed =
        (s.levelTaken line).enterFault k .lost := by
      rcases hs with hs | ⟨j, hs⟩
      · have hs' : (s.levelTaken line).power.state = .on := hs
        simp only [State.filteredChange, hs', hloss']
      · have hs' : (s.levelTaken line).power.state = .rising j := hs
        simp only [State.filteredChange, hs', hloss']
    have hexec := exec_glitchFilterExpiry ht elapsed
    rw [hfault] at hexec
    obtain ⟨hpower, hrest⟩ := State.fault_stops (t := ((s.levelTaken line).enterFault k .lost).settle.arbitrate)
      rfl hg hq rfl
    refine ⟨_, hexec, hpower, fun hlegal j hj hline hne => ?_, hrest⟩
    obtain ⟨-, -, -, -, -, hsorted, -⟩ := (State.settingsLegal_iff s).1 hlegal
    exact find?_lowest hsorted hloss j hj (by simp [hline, hne])

end Sys2Proof.Machine
end

