-- ==== Sys2Proof/Proofs/Halt.lean ====
section
/-! HALT (R143, R64, R142): the fall it starts, the entries it marks, the lanes it abandons, and the end of its event
(O26). -/

namespace Sys2Proof.Machine

/-! ### What HALT makes first (R143, R64) -/

/-- The power record of the fall that HALT starts (R142). -/
def State.haltedPower (s : State) : Power :=
  match s.power.state with
  | .rising k => { s.power with
      state := .falling k, stageTimer := some ((s.stage k).fall * 10)
      blankTimer := none, monitored := [], idleTimer := none }
  | .on => { s.power with
      state := .falling s.stageCount, stageTimer := some ((s.stage s.stageCount).fall * 10)
      blankTimer := none, monitored := [], idleTimer := none }
  | .off | .falling _ | .fault => s.power

/-- Every pending entry cancel-marked (R64). -/
def Admission.allMarked (a : Admission) : Admission := a.mapPending (fun p => { p with marked := true })

/-- The part after HALT, with its UPDATE_END submissions still to make. -/
def State.halted (s : State) : State := s.abandonedWith s.haltedPower s.adm.allMarked s.notices

theorem State.haltedPower_not_on (s : State) : s.haltedPower.state ≠ .on := by
  unfold State.haltedPower
  split <;> simp_all

theorem handleHalt_eq (s : State) : handleHalt s = (s.halted.settle, some (.done [])) := by
  have hpower : s.haltPower = s.setPower s.haltedPower := by
    unfold State.haltPower State.haltedPower
    cases s.power.state <;> rfl
  rw [handleHalt, hpower]
  rfl

theorem Admission.mem_allMarked {a : Admission} {p : Pending} : p ∈ a.allMarked.urgent ++ a.allMarked.normal ↔
    ∃ q ∈ a.urgent ++ a.normal, { q with marked := true } = p := by
  rw [Admission.allMarked, Admission.mapPending, ← List.map_append, List.mem_map]

/-- An entry is of one class, and so in one FIFO (R51). -/
theorem Admission.allMarked_one {a : Admission} {w : Nat} (h : a.fits w = true) :
    ∀ p ∈ a.allMarked.urgent, p ∉ a.allMarked.normal := by
  obtain ⟨-, -, hurgent, hnormal⟩ := (Admission.fits_iff a w).1 h
  intro p hu hn
  obtain ⟨q, hq, rfl⟩ := List.mem_map.1 hu
  obtain ⟨r, hr, heq⟩ := List.mem_map.1 hn
  have hcls : r.cls = q.cls := (congrArg Pending.cls heq :)
  rw [(hurgent q hq).1, (hnormal r hr).1] at hcls
  cases hcls

/-! ### The end of draining (R63, R188) -/

/-- Another notice that is queued stays queued when one coalesces (R177). -/
theorem mem_coalesceInto {m n : Notice} (hne : n.kind ≠ m.kind) :
    ∀ {q : List Notice}, n ∈ q → n ∈ coalesceInto m q := by
  intro q
  induction q with
  | nil => exact fun h => nomatch h
  | cons x q ih =>
    intro h
    unfold coalesceInto
    rcases List.mem_cons.1 h with rfl | h
    · rw [if_neg hne]
      exact List.mem_cons_self
    · split
      · exact List.mem_cons_of_mem _ h
      · exact List.mem_cons_of_mem _ (ih h)

/-- The test for the end of draining changes mode and queue, or nothing. -/
theorem State.testDrained_cases (w : State) : ∃ q m, w.testDrained = { w with
      notices := { w.notices with queue := q }, adm := { w.adm with mode := m } } ∧
    q = (if w.adm.mode = .draining ∧ m = .normal then coalesceInto (.drainDone 1) w.notices.queue
      else w.notices.queue) ∧
    (m = .normal ↔ w.adm.mode = .normal ∨ (w.power.state = .off ∧ (∀ i, (w.lane i).state = .free) ∧
      w.adm.urgent = [] ∧ w.adm.normal = [])) := by
  by_cases h : w.drainOver
  · obtain ⟨hmode, hover⟩ := id h
    exact ⟨_, .normal, State.testDrained_over h, (if_pos ⟨hmode, rfl⟩).symm, by simp [hover]⟩
  · have hgoes : ¬ (w.adm.mode = .draining ∧ w.adm.mode = .normal) := fun ⟨hd, hn⟩ => by simp [hd] at hn
    refine ⟨_, w.adm.mode, State.testDrained_not_over h, (if_neg hgoes).symm, .inl, fun hmode => ?_⟩
    refine hmode.elim id fun hover => ?_
    cases hd : w.adm.mode with
    | normal => rfl
    | draining => exact absurd ⟨hd, hover⟩ h

/-! ### A frame that is cut loses its lane set (R99) -/

theorem State.frameCut.laneSetLost {s t : State} (h : s.frameCut t) (hf : s.lanesInFlight = true)
    (hs : ∀ y, s.scan.pos ≠ .sweep y) : t.scan.arming = [] ∧ t.scan.driving = [] ∧ t.scan.limits = none := by
  obtain ⟨-, -, hsweeps, hwindow, hcommit⟩ := h
  cases hat : s.sweepsAtOnce with
  | true =>
    rw [(hsweeps hat).1]
    exact ⟨rfl, rfl, rfl⟩
  | false =>
    cases hpos : s.scan.pos with
    | sweep y => exact absurd hpos (hs y)
    | stopped | blank => simp [State.sweepsAtOnce, hf, hpos] at hat
    | line y ph =>
      cases ph with
      | window =>
        rw [(hwindow y hf hpos (by simpa [State.sweepsAtOnce, hf, hpos] using hat)).1]
        exact ⟨rfl, rfl, rfl⟩
      | commit =>
        rw [(hcommit y hf hpos).1]
        exact ⟨rfl, rfl, rfl⟩
      | reading | shifting | committed => simp [State.sweepsAtOnce, hf, hpos] at hat

/-! ### The event with its submissions -/

theorem State.halted_frame (s : State) : ∃ d c b k l f, s.halted = { s with
    power := s.haltedPower, adm := s.adm.allMarked, panel := d, scan := c, arb := b, cache := k, lanes := l
    flash := f } :=
  s.abandonedWith_frame s.haltedPower s.adm.allMarked s.notices

theorem State.halted_adm (s : State) : s.halted.adm = s.adm.allMarked := by
  obtain ⟨d, c, b, k, l, f, h⟩ := s.halted_frame
  rw [h]

theorem State.halted_power (s : State) : s.halted.power = s.haltedPower := by
  obtain ⟨d, c, b, k, l, f, h⟩ := s.halted_frame
  rw [h]

theorem State.halted_notices (s : State) : s.halted.notices = s.notices := by
  obtain ⟨d, c, b, k, l, f, h⟩ := s.halted_frame
  rw [h]

theorem State.halted_abandons (s : State) : s.Abandons s.halted := s.abandonedWith_abandons _ _ rfl

section Halted

variable {s w : State} {ps : List (BitVec 32 × Notice)} {ws : List (BitVec 32 × Submitter)}
  (h : s.halted.Flushed w ps ws)

include h

/-- The entries that are left are marked ones, in their order. -/
theorem State.Flushed.halted_sublist : w.adm.urgent.Sublist (s.adm.urgent.map (fun p => { p with marked := true })) ∧
    w.adm.normal.Sublist (s.adm.normal.map (fun p => { p with marked := true })) := by
  have hsub := h.sublist
  rw [s.halted_adm] at hsub
  exact hsub

theorem State.Flushed.halted_marked : ∀ p ∈ w.adm.urgent ++ w.adm.normal, p.marked = true := by
  obtain ⟨hu, hn⟩ := h.halted_sublist
  intro p hp
  have hmem := (hu.append hn).subset hp
  rw [← List.map_append] at hmem
  obtain ⟨q, -, rfl⟩ := List.mem_map.1 hmem
  rfl

/-- An entry stays, marked, or its notice is queued (R61). -/
theorem State.Flushed.halted_entry {p : Pending} (hp : p ∈ s.adm.urgent ++ s.adm.normal) :
    { p with marked := true } ∈ w.adm.urgent ++ w.adm.normal ∨
      Notice.updateEnd p.id .cancelled 0 0 0 0 false ∈ ps.map (fun x => x.2) := by
  have hmem : { p with marked := true } ∈ s.halted.adm.urgent ++ s.halted.adm.normal := by
    rw [s.halted_adm]
    exact Admission.mem_allMarked.2 ⟨p, hp, rfl⟩
  exact (h.entry_cases hmem).imp_right fun hin => List.mem_map.2 ⟨_, hin, rfl⟩

/-- The admission unit waits for those that are left (R175). -/
theorem State.Flushed.halted_waits (hne : w.adm.urgent ++ w.adm.normal ≠ []) :
    Submitter.admission ∈ w.notices.waiting := by
  refine ((w.submissionsDue_eq_nil.1 h.dueNil).2).resolve_left fun hnone => hne ?_
  rw [Admission.marked, List.filter_eq_self.2 h.halted_marked] at hnone
  exact hnone

/-- The notices in admission order (R176). -/
theorem State.Flushed.halted_endsInOrder (hq : s.quiet = true) (hfit : s.queuesFit = true) {t : State}
    (hlanes : t.lanes = w.lanes) (hwaits : t.notices.waiting = w.notices.waiting)
    (hurgent : t.adm.urgent = w.adm.urgent) (hnormal : t.adm.normal = w.adm.normal) :
    s.endsInOrder t (ps.map (fun x => x.2)) := by
  have habandons := s.halted_abandons
  obtain ⟨-, hadmission, -⟩ := (State.queuesFit_iff s).1 hfit
  refine h.endsInOrder habandons.waiting (by rw [s.halted_notices]) habandons.free_iff
    (fun i hi => (habandons.lane_notice hq hi).imp_right fun h => ⟨_, h⟩) (fun p hp => ?_) ?_ ?_
    hlanes hwaits hurgent hnormal
  · have hmem := List.mem_of_mem_filter hp
    rw [s.halted_adm] at hmem
    obtain ⟨q, hq, rfl⟩ := Admission.mem_allMarked.1 hmem
    exact ⟨q, hq, rfl, rfl⟩
  · rw [s.halted_adm]
    simp [Admission.allMarked, Admission.mapPending]
  · rw [s.halted_adm]
    exact .inr (Admission.allMarked_one hadmission)

end Halted

/-! ### The obligation -/

/-- HALT and the end of its event. -/
theorem exec_halt {s : State} {tag : Byte} (hv : s.loader.image = .valid) (hr : s.receives .halt tag []) :
    exec (RequestKind.halt.sent tag []) s = .next { s.halted.flushEnds.testDrained with
      link := Link.answered 0x0B tag (.done []), arb := s.halted.flushEnds.testDrained.arb.grant } := by
  have howner : handleHalt s = (s.halted.flushEnds.testDrained, some (.done [])) := by
    rw [handleHalt_eq, State.settle_of_not_on (by rw [s.halted_power]; exact s.haltedPower_not_on)]
  exact exec_answered hv hr (by simp) (linkTests_sent rfl rfl rfl) howner

/-- Settles O26: the lanes abandoned, the frame cut, and the submissions of lanes and marked entries. -/
theorem haltStopsEverything : Obligations.HaltStopsEverything := by
  unfold Obligations.HaltStopsEverything
  intro s tag hv hr hg
  have habandons := s.halted_abandons
  have hguarded : s.halted.Guarded false := State.abandonedWith_guarded hg _ _ rfl
  have hsoe := hguarded.scan.soe_of_not_on (by rw [s.halted_power]; exact s.haltedPower_not_on)
  obtain ⟨ps, ws, hflush⟩ := s.halted.flushEnds_flushed
  obtain ⟨q, m, htest, hqueue, hmode⟩ := s.halted.flushEnds.testDrained_cases
  have hexec := exec_halt hv hr
  rw [htest] at hexec
  obtain ⟨w, hw⟩ : ∃ w, w = s.halted.flushEnds := ⟨_, rfl⟩
  rw [← hw] at hflush hexec hqueue hmode
  obtain ⟨t, ht⟩ : ∃ t, t = ({ w with
    notices := { w.notices with queue := q }, adm := { w.adm with mode := m }
    link := Link.answered 0x0B tag (.done []), arb := w.arb.grant } : State) := ⟨_, rfl⟩
  have hlane : ∀ i, t.lane i = w.lane i := fun i => by rw [ht]; rfl
  have hcut : s.frameCut t := by
    refine habandons.cut.frameCut ?_ ?_ ?_ <;> rw [ht, hflush.frame]
  rw [← ht] at hexec
  refine ⟨t, hexec, by rw [ht], fun i => ?_, ?_, ?_, ?_, fun hf hs => hcut.laneSetLost hf hs, fun y hy hf => ?_,
    fun hq => ⟨?_, hcut⟩, fun hq hfit => ?_, ?_⟩
  · rw [hlane]
    exact habandons.flushed_state hflush i
  · rw [ht]
    exact hflush.halted_marked
  · rw [ht, hflush.frame]
    exact hsoe
  · rw [ht, hflush.frame]
    refine s.halted_power.trans ?_
    unfold State.haltedPower
    cases s.power.state <;> rfl
  · obtain ⟨-, -, hsweeps, -, -⟩ := hcut
    obtain ⟨-, hasks, hread⟩ := hsweeps (by simp [State.sweepsAtOnce, hf, hy])
    exact ⟨hread y hy, hasks⟩
  · refine habandons.lanesAbandoned hq hflush ⟨by rw [ht], fun n hn hend => ?_, by rw [ht]⟩ (by rw [ht]) (by rw [ht])
    have hkind : n.kind ≠ (Notice.drainDone 1).kind := by
      rw [beq_iff_eq.1 hend]
      decide
    rw [ht, hqueue]
    split
    · exact mem_coalesceInto hkind hn
    · exact hn
  · have hwmode : w.adm.mode = s.adm.mode := by
      rw [hflush.frame, s.halted_adm]
      rfl
    have hwqueue : w.notices.queue = s.notices.queue ++ ps.map (fun x => x.2) := by rw [hflush.frame, s.halted_notices]
    obtain ⟨hurgent, hnormal⟩ := hflush.halted_sublist
    rw [hwmode, hwqueue] at hqueue
    rw [hwmode] at hmode
    have hadm : { t.adm with urgent := s.adm.urgent, normal := s.adm.normal, mode := s.adm.mode } = s.adm := by
      rw [ht, hflush.frame, s.halted_adm]
      rfl
    rw [ht] at hadm ⊢
    exact ⟨_, hflush.halted_endsInOrder hq hfit rfl rfl rfl rfl, hqueue, hmode, hurgent, hnormal,
      fun p hp => hflush.halted_entry hp, hflush.halted_waits, hadm⟩
  · obtain ⟨d, c, b, k, l, f, hframe⟩ := s.halted_frame
    have hrest : { t with lanes := s.lanes, adm := s.adm, cache := s.cache, flash := s.flash, notices := s.notices
                          power := s.power, scan := s.scan, panel := s.panel, link := s.link, arb := s.arb } = s := by
      rw [ht, hflush.frame, hframe]
    exact ⟨(congrArg State.mem hrest :), (congrArg State.wb hrest :), (congrArg State.thermal hrest :),
      (congrArg State.limits hrest :), (congrArg State.loader hrest :), hrest⟩

end Sys2Proof.Machine
end
